-- ==== Sys2Proof/Word.lean ====
section
/-! DEFINITION. The words of the bridge: bytes, lines of 64 bytes, program windows of 256 bytes and byte masks
(spec 01, R2). -/

namespace Sys2Proof

/-- One byte, as flash and the channels carry it. -/
abbrev Byte := BitVec 8

/-- A line, 64 bytes (R2). -/
abbrev Line := Vector Byte 64

/-- A program window, 256 bytes (R2). -/
abbrev Window := Vector Byte 256

/-- One mark for each of the 64 bytes of a line: bit i is the mark of byte i (R57). -/
abbrev Mask := BitVec 64

/-- The line whose byte i is `f i`. -/
def Line.ofFn (f : Nat → Byte) : Line := ⟨((List.range 64).map f).toArray, by simp⟩

/-- Byte i of a line. -/
def Line.byte (l : Line) (i : Nat) : Byte := l.toList.getD i 0

/-- The bytes of a line in address order. -/
def Line.bytes (l : Line) : List Byte := l.toList

/-- The window whose byte i is `f i`. -/
def Window.ofFn (f : Nat → Byte) : Window := ⟨((List.range 256).map f).toArray, by simp⟩

/-- Byte i of a window. -/
def Window.byte (w : Window) (i : Nat) : Byte := w.toList.getD i 0

/-- The bytes of a window in address order. -/
def Window.bytes (w : Window) : List Byte := w.toList

/-- A line of 64 bytes 00h. -/
def Line.zero : Line := Line.ofFn fun _ => 0

end Sys2Proof
end

