-- ==== Sys2Proof/Syntax.lean ====
section
/-! DEFINITION. The commands of the bridge: one constructor for each row of spec/opcode_table.json, in the table's order.
Bytes taken from a flash device, levels sampled and frame bytes are operands (logs 1, 6, 30, 31). -/

namespace Sys2Proof

/-- The two chip selects (R1, R111). -/
inductive ChipSelect where
  | cs0
  | cs1
deriving DecidableEq, Repr

/-- The fields every request carries (R38): requester 0 to 7, tag 0 to 15, privileged. -/
structure Source where
  requester : Fin 8
  tag : Fin 16
  privileged : Bool
deriving DecidableEq, Repr

/-- The commands. Each is one whole, indivisible step (spec 95). -/
inductive Instr where
  /-- PORST becomes asserted (R151). -/
  | porstAssert
  /-- RESET becomes asserted (R151). -/
  | resetAssert
  /-- RESET is released; with PORST deasserted the bridge enters LOAD (R151). -/
  | resetRelease
  /-- PFAIL becomes asserted (R153 to R155). -/
  | pfailAssert
  /-- RESET_REQ becomes asserted (R153 to R155). -/
  | resetReqAssert
  /-- The transaction in flight in LOAD or REBUILD has ended and a request waits for it (R153). -/
  | stopAfterTransaction
  /-- A READ presented and accepted: byte address and length (R38, R76). -/
  | read (src : Source) (addr : BitVec 25) (len : BitVec 7)
  /-- A WRITE with its 64 data lanes (R38, R59, R171). -/
  | write (src : Source) (addr : BitVec 25) (len : BitVec 7) (data : Line)
  /-- A DURABLE_WRITE (R70). -/
  | durableWrite (src : Source) (addr : BitVec 25) (len : BitVec 7) (data : Line)
  /-- A BARRIER, which carries no address or data (R38, R69). -/
  | barrier (src : Source)
  /-- The response handshake (R42). -/
  | responseTaken
  /-- The linger timer expires (R63). -/
  | lingerExpiry
  /-- The buffer offers a sector to the Commit Engine (R64). -/
  | commitOffer
  /-- A PENDING compaction starts (R137). -/
  | compactionStart
  /-- The Erase Engine chooses its next work (R123). -/
  | eraseClaim
  /-- The arbiter makes a grant (R118). `tie` chooses between the two polls that become due together at entry to LOAD, of which
  either may come first (R28): false is chip select 0. -/
  | arbiterGrant (tie : Bool)
  /-- The 64 bytes of a fill are taken (R82). -/
  | fillComplete (bytes : Line)
  /-- A line read (64 bytes) or window read (256 bytes) of the Commit Engine ends (R105). -/
  | commitReadEnd (bytes : List Byte)
  /-- A line read of the descriptor ends (R29). -/
  | descriptorReadEnd (bytes : Line)
  /-- A window read of a journal bank ends (R142). -/
  | journalReadEnd (bytes : Window)
  /-- The last frame of a program, erase, SUSPEND or RESUME ends (R114). -/
  | commandFrameEnd
  /-- A device's poll interval timer expires (R114). -/
  | pollDue (cs : ChipSelect)
  /-- The byte of the status poll on the bus is taken (R115). -/
  | statusPoll (byte : Byte)
  /-- A device's operation timer reaches its timeout (R116). -/
  | operationTimeout (cs : ChipSelect)
  /-- 2000 ms have passed since entry to LOAD with this chip select still busy (R28). -/
  | loadPollTimeout (cs : ChipSelect)
  /-- The drain of a quiesce is complete (R156). -/
  | drainComplete
  /-- The quiesce deadline expires (R157). -/
  | quiesceDeadlineExpiry
  /-- The work in flight after the expiry has ended (R157). -/
  | quiesceExitAfterExpiry
  /-- Link command STATUS (R162). -/
  | status
  /-- Link command EVENT_READ (R167). -/
  | eventRead
  /-- Link command NOTICE_ACK (R168). -/
  | noticeAck
  /-- Link command GUARD_SET, its parameter bytes as sent (R163, R170). -/
  | guardSet (slot : Byte) (first last : BitVec 16) (mode lock : Byte)
  /-- Link command GUARD_READ (R163). -/
  | guardRead (slot : Byte)
  /-- Link command GATE_OPEN, with the level of AUTH sampled at it (R55). -/
  | gateOpen (auth : Bool)
  /-- Link command GATE_CLOSE (R55). -/
  | gateClose
  /-- Link command GATE_LOCK (R55). -/
  | gateLock
  /-- Link command ORDERLY_RESET (R154, R164). -/
  | orderlyReset
  /-- Link command WARM_RESET (R152, R164). -/
  | warmReset
  /-- Link command RAW_ERASE with its physical sector (R165). -/
  | rawErase (ps : BitVec 16)
  /-- A link write that names no command or has the wrong number of parameter bytes (R160): the bytes sent. -/
  | malformedWrite (bytes : List Byte)
  /-- A read of `count` bytes of the result store (R160, R165). -/
  | resultRead (count : Nat)
  /-- PFAIL becomes deasserted (R155). -/
  | pfailDeassert
  /-- RESET_REQ becomes deasserted (R154). -/
  | resetReqDeassert
  /-- PORST is released and the two address straps are latched (R160). -/
  | porstRelease (straps : BitVec 2)
deriving DecidableEq, Repr

end Sys2Proof
end

