-- ==== Sys2Proof/WellFormed.lean ====
section
/-! DEFINITION. Which commands can be sent at all: the checks on operands that their types do not make. -/

namespace Sys2Proof

/-- How many parameter bytes the command byte takes (R170); none where it names no command. -/
def linkParams (code : Byte) : Option Nat :=
  if code = 0x20 then some 7
  else if code = 0x21 then some 1
  else if code = 0x50 then some 2
  else if code ∈ ([0x10, 0x11, 0x12, 0x30, 0x31, 0x32, 0x40, 0x41] : List Byte) then some 0
  else none

/-- A link write is malformed when it names no command or has another number of parameter bytes (R160), and when it has no
byte at all (log 53). -/
def linkMalformed : List Byte → Bool
  | [] => true
  | code :: params => linkParams code != some params.length

/-- A command is well formed when its operands are ones its event can carry: a read of the Commit Engine takes a line or
a window (R105), a malformed write is malformed (R160), and a read of the link sends at least one byte (R160). Every value
of a request's fields is legal at the port (R38). -/
def Instr.wellFormed : Instr → Bool
  | .commitReadEnd bytes => bytes.length == 64 || bytes.length == 256
  | .malformedWrite bytes => linkMalformed bytes
  | .resultRead count => decide (1 ≤ count)
  | .porstAssert => true
  | .resetAssert => true
  | .resetRelease => true
  | .pfailAssert => true
  | .resetReqAssert => true
  | .stopAfterTransaction => true
  | .read _ _ _ => true
  | .write _ _ _ _ => true
  | .durableWrite _ _ _ _ => true
  | .barrier _ => true
  | .responseTaken => true
  | .lingerExpiry => true
  | .commitOffer => true
  | .compactionStart => true
  | .eraseClaim => true
  | .arbiterGrant _ => true
  | .fillComplete _ => true
  | .descriptorReadEnd _ => true
  | .journalReadEnd _ => true
  | .commandFrameEnd => true
  | .pollDue _ => true
  | .statusPoll _ => true
  | .operationTimeout _ => true
  | .loadPollTimeout _ => true
  | .drainComplete => true
  | .quiesceDeadlineExpiry => true
  | .quiesceExitAfterExpiry => true
  | .status => true
  | .eventRead => true
  | .noticeAck => true
  | .guardSet _ _ _ _ _ => true
  | .guardRead _ => true
  | .gateOpen _ => true
  | .gateClose => true
  | .gateLock => true
  | .orderlyReset => true
  | .warmReset => true
  | .rawErase _ => true
  | .pfailDeassert => true
  | .resetReqDeassert => true
  | .porstRelease _ => true

end Sys2Proof
end

