-- ==== Sys2Proof/Decode.lean ====
section
/-! DEFINITION. From bytes to commands: byte order (R169, R170), the maintenance link's command writes (R170), the
coding of request kinds (R171), and the host's table words (no row of the table has bits). -/

namespace Sys2Proof

/-- A number of two bytes, least significant byte first (R169, R170). -/
def le2 (n : Nat) : List Byte := [BitVec.ofNat 8 n, BitVec.ofNat 8 (n / 256)]

/-- A number of four bytes, least significant byte first (R169, R170). -/
def le4 (n : Nat) : List Byte :=
  [BitVec.ofNat 8 n, BitVec.ofNat 8 (n / 256), BitVec.ofNat 8 (n / 65536), BitVec.ofNat 8 (n / 16777216)]

/-- The number that bytes spell, least significant byte first (R169, R170). -/
def fromLE (bytes : List Byte) : Nat := bytes.foldr (fun b acc => b.toNat + 256 * acc) 0

/-- The command that a command byte and its parameters ask for, where their number is right (R170). -/
def linkCommand (auth : Bool) (code : Byte) (params : List Byte) : Instr :=
  if code = 0x10 then .status
  else if code = 0x11 then .eventRead
  else if code = 0x12 then .noticeAck
  else if code = 0x20 then
    .guardSet (params.getD 0 0) (BitVec.ofNat 16 (fromLE ((params.drop 1).take 2)))
      (BitVec.ofNat 16 (fromLE ((params.drop 3).take 2))) (params.getD 5 0) (params.getD 6 0)
  else if code = 0x21 then .guardRead (params.getD 0 0)
  else if code = 0x30 then .gateOpen auth
  else if code = 0x31 then .gateClose
  else if code = 0x32 then .gateLock
  else if code = 0x40 then .orderlyReset
  else if code = 0x41 then .warmReset
  else if code = 0x50 then .rawErase (BitVec.ofNat 16 (fromLE params))
  else .malformedWrite (code :: params)

/-- The command that a write over the link asks for (R160, R170). The write of the bytes is taken at its end, with AUTH at
the level `auth` then. A write that names no command, or with another number of parameters, is MALFORMED_WRITE; so is one
that ends with no byte after the address (log 53). -/
def decodeLinkWrite (auth : Bool) (bytes : List Byte) : Instr :=
  match bytes with
  | [] => .malformedWrite []
  | code :: params => if linkMalformed bytes then .malformedWrite bytes else linkCommand auth code params

/-- The bytes of the link write that asks for a command (R170); none for a command that is no link write. -/
def encodeLinkWrite : Instr → Option (List Byte)
  | .status => some [0x10]
  | .eventRead => some [0x11]
  | .noticeAck => some [0x12]
  | .guardSet slot first last mode lock => some ([0x20, slot] ++ le2 first.toNat ++ le2 last.toNat ++ [mode, lock])
  | .guardRead slot => some [0x21, slot]
  | .gateOpen _ => some [0x30]
  | .gateClose => some [0x31]
  | .gateLock => some [0x32]
  | .orderlyReset => some [0x40]
  | .warmReset => some [0x41]
  | .rawErase ps => some (0x50 :: le2 ps.toNat)
  | .malformedWrite bytes => some bytes
  | _ => none

/-- The data bytes that 512 lanes carry: byte i on lanes 8i to 8i+7 (R171). -/
def lineOfLanes (lanes : BitVec 512) : Line := Line.ofFn fun i => lanes.extractLsb' (8 * i) 8

/-- The signals of the request channel (R171). -/
structure RequestSignals where
  requester : BitVec 3
  tag : BitVec 4
  priv : Bool
  kind : BitVec 2
  addr : BitVec 25
  len : BitVec 7
  data : BitVec 512
deriving DecidableEq, Repr

/-- The requester, tag and privilege of a request (R38, R171). -/
def RequestSignals.source (r : RequestSignals) : Source := ⟨r.requester.toFin, r.tag.toFin, r.priv⟩

/-- The request that the request channel carries at a handshake (R38, R171): kinds READ 0, WRITE 1, DURABLE_WRITE 2,
BARRIER 3. -/
def decodeRequest (r : RequestSignals) : Instr :=
  match r.kind.toNat with
  | 0 => .read r.source r.addr r.len
  | 1 => .write r.source r.addr r.len (lineOfLanes r.data)
  | 2 => .durableWrite r.source r.addr r.len (lineOfLanes r.data)
  | _ => .barrier r.source

/-- The command that a word of the table's bits spells: no row of spec/opcode_table.json gives bits, so none does. -/
def decodeTableWord (_nbits _w : Nat) : Option Instr := none

end Sys2Proof
end

