-- ==== Sys2Proof/Config.lean ====
section
/-! DEFINITION. The fixed figures of the part (spec 00, "Key Figures") and the free values: what the spec leaves open.
A free value is an opaque constant; nothing can be proved of what it is. -/

namespace Sys2Proof.Config

/-- Entries of the pending request table (R37, R39). -/
def pendingMax : Nat := 32
/-- Slots of the line cache (R77). -/
def cacheMax : Nat := 32
/-- Records of the event queue (R167). -/
def eventMax : Nat := 16
/-- The burst limit of the arbiter (R119). -/
def burstMax : Nat := 8
/-- Suspensions of one erase by fill service (R120, law 9). -/
def suspendMax : Nat := 8
/-- Fills taken in one suspension (R120). -/
def fillsPerSuspension : Nat := 4
/-- Slots of 16 bytes in a journal sector (R130). -/
def slotsPerSector : Nat := 256
/-- The compaction trigger: free slots below this (R136). -/
def compactionTrigger : Nat := 256
/-- The greatest sequence number (R132). -/
def sequenceMax : Nat := 0xFFFFFFFF
/-- Bytes in a sector (R1). -/
def sectorBytes : Nat := 4096
/-- Sectors of the RAW window, 16,777,216 bytes (R33, R34). -/
def rawSectors : Nat := 4096

/-- Free value (DESIGN CHOICE, logs 8, 9 and 12): the choice of an order where the spec allows any, one for each value of
the counter State.free. -/
opaque freeOrder : Nat → Nat

/-- Free value (DESIGN CHOICE, log 11): the generation a compaction uses when the ACTIVE bank's is FFFFFFFFh (R138 says
"plus one" and R129 gives no number above). -/
opaque freeGeneration : BitVec 32

/-- Free value (DESIGN CHOICE, log 42): whether a valid RETIRE record whose cause byte is neither 01h nor 02h is read as
cause PROGRAM; R169 lists no other coding. -/
opaque freeCause : BitVec 8 → Bool

/-- Free value (DESIGN CHOICE, log 55): the levels of the response data lanes above a response's bytes, by their number;
R171 says that they carry no meaning. -/
opaque freeLanes : Nat → BitVec 512

end Sys2Proof.Config
end

