-- ==== Sys2Proof/Machine/State.lean ====
section
/-! DEFINITION. The state of the bridge as plain data, block by block, and the state after power-on reset. -/

namespace Sys2Proof.Machine

/-- The spec names no event that stops the bridge: what goes wrong becomes a status, a result code, an event or a bridge
state. No command raises a fault, so the type is empty. -/
inductive Fault where
deriving DecidableEq, Repr

/-- Why a command has no meaning here. -/
inductive Refusal where
  /-- Raised by exec's arms alone, for a command whose meaning is not written yet (safe: the model stops where the
  hardware goes on). No arm raises it. -/
  | notModelled (mnemonic : String)
deriving DecidableEq, Repr

/-! ## Names -/

/-- The bridge states (R150). -/
inductive BridgeState where
  | reset | load | rebuild | service | raw | quiesce | halted
deriving DecidableEq, Repr

/-- The causes of a quiesce (R150); "none" is the absence of one. -/
inductive Cause where
  | power | orderly
deriving DecidableEq, Repr

/-- Request kinds (R38, R171). -/
inductive ReqKind where
  | read | write | durableWrite | barrier
deriving DecidableEq, Repr

/-- Response statuses (R42, R171). -/
inductive Status where
  | ok | protocol | outOfWindow | denied | guarded | gated | readOnly | overrun | failed | halted | needsErase
deriving DecidableEq, Repr

/-- Why a sector was retired (R13). -/
inductive RetireCause where
  | program | erase
deriving DecidableEq, Repr

/-- The two journal banks (R3, R129). -/
inductive Bank where
  | a | b
deriving DecidableEq, Repr

/-- Commit policies of a region (R25). -/
inductive Policy where
  | inPlaceAllowed | alwaysRelocate
deriving DecidableEq, Repr

/-- The key of a line: logical sector and line, in RAW physical sector and line on device 0 (R5, R34). -/
structure Key where
  sector : Nat
  line : Nat
deriving DecidableEq, Repr

/-! ## Pins and the Bridge Controller -/

/-- Input levels the bridge acts on as levels or edges; true is asserted (R151, R153, R154, R171). -/
structure Pins where
  porst : Bool
  reset : Bool
  resetReq : Bool
  pfail : Bool
deriving DecidableEq, Repr

/-- The quiesce deadline timer (R150, R154, R155). Its count of time is not state here (log 2). -/
inductive Deadline where
  | stopped
  /-- Running with a load of so many ms since entry to QUIESCE. -/
  | running (ms : Nat)
  /-- Running with the earlier of what remains of `ms` and `powerMs` counted from the PFAIL that changed the cause. -/
  | earlier (ms powerMs : Nat)
deriving DecidableEq, Repr

/-- How far LOAD has come (R28 to R31). -/
inductive LoadPhase where
  | idle
  /-- Polling both chip selects (R28). -/
  | polling
  /-- Reading line 0 of PS 0 (R29). -/
  | readLine0
  /-- Reading line 1, line 0 taken (R29). -/
  | readLine1 (line0 : Line)
  /-- The RESUME and the one poll of each device in use (R31). -/
  | resuming
deriving DecidableEq, Repr

/-- The Bridge Controller (R150, R153, R157, R36). -/
structure Bridge where
  state : BridgeState
  cause : Option Cause
  deadline : Deadline
  expired : Bool
  stopPower : Bool
  stopOrderly : Bool
  checkIndex : Nat
  load : LoadPhase
deriving DecidableEq, Repr

/-! ## Settings in force -/

/-- The command profile (R23, R32). Times: poll interval in µs, timeouts in ms. -/
structure Profile where
  readOp : Byte
  dummy : Nat
  writeEnableOp : Byte
  programOp : Byte
  sectorEraseOp : Byte
  readStatusOp : Byte
  suspendSupported : Bool
  suspendOp : Byte
  resumeOp : Byte
  busyBit : Nat
  errorBit : Option Nat
  pollInterval : Nat
  programTimeout : Nat
  eraseTimeout : Nat
deriving DecidableEq, Repr

/-- The boot profile (R32, and R169 for its stored form). R32 gives no suspend and no resume opcode, and R169 calls the two
bytes without effect: the 00h held for each is the model's choice (log 61). -/
def Profile.boot : Profile where
  readOp := 0x03
  dummy := 0
  writeEnableOp := 0x06
  programOp := 0x02
  sectorEraseOp := 0x20
  readStatusOp := 0x05
  suspendSupported := false
  suspendOp := 0x00
  resumeOp := 0x00
  busyBit := 0
  errorBit := none
  pollInterval := 100
  programTimeout := 10
  eraseTimeout := 1000

/-- An entry of the requester table (R24). -/
structure Rights where
  enabled : Bool
  group : Fin 2
  gateBypass : Bool
deriving DecidableEq, Repr

/-- A region in force (R25): bit r of a mask names requester r. -/
structure Region where
  first : Nat
  last : Nat
  readMask : Byte
  writeMask : Byte
  policy : Policy
deriving DecidableEq, Repr

/-- The values adopted from the descriptor (R30), or put in force at entry to RAW (R33). -/
structure Settings where
  /-- The settings of R33 are in force: the bridge is in RAW, or in QUIESCE or HALTED entered from RAW. -/
  raw : Bool
  deviceCount : Nat
  /-- C, sectors of one device (R1). -/
  deviceSectors : Nat
  /-- T, physical sectors (R1). -/
  totalSectors : Nat
  /-- J, sectors of a journal bank (R3). -/
  bankSectors : Nat
  /-- data_base, the first data-area sector (R3). -/
  dataBase : Nat
  /-- D, data-area sectors (R3). -/
  dataSectors : Nat
  /-- S, spares (R4). -/
  spares : Nat
  /-- L, logical sectors (R4); in RAW the sectors of the RAW window. -/
  windowSectors : Nat
  /-- P, the pool low mark (R15). -/
  lowMark : Nat
  /-- H, the WCB high mark (R22). -/
  highMark : Nat
  /-- M, the WCB drain mark (R22). -/
  drainMark : Nat
  /-- Linger time, µs (R22). -/
  linger : Nat
  /-- Power-fail deadline, ms (R22). -/
  powerDeadline : Nat
  /-- Reset deadline, ms (R22). -/
  resetDeadline : Nat
  profile : Profile
  requesters : Vector Rights 8
  regions : List Region
deriving DecidableEq, Repr

/-- No values adopted: every adopted value is discarded at entry to RESET (R19) and the boot profile restored (R128). The
zeros are the model's (log 7). -/
def Settings.none : Settings where
  raw := false
  deviceCount := 0
  deviceSectors := 0
  totalSectors := 0
  bankSectors := 0
  dataBase := 0
  dataSectors := 0
  spares := 0
  windowSectors := 0
  lowMark := 0
  highMark := 0
  drainMark := 0
  linger := 0
  powerDeadline := 0
  resetDeadline := 0
  profile := Profile.boot
  requesters := ⟨(List.replicate 8 ⟨false, 0, false⟩).toArray, by simp⟩
  regions := []

/-! ## Request Port -/

/-- Where a request falls (R5, R39). -/
structure Place where
  key : Key
  offset : Nat
  length : Nat
deriving DecidableEq, Repr

/-- The phase of a pending request entry (R39). -/
inductive Phase where
  | waiting
  | answered (status : Status) (data : List Byte)
deriving DecidableEq, Repr

/-- The overlay snapshot of a READ: for each requested byte a value or nothing (R68, R76). -/
abbrev Snapshot := List (Option Byte)

/-- A requester and tag, by which an entry is known (R39, R40). -/
structure Tag where
  requester : Fin 8
  tag : Fin 16
deriving DecidableEq, Repr

/-- An entry of the pending request table (R39). -/
structure PendEntry where
  id : Tag
  kind : ReqKind
  privileged : Bool
  place : Option Place
  snapshot : Snapshot
  phase : Phase
deriving DecidableEq, Repr

/-- The refusal that the refusal slot holds (R40). -/
structure SlotRefusal where
  id : Tag
  status : Status
deriving DecidableEq, Repr

/-- A member of the answer queue: an answered table entry, or the refusal slot (R42). -/
inductive AnswerRef where
  | entry (id : Tag)
  | slot
deriving DecidableEq, Repr

/-- The Request Port (R39, R40, R42). -/
structure Port where
  pending : List PendEntry
  slot : Option SlotRefusal
  answers : List AnswerRef
deriving DecidableEq, Repr

/-! ## Access Checker -/

/-- Modes of a guard slot (R54). -/
inductive GuardMode where
  | none | writeDeny | allDeny
deriving DecidableEq, Repr

/-- A guard slot (R54). -/
structure GuardSlot where
  first : Nat
  last : Nat
  mode : GuardMode
  lock : Bool
deriving DecidableEq, Repr

/-- A guard slot at power-on (R54). -/
def GuardSlot.powerOn : GuardSlot := ⟨0, 0, .none, false⟩

/-- The guard table, the write gate and its lock (R54, R55). The requester and region tables are in Settings. -/
structure Access where
  guards : Vector GuardSlot 4
  gateOpen : Bool
  gateLock : Bool
deriving DecidableEq, Repr

/-! ## Write-Combining Buffer -/

/-- OPEN, or COMMITTING with the image and mask handed to the commit (R57). -/
inductive EntryState where
  | opened
  | committing (image : Line) (mask : Mask)
deriving DecidableEq, Repr

/-- A buffer entry (R57). -/
structure Entry where
  key : Key
  data : Line
  dirty : Mask
  state : EntryState
  failNote : Bool
deriving DecidableEq, Repr

/-- The result of a commit (R66). -/
inductive CommitResult where
  | ok | failed | needsErase
deriving DecidableEq, Repr

/-- A member of a wait set (R69). -/
structure WaitMember where
  key : Key
  count : Nat
  result : CommitResult
deriving DecidableEq, Repr

/-- The wait set of a DURABLE_WRITE (or WRITE in RAW) or of a BARRIER (R69, R70). -/
structure WaitSet where
  id : Tag
  isBarrier : Bool
  members : List WaitMember
deriving DecidableEq, Repr

/-- The Write-Combining Buffer: entries oldest first (R57 to R63, R69). -/
structure Wcb where
  entries : List Entry
  hold : Bool
  /-- The grace allowance: true is 1 (R60). -/
  grace : Bool
  lingerRunning : Bool
  lingerFlag : Bool
  waits : List WaitSet
deriving DecidableEq, Repr

/-- The buffer as it is emptied at entry to RESET (R74). -/
def Wcb.empty : Wcb := ⟨[], false, false, false, false, []⟩

/-! ## Read Unit -/

/-- A valid slot of the line cache (R77). -/
structure CacheLine where
  key : Key
  group : Fin 2
  data : Line
deriving DecidableEq, Repr

/-- The phase of a fill; an ISSUED fill has its physical sector fixed (R79, R81). -/
inductive FillPhase where
  | queued
  | issued (ps : Nat)
deriving DecidableEq, Repr

/-- A fill (R79). -/
structure Fill where
  key : Key
  group : Fin 2
  phase : FillPhase
  superseded : Bool
  reads : List Tag
deriving DecidableEq, Repr

/-- The Read Unit: valid slots from least to most recently used, and the fill list oldest first (R77, R79). -/
structure ReadUnit where
  cache : List CacheLine
  fills : List Fill
deriving DecidableEq, Repr

/-! ## Commit Engine -/

/-- Stages of a commit (R91, R92). -/
inductive Stage where
  | probe | inPlace | allocate | copy | record | switch | done
deriving DecidableEq, Repr

/-- What the commit in progress is waiting for; the stage follows from it (R92). SWITCH and DONE are passed within one
step. -/
inductive Work where
  /-- PROBE: a line read of `line`, with the lines after it and whether a 0-to-1 change has been found (R94). -/
  | probeRead (line : Nat) (rest : List Nat) (found : Bool)
  /-- IN_PLACE: the program of a window's span, with the windows after it (R95). -/
  | programSpan (window : Nat) (rest : List Nat)
  /-- ALLOCATE: allocations are held and no take is presented (R97). -/
  | allocHeld
  /-- ALLOCATE: the take presented waits at the Sector Map (R10, R97). -/
  | takeWaits
  /-- COPY: the window read of an old window (R98). -/
  | copyWindow (window : Nat)
  /-- COPY: a line read of `line`, the lines still to read after it, the lines already obtained (R98). -/
  | copyLine (window line : Nat) (rest : List Nat) (got : List (Nat × Line))
  /-- COPY: the program of a built window into the target (R98). -/
  | copyProgram (window : Nat) (bytes : List Byte)
  /-- COPY: RETIRE(target, PROGRAM) asked for after a copy failure (R99). -/
  | appendRetireTarget
  /-- RECORD: MAP asked for (R100). -/
  | appendMap
  /-- RECORD: RETIRE(old PS, PROGRAM) asked for, MAP appended (R100). -/
  | appendRetireOld
deriving DecidableEq, Repr

/-- The commit record (R91). -/
structure CommitRecord where
  sector : Nat
  lines : List Nat
  oldPs : Nat
  /-- None in RAW (R91). -/
  policy : Option Policy
  target : Option Nat
  /-- 1 to 3; 0 while not carried (R91). -/
  attempts : Nat
  convert : Bool
  /-- The next grant leaves the attempt count unchanged: it follows a release under a full journal (R97, R101). -/
  keepAttempts : Bool
  work : Work
  /-- The flash transaction of `work` has been granted and has not ended (R105). -/
  granted : Bool
deriving DecidableEq, Repr

/-! ## Sector Map -/

/-- An entry of the erase queue with its failed-once mark (R11). -/
structure QueuedSector where
  ps : Nat
  failedOnce : Bool
deriving DecidableEq, Repr

/-- A member of the retired set (R13). -/
structure RetiredSector where
  ps : Nat
  cause : RetireCause
deriving DecidableEq, Repr

/-- The Sector Map (R7 to R17). -/
structure SectorMap where
  valid : Bool
  /-- Entry n is the physical sector of LS n. -/
  remap : List Nat
  pool : List Nat
  queue : List QueuedSector
  retired : List RetiredSector
  target : Option Nat
  worn : Bool
  lowArmed : Bool
  emptyRaised : Bool
  /-- A take waits on the empty pool (R10). -/
  taking : Bool
deriving DecidableEq, Repr

/-- The Sector Map as it is emptied at entry to RESET (R18). -/
def SectorMap.empty : SectorMap := ⟨false, [], [], [], [], none, false, false, false, false⟩

/-! ## Flash Bus Engine -/

/-- Device states (R111); `unknown` is a chip select that LOAD has not settled (R28). -/
inductive DeviceState where
  | unknown | ready | busyProgram | busyErase | eraseSuspended | stuck
deriving DecidableEq, Repr

/-- Owners of an operation (R111). -/
inductive Owner where
  | commit | journal | erase | nobody
deriving DecidableEq, Repr

/-- Kinds of operation (R111). -/
inductive OpKind where
  | program | erase
deriving DecidableEq, Repr

/-- The operation in progress in a device: kind, device address where it names one, owner (R111, R117). -/
structure Operation where
  kind : OpKind
  addr : Option Nat
  owner : Owner
deriving DecidableEq, Repr

/-- The operation timer (R114, R121): stopped, running, or standing still while the erase is suspended. -/
inductive OpTimer where
  | stopped | running | paused
deriving DecidableEq, Repr

/-- What LOAD still does with a device after adoption (R31). -/
inductive ResumeStep where
  | none
  /-- The RESUME is due. -/
  | resumeDue
  /-- The RESUME has been granted; its one poll is still to be taken. -/
  | pollWaits
deriving DecidableEq, Repr

/-- A device record (R111). -/
structure Device where
  state : DeviceState
  op : Option Operation
  suspendRequested : Bool
  /-- The poll interval timer runs. -/
  pollTimer : Bool
  opTimer : OpTimer
  suspensions : Nat
  fillsTaken : Nat
  resumedInQuiesce : Bool
  /-- A poll has shown the device busy since its last RESUME, or no RESUME has been made for this erase (R120). -/
  polledBusy : Bool
  resumeStep : ResumeStep
deriving DecidableEq, Repr

/-- A device record of the given state with nothing in progress. -/
def Device.idle (st : DeviceState) : Device := ⟨st, none, false, false, .stopped, 0, 0, false, true, .none⟩

/-- What a transaction on the bus is for (R112). -/
inductive BusUse where
  | fillRead | commitRead | descriptorRead | journalRead | poll | program | erase | suspend | resume
deriving DecidableEq, Repr

/-- The transaction on the flash bus with the bytes sent in each of its frames (R112). -/
structure BusTx where
  use : BusUse
  cs : ChipSelect
  addr : Option (BitVec 24)
  frames : List (List Byte)
deriving DecidableEq, Repr

/-- The Flash Bus Engine (R111, R114, R118, R119). The profile is in Settings. -/
structure FlashBus where
  tx : Option BusTx
  burst : Nat
  /-- The chip selects whose poll is due, in the order in which the polls became due (R114, R118). -/
  pollsDue : List ChipSelect
  /-- The polls due became due together, at entry to LOAD, and none has been granted yet (R28). -/
  pollsTied : Bool
  resumesDue : List ChipSelect
  dev0 : Option Device
  dev1 : Option Device
deriving DecidableEq, Repr

/-- The Flash Bus Engine as entry to RESET leaves it (R128). -/
def FlashBus.empty : FlashBus := ⟨none, 0, [], false, [], none, none⟩

/-! ## Erase Engine -/

/-- A bank erase between or within its sectors: bank, place of the sector, attempt (R123, R126). -/
structure BankWork where
  bank : Bank
  place : Nat
  attempt : Nat
deriving DecidableEq, Repr

/-- Kinds of erase (R123). -/
inductive EraseKind where
  | data
  | bank (work : BankWork)
  | raw
deriving DecidableEq, Repr

/-- The erase record; `erasing` tells ERASING from CLAIMED (R123). -/
structure EraseRecord where
  kind : EraseKind
  ps : Nat
  erasing : Bool
deriving DecidableEq, Repr

/-- The record wait: an ERASED or a RETIRE(ERASE) record asked for (R123, R124). -/
structure RecordWait where
  ps : Nat
  retire : Bool
deriving DecidableEq, Repr

/-- Outcomes of a RAW erase (R127). -/
inductive RawOutcome where
  | erased | timedOut
deriving DecidableEq, Repr

/-- A RAW erase held, its outcome once it has ended (R127, R165). -/
structure RawErase where
  ps : Nat
  outcome : Option RawOutcome
deriving DecidableEq, Repr

/-- The Erase Engine (R123, R126, R127). -/
structure EraseEngine where
  record : Option EraseRecord
  wait : Option RecordWait
  bankWork : Option BankWork
  raw : Option RawErase
deriving DecidableEq, Repr

/-- The Erase Engine as entry to RESET leaves it (R128). -/
def EraseEngine.empty : EraseEngine := ⟨none, none, none, none⟩

/-! ## Map Journal -/

/-- Bank states (R129). -/
inductive BankState where
  | active | stale | erased | compacting
deriving DecidableEq, Repr

/-- A row of the bank table; the generation is carried while ACTIVE or COMPACTING (R129). -/
structure BankRow where
  state : BankState
  generation : Option (BitVec 32)
deriving DecidableEq, Repr

/-- Compaction states (R129). -/
inductive Compaction where
  | idle | pending | running
deriving DecidableEq, Repr

/-- The records that are appended as deltas (R130, R133). -/
inductive Delta where
  | map (ls newPs oldPs : Nat)
  | erased (ps : Nat)
  | retire (ps : Nat) (cause : RetireCause)
deriving DecidableEq, Repr

/-- Claimants of the append queue (R133). -/
inductive Claimant where
  | commit | erase
deriving DecidableEq, Repr

/-- A record of the append queue (R133). `begun`: it has been granted and can no longer be withdrawn; `inProgress`: its
program is in flight now. -/
structure QueueItem where
  claimant : Claimant
  record : Delta
  begun : Bool
  inProgress : Bool
deriving DecidableEq, Repr

/-- The collections that a compaction or first boot writes (R137, R148). -/
structure Collections where
  table : List Nat
  pool : List Nat
  retired : List RetiredSector
deriving DecidableEq, Repr

/-- A bank being written by a compaction or a first boot (R138, R148): the next window, whether its program is in flight,
whether the compaction has been abandoned (R141). -/
structure BankRun where
  bank : Bank
  generation : BitVec 32
  copy : Collections
  window : Nat
  inProgress : Bool
  abandoned : Bool
deriving DecidableEq, Repr

/-- A contender of REBUILD: its bank, its generation, its BANK_OPEN number, its window 0 (R142). -/
structure Contender where
  bank : Bank
  generation : Nat
  sequence : Nat
  window0 : Window
deriving DecidableEq, Repr

/-- How far REBUILD has come (R142, R148). -/
inductive Rebuild where
  | idle
  /-- Reading slot 0 of bank A. -/
  | readA
  /-- Reading slot 0 of bank B, window 0 of bank A taken. -/
  | readB (windowA : Window)
  /-- Examining a contender: its windows taken so far, the contenders after it, and whether one before it was complete but
  rejected, or incomplete of a generation other than 1. -/
  | examine (c : Contender) (windows : List Window) (rest : List Contender) (spoiled : Bool)
  /-- First boot: bank A is being erased. -/
  | firstErase
  /-- First boot: bank A is being written. -/
  | firstWrite
deriving DecidableEq, Repr

/-- The Map Journal (R129, R133, R138, R142). -/
structure MapJournal where
  bankA : Option BankRow
  bankB : Option BankRow
  pointer : Nat
  nextSeq : Nat
  compaction : Compaction
  attempt : Nat
  fenced : Bool
  queue : List QueueItem
  run : Option BankRun
  rebuild : Rebuild
deriving DecidableEq, Repr

/-- The Map Journal as entry to RESET leaves it (R129). -/
def MapJournal.empty : MapJournal := ⟨none, none, 0, 0, .idle, 1, false, [], none, .idle⟩

/-! ## Maintenance Link, Event Queue and Notice -/

/-- Result codes (R161, R170). -/
inductive ResultCode where
  | done | refusedState | refusedLocked | badParam | busy
deriving DecidableEq, Repr

/-- The result store (R160): empty, a stored result, or following the RAW erase held (R165). -/
inductive ResultStore where
  | empty
  | stored (code : ResultCode) (data : List Byte)
  | followsRaw
deriving DecidableEq, Repr

/-- How far a transfer on the two wires has come (R160): the bits and bytes taken, or the bytes of the store being sent. -/
inductive LinkFrame where
  /-- No transfer that concerns the bridge. -/
  | idle
  /-- The bits of the address byte taken so far, the first at the front. -/
  | address (bits : List Bool)
  /-- The acknowledge bit of the link's own address; `read` is the direction. -/
  | addressAck (read : Bool)
  /-- In a write: the bytes taken, and the bits of the present one. -/
  | writing (bytes : List Byte) (bits : List Bool)
  /-- The acknowledge bit of the last byte taken. -/
  | writeAck (bytes : List Byte)
  /-- In a read: the bytes of the store, the place of the byte being sent and of its bit, 0 the most significant. -/
  | reading (store : List Byte) (place bit : Nat)
  /-- The bit in which the controller acknowledges the byte at the place told. -/
  | readAck (store : List Byte) (place : Nat)
deriving DecidableEq, Repr

/-- The Maintenance Link: result store, latched straps, the bytes sent in the last read, and the transfer in progress on its
wires (R160). -/
structure Link where
  store : ResultStore
  straps : BitVec 2
  sent : List Byte
  frame : LinkFrame
deriving DecidableEq, Repr

/-- Event kinds (R166). -/
inductive EventKind where
  | accessDenied | guardHit | writeGated | protocolError | overrun
  | commitFailed | sectorRetired | poolLow | poolEmpty | worn
  | deviceTimeout | journalCompacted | fenced | descriptorInvalid | rebuildFailed
  | serviceReady | quiesceDone | quiesceExpired | gateOpenRefused
deriving DecidableEq, Repr

/-- Locations an event carries (R166). -/
inductive Location where
  | address (a : Nat)
  | ls (n : Nat)
  | ps (n : Nat)
deriving DecidableEq, Repr

/-- Detail codes (R170). -/
inductive DetailCode where
  | tag | length | crossing | requester | region | program | erase | compaction | bankErase | sequence | noBank | power
  | orderly
deriving DecidableEq, Repr

/-- What a block raises: an event without its number (R166). -/
structure EventBody where
  kind : EventKind
  requester : Option (Fin 8) := none
  location : Option Location := none
  code : Option DetailCode := none
  value : Option Nat := none
deriving DecidableEq, Repr

/-- An event record (R166). -/
structure EventRecord where
  body : EventBody
  number : BitVec 16
  dropped : Nat
deriving DecidableEq, Repr

/-- Notice states (R168). -/
inductive Notice where
  | armed | notified
deriving DecidableEq, Repr

/-- The Event Queue and Notice block (R166 to R168). -/
structure EventBlock where
  queue : List EventRecord
  counter : BitVec 16
  notice : Notice
deriving DecidableEq, Repr

/-! ## The whole state -/

/-- The bridge: one field for each block, the model's counter of free choices, and the queue of commands waiting. -/
structure State where
  pins : Pins
  bridge : Bridge
  settings : Settings
  port : Port
  access : Access
  wcb : Wcb
  reads : ReadUnit
  commit : Option CommitRecord
  map : SectorMap
  bus : FlashBus
  erase : EraseEngine
  journal : MapJournal
  link : Link
  events : EventBlock
  /-- The model's own: how many free choices have been taken (logs 8, 9, 12). -/
  free : Nat
  /-- The model's own: the commands waiting, first in, first out. -/
  pending : List Instr
deriving DecidableEq, Repr

/-- The bridge right after entry to a power-on reset, PORST still asserted (R151, and the table of spec 09 "Effects of
Reset by Block"; pins and straps by logs 4 and 6, discarded values by log 7). -/
def State.reset : State where
  pins := ⟨true, false, false, false⟩
  bridge := ⟨.reset, none, .stopped, false, false, false, 0, .idle⟩
  settings := Settings.none
  port := ⟨[], none, []⟩
  access := ⟨⟨(List.replicate 4 GuardSlot.powerOn).toArray, by simp⟩, false, false⟩
  wcb := Wcb.empty
  reads := ⟨[], []⟩
  commit := none
  map := SectorMap.empty
  bus := FlashBus.empty
  erase := EraseEngine.empty
  journal := MapJournal.empty
  link := ⟨.empty, 0, [], .idle⟩
  events := ⟨[], 0, .armed⟩
  free := 0
  pending := []

/-! ## One update for each field -/

/-- Update of the pins. -/
def State.setPins (s : State) (x : Pins) : State := { s with pins := x }
/-- Update of the Bridge Controller. -/
def State.setBridge (s : State) (x : Bridge) : State := { s with bridge := x }
/-- Update of the settings in force. -/
def State.setSettings (s : State) (x : Settings) : State := { s with settings := x }
/-- Update of the Request Port. -/
def State.setPort (s : State) (x : Port) : State := { s with port := x }
/-- Update of the Access Checker. -/
def State.setAccess (s : State) (x : Access) : State := { s with access := x }
/-- Update of the Write-Combining Buffer. -/
def State.setWcb (s : State) (x : Wcb) : State := { s with wcb := x }
/-- Update of the Read Unit. -/
def State.setReads (s : State) (x : ReadUnit) : State := { s with reads := x }
/-- Update of the Commit Engine. -/
def State.setCommit (s : State) (x : Option CommitRecord) : State := { s with commit := x }
/-- Update of the Sector Map. -/
def State.setMap (s : State) (x : SectorMap) : State := { s with map := x }
/-- Update of the Flash Bus Engine. -/
def State.setBus (s : State) (x : FlashBus) : State := { s with bus := x }
/-- Update of the Erase Engine. -/
def State.setErase (s : State) (x : EraseEngine) : State := { s with erase := x }
/-- Update of the Map Journal. -/
def State.setJournal (s : State) (x : MapJournal) : State := { s with journal := x }
/-- Update of the Maintenance Link. -/
def State.setLink (s : State) (x : Link) : State := { s with link := x }
/-- Update of the Event Queue and Notice. -/
def State.setEvents (s : State) (x : EventBlock) : State := { s with events := x }
/-- Update of the counter of free choices. -/
def State.setFree (s : State) (x : Nat) : State := { s with free := x }
/-- Update of the queue of commands. -/
def State.setPending (s : State) (x : List Instr) : State := { s with pending := x }

end Sys2Proof.Machine
end

