-- ==== Sys2Proof/Machine/Operands.lean ====
section
/-! DEFINITION. Operand forms: where a request falls, byte masks and their merging, where a physical sector lies on the
devices, what a program does to a byte, and the two check sums (spec 01 R1 to R5; 04; 06 R94; 11 R169). -/

namespace Sys2Proof.Machine

/-! ## Requests -/

/-- The requester and tag of a request. -/
def tagOf (src : Source) : Tag := ⟨src.requester, src.tag⟩

/-- The place of a request: sector, line and offset of its byte address (R5; in RAW of its device address, R34). -/
def placeOf (addr : BitVec 25) (len : BitVec 7) : Place :=
  ⟨⟨addr.toNat / 4096, addr.toNat % 4096 / 64⟩, addr.toNat % 64, len.toNat⟩

/-! ## Masks and lines -/

/-- The mask of bytes offset to offset + length - 1. -/
def spanMask (offset length : Nat) : Mask := BitVec.ofNat 64 ((2 ^ length - 1) * 2 ^ offset)

/-- Whether byte i is marked. -/
def Mask.has (m : Mask) (i : Nat) : Bool := m.getLsbD i

/-- The bytes of a write laid over a line: data byte i goes to byte offset + i (R38, R59). -/
def mergeLine (old : Line) (offset length : Nat) (data : Line) : Line :=
  Line.ofFn fun i => if offset ≤ i ∧ i < offset + length then data.byte (i - offset) else old.byte i

/-- A line with the bytes under a mask taken from `image`. -/
def overlay (old image : Line) (m : Mask) : Line :=
  Line.ofFn fun i => if Mask.has m i then image.byte i else old.byte i

/-- The line whose 64 bytes are the first of `bytes`; a byte not sent reads 00h, as the pulled-down data-in does (R171). -/
def lineOfBytes (bytes : List Byte) : Line := Line.ofFn fun i => bytes.getD i 0

/-- The bits of a byte in the order of their travel on the flash bus and on the maintenance link, most significant first
(R160, R171). -/
def msbFirst (b : Byte) : List Bool := (List.range 8).map fun i => b.getLsbD (7 - i)

/-- Byte i that levels taken one after another spell, most significant bit first; a level that is missing is low (R160,
R171). -/
def byteOfLevels (levels : List Bool) (i : Nat) : Byte :=
  (List.range 8).foldl (fun b j => b <<< 1 ||| (BitVec.ofBool (levels.getD (8 * i + j) false)).setWidth 8) 0

/-- Line `k` (0 to 3) of the 256 bytes of a window (R2). -/
def lineOfWindow (bytes : List Byte) (k : Nat) : Line := Line.ofFn fun i => bytes.getD (64 * k + i) 0

/-! ## Flash bytes -/

/-- What a program of `sent` over `old` leaves: bits only go from 1 to 0 (spec 01; R94). -/
def programByte (old sent : Byte) : Byte := old &&& sent

/-- An image byte over a flash byte needs a 0-to-1 change (R94). -/
def needsSet (image flash : Byte) : Bool := image &&& ~~~flash != 0

/-- Some byte under the mask of a line's image needs a 0-to-1 change (R94). -/
def lineNeedsSet (image : Line) (m : Mask) (flash : Line) : Bool :=
  (List.range 64).any fun i => Mask.has m i && needsSet (image.byte i) (flash.byte i)

/-! ## Where a physical sector lies -/

/-- The device of a physical sector (R1). -/
def deviceOf (c : Settings) (ps : Nat) : ChipSelect := if ps < c.deviceSectors then .cs0 else .cs1

/-- The sector's number within its device (R1). -/
def sectorInDevice (c : Settings) (ps : Nat) : Nat := if ps < c.deviceSectors then ps else ps - c.deviceSectors

/-- The device address of byte `pos` of a physical sector (R1). -/
def deviceAddr (c : Settings) (ps pos : Nat) : Nat := sectorInDevice c ps * 4096 + pos

/-- The physical sector that holds a device address of a chip select (R1, R116). -/
def psOfAddr (c : Settings) (cs : ChipSelect) (addr : Nat) : Nat :=
  match cs with
  | .cs0 => addr / 4096
  | .cs1 => addr / 4096 + c.deviceSectors

/-- The three address bytes, most significant first (R112, R171). -/
def addrBytes (addr : Nat) : List Byte :=
  [BitVec.ofNat 8 (addr / 65536), BitVec.ofNat 8 (addr / 256), BitVec.ofNat 8 addr]

/-! ## Check sums -/

/-- One bit of the CRC-16: polynomial 1021h, most significant bit first (R130, R169). -/
def crc16Bit (c : BitVec 16) : BitVec 16 := if c.msb then c <<< 1 ^^^ 0x1021 else c <<< 1

/-- One byte of the CRC-16. -/
def crc16Byte (c : BitVec 16) (b : Byte) : BitVec 16 :=
  (List.range 8).foldl (fun acc _ => crc16Bit acc) (c ^^^ (b.setWidth 16 <<< 8))

/-- CRC-16 with initial value FFFFh and no final inversion (R130). -/
def crc16 (bytes : List Byte) : BitVec 16 := bytes.foldl crc16Byte 0xFFFF

/-- One bit of the CRC-32: polynomial 04C11DB7h in its bit-reversed form, least significant bit first (R20, R169). -/
def crc32Bit (c : BitVec 32) : BitVec 32 := if c.getLsbD 0 then c >>> 1 ^^^ 0xEDB88320 else c >>> 1

/-- One byte of the CRC-32. -/
def crc32Byte (c : BitVec 32) (b : Byte) : BitVec 32 :=
  (List.range 8).foldl (fun acc _ => crc32Bit acc) (c ^^^ b.setWidth 32)

/-- CRC-32 with initial value FFFFFFFFh and a final inversion (R20). -/
def crc32 (bytes : List Byte) : BitVec 32 := ~~~ bytes.foldl crc32Byte 0xFFFFFFFF

end Sys2Proof.Machine
end

