-- ==== Sys2Proof/Machine/Flags.lean ====
section
/-! DEFINITION. The conditions and output lines computed from the state: request ready, the response presented, HOLD,
ALERT, drain mode, pins, the holds on allocations and erases, and what the blocks hold at a moment. -/

namespace Sys2Proof.Machine

/-! ## Request Port -/

/-- Request ready is asserted (R37). -/
def State.reqReady (s : State) : Bool :=
  match s.bridge.state with
  | .reset => false
  | .load => false
  | .rebuild => false
  | .service => decide (s.port.pending.length < Config.pendingMax) && s.port.slot.isNone
  | .raw => decide (s.port.pending.length < Config.pendingMax) && s.port.slot.isNone
  | .quiesce => decide (s.port.pending.length < Config.pendingMax) && s.port.slot.isNone
  | .halted => decide (s.port.pending.length < Config.pendingMax) && s.port.slot.isNone

/-- The entry of the pending table with this requester and tag (R39). -/
def Port.find (p : Port) (id : Tag) : Option PendEntry := p.pending.find? fun e => e.id == id

/-- What a response carries (R41). -/
structure Response where
  id : Tag
  status : Status
  data : List Byte
deriving DecidableEq, Repr

/-- The response that the port presents: the head of the answer queue (R42). None when response valid is deasserted. -/
def State.response (s : State) : Option Response :=
  match s.port.answers with
  | [] => none
  | .slot :: _ => s.port.slot.map fun r => ⟨r.id, r.status, []⟩
  | .entry id :: _ =>
    match s.port.find id with
    | none => none
    | some e =>
      match e.phase with
      | .waiting => none
      | .answered status data => some ⟨id, status, data⟩

/-- The code of a status on the response channel (R171). -/
def Status.code : Status → BitVec 4
  | .ok => 0x0
  | .protocol => 0x1
  | .outOfWindow => 0x2
  | .denied => 0x3
  | .guarded => 0x4
  | .gated => 0x5
  | .readOnly => 0x6
  | .overrun => 0x7
  | .failed => 0x8
  | .halted => 0x9
  | .needsErase => 0xA

/-- The data lanes of a response: byte i on lanes 8i to 8i+7, the lanes above its bytes at a free level (R171; log 55). -/
def lanesOf (bytes : List Byte) : BitVec 512 :=
  let above := Config.freeLanes bytes.length >>> (8 * bytes.length) <<< (8 * bytes.length)
  above ||| bytes.foldr (fun (b : Byte) (acc : BitVec 512) => b.setWidth 512 ||| acc <<< 8) 0

/-- The signals of the response channel (R171). -/
structure ResponseSignals where
  requester : BitVec 3
  tag : BitVec 4
  status : BitVec 4
  data : BitVec 512
deriving DecidableEq, Repr

/-- A response as the response channel carries it (R41, R171). -/
def Response.signals (r : Response) : ResponseSignals :=
  ⟨BitVec.ofFin r.id.requester, BitVec.ofFin r.id.tag, r.status.code, lanesOf r.data⟩

/-- The response channel: RSP_VALID, as the presence of its signals, and the signals (R42, R171). -/
def State.responseSignals (s : State) : Option ResponseSignals := s.response.map Response.signals

/-! ## Write-Combining Buffer -/

/-- The number of entries present (R57). -/
def Wcb.occupancy (w : Wcb) : Nat := w.entries.length

/-- The entry of a line (R58: there is at most one). -/
def Wcb.find (w : Wcb) (k : Key) : Option Entry := w.entries.find? fun e => e.key == k

/-- An entry is OPEN. -/
def Entry.isOpen (e : Entry) : Bool :=
  match e.state with
  | .opened => true
  | .committing _ _ => false

/-- The image mask of an entry, empty while OPEN (R57). -/
def Entry.imageMask (e : Entry) : Mask :=
  match e.state with
  | .opened => 0
  | .committing _ m => m

/-- The drain causes of R62: waiter, occupancy, linger, quiesce. -/
def State.drainMode (s : State) : Bool :=
  !s.wcb.waits.isEmpty || decide (s.settings.drainMark ≤ s.wcb.occupancy)
    || (s.wcb.lingerFlag || (s.settings.linger == 0 && !s.wcb.entries.isEmpty))
    || s.bridge.state == .quiesce

/-- A sector is pinned while the fill list holds a fill of any of its lines (R80). -/
def ReadUnit.pinned (r : ReadUnit) (sector : Nat) : Bool := r.fills.any fun f => f.key.sector == sector

/-- The valid slot of a key (R77: there is at most one). -/
def ReadUnit.lookup (r : ReadUnit) (k : Key) : Option CacheLine := r.cache.find? fun c => c.key == k

/-! ## Map Journal -/

/-- The row of a bank. -/
def MapJournal.row (j : MapJournal) : Bank → Option BankRow
  | .a => j.bankA
  | .b => j.bankB

/-- A bank stands in the given state. -/
def MapJournal.isIn (j : MapJournal) (b : Bank) (st : BankState) : Bool :=
  match j.row b with
  | none => false
  | some r => r.state == st

/-- The ACTIVE bank (R129). -/
def MapJournal.active (j : MapJournal) : Option Bank :=
  if j.isIn .a .active then some .a else if j.isIn .b .active then some .b else none

/-- The other bank. -/
def Bank.other : Bank → Bank
  | .a => .b
  | .b => .a

/-- The generation of the ACTIVE bank, 0 where there is none (R149). -/
def MapJournal.generation (j : MapJournal) : BitVec 32 :=
  match j.active with
  | none => 0
  | some b =>
    match j.row b with
    | none => 0
    | some r => r.generation.getD 0

/-- Free slots of the ACTIVE bank (R133). -/
def State.freeSlots (s : State) : Nat := s.settings.bankSectors * Config.slotsPerSector - s.journal.pointer

/-- The journal is full: the pointer stands at the end of the ACTIVE bank (R135). -/
def State.journalFull (s : State) : Bool := s.journal.active.isSome && s.freeSlots == 0

/-- Allocations are held: compaction pending or running, or the journal full (R97, R135, R136). -/
def State.allocationsHeld (s : State) : Bool := s.journal.compaction != .idle || s.journalFull

/-- The first physical sector of a bank (R3). -/
def bankBase (c : Settings) : Bank → Nat
  | .a => 1
  | .b => c.bankSectors + 1

/-- The erase queue's physical sectors in order. -/
def SectorMap.queued (m : SectorMap) : List Nat := m.queue.map QueuedSector.ps

/-! ## Flash Bus Engine -/

/-- The device record of a chip select. -/
def FlashBus.dev (b : FlashBus) : ChipSelect → Option Device
  | .cs0 => b.dev0
  | .cs1 => b.dev1

/-- A device can take a read, the limit on fills apart (R113). -/
def Device.takesRead (d : Device) : Bool := d.state == .ready || d.state == .eraseSuspended

/-- A device can take a program or an erase (R113). -/
def Device.takesProgram (d : Device) : Bool := d.state == .ready

/-- A program granted to the Map Journal is in progress in device 0 (R156). -/
def State.journalProgramInProgress (s : State) : Bool :=
  match s.bus.dev0 with
  | none => false
  | some d =>
    match d.op with
    | none => false
    | some o => o.owner == .journal

/-- A request of LOAD or REBUILD waits for the transaction in flight (R153). -/
def State.stopWaits (s : State) : Bool := s.bridge.stopPower || s.bridge.stopOrderly

/-! ## Erase Engine -/

/-- DATA erases are held (R123): only SERVICE starts them, without compaction, full journal or FENCED. -/
def State.dataEraseHeld (s : State) : Bool :=
  s.bridge.state != .service || s.journal.compaction != .idle || s.journalFull || s.journal.fenced

/-- Bank erases are held (R123): SERVICE without FENCED, or the first boot of REBUILD, starts them. -/
def State.bankEraseHeld (s : State) : Bool :=
  s.journal.fenced || !(s.bridge.state == .service || (s.bridge.state == .rebuild && s.journal.rebuild == .firstErase))

/-- A data erase is in progress (R123). -/
def State.dataEraseInProgress (s : State) : Bool :=
  match s.erase.record with
  | none => false
  | some r => r.kind == .data && r.erasing

/-! ## Lines to the board -/

/-- ALERT is asserted exactly in NOTIFIED (R167, R168). -/
def State.alert (s : State) : Bool := s.events.notice == .notified

/-- HOLD (R60). -/
def State.hold (s : State) : Bool := s.wcb.hold

/-- The link acknowledges its address unless PORST is asserted (R160). -/
def State.linkListens (s : State) : Bool := !s.pins.porst

/-- The seven-bit target address of the link: 2Ch plus the straps (R160). -/
def State.linkAddress (s : State) : BitVec 7 := 0x2C + s.link.straps.setWidth 7

end Sys2Proof.Machine
end

