-- ==== Sys2Proof/Machine/Ops.lean ====
section
/-! DEFINITION. The named operations over the blocks: receiving an event, answering a request, taking a write, capturing and
completing entries, the line cache and fills, the claims on the Sector Map, the append queue, the device records, the
result store. Every meaning is written over these. -/

namespace Sys2Proof.Machine

/-! ## Events (R166 to R168) -/

/-- One more event lost after the youngest record, counted on it up to 255 (R167). -/
def bumpYoungest : List EventRecord → List EventRecord
  | [] => []
  | [r] => [{ r with dropped := min 255 (r.dropped + 1) }]
  | r :: rest => r :: bumpYoungest rest

/-- Receipt of an event: it takes the next number, is kept or dropped, and notifies (R166, R167, R168). -/
def EventBlock.receive (e : EventBlock) (b : EventBody) : EventBlock where
  queue := if e.queue.length < Config.eventMax then e.queue ++ [⟨b, e.counter + 1, 0⟩] else bumpYoungest e.queue
  counter := e.counter + 1
  notice := .notified

/-- A block raises an event (R166). -/
def State.raise (s : State) (b : EventBody) : State := s.setEvents (s.events.receive b)

/-- The notice at entry to RESET and at a NOTICE_ACK in NOTIFIED: ARMED, then at once NOTIFIED if records are held (R168). -/
def EventBlock.rearm (e : EventBlock) : EventBlock :=
  { e with notice := if e.queue.isEmpty then .armed else .notified }

/-! ## Free orders -/

/-- `x` put at place i of a list. -/
def insertAt {α : Type} (l : List α) (i : Nat) (x : α) : List α := l.take i ++ x :: l.drop i

/-- A list in an order the spec leaves open, chosen by the free value from the n-th on (log 8). One member has one order. -/
def freely {α : Type} (n : Nat) : List α → List α
  | [] => []
  | x :: rest =>
    match freely (n + 1) rest with
    | [] => [x]
    | r => insertAt r (Config.freeOrder n % (r.length + 1)) x

/-! ## Answers (R39, R42) -/

/-- An entry is WAITING (R39). -/
def PendEntry.isWaiting (e : PendEntry) : Bool := e.phase == .waiting

/-- A WAITING entry becomes ANSWERED and joins the answer queue (R39, R42); a request no longer held is not answered. -/
def Port.answer (p : Port) (id : Tag) (status : Status) (data : List Byte) : Port :=
  if p.pending.any fun e => e.id == id && e.isWaiting then
    { p with
      pending := p.pending.map fun e => if e.id == id && e.isWaiting then { e with phase := .answered status data } else e
      answers := p.answers ++ [.entry id] }
  else p

/-- The port carries an answer back (R42). -/
def State.answer (s : State) (id : Tag) (status : Status) (data : List Byte) : State :=
  s.setPort (s.port.answer id status data)

/-- Answers given in a stated order (R83). -/
def State.answerInOrder (s : State) (answers : List Response) : State :=
  answers.foldl (fun t r => t.answer r.id r.status r.data) s

/-- Answers given together, which join the answer queue in either order (R71; log 8). -/
def State.answerTogether (s : State) (answers : List Response) : State :=
  (s.answerInOrder (freely s.free answers)).setFree (s.free + answers.length)

/-! ## Write-Combining Buffer (R57 to R73) -/

/-- HOLD and the linger timer follow the occupancy after a fall (R60, R63). -/
def Wcb.settle (w : Wcb) (highMark : Nat) : Wcb :=
  { w with
    hold := w.hold && decide (highMark < w.occupancy + 2)
    lingerRunning := w.lingerRunning && !w.entries.isEmpty
    lingerFlag := w.lingerFlag && !w.entries.isEmpty }

/-- A write's bytes merged into an entry (R59). -/
def Entry.merge (e : Entry) (offset length : Nat) (data : Line) : Entry :=
  { e with data := mergeLine e.data offset length data, dirty := e.dirty ||| spanMask offset length }

/-- A new OPEN entry holding a write's bytes (R57, R59; the other data bytes are never given to anyone, log 33). -/
def Entry.fresh (k : Key) (offset length : Nat) (data : Line) : Entry :=
  ⟨k, mergeLine Line.zero offset length data, spanMask offset length, .opened, false⟩

/-- The buffer takes a write by merge or new entry, or refuses it (none) when a new entry needs the grace allowance and it
is spent (R59 to R61). A new entry without HOLD leaves the allowance set exactly where it asserts HOLD (R60; log 37). Every write taken restarts the linger timer (R63). -/
def Wcb.takeWrite (w : Wcb) (c : Settings) (p : Place) (data : Line) : Option Wcb :=
  match w.find p.key with
  | some _ =>
    some { w with
      entries := w.entries.map fun e => if e.key == p.key then e.merge p.offset p.length data else e
      lingerRunning := c.linger != 0 }
  | none =>
    if w.hold && !w.grace then none
    else
      some { w with
        entries := w.entries ++ [Entry.fresh p.key p.offset p.length data]
        hold := w.hold || w.occupancy + 1 == c.highMark
        grace := !w.hold && w.occupancy + 1 == c.highMark
        lingerRunning := c.linger != 0 }

/-- The snapshot of a read's bytes: the value in data of each byte under the dirty or the image mask (R68). -/
def Wcb.snapshot (w : Wcb) (p : Place) : Snapshot :=
  (List.range p.length).map fun i =>
    match w.find p.key with
    | none => none
    | some e => if Mask.has (e.dirty ||| e.imageMask) (p.offset + i) then some (e.data.byte (p.offset + i)) else none

/-- Capture of an entry (R65). -/
def Entry.capture (e : Entry) : Entry := { e with dirty := 0, state := .committing e.data e.dirty }

/-- Capture of every OPEN entry of a sector (R64, R65). -/
def Wcb.capture (w : Wcb) (sector : Nat) : Wcb :=
  { w with entries := w.entries.map fun e => if e.key.sector == sector && e.isOpen then e.capture else e }

/-- The sector to offer: that of the oldest OPEN entry whose sector is not pinned (R64). -/
def Wcb.offer (w : Wcb) (r : ReadUnit) : Option Nat :=
  (w.entries.find? fun e => e.isOpen && !r.pinned e.key.sector).map fun e => e.key.sector

/-- A member of a wait set counts a completion of its line (R71). -/
def WaitMember.complete (m : WaitMember) (keys : List Key) (result : CommitResult) : WaitMember :=
  if keys.contains m.key && 0 < m.count then
    { m with count := m.count - 1, result := if m.result == .ok then result else m.result }
  else m

/-- Every member of a wait set is complete (R71). -/
def WaitSet.isComplete (w : WaitSet) : Bool := w.members.all fun m => m.count == 0

/-- The status with which a complete wait set answers (R71). -/
def WaitSet.status (w : WaitSet) : Status :=
  match w.members.find? fun m => m.result != .ok with
  | none => .ok
  | some m => if w.isBarrier then .failed else if m.result == .needsErase then .needsErase else .failed

/-- An entry after a completion: discarded image, note clear, OPEN (R66, R67). -/
def Entry.reopen (e : Entry) : Entry := { e with state := .opened, failNote := false }

/-- The COMMITTING entries. -/
def Wcb.committing (w : Wcb) : List Entry := w.entries.filter fun e => !e.isOpen

/-- The failed-commit note set on every COMMITTING entry at a FAILED completion (R67). -/
def Wcb.noteFailure (w : Wcb) (result : CommitResult) : Wcb :=
  { w with entries := w.entries.map fun e => if !e.isOpen && result == .failed then { e with failNote := true } else e }

/-- The entries bearing the failed-commit note: the lines lost (R67). -/
def Wcb.noted (w : Wcb) : Nat := (w.entries.filter fun e => e.failNote).length

/-- The buffer after a completion: wait sets counted, images discarded, clean entries freed, dirty ones reopened at the
young end (R66, R71), HOLD and the linger timer with them (R60, R63). -/
def Wcb.complete (w : Wcb) (highMark : Nat) (result : CommitResult) : Wcb :=
  let keys := w.committing.map Entry.key
  let waits := w.waits.map fun ws => { ws with members := ws.members.map fun m => m.complete keys result }
  ({ w with
    entries := w.entries.filter Entry.isOpen ++ ((w.committing.filter fun e => e.dirty != 0).map Entry.reopen)
    waits := waits.filter fun ws => !ws.isComplete } : Wcb).settle highMark

/-- The answers that a completion gives (R71). -/
def Wcb.completionAnswers (w : Wcb) (result : CommitResult) : List Response :=
  let keys := w.committing.map Entry.key
  let waits := w.waits.map fun ws => { ws with members := ws.members.map fun m => m.complete keys result }
  (waits.filter WaitSet.isComplete).map fun ws => ⟨ws.id, ws.status, []⟩

/-- The Commit Engine's report carried out: the state and the count of lines lost (R66, R67). A report that finds no
COMMITTING entry changes nothing (R66). -/
def State.completeCommit (s : State) (result : CommitResult) : State × Nat :=
  if s.wcb.committing.isEmpty then (s, 0)
  else
    let noted := s.wcb.noteFailure result
    (((s.setWcb (noted.complete s.settings.highMark result)).answerTogether (noted.completionAnswers result)), noted.noted)

/-- The buffer abandons everything at the quiesce deadline expiry: every wait set is answered FAILED; the count of entries
discarded (R73). -/
def State.abandonBuffer (s : State) : State × Nat :=
  ((s.setWcb { Wcb.empty with grace := s.wcb.grace }).answerTogether (s.wcb.waits.map fun ws => ⟨ws.id, .failed, []⟩),
    s.wcb.occupancy)

/-- The count of a barrier's member for an entry (R69). -/
def Entry.barrierCount (e : Entry) : Nat := if e.isOpen then 1 else if e.dirty == 0 then 1 else 2

/-- The wait set of a BARRIER over every entry present (R69). -/
def Wcb.barrierSet (w : Wcb) (id : Tag) : WaitSet :=
  ⟨id, true, w.entries.map fun e => ⟨e.key, e.barrierCount, .ok⟩⟩

/-- The wait set of a DURABLE_WRITE whose bytes have been taken: 1 for an OPEN entry, 2 for a COMMITTING one (R70). -/
def Wcb.durableSet (w : Wcb) (id : Tag) (k : Key) : WaitSet :=
  ⟨id, false, [⟨k, match w.find k with
    | none => 1
    | some e => if e.isOpen then 1 else 2, .ok⟩]⟩

/-! ## Read Unit (R76 to R86) -/

/-- A slot answered on a hit moves to the most recently used end (R77, R78). -/
def ReadUnit.touch (r : ReadUnit) (c : CacheLine) : ReadUnit :=
  { r with cache := (r.cache.filter fun x => x.key != c.key) ++ [c] }

/-- A line installed: in the slot of its key, else in an invalid slot, else in the least recently used one; it becomes the
most recently used (R82). -/
def ReadUnit.install (r : ReadUnit) (c : CacheLine) : ReadUnit :=
  let others := r.cache.filter fun x => x.key != c.key
  { r with cache := (if others.length < Config.cacheMax then others else others.drop 1) ++ [c] }

/-- An invalidation of a key: its slot becomes invalid, an ISSUED fill of it is superseded (R84). -/
def ReadUnit.invalidate (r : ReadUnit) (k : Key) : ReadUnit where
  cache := r.cache.filter fun x => x.key != k
  fills := r.fills.map fun f => if f.key == k && f.phase != .queued then { f with superseded := true } else f

/-- Invalidations of several lines of a sector. -/
def ReadUnit.invalidateLines (r : ReadUnit) (sector : Nat) (lines : List Nat) : ReadUnit :=
  lines.foldl (fun t l => t.invalidate ⟨sector, l⟩) r

/-- A read that misses: attached to the fill of its key not superseded, else a new QUEUED fill at the young end (R79). -/
def ReadUnit.miss (r : ReadUnit) (k : Key) (group : Fin 2) (id : Tag) : ReadUnit :=
  if r.fills.any fun f => f.key == k && !f.superseded then
    { r with fills := r.fills.map fun f => if f.key == k && !f.superseded then { f with reads := f.reads ++ [id] } else f }
  else { r with fills := r.fills ++ [⟨k, group, .queued, false, [id]⟩] }

/-- A read's bytes: from its snapshot where it carries a value, from the line otherwise (R78, R83). -/
def readBytes (snap : Snapshot) (offset : Nat) (l : Line) : List Byte :=
  snap.zipIdx.map fun x => x.1.getD (l.byte (offset + x.2))

/-! ## Sector Map (R7 to R17) -/

/-- The physical sector of a sector: its remap entry, in RAW itself (R7, R34, R87). -/
def State.resolve (s : State) (sector : Nat) : Nat :=
  if s.settings.raw then sector else s.map.remap.getD sector 0

/-- What a take is answered (R10). -/
inductive Take where
  | granted (ps : Nat)
  | waits
  | refused
deriving DecidableEq, Repr

/-- WORN is set and its event raised with the retired count (R16, R17). -/
def State.setWorn (s : State) : State :=
  (s.setMap { s.map with worn := true, taking := false }).raise { kind := .worn, value := some s.map.retired.length }

/-- The take of a target (R10), with POOL_LOW (R15), POOL_EMPTY (R16) and WORN (R17). -/
def State.take (s : State) : State × Take :=
  match s.map.pool with
  | ps :: rest =>
    if s.map.lowArmed && rest.length + 1 == s.settings.lowMark then
      ((s.setMap { s.map with pool := rest, target := some ps, lowArmed := false }).raise
        { kind := .poolLow, location := some (.ps ps), value := some rest.length }, .granted ps)
    else (s.setMap { s.map with pool := rest, target := some ps }, .granted ps)
  | [] =>
    if s.map.queue.isEmpty then (s.setWorn, .refused)
    else if s.map.emptyRaised then (s.setMap { s.map with taking := true }, .waits)
    else
      ((s.setMap { s.map with taking := true, emptyRaised := true }).raise
        { kind := .poolEmpty, value := some s.map.queue.length }, .waits)

/-- A sector joins the pool tail, or passes straight to a waiting take; whether it did (R9, R10, R15, R16). -/
def SectorMap.join (m : SectorMap) (lowMark ps : Nat) : SectorMap × Bool :=
  if m.taking then ({ m with target := some ps, taking := false, emptyRaised := false }, true)
  else
    ({ m with
      pool := m.pool ++ [ps]
      lowArmed := m.lowArmed || decide (lowMark + 4 ≤ m.pool.length + 1)
      emptyRaised := false }, false)

/-- The retired set with one more member, in ascending order (R13). -/
def insertRetired (r : RetiredSector) : List RetiredSector → List RetiredSector
  | [] => [r]
  | x :: rest => if r.ps < x.ps then r :: x :: rest else x :: insertRetired r rest

/-- A sector joins the retired set and SECTOR_RETIRED is raised (R13). -/
def State.retire (s : State) (ps : Nat) (cause : RetireCause) : State :=
  (s.setMap { s.map with retired := insertRetired ⟨ps, cause⟩ s.map.retired }).raise
    { kind := .sectorRetired, location := some (.ps ps),
      code := some (match cause with
        | .program => .program
        | .erase => .erase) }

/-- A release: the target, if one is held, goes to the erase queue tail with its mark clear (R14). -/
def State.releaseTarget (s : State) : State :=
  match s.map.target with
  | none => s
  | some ps => s.setMap { s.map with target := none, queue := s.map.queue ++ [⟨ps, false⟩] }

/-- A target whose RETIRE record has been appended passes to the retired set (R13). -/
def State.retireTarget (s : State) : State :=
  match s.map.target with
  | none => s
  | some ps => (s.setMap { s.map with target := none }).retire ps .program

/-- A switch: the remap entry names the target, the old sector is queued or retired (R14). -/
def State.switchSector (s : State) (ls target old : Nat) (retire : Bool) : State :=
  let m := { s.map with remap := s.map.remap.set ls target, target := none }
  if retire then (s.setMap m).retire old .program
  else s.setMap { m with queue := m.queue ++ [⟨old, false⟩] }

/-- The head of the erase queue after a first failure: at the tail with its mark set (R12). -/
def SectorMap.requeueHead (m : SectorMap) : SectorMap :=
  match m.queue with
  | [] => m
  | q :: rest => { m with queue := rest ++ [⟨q.ps, true⟩] }

/-! ## Append queue and bank table (R129, R133) -/

/-- A bank's row written. -/
def MapJournal.setRow (j : MapJournal) (b : Bank) (r : Option BankRow) : MapJournal :=
  match b with
  | .a => { j with bankA := r }
  | .b => { j with bankB := r }

/-- A record joins the tail of the append queue (R133). -/
def State.enqueue (s : State) (c : Claimant) (r : Delta) : State :=
  s.setJournal { s.journal with queue := s.journal.queue ++ [⟨c, r, false, false⟩] }

/-- A claimant's records that have not been granted leave the queue (R101, R108, R133). -/
def State.withdraw (s : State) (c : Claimant) : State :=
  s.setJournal { s.journal with queue := s.journal.queue.filter fun q => q.begun || q.claimant != c }

/-- The claimant has a record in the queue that has been granted (R108, R133). -/
def MapJournal.begun (j : MapJournal) (c : Claimant) : Bool := j.queue.any fun q => q.claimant == c && q.begun

/-- A claimant's records whose program is not in flight leave the queue: given up under a full journal (R101). One that was
granted once and failed in the bank's last sector is among them, although R133 lets no granted record be withdrawn: the model's
reading (log 62). -/
def State.dropRecords (s : State) (c : Claimant) : State :=
  s.setJournal { s.journal with queue := s.journal.queue.filter fun q => q.inProgress || q.claimant != c }

/-- The claimant has a record in the queue that is not being programmed now. -/
def MapJournal.waiting (j : MapJournal) (c : Claimant) : Bool := j.queue.any fun q => q.claimant == c && !q.inProgress

/-! ## Device records (R111) -/

/-- A device record written. -/
def FlashBus.setDev (b : FlashBus) (cs : ChipSelect) (d : Option Device) : FlashBus :=
  match cs with
  | .cs0 => { b with dev0 := d }
  | .cs1 => { b with dev1 := d }

/-- A device record of the state written. -/
def State.setDev (s : State) (cs : ChipSelect) (d : Option Device) : State := s.setBus (s.bus.setDev cs d)

/-- A device record changed, where there is one. -/
def State.mapDev (s : State) (cs : ChipSelect) (f : Device → Device) : State := s.setDev cs ((s.bus.dev cs).map f)

/-- The transaction on the bus ends (R112). -/
def State.busIdle (s : State) : State := s.setBus { s.bus with tx := none }

/-! ## Maintenance Link (R160) -/

/-- A result is placed in the store, replacing the one it held (R160). -/
def State.reply (s : State) (code : ResultCode) (data : List Byte) : State :=
  s.setLink { s.link with store := .stored code data }

end Sys2Proof.Machine
end

