-- ==== Sys2Proof/Machine/Commit.lean ====
section
/-! DEFINITION. The stages of a commit (spec 06): the probe, the programs in place, the target, the copy, the records, the
switch, the end, and what the engine does when a program ends, a record is appended or given up, the journal is full or
fenced, or the quiesce deadline expires. The grants of its transactions stand in Arbiter.lean. -/

namespace Sys2Proof.Machine

/-! ## The record and its images -/

/-- The record with its next work, not yet granted. -/
def CommitRecord.at (c : CommitRecord) (w : Work) : CommitRecord := { c with work := w, granted := false }

/-- The stage in which the record's work stands (R92). -/
def CommitRecord.stage (c : CommitRecord) : Stage :=
  match c.work with
  | .probeRead _ _ _ => .probe
  | .programSpan _ _ => .inPlace
  | .allocHeld => .allocate
  | .takeWaits => .allocate
  | .copyWindow _ => .copy
  | .copyLine _ _ _ _ => .copy
  | .copyProgram _ _ => .copy
  | .appendRetireTarget => .copy
  | .appendMap => .record
  | .appendRetireOld => .record

/-- The image and image mask of a line under commit; an empty mask where the line has none (R65, R91). -/
def State.image (s : State) (sector line : Nat) : Line × Mask :=
  match s.wcb.find ⟨sector, line⟩ with
  | none => (Line.zero, 0)
  | some e =>
    match e.state with
    | .opened => (Line.zero, 0)
    | .committing image mask => (image, mask)

/-- Position `pos` of window `w` lies under the image mask of a line of the record. -/
def State.marked (s : State) (c : CommitRecord) (w pos : Nat) : Bool :=
  c.lines.contains (4 * w + pos / 64) && Mask.has (s.image c.sector (4 * w + pos / 64)).2 (pos % 64)

/-- The byte of the images at position `pos` of window `w`. -/
def State.imageByte (s : State) (c : CommitRecord) (w pos : Nat) : Byte :=
  (s.image c.sector (4 * w + pos / 64)).1.byte (pos % 64)

/-- The windows that take part in a commit, ascending (R95). -/
def CommitRecord.windows (c : CommitRecord) : List Nat :=
  (List.range 16).filter fun w => c.lines.any fun l => l / 4 == w

/-- The lines of the record in a window. -/
def CommitRecord.linesIn (c : CommitRecord) (w : Nat) : List Nat := c.lines.filter fun l => l / 4 == w

/-- The first and last position of a window's span: the lowest and highest byte under an image mask (R95). -/
def State.span (s : State) (c : CommitRecord) (w : Nat) : Nat × Nat :=
  let under := (List.range 256).filter fun pos => s.marked c w pos
  (under.headD 0, under.getLastD 0)

/-- The bytes of a span's program: image values under the masks, FFh elsewhere (R95). -/
def State.spanBytes (s : State) (c : CommitRecord) (w : Nat) : List Byte :=
  let first := (s.span c w).1
  (List.range ((s.span c w).2 + 1 - first)).map fun i =>
    if s.marked c w (first + i) then s.imageByte c w (first + i) else 0xFF

/-! ## Ends (R103, R104) -/

/-- The engine reports OK and is idle (R103). -/
def State.commitDone (s : State) : State := (s.completeCommit .ok).1.setCommit none

/-- The engine reports NEEDS_ERASE and is idle; no event (R106). -/
def State.commitNeedsErase (s : State) : State := (s.completeCommit .needsErase).1.setCommit none

/-- A waiting take is withdrawn (R10, R97, R108). -/
def State.withdrawTake (s : State) : State := s.setMap { s.map with taking := false }

/-- The engine ends FAILED: a target held is released, a waiting take and a record not begun are withdrawn, FAILED is
reported and COMMIT_FAILED raised (R104); after the quiesce deadline expiry nothing is raised (R108). -/
def State.commitFailed (s : State) (c : CommitRecord) : State :=
  let r := (((s.withdrawTake).releaseTarget).withdraw .commit).completeCommit .failed
  let t := r.1.setCommit none
  if s.bridge.expired then t
  else t.raise { kind := .commitFailed, location := some (if s.settings.raw then .ps c.sector else .ls c.sector),
                 value := some r.2 }

/-- SWITCH and DONE: the map is switched, the record's lines are invalidated, OK is reported (R102, R103). -/
def State.commitSwitch (s : State) (c : CommitRecord) (retire : Bool) : State :=
  let t := s.switchSector c.sector (c.target.getD 0) c.oldPs retire
  (t.setReads (t.reads.invalidateLines c.sector c.lines)).commitDone

/-! ## Records (R100, R101) -/

/-- The Map Journal reports that the engine's record waits under a full journal: the target is given up (R101). After the
quiesce deadline expiry the commit then ends. -/
def State.commitFull (s : State) : State :=
  match s.commit with
  | none => s
  | some c =>
    match c.work with
    | .appendMap =>
      if s.bridge.expired then (s.dropRecords .commit).commitFailed c
      else ((s.dropRecords .commit).releaseTarget).setCommit
        (some { c.at .allocHeld with target := none, keepAttempts := true })
    | .appendRetireTarget =>
      if s.bridge.expired || 3 ≤ c.attempts then (s.dropRecords .commit).commitFailed c
      else ((s.dropRecords .commit).releaseTarget).setCommit (some { c.at .allocHeld with target := none })
    | .appendRetireOld => (s.dropRecords .commit).commitSwitch c false
    | _ => s

/-- The engine asks for a record and waits for it; under FENCED the request is refused at once and `refused` is what the
engine does (R140), under a full journal R101 applies. -/
def State.commitAsk (s : State) (c : CommitRecord) (w : Work) (r : Delta) (refused : State) : State :=
  if s.journal.fenced then refused
  else
    let t := (s.enqueue .commit r).setCommit (some (c.at w))
    if s.journalFull then t.commitFull else t

/-- RECORD: the MAP record is asked for (R100). -/
def State.commitRecord (s : State) (c : CommitRecord) : State :=
  s.commitAsk c .appendMap (.map c.sector (c.target.getD 0) c.oldPs) (s.commitFailed c)

/-! ## The copy (R98) -/

/-- The 256 bytes of a window as it will stand: image values under the masks, old bytes elsewhere (R98). -/
def State.buildWindow (s : State) (c : CommitRecord) (w : Nat) (old : Nat → Byte) : List Byte :=
  (List.range 256).map fun pos => if s.marked c w pos then s.imageByte c w pos else old pos

/-- The lines of window w whose image mask does not cover all 64 bytes: they need old bytes (R98). -/
def State.linesNeeded (s : State) (c : CommitRecord) (w : Nat) : List Nat :=
  ((List.range 4).map fun i => 4 * w + i).filter fun l =>
    !(c.lines.contains l && (s.image c.sector l).2 == BitVec.allOnes 64)

/-- The old byte at position pos of a window from the lines obtained. -/
def oldByteOf (got : List (Nat × Line)) (w pos : Nat) : Byte :=
  match got.find? fun g => g.1 == 4 * w + pos / 64 with
  | none => 0
  | some g => g.2.byte (pos % 64)

/-- What the copy does first for window w: a read, or the window built when nothing is to be read (R98; log 26). Lines read one
by one are read in ascending order, which R98 does not state (log 68). -/
def State.copyPlan (s : State) (c : CommitRecord) (w : Nat) : Sum Work (List Byte) :=
  let needed := s.linesNeeded c w
  let held := (List.range 4).any fun i => (s.reads.lookup ⟨c.sector, 4 * w + i⟩).isSome
  let got := needed.filterMap fun l => (s.reads.lookup ⟨c.sector, l⟩).map fun x => (l, x.data)
  let missing := needed.filter fun l => (s.reads.lookup ⟨c.sector, l⟩).isNone
  if !held && !needed.isEmpty then .inl (.copyWindow w)
  else
    match missing with
    | [] => .inr (s.buildWindow c w (oldByteOf got w))
    | l :: rest => .inl (.copyLine w l rest got)

/-- The copy from window 16 - n on: the next read or program, or RECORD when no window is left; a window of FFh bytes is
not programmed (R98). -/
def State.copyFrom (s : State) (c : CommitRecord) : Nat → State
  | 0 => s.commitRecord c
  | n + 1 =>
    match s.copyPlan c (15 - n) with
    | .inl w => s.setCommit (some (c.at w))
    | .inr bytes =>
      if bytes.all fun b => b == 0xFF then s.copyFrom c n
      else s.setCommit (some (c.at (.copyProgram (15 - n) bytes)))

/-- A window built after its reads: programmed, or passed over when it is all FFh (R98). -/
def State.copyBuilt (s : State) (c : CommitRecord) (w : Nat) (bytes : List Byte) : State :=
  if bytes.all fun b => b == 0xFF then s.copyFrom c (15 - w) else s.setCommit (some (c.at (.copyProgram w bytes)))

/-! ## ALLOCATE (R97) -/

/-- A take granted: the target and the attempt count are recorded and the copy begins (R97). -/
def State.commitGranted (s : State) (c : CommitRecord) (ps : Nat) : State :=
  s.copyFrom { c with
    target := some ps
    attempts := if c.attempts == 0 then 1 else if c.keepAttempts then c.attempts else c.attempts + 1
    keepAttempts := false } 16

/-- ALLOCATE entered, or judged again when a hold ends (R97). The WORN of a refused take stands before COMMIT_FAILED
(R104). -/
def State.commitAllocate (s : State) (c : CommitRecord) : State :=
  if s.journal.fenced then s.commitFailed c
  else if s.allocationsHeld then s.setCommit (some { c.at .allocHeld with target := none })
  else
    let r := s.take
    match r.2 with
    | .granted ps => r.1.commitGranted c ps
    | .waits => r.1.setCommit (some { c.at .takeWaits with target := none })
    | .refused => r.1.commitFailed c

/-- A hold on allocations may have ended: a commit kept waiting by it goes on (R97, R107). -/
def State.commitHoldEnd (s : State) : State :=
  match s.commit with
  | none => s
  | some c =>
    match c.work with
    | .allocHeld => if s.bridge.expired then s else s.commitAllocate c
    | _ => s

/-! ## PROBE and IN_PLACE (R94, R95) -/

/-- IN_PLACE: the next window's program, or DONE when none is left (R95). -/
def State.programFrom (s : State) (c : CommitRecord) : List Nat → State
  | [] => s.commitDone
  | w :: rest => s.setCommit (some (c.at (.programSpan w rest)))

/-- The end of the probe (R94). -/
def State.probeEnd (s : State) (c : CommitRecord) (found : Bool) : State :=
  if found then
    if s.settings.raw then s.commitNeedsErase else s.commitAllocate c
  else s.programFrom c c.windows

/-- The line's image needs a 0-to-1 change over the flash bytes (R94). -/
def State.lineTest (s : State) (c : CommitRecord) (line : Nat) (flash : Line) : Bool :=
  lineNeedsSet (s.image c.sector line).1 (s.image c.sector line).2 flash

/-- The probe over the lines left: cached lines are taken from the cache, the first other one is read (R86, R94). -/
def State.probeFrom (s : State) (c : CommitRecord) : List Nat → Bool → State
  | [], found => s.probeEnd c found
  | l :: rest, found =>
    match s.reads.lookup ⟨c.sector, l⟩ with
    | some x => s.probeFrom c rest (found || s.lineTest c l x.data)
    | none => s.setCommit (some (c.at (.probeRead l rest found)))

/-! ## Starting (R93) -/

/-- The policy of the region that holds a sector (R25, R93; no region: log 38). -/
def State.policyOf (s : State) (sector : Nat) : Option Policy :=
  if s.settings.raw then none
  else
    match s.settings.regions.find? fun r => decide (r.first ≤ sector) && decide (sector ≤ r.last) with
    | none => some .inPlaceAllowed
    | some r => some r.policy

/-- The record made at an offer, its lines captured (R93). -/
def State.newRecord (s : State) (sector : Nat) : CommitRecord where
  sector := sector
  lines := (List.range 64).filter fun l => s.wcb.entries.any fun e => e.key == ⟨sector, l⟩ && !e.isOpen
  oldPs := s.resolve sector
  policy := s.policyOf sector
  target := none
  attempts := 0
  convert := false
  keepAttempts := false
  work := .allocHeld
  granted := false

/-- The first stage of a commit (R93). -/
def State.commitStart (s : State) (c : CommitRecord) : State :=
  if c.policy == some .alwaysRelocate then s.commitAllocate c else s.probeFrom c c.lines false

/-! ## The ends of its transactions and records -/

/-- A read of the engine ends with its bytes (R94, R98, R105, R108). -/
def State.commitReadEnd (s : State) (bytes : List Byte) : State :=
  match s.commit with
  | none => s
  | some c =>
    if s.bridge.expired then s.commitFailed c
    else
      match c.work with
      | .probeRead l rest found => s.probeFrom c rest (found || s.lineTest c l (lineOfBytes bytes))
      | .copyWindow w => s.copyBuilt c w (s.buildWindow c w fun pos => bytes.getD pos 0)
      | .copyLine w l [] got =>
        s.copyBuilt c w (s.buildWindow c w (oldByteOf ((l, lineOfBytes bytes) :: got) w))
      | .copyLine w l (next :: rest) got =>
        s.setCommit (some (c.at (.copyLine w next rest ((l, lineOfBytes bytes) :: got))))
      | _ => s

/-- A program of the engine ends (R95, R96, R98, R99, R106, R108). -/
def State.commitProgramEnd (s : State) (ok : Bool) : State :=
  match s.commit with
  | none => s
  | some c =>
    match c.work with
    | .programSpan w rest =>
      let t := s.setReads (s.reads.invalidateLines c.sector (c.linesIn w))
      if ok && rest.isEmpty then t.commitDone
      else if s.bridge.expired then t.commitFailed c
      else if ok then t.programFrom c rest
      else if s.settings.raw then t.commitFailed c
      else t.commitAllocate { c with convert := true }
    | .copyProgram w _ =>
      if s.bridge.expired then s.commitFailed c
      else if ok then s.copyFrom c (15 - w)
      else s.commitAsk c .appendRetireTarget (.retire (c.target.getD 0) .program) (s.commitFailed c)
    | _ => s

/-- A record of the engine has been appended (R99, R100, R108). -/
def State.commitAppended (s : State) : State :=
  match s.commit with
  | none => s
  | some c =>
    match c.work with
    | .appendMap =>
      if c.convert && !s.bridge.expired then
        s.commitAsk c .appendRetireOld (.retire c.oldPs .program) (s.commitSwitch c false)
      else s.commitSwitch c false
    | .appendRetireOld => s.commitSwitch c true
    | .appendRetireTarget =>
      if s.bridge.expired || 3 ≤ c.attempts then s.retireTarget.commitFailed c
      else s.retireTarget.commitAllocate { c with target := none }
    | _ => s

/-- FENCED has been set and the engine's records not granted refused (R97, R99, R100, R140). -/
def State.commitFenced (s : State) : State :=
  match s.commit with
  | none => s
  | some c =>
    if s.journal.begun .commit then s
    else
      match c.work with
      | .allocHeld => s.commitFailed c
      | .takeWaits => s.commitFailed c
      | .appendMap => s.commitFailed c
      | .appendRetireTarget => s.commitFailed c
      | .appendRetireOld => s.commitSwitch c false
      | _ => s

/-- The quiesce deadline has expired (R108): what is granted, and a record whose program has begun, is let end. -/
def State.commitExpire (s : State) : State :=
  match s.commit with
  | none => s
  | some c =>
    if c.granted || s.journal.begun .commit then s
    else
      match c.work with
      | .appendRetireOld => (s.withdraw .commit).commitSwitch c false
      | _ => s.commitFailed c

end Sys2Proof.Machine
end

