-- ==== Sys2Proof/Machine/Bridge.lean ====
section
/-! DEFINITION. The entries to the bridge states and what each block does at them (spec 09; 02 R33; 07 R123, R127, R128;
08 R141; 10 R165). -/

namespace Sys2Proof.Machine

/-! ## RESET (R151, R152, and the table "Effects of Reset by Block") -/

/-- The kinds of a reset (R151). -/
inductive ResetKind where
  | powerOn | warm
deriving DecidableEq, Repr

/-- The Bridge Controller at entry to RESET: no cause, timer stopped, check index 0, nothing left of a quiesce, a LOAD or a
waiting request (R36, R150). -/
def Bridge.inReset : Bridge := ⟨.reset, none, .stopped, false, false, false, 0, .idle⟩

/-- The Access Checker at entry to RESET: gate CLOSED; at power-on the guards and the lock too (R26, R54, R55). -/
def Access.enterReset (a : Access) : ResetKind → Access
  | .powerOn => ⟨⟨(List.replicate 4 GuardSlot.powerOn).toArray, by simp⟩, false, false⟩
  | .warm => { a with gateOpen := false }

/-- The Maintenance Link at entry to RESET: at power-on the store is emptied and a transfer dropped (log 66), by a warm reset
both stay; a RAW erase's unread outcome is gone (R160, R165). -/
def Link.enterReset (l : Link) : ResetKind → Link
  | .powerOn => { l with store := .empty, frame := .idle }
  | .warm =>
    match l.store with
    | .followsRaw => { l with store := .stored .refusedState [] }
    | _ => l

/-- The Event Queue and Notice at entry to RESET (R166 to R168). -/
def EventBlock.enterReset (e : EventBlock) : ResetKind → EventBlock
  | .powerOn => ⟨[], 0, .armed⟩
  | .warm => e.rearm

/-- Entry to RESET: every block empties or keeps its state (R18, R19, R43, R74, R90, R109, R128, R129, R150). -/
def State.enterReset (s : State) (kind : ResetKind) : State :=
  { s with
    bridge := Bridge.inReset
    settings := Settings.none
    port := ⟨[], none, []⟩
    access := s.access.enterReset kind
    wcb := Wcb.empty
    reads := ⟨[], []⟩
    commit := none
    map := SectorMap.empty
    bus := FlashBus.empty
    erase := EraseEngine.empty
    journal := MapJournal.empty
    link := s.link.enterReset kind
    events := s.events.enterReset kind }

/-! ## LOAD (R28, R153) -/

/-- Entry to LOAD: both chip selects unknown, a poll of each due, the two together; a PFAIL asserted is acted on (R28, R153). -/
def State.enterLoad (s : State) : State :=
  (s.setBridge { s.bridge with state := .load, load := .polling, stopPower := s.pins.pfail }).setBus
    { FlashBus.empty with
      pollsDue := [.cs0, .cs1]
      pollsTied := true
      dev0 := some (Device.idle .unknown)
      dev1 := some (Device.idle .unknown) }

/-- RESET is left for LOAD when PORST and RESET are both deasserted (R151). -/
def State.leaveReset (s : State) : State :=
  if s.bridge.state == .reset && !s.pins.porst && !s.pins.reset then s.enterLoad else s

/-- A warm reset that is left at once unless PORST or RESET is asserted (R152). -/
def State.warmReset (s : State) : State := (s.enterReset .warm).leaveReset

/-! ## QUIESCE (R154) -/

/-- The claim of a held kind is withdrawn before its grant (R123). -/
def State.withdrawHeldClaims (s : State) : State :=
  match s.erase.record with
  | none => s
  | some r =>
    if r.erasing then s
    else
      match r.kind with
      | .data => if s.dataEraseHeld then s.setErase { s.erase with record := none } else s
      | .bank _ => if s.bankEraseHeld then s.setErase { s.erase with record := none } else s
      | .raw => s

/-- A RAW erase whose erase has not been granted. -/
def EraseEngine.rawNotGranted (e : EraseEngine) : Bool :=
  match e.raw with
  | none => false
  | some r => r.outcome.isNone && !(match e.record with
      | none => false
      | some x => x.erasing)

/-- At entry to QUIESCE a RAW erase not granted is withdrawn and the store that follows it set (R127, R165). -/
def State.withdrawRawErase (s : State) : State :=
  if s.erase.rawNotGranted then
    (s.setErase { s.erase with record := none, raw := none }).setLink
      (match s.link.store with
        | .followsRaw => { s.link with store := .stored .refusedState [] }
        | _ => s.link)
  else s

/-- At entry to QUIESCE compaction is abandoned (R141): PENDING becomes IDLE; a RUNNING one waits only for the window in
flight. -/
def State.abandonCompaction (s : State) : State :=
  let j := { s.journal with compaction := .idle, attempt := 1 }
  match s.journal.run with
  | none => s.setJournal j
  | some r =>
    if r.inProgress then s.setJournal { j with run := some { r with abandoned := true } }
    else s.setJournal (({ j with run := none } : MapJournal).setRow r.bank (some ⟨.stale, none⟩))

/-- The load of the deadline timer (R154). -/
def State.deadlineFor (s : State) : Cause → Nat
  | .power => s.settings.powerDeadline
  | .orderly => s.settings.resetDeadline

/-- Entry to QUIESCE with a cause (R154). -/
def State.enterQuiesce (s : State) (cause : Cause) : State :=
  ((((s.setBridge { s.bridge with
    state := .quiesce
    cause := some cause
    deadline := .running (s.deadlineFor cause)
    expired := false }).abandonCompaction).withdrawHeldClaims).withdrawRawErase).commitHoldEnd

/-- SERVICE or RAW has been entered; with PFAIL asserted the bridge enters QUIESCE at once (R154). -/
def State.heedPfail (s : State) : State := if s.pins.pfail then s.enterQuiesce .power else s

/-! ## SERVICE, RAW, HALTED -/

/-- Entry to SERVICE (R147, R153). -/
def State.enterService (s : State) : State := (s.setBridge { s.bridge with state := .service }).heedPfail

/-- The settings in force in RAW (R33). R33 gives no value to J, data_base, D, S and P, nor to C and T: the zeros and the
4096 sectors of the RAW window that stand for them are the model's (log 51). -/
def Settings.inRaw : Settings where
  raw := true
  deviceCount := 1
  deviceSectors := Config.rawSectors
  totalSectors := Config.rawSectors
  bankSectors := 0
  dataBase := 0
  dataSectors := 0
  spares := 0
  windowSectors := Config.rawSectors
  lowMark := 0
  highMark := 12
  drainMark := 1
  linger := 0
  powerDeadline := 5
  resetDeadline := 100
  profile := Profile.boot
  requesters := ⟨(List.replicate 8 ⟨true, 0, false⟩).toArray, by simp⟩
  regions := []

/-- Entry to RAW from LOAD or REBUILD (R33): chip select 1 carries no transaction, the guards and the gate lock are kept. -/
def State.enterRaw (s : State) : State :=
  State.heedPfail { s with
    bridge := { s.bridge with state := .raw, load := .idle }
    settings := Settings.inRaw
    access := { s.access with gateOpen := false }
    map := SectorMap.empty
    bus := { s.bus with dev1 := none, pollsDue := s.bus.pollsDue.filter fun c => c == .cs0, resumesDue := [] }
    erase := EraseEngine.empty
    journal := MapJournal.empty }

/-- Entry to HALTED at the end of a POWER quiesce (R156, R157). -/
def State.enterHalted (s : State) : State :=
  s.setBridge { s.bridge with state := .halted, deadline := .stopped, expired := false }

/-- Entry to HALTED from LOAD or REBUILD: nothing of the load or rebuild is kept but the device records, with the polls of
LOAD that are due and the poll interval timers that run (R153, R158; log 19). -/
def State.haltStart (s : State) : State :=
  { s with
    bridge := { s.bridge with
      state := .halted, cause := some .power, stopPower := false, stopOrderly := false, load := .idle }
    erase := EraseEngine.empty
    journal := MapJournal.empty }

/-- The end of a quiesce: HALTED for POWER, a warm reset for ORDERLY (R156, R157). -/
def State.endQuiesce (s : State) : State :=
  match s.bridge.cause with
  | some .orderly => s.warmReset
  | _ => s.enterHalted

/-- An orderly request: RESET_REQ becomes asserted, or ORDERLY_RESET is taken (R153, R154, R155, R158). -/
def State.orderlyRequest (s : State) : State :=
  match s.bridge.state with
  | .load => s.setBridge { s.bridge with stopOrderly := true }
  | .rebuild => s.setBridge { s.bridge with stopOrderly := true }
  | .service => s.enterQuiesce .orderly
  | .raw => s.enterQuiesce .orderly
  | _ => s

/-! ## RESUMEs due (R121, R122) -/

/-- The device of a fill (R81). -/
def State.fillDevice (s : State) (f : Fill) : ChipSelect :=
  match f.phase with
  | .issued ps => deviceOf s.settings ps
  | .queued => deviceOf s.settings (s.resolve f.key.sector)

/-- A fill of the phase told lies on a device. -/
def State.fillOn (s : State) (cs : ChipSelect) (issued : Bool) : Bool :=
  s.reads.fills.any fun f => s.fillDevice f == cs && (f.phase != .queued) == issued

/-- What the Commit Engine's next transaction is: its physical sector and whether it is a program (R105). -/
def CommitRecord.claim (c : CommitRecord) : Option (Nat × Bool) :=
  if c.granted then none
  else
    match c.work with
    | .probeRead _ _ _ => some (c.oldPs, false)
    | .programSpan _ _ => some (c.oldPs, true)
    | .copyWindow _ => some (c.oldPs, false)
    | .copyLine _ _ _ _ => some (c.oldPs, false)
    | .copyProgram _ _ => some (c.target.getD 0, true)
    | _ => none

/-- A claim of the Commit Engine of the kind told waits for a device. -/
def State.commitClaimOn (s : State) (cs : ChipSelect) (program : Bool) : Bool :=
  match s.commit with
  | none => false
  | some c =>
    match c.claim with
    | none => false
    | some x => deviceOf s.settings x.1 == cs && x.2 == program

/-- The Map Journal can append (R133). -/
def State.canAppend (s : State) : Bool :=
  !s.journal.fenced && s.journal.active.isSome && !s.journalFull && s.journal.run.isNone
    && (s.bridge.state == .service || s.bridge.state == .quiesce)

/-- The Map Journal claims a program of the head record (R133). -/
def State.appendClaim (s : State) : Option QueueItem :=
  if s.canAppend then
    match s.journal.queue with
    | [] => none
    | q :: _ => if q.inProgress then none else some q
  else none

/-- The bank being written has a window to program (R138, R148). -/
def State.bankProgramClaim (s : State) : Bool :=
  match s.journal.run with
  | none => false
  | some r => !r.inProgress && !r.abandoned

/-- A program of the Map Journal waits. -/
def State.journalProgramWaits (s : State) : Bool := s.appendClaim.isSome || s.bankProgramClaim

/-- A RESUME is on the bus for a device. -/
def FlashBus.resuming (x : FlashBus) (cs : ChipSelect) : Bool :=
  match x.tx with
  | none => false
  | some t => t.use == .resume && t.cs == cs

/-- A RESUME is due for a device: R121 outside QUIESCE and HALTED, R122 in QUIESCE, never in HALTED. -/
def State.resumeDue (s : State) (cs : ChipSelect) : Bool :=
  match s.bus.dev cs with
  | none => false
  | some d =>
    d.state == .eraseSuspended && !s.bus.resuming cs
      && (match s.bridge.state with
        | .halted => false
        | .quiesce =>
          (s.commitClaimOn cs true || (cs == .cs0 && s.journalProgramWaits))
            && !s.fillOn cs false && !s.commitClaimOn cs false
        | _ => !s.fillOn cs true && (!s.fillOn cs false || d.fillsTaken == Config.fillsPerSuspension))

/-- The RESUMEs due, in the order in which they became due (R118; log 25). Of two that become due in one step, of which R118
says nothing, chip select 0 goes first (log 56). -/
def State.noteResumes (s : State) : State :=
  let kept := s.bus.resumesDue.filter fun cs => s.resumeDue cs
  let new := [ChipSelect.cs0, .cs1].filter fun cs => s.resumeDue cs && !kept.contains cs
  s.setBus { s.bus with resumesDue := kept ++ new }

/-- The outcome of a command that may bear on the flash bus. -/
def State.noted (s : State) : Host.Outcome State Fault Refusal := .next s.noteResumes

end Sys2Proof.Machine
end

