-- ==== Sys2Proof/Machine/Records.lean ====
section
/-! DEFINITION. The records of the journal banks as bytes: their encoding, their reading back, and the layout of a bank that
a compaction or a first boot writes (08 R130 to R132, R138; 11 R169). -/

namespace Sys2Proof.Machine

/-! ## Encoding (R169) -/

/-- Bytes followed by their CRC-16, least significant byte first (R130, R169). -/
def withCrc (bytes : List Byte) : List Byte := bytes ++ le2 (crc16 bytes).toNat

/-- The coding of a RETIRE's cause (R169). -/
def RetireCause.code : RetireCause → Byte
  | .program => 0x01
  | .erase => 0x02

/-- The 14 bytes of a delta record before its check (R169). -/
def Delta.body (seq : Nat) : Delta → List Byte
  | .map ls newPs oldPs => [0x01, 0x00] ++ le4 seq ++ le2 ls ++ le2 newPs ++ le2 oldPs ++ [0x00, 0x00]
  | .erased ps => [0x02, 0x00] ++ le4 seq ++ le2 ps ++ [0x00, 0x00, 0x00, 0x00, 0x00, 0x00]
  | .retire ps cause => [0x03, cause.code] ++ le4 seq ++ le2 ps ++ [0x00, 0x00, 0x00, 0x00, 0x00, 0x00]

/-- The 16 bytes of a delta record's slot (R130, R169). -/
def Delta.bytes (d : Delta) (seq : Nat) : List Byte := withCrc (d.body seq)

/-- The 16 bytes of a BANK_OPEN (R169). -/
def bankOpenBytes (seq : Nat) (generation : BitVec 32) : List Byte :=
  withCrc ([0x04, 0x00] ++ le4 seq ++ le4 generation.toNat ++ [0x00, 0x00, 0x00, 0x00])

/-- The 16 bytes of an IMAGE_END (R169). -/
def imageEndBytes (seq images listed : Nat) : List Byte :=
  withCrc ([0x05, 0x00] ++ le4 seq ++ le2 images ++ le2 listed ++ [0x00, 0x00, 0x00, 0x00])

/-- Entry i of the image record of first LS 24·k: FFFFh for a sector number of L or above (R131). -/
def imageEntry (table : List Nat) (k i : Nat) : Nat := table.getD (24 * k + i) 0xFFFF

/-- The 64 bytes of image record k (R131, R169). -/
def imageBytes (table : List Nat) (k seq : Nat) : List Byte :=
  withCrc ([0x06, 0x00] ++ le4 seq ++ le2 (24 * k) ++ ((List.range 24).flatMap fun i => le2 (imageEntry table k i))
    ++ [0x00, 0x00, 0x00, 0x00, 0x00, 0x00])

/-! ## The layout of a bank (R131, R138) -/

/-- What a slot of a newly written bank holds (R131). -/
inductive BankPart where
  | opening
  | padding
  | image (k : Nat)
  /-- The second to fourth slot of an image record. -/
  | continued
  | listed (d : Delta)
  | closing
  | beyond
deriving DecidableEq, Repr

/-- N, the number of image records (R131). -/
def imageCount (c : Settings) : Nat := (c.windowSectors + 23) / 24

/-- The records of the list section in order (R131). -/
def Collections.list (x : Collections) : List Delta :=
  x.pool.map Delta.erased ++ x.retired.map fun r => Delta.retire r.ps r.cause

/-- The slot of the IMAGE_END (R131). -/
def closingSlot (c : Settings) (x : Collections) : Nat := 4 + 4 * imageCount c + x.list.length

/-- The part that stands in a slot (R131). -/
def bankPart (c : Settings) (x : Collections) (slot : Nat) : BankPart :=
  let listAt := 4 + 4 * imageCount c
  if slot = 0 then .opening
  else if slot < 4 then .padding
  else if slot < listAt then (if slot % 4 = 0 then .image (slot / 4 - 1) else .continued)
  else
    match x.list[slot - listAt]? with
    | some d => .listed d
    | none => if slot = closingSlot c x then .closing else .beyond

/-- A part is a record, which takes a sequence number (R132). -/
def BankPart.takesNumber : BankPart → Bool
  | .opening => true
  | .padding => false
  | .image _ => true
  | .continued => false
  | .listed _ => true
  | .closing => true
  | .beyond => false

/-- The bytes a part gives; padding is sent as FFh (R138). -/
def BankPart.bytes (c : Settings) (x : Collections) (generation : BitVec 32) (seq : Nat) : BankPart → List Byte
  | .opening => bankOpenBytes seq generation
  | .padding => List.replicate 16 0xFF
  | .image k => imageBytes x.table k seq
  | .continued => []
  | .listed d => d.bytes seq
  | .closing => imageEndBytes seq (imageCount c) x.list.length
  | .beyond => []

/-- The bytes of parts in slot order, their records numbered from `seq` on (R138). -/
def partsBytes (c : Settings) (x : Collections) (generation : BitVec 32) : List BankPart → Nat → List Byte
  | [], _ => []
  | p :: rest, seq =>
    p.bytes c x generation seq ++ partsBytes c x generation rest (if p.takesNumber then seq + 1 else seq)

/-- The parts of window k of a bank (R138). -/
def windowParts (c : Settings) (x : Collections) (k : Nat) : List BankPart :=
  (List.range 16).map fun i => bankPart c x (16 * k + i)

/-- How many sequence numbers a window takes (R132). -/
def windowNumbers (c : Settings) (x : Collections) (k : Nat) : Nat :=
  ((windowParts c x k).filter BankPart.takesNumber).length

/-- The bytes of window k of a bank: 256, or up to the end of its last record (R138). -/
def windowBytes (c : Settings) (x : Collections) (generation : BitVec 32) (k seq : Nat) : List Byte :=
  partsBytes c x generation (windowParts c x k) seq

/-- The window that holds the IMAGE_END (R138). -/
def lastWindow (c : Settings) (x : Collections) : Nat := closingSlot c x / 16

/-! ## Reading records back (R130, R131, R169) -/

/-- A record read from a slot. -/
inductive Record where
  | delta (d : Delta)
  | bankOpen (generation : Nat)
  | imageEnd (images listed : Nat)
  | image (first : Nat) (entries : List Nat)
deriving DecidableEq, Repr

/-- What stands in a slot (R130). -/
inductive SlotContent where
  | empty
  | torn
  | valid (seq : Nat) (r : Record)
deriving DecidableEq, Repr

/-- Byte i of bytes. -/
def at1 (bytes : List Byte) (i : Nat) : Byte := bytes.getD i 0xFF

/-- The number of two bytes at i. -/
def at2 (bytes : List Byte) (i : Nat) : Nat := fromLE [at1 bytes i, at1 bytes (i + 1)]

/-- The number of four bytes at i. -/
def at4 (bytes : List Byte) (i : Nat) : Nat :=
  fromLE [at1 bytes i, at1 bytes (i + 1), at1 bytes (i + 2), at1 bytes (i + 3)]

/-- The check of a record of `n` bytes equals the CRC-16 of the bytes before it (R130, R131). -/
def checkHolds (bytes : List Byte) (n : Nat) : Bool := at2 bytes (n - 2) == (crc16 (bytes.take (n - 2))).toNat

/-- The cause a RETIRE's byte names (R169; log 42). -/
def causeOf (byte : Byte) : RetireCause :=
  if byte = 0x01 then .program
  else if byte = 0x02 then .erase
  else if Config.freeCause byte then .program else .erase

/-- The delta-sized record of a slot whose check holds, by its kind (R169). -/
def recordOf (slot : List Byte) : Option Record :=
  match (at1 slot 0).toNat with
  | 0x01 => some (.delta (.map (at2 slot 6) (at2 slot 8) (at2 slot 10)))
  | 0x02 => some (.delta (.erased (at2 slot 6)))
  | 0x03 => some (.delta (.retire (at2 slot 6) (causeOf (at1 slot 1))))
  | 0x04 => some (.bankOpen (at4 slot 6))
  | 0x05 => some (.imageEnd (at2 slot 6) (at2 slot 8))
  | _ => none

/-- What the 16 bytes of a slot hold, as a record of one slot (R130). -/
def readSlot (slot : List Byte) : SlotContent :=
  if slot.all fun x => x == 0xFF then .empty
  else if checkHolds slot 16 then
    match recordOf slot with
    | some r => .valid (at4 slot 2) r
    | none => .torn
  else .torn

/-- What the 64 bytes at an image record's place hold (R131). -/
def readImage (bytes : List Byte) : SlotContent :=
  if bytes.all fun x => x == 0xFF then .empty
  else if at1 bytes 0 = 0x06 && checkHolds bytes 64 then
    .valid (at4 bytes 2) (.image (at2 bytes 6) ((List.range 24).map fun i => at2 bytes (8 + 2 * i)))
  else .torn

/-- The n bytes at slot k of a bank's windows. -/
def bytesAt (windows : List Window) (k n : Nat) : List Byte :=
  match windows[k / 16]? with
  | none => []
  | some w => (w.bytes.drop (16 * (k % 16))).take n

/-- What slot k of a bank holds (R130). -/
def slotAt (windows : List Window) (k : Nat) : SlotContent := readSlot (bytesAt windows k 16)

/-- What the image place at slot k holds (R131). -/
def imageAt (windows : List Window) (k : Nat) : SlotContent := readImage (bytesAt windows k 64)

end Sys2Proof.Machine
end

