-- ==== Sys2Proof/Machine/Rebuild.lean ====
section
/-! DEFINITION. REBUILD (08 R142 to R148): the contenders, the examination of an opening part, replay, the check, the
completion, and the first boot. -/

namespace Sys2Proof.Machine

/-! ## The opening part (R142) -/

/-- How far a scan of windows has come: it has failed, it needs a further window, or it is done. -/
inductive Scan (α : Type) where
  | bad
  | more
  | done (a : α)
deriving DecidableEq, Repr

/-- Slots held by the windows read so far. -/
def slotsRead (windows : List Window) : Nat := 16 * windows.length

/-- The image records from record k on, n of them, after a record of number `prev`; the entries in order (R142). -/
def scanImages (windows : List Window) : Nat → Nat → Nat → List Nat → Scan (Nat × List Nat)
  | 0, _, prev, entries => .done (prev, entries)
  | n + 1, k, prev, entries =>
    if slotsRead windows < 4 + 4 * k + 4 then .more
    else
      match imageAt windows (4 + 4 * k) with
      | .valid seq (.image first es) =>
        if first = 24 * k ∧ prev < seq then scanImages windows n (k + 1) seq (entries ++ es) else .bad
      | _ => .bad

/-- What the list section and the IMAGE_END give: the slot and number of the IMAGE_END and the two lists (R142). -/
structure Listing where
  closing : Nat
  seq : Nat
  free : List Nat
  retired : List RetiredSector
deriving DecidableEq, Repr

/-- The list section from a slot on up to the IMAGE_END (R142). -/
def scanList (windows : List Window) (images : Nat) : Nat → Nat → Nat → List Nat → List RetiredSector → Scan Listing
  | 0, _, _, _, _ => .more
  | n + 1, slot, prev, free, retired =>
    if slotsRead windows ≤ slot then .more
    else
      match slotAt windows slot with
      | .valid seq (.delta (.erased ps)) =>
        if prev < seq && retired.isEmpty then scanList windows images n (slot + 1) seq (free ++ [ps]) retired else .bad
      | .valid seq (.delta (.retire ps cause)) =>
        if prev < seq then scanList windows images n (slot + 1) seq free (retired ++ [⟨ps, cause⟩]) else .bad
      | .valid seq (.imageEnd n' listed) =>
        if prev < seq && n' == images && listed == free.length + retired.length then .done ⟨slot, seq, free, retired⟩
        else .bad
      | _ => .bad

/-- The opening part of a contender in the windows read so far: the image entries and the listing (R142). -/
def scanOpening (c : Settings) (opened : Nat) (windows : List Window) : Scan (List Nat × Listing) :=
  match scanImages windows (imageCount c) 0 opened [] with
  | .bad => .bad
  | .more => .more
  | .done (seq, entries) =>
    match scanList windows (imageCount c) (slotsRead windows) (4 + 4 * imageCount c) seq [] [] with
    | .bad => .bad
    | .more => .more
    | .done l => .done (entries, l)

/-! ## Replay (R143 to R145) -/

/-- A replay in progress (R143): the table, the free list, the retired set, whether a failure is carried forward, and the
last record applied with its number and slot. -/
structure Replay where
  table : List Nat
  free : List Nat
  retired : List RetiredSector
  failed : Bool
  last : Option Delta
  lastSeq : Nat
  lastSlot : Option Nat
deriving DecidableEq, Repr

/-- The opening part replayed (R143). An image entry of a sector number of L or above is passed over whatever it holds, R131's
FFFFh or another value: no failure that R142 lists names it (log 63). -/
def Replay.start (c : Settings) (entries : List Nat) (l : Listing) : Replay where
  table := entries.take c.windowSectors
  free := l.free
  retired := l.retired
  failed := (entries.take c.windowSectors).any fun e => e == 0xFFFF
  last := none
  lastSeq := l.seq
  lastSlot := none

/-- A free list after a record shows that `ps` was taken from it: it and every sector ahead of it leave (R144). -/
def takenFrom (free : List Nat) (ps : Nat) : List Nat := (free.dropWhile fun x => x != ps).drop 1

/-- The sector is in the retired set. -/
def Replay.isRetired (r : Replay) (ps : Nat) : Bool := r.retired.any fun x => x.ps == ps

/-- A delta record applied (R144). An ERASED or a RETIRE of a sector outside the data area, which R144's table has no row for
where the free list does not name it, joins its list without a failure (log 57). The previous sector of a MAP leaves the table
alone, also where an inconsistent opening part lists it as free or retired too (log 58). -/
def Replay.apply (r : Replay) : Delta → Replay
  | .map ls newPs oldPs =>
    { r with
      table := r.table.set ls newPs
      free := if r.free.contains newPs then takenFrom r.free newPs else r.free
      failed := r.failed || r.table[ls]? != some oldPs || r.isRetired newPs
        || (r.table.zipIdx.any fun x => x.1 == newPs && x.2 != ls) }
  | .erased ps =>
    if r.table.contains ps || r.isRetired ps then { r with failed := true }
    else { r with free := (if r.free.contains ps then takenFrom r.free ps else r.free) ++ [ps] }
  | .retire ps cause =>
    if r.table.contains ps || r.isRetired ps then { r with failed := true }
    else
      { r with
        free := if r.free.contains ps then takenFrom r.free ps else r.free
        retired := r.retired ++ [⟨ps, cause⟩] }

/-- A record found: applied, or skipped as a repeat of the one before it; then it is the last (R144; log 15). -/
def Replay.take (r : Replay) (slot seq : Nat) (d : Delta) : Replay :=
  { (if r.last == some d then r else r.apply d) with last := some d, lastSeq := seq, lastSlot := some slot }

/-- The scan of a sector from a slot on, at most n slots (R145). -/
def scanSector (windows : List Window) : Nat → Nat → Replay → Replay
  | 0, _, r => r
  | n + 1, slot, r =>
    match slotAt windows slot with
    | .valid seq (.delta d) =>
      if r.lastSeq < seq then scanSector windows n (slot + 1) (r.take slot seq d) else r
    | _ => r

/-- The delta area replayed, sector by sector (R145). -/
def replayDeltas (c : Settings) (windows : List Window) (closing : Nat) (r : Replay) : Replay :=
  ((List.range c.bankSectors).filter fun k => decide ((closing + 1) / 256 ≤ k)).foldl
    (fun t k =>
      let start := max (closing + 1) (256 * k)
      scanSector windows (256 * (k + 1) - start) start t) r

/-- The slots of the delta area (R145). -/
def deltaSlots (c : Settings) (closing : Nat) : List Nat :=
  (List.range (c.bankSectors * Config.slotsPerSector)).filter fun k => decide (closing < k)

/-- The append pointer after a replay (R145). -/
def pointerAfter (c : Settings) (windows : List Window) (closing : Nat) (r : Replay) : Nat :=
  match ((deltaSlots c closing).filter fun k => slotAt windows k != .empty).getLast? with
  | none => closing + 1
  | some k => if r.lastSlot = some k then k + 1 else (k / 256 + 1) * 256

/-- The sequence number of a valid record in a slot, 0 where there is none. -/
def validSeq (windows : List Window) (k : Nat) : Nat :=
  match slotAt windows k with
  | .valid seq _ => seq
  | _ =>
    if k % 4 = 0 then
      match imageAt windows k with
      | .valid seq _ => seq
      | _ => 0
    else 0

/-- The next sequence number: one more than the greatest valid number read in the bank (R145; log 16). A record in a padding
slot, 1 to 3, is not among those read (log 65). -/
def nextSeqAfter (c : Settings) (windows : List Window) (l : Listing) : Nat :=
  ((deltaSlots c l.closing).foldl (fun m k => max m (validSeq windows k)) l.seq) + 1

/-- The head of the free list made stale when replay ends (R146). -/
def Replay.finish (r : Replay) : Replay := { r with free := r.free.drop 1 }

/-- A physical sector of the data area (R3). -/
def inDataArea (c : Settings) (ps : Nat) : Bool := decide (c.dataBase ≤ ps) && decide (ps < c.totalSectors)

/-- The check of a finished replay (R146). -/
def Replay.passes (c : Settings) (r : Replay) : Bool :=
  let named := r.table ++ r.free ++ r.retired.map RetiredSector.ps
  r.table.length == c.windowSectors && named.all (inDataArea c) && decide named.Nodup
    && decide (r.free.length + r.retired.length ≤ c.spares) && !r.failed

/-- The stale data-area sectors in ascending order, as erase queue entries (R11, R147). -/
def Replay.stale (c : Settings) (r : Replay) : List QueuedSector :=
  (((List.range c.totalSectors).filter fun ps => inDataArea c ps && !r.table.contains ps && !r.free.contains ps
    && !r.isRetired ps)).map fun ps => ⟨ps, false⟩

/-! ## The outcomes of REBUILD -/

/-- REBUILD fails: the event, and RAW (R142, R148). -/
def State.rebuildFailed (s : State) (code : DetailCode) : State :=
  (s.raise { kind := .rebuildFailed, code := some code }).enterRaw

/-- REBUILD completed from step 4 on: WORN, the low mark, the compaction state, SERVICE_READY (R147). -/
def State.rebuildDone (s : State) : State :=
  let worn := s.map.pool.isEmpty && s.map.queue.isEmpty && s.map.retired.length == s.settings.spares
  let t := s.setMap { s.map with
    valid := true, worn := worn, lowArmed := decide (s.settings.lowMark ≤ s.map.pool.length) }
  let u := if worn then t.raise { kind := .worn, value := some s.map.retired.length } else t
  let v := u.setJournal { u.journal with
    rebuild := .idle
    compaction := if u.freeSlots < Config.compactionTrigger then .pending else .idle }
  (v.raise { kind := .serviceReady, value := some v.journal.generation.toNat }).enterService

/-- The identity default (R6). -/
def identityTable (c : Settings) : List Nat := (List.range c.windowSectors).map fun n => c.dataBase + n

/-- The erase queue of a first boot: the spares in ascending order (R148). -/
def identityQueue (c : Settings) : List QueuedSector :=
  (List.range c.spares).map fun i => ⟨c.dataBase + c.windowSectors + i, false⟩

/-- First boot begins: bank A is STALE and is to be erased (R148). -/
def State.firstBoot (s : State) : State :=
  s.setJournal { s.journal with bankA := some ⟨.stale, none⟩, rebuild := .firstErase }

/-- Bank A has been erased at first boot: it is written with an identity map (R148). -/
def State.firstBootWrite (s : State) : State :=
  s.setJournal { s.journal with
    bankA := some ⟨.compacting, some 1⟩
    nextSeq := 1
    rebuild := .firstWrite
    run := some ⟨.a, 1, ⟨identityTable s.settings, [], []⟩, 0, false, false⟩ }

/-- Bank A has been written at first boot (R148, steps 1, 2, 5 and 6; log 20). -/
def State.firstBootDone (s : State) (r : BankRun) : State :=
  State.rebuildDone { s with
    map := { SectorMap.empty with remap := identityTable s.settings, queue := identityQueue s.settings }
    journal := { s.journal with
      bankA := some ⟨.active, some 1⟩
      bankB := some ⟨.stale, none⟩
      pointer := closingSlot s.settings r.copy + 1
      run := none } }

/-- A contender passed the check: its bank becomes ACTIVE and its replay the map (R146, R147). -/
def State.choose (s : State) (c : Contender) (windows : List Window) (l : Listing) (r : Replay) : State :=
  State.rebuildDone { s with
    map := { SectorMap.empty with
      remap := r.table
      pool := r.finish.free
      queue := r.finish.stale s.settings
      retired := r.retired.foldl (fun acc x => insertRetired x acc) [] }
    journal := (({ s.journal with
      pointer := pointerAfter s.settings windows l.closing r
      nextSeq := nextSeqAfter s.settings windows l } : MapJournal).setRow c.bank
        (some ⟨.active, some (BitVec.ofNat 32 c.generation)⟩)).setRow c.bank.other (some ⟨.stale, none⟩) }

/-! ## The examination of contenders (R142) -/

/-- The contenders in order from one on: one whose first window already fails is passed over; when they run out, first boot
or REBUILD_FAILED (R142; log 13). -/
def State.examine (s : State) : List Contender → Bool → State
  | [], spoiled => if spoiled then s.rebuildFailed .noBank else s.firstBoot
  | c :: rest, spoiled =>
    match scanOpening s.settings c.sequence [c.window0] with
    | .bad => s.examine rest (spoiled || c.generation != 1)
    | _ => s.setJournal { s.journal with rebuild := .examine c [c.window0] rest spoiled }

/-- Every window of the bank has been read. -/
def State.bankRead (s : State) (windows : List Window) : Bool := decide (16 * s.settings.bankSectors ≤ windows.length)

/-- A contender judged after a further window (R142 to R146; log 14). -/
def State.judge (s : State) (c : Contender) (windows : List Window) (rest : List Contender) (spoiled : Bool) : State :=
  match scanOpening s.settings c.sequence windows with
  | .bad => s.examine rest (spoiled || c.generation != 1)
  | .more =>
    if s.bankRead windows then s.examine rest (spoiled || c.generation != 1)
    else s.setJournal { s.journal with rebuild := .examine c windows rest spoiled }
  | .done (entries, l) =>
    if s.bankRead windows then
      let r := replayDeltas s.settings windows l.closing (Replay.start s.settings entries l)
      if r.finish.passes s.settings then s.choose c windows l r else s.examine rest true
    else s.setJournal { s.journal with rebuild := .examine c windows rest spoiled }

/-- The contender that a bank's window 0 makes, if its slot 0 holds a valid BANK_OPEN (R142). -/
def contenderOf (bank : Bank) (w : Window) : Option Contender :=
  match slotAt [w] 0 with
  | .valid seq (.bankOpen generation) => some ⟨bank, generation, seq, w⟩
  | _ => none

/-- The first of two contenders comes before the second: higher generation, then higher BANK_OPEN number (R142). -/
def Contender.before (x y : Contender) : Bool :=
  decide (y.generation < x.generation) || (x.generation == y.generation && decide (y.sequence < x.sequence))

/-- The contenders of the two banks in the order of their examination; where generation and number are equal the spec gives
no order and a free choice is taken (R142; log 12). -/
def State.contenders (s : State) (windowA windowB : Window) : List Contender × Nat :=
  match contenderOf .a windowA, contenderOf .b windowB with
  | none, none => ([], s.free)
  | some x, none => ([x], s.free)
  | none, some y => ([y], s.free)
  | some x, some y =>
    if x.before y then ([x, y], s.free)
    else if y.before x then ([y, x], s.free)
    else (freely s.free [x, y], s.free + 1)

/-- A window read of a bank ends in REBUILD (R142). -/
def State.rebuildRead (s : State) (w : Window) : State :=
  match s.journal.rebuild with
  | .readA => s.setJournal { s.journal with rebuild := .readB w }
  | .readB windowA =>
    let r := s.contenders windowA w
    (s.setFree r.2).examine r.1 false
  | .examine c windows rest spoiled => s.judge c (windows ++ [w]) rest spoiled
  | _ => s

end Sys2Proof.Machine
end

