-- ==== Sys2Proof/Machine/Journal.lean ====
section
/-! DEFINITION. The Map Journal in service: FENCED, the compaction trigger, the ends of appends and of bank programs, and the
ends of erases (07 R123 to R127; 08 R132 to R141, R148). -/

namespace Sys2Proof.Machine

/-! ## FENCED (R140) -/

/-- FENCED is set: the event, compaction IDLE, a bank being written STALE, records not granted refused, erase claims
withdrawn, the commit told (R97, R123, R140). When it is set already nothing happens (log 28). FENCED is received before
the COMMIT_FAILED that it brings about (log 50). -/
def State.setFenced (s : State) (code : DetailCode) : State :=
  if s.journal.fenced then s
  else
    let j := { s.journal with
      fenced := true, compaction := .idle, run := none, queue := s.journal.queue.filter fun q => q.inProgress }
    let j' := match s.journal.run with
      | none => j
      | some r => j.setRow r.bank (some ⟨.stale, none⟩)
    ((((s.setJournal j').raise { kind := .fenced, code := some code }).withdrawHeldClaims)).commitFenced

/-! ## The trigger (R136) -/

/-- Judged at each move of the pointer: below 256 free slots in SERVICE a compaction becomes PENDING (R136). -/
def State.judgeTrigger (s : State) : State :=
  if s.bridge.state == .service && s.journal.compaction == .idle && !s.journal.fenced && s.journal.active.isSome
      && decide (s.freeSlots < Config.compactionTrigger) then
    (s.setJournal { s.journal with compaction := .pending }).withdrawHeldClaims
  else s

/-- A full journal is reported to the Commit Engine when a record of it waits (R101, R135). -/
def State.reportFull (s : State) : State :=
  if s.journalFull && s.journal.waiting .commit then s.commitFull else s

/-! ## The Erase Engine told of its record (R12, R13, R124) -/

/-- ERASED has been appended: the sector leaves the queue for the pool tail, or passes to a waiting take (R9, R10, R12). -/
def State.eraseRecorded (s : State) (ps : Nat) : State :=
  let r := ({ s.map with queue := s.map.queue.filter fun q => q.ps != ps } : SectorMap).join s.settings.lowMark ps
  let t := (s.setErase { s.erase with wait := none }).setMap r.1
  if r.2 then
    match t.commit with
    | none => t
    | some c => t.commitGranted c ps
  else t

/-- RETIRE(ERASE) has been appended: the sector is retired; a take left without any sector to come is refused (R10, R12,
R13). -/
def State.retireRecorded (s : State) (ps : Nat) (cause : RetireCause) : State :=
  let m := { s.map with queue := s.map.queue.filter fun q => q.ps != ps }
  let t := ((s.setErase { s.erase with wait := none }).setMap m).retire ps cause
  if t.map.taking && t.map.pool.isEmpty && t.map.queue.isEmpty then
    match t.commit with
    | none => t.setWorn
    | some c => t.setWorn.commitFailed c
  else t

/-- The claimant is told that its record is appended (R133). -/
def State.tellAppended (s : State) (q : QueueItem) : State :=
  match q.claimant with
  | .commit => s.commitAppended
  | .erase =>
    match q.record with
    | .map _ _ _ => s
    | .erased ps => s.eraseRecorded ps
    | .retire ps cause => s.retireRecorded ps cause

/-! ## The end of an append (R133, R134) -/

/-- Success: the pointer moves on, the record leaves the queue, the claimant is told (R133, R135, R136). -/
def State.appended (s : State) (q : QueueItem) : State :=
  (((s.setJournal { s.journal with
    pointer := s.journal.pointer + 1
    queue := s.journal.queue.filter fun x => !x.inProgress }).judgeTrigger).tellAppended q).reportFull

/-- The pointer after a failed append: slot 0 of the bank's next sector (R134). -/
def nextSector (pointer : Nat) : Nat := (pointer / Config.slotsPerSector + 1) * Config.slotsPerSector

/-- Failure: the slot is abandoned and the record waits to be written again; under FENCED it is refused instead (R134,
R140). -/
def State.appendFailed (s : State) : State :=
  if s.journal.fenced then
    (s.setJournal { s.journal with pointer := nextSector s.journal.pointer, queue := [] }).commitFenced
  else
    ((s.setJournal { s.journal with
      pointer := nextSector s.journal.pointer
      queue := s.journal.queue.map fun q => { q with inProgress := false } }).judgeTrigger).reportFull

/-- The program of an append ends (R133, R134). -/
def State.appendEnd (s : State) (ok : Bool) : State :=
  match s.journal.queue.find? fun q => q.inProgress with
  | none => s
  | some q => if ok then s.appended q else s.appendFailed

/-! ## The end of a bank program (R138, R139, R141, R148) -/

/-- The program that holds the IMAGE_END has ended successfully: the bank becomes ACTIVE (R138). JOURNAL_COMPACTED is
received before the events of the take that the end of the hold lets through (R97; log 50). -/
def State.compacted (s : State) (r : BankRun) : State :=
  let j := { s.journal with
    pointer := closingSlot s.settings r.copy + 1, compaction := .idle, attempt := 1, run := none }
  let j' := (j.setRow r.bank (some ⟨.active, some r.generation⟩)).setRow r.bank.other (some ⟨.stale, none⟩)
  (((s.setJournal j').raise
    { kind := .journalCompacted, value := some r.generation.toNat }).judgeTrigger).commitHoldEnd

/-- A program of a compaction has failed (R139, R141). -/
def State.compactionFailed (s : State) (r : BankRun) : State :=
  let t := s.setJournal (({ s.journal with run := none } : MapJournal).setRow r.bank (some ⟨.stale, none⟩))
  if r.abandoned then t
  else if s.journal.attempt == 1 then t.setJournal { t.journal with compaction := .pending, attempt := 2 }
  else t.setFenced .compaction

/-- REBUILD has come to the step of the first boot told (R148). -/
def State.firstBootAt (s : State) (step : Rebuild) : Bool := s.bridge.state == .rebuild && s.journal.rebuild == step

/-- A program of the bank being written ends (R138, R139, R141, R148). -/
def State.bankProgramEnd (s : State) (r : BankRun) (ok : Bool) : State :=
  if s.firstBootAt .firstWrite then
    if s.stopWaits then s
    else if !ok then s.rebuildFailed .program
    else if r.window == lastWindow s.settings r.copy then s.firstBootDone r
    else s.setJournal { s.journal with run := some { r with window := r.window + 1, inProgress := false } }
  else if !ok then s.compactionFailed r
  else if r.window == lastWindow s.settings r.copy then s.compacted r
  else if r.abandoned then
    s.setJournal (({ s.journal with run := none } : MapJournal).setRow r.bank (some ⟨.stale, none⟩))
  else s.setJournal { s.journal with run := some { r with window := r.window + 1, inProgress := false } }

/-- A program of the Map Journal ends. -/
def State.journalProgramEnd (s : State) (ok : Bool) : State :=
  match s.journal.run with
  | none => s.appendEnd ok
  | some r => if r.inProgress then s.bankProgramEnd r ok else s.appendEnd ok

/-! ## The end of an erase (R12, R124 to R127) -/

/-- The Erase Engine asks for a record from its record wait; under FENCED it is refused at once and the wait stays (R125,
R140). -/
def State.eraseAsk (s : State) (ps : Nat) (retire : Bool) : State :=
  let t := s.setErase { s.erase with wait := some ⟨ps, retire⟩ }
  if t.journal.fenced then t else t.enqueue .erase (if retire then .retire ps .erase else .erased ps)

/-- The mark of the sector at the head of the erase queue. -/
def SectorMap.headMarked (m : SectorMap) : Bool :=
  match m.queue with
  | [] => false
  | q :: _ => q.failedOnce

/-- A DATA erase ends (R12, R124, R125). -/
def State.dataEraseEnd (s : State) (ps : Nat) (ok : Bool) : State :=
  if !ok && !s.map.headMarked then s.setMap s.map.requeueHead
  else if s.bridge.state == .halted then s
  else s.eraseAsk ps !ok

/-- A bank's sector has been erased: the next one, or the bank is ERASED; at first boot it is written (R126, R148). -/
def State.bankSectorErased (s : State) (w : BankWork) : State :=
  if w.place + 1 < s.settings.bankSectors then s.setErase { s.erase with bankWork := some ⟨w.bank, w.place + 1, 1⟩ }
  else
    let t := s.setErase { s.erase with bankWork := none }
    if t.firstBootAt .firstErase then t.firstBootWrite
    else t.setJournal (t.journal.setRow w.bank (some ⟨.erased, none⟩))

/-- The erase of a bank's sector has failed: once more, or the bank erase fails (R126, R139, R148). -/
def State.bankSectorFailed (s : State) (w : BankWork) : State :=
  if w.attempt == 1 then s.setErase { s.erase with bankWork := some ⟨w.bank, w.place, 2⟩ }
  else
    let t := s.setErase { s.erase with bankWork := none }
    if t.firstBootAt .firstErase then t.rebuildFailed .erase else t.setFenced .bankErase

/-- A sector erase of the Erase Engine ends (R124, R126, R127). -/
def State.eraseEnd (s : State) (ok : Bool) : State :=
  match s.erase.record with
  | none => s
  | some r =>
    let t := s.setErase { s.erase with record := none }
    match r.kind with
    | .data => t.dataEraseEnd r.ps ok
    | .bank w =>
      if t.stopWaits then t
      else if ok then t.bankSectorErased w else t.bankSectorFailed w
    | .raw => t.setErase { t.erase with raw := some ⟨r.ps, some (if ok then .erased else .timedOut)⟩ }

/-! ## The owner of an operation told of its end (R115, R116) -/

/-- The owner receives the result of its operation (R111, R115). -/
def State.tellOwner (s : State) (o : Owner) (ok : Bool) : State :=
  match o with
  | .commit => s.commitProgramEnd ok
  | .journal => s.journalProgramEnd ok
  | .erase => s.eraseEnd ok
  | .nobody => s

end Sys2Proof.Machine
end

