-- ==== Sys2Proof/Machine/Arbiter.lean ====
section
/-! DEFINITION. The arbiter and the transactions it grants (07 R112 to R114, R118 to R122; 02 R28, R29, R31; 05 R81; 08 R132,
R133, R138, R142). -/

namespace Sys2Proof.Machine

/-! ## Frames (R112) -/

/-- The frame of a line or window read (R112). -/
def readFrames (p : Profile) (addr : Nat) : List (List Byte) := [p.readOp :: addrBytes addr ++ List.replicate p.dummy 0x00]

/-- The frame of a status poll (R112). -/
def pollFrames (p : Profile) : List (List Byte) := [[p.readStatusOp]]

/-- The frames of a program (R112). -/
def programFrames (p : Profile) (addr : Nat) (bytes : List Byte) : List (List Byte) :=
  [[p.writeEnableOp], p.programOp :: addrBytes addr ++ bytes]

/-- The frames of an erase (R112). -/
def eraseFrames (p : Profile) (addr : Nat) : List (List Byte) := [[p.writeEnableOp], p.sectorEraseOp :: addrBytes addr]

/-- The transaction on the bus begins (R112). -/
def State.begin (s : State) (use : BusUse) (cs : ChipSelect) (addr : Option Nat) (frames : List (List Byte)) : State :=
  s.setBus { s.bus with tx := some ⟨use, cs, addr.map (BitVec.ofNat 24), frames⟩ }

/-- A read transaction begins (R112). -/
def State.beginRead (s : State) (use : BusUse) (cs : ChipSelect) (addr : Nat) : State :=
  s.begin use cs (some addr) (readFrames s.settings.profile addr)

/-- The device record at the grant of a program (R114). -/
def Device.startProgram (d : Device) (addr : Nat) (o : Owner) : Device :=
  { d with state := .busyProgram, op := some ⟨.program, some addr, o⟩, suspendRequested := false, pollTimer := false,
           opTimer := .stopped }

/-- The device record at the grant of an erase (R114, R120, R122). -/
def Device.startErase (d : Device) (addr : Nat) (o : Owner) : Device :=
  { d with state := .busyErase, op := some ⟨.erase, some addr, o⟩, suspendRequested := false, pollTimer := false,
           opTimer := .stopped, suspensions := 0, fillsTaken := 0, resumedInQuiesce := false, polledBusy := true }

/-- A program is granted (R112, R114). -/
def State.beginProgram (s : State) (cs : ChipSelect) (addr : Nat) (bytes : List Byte) (o : Owner) : State :=
  (s.begin .program cs (some addr) (programFrames s.settings.profile addr bytes)).mapDev cs
    fun d => d.startProgram addr o

/-- An erase is granted (R112, R114). -/
def State.beginErase (s : State) (cs : ChipSelect) (addr : Nat) (o : Owner) : State :=
  (s.begin .erase cs (some addr) (eraseFrames s.settings.profile addr)).mapDev cs fun d => d.startErase addr o

/-! ## What a device takes (R113, R120, R122) -/

/-- A test of the device record of a chip select; false where it has none. -/
def State.devIs (s : State) (cs : ChipSelect) (p : Device → Bool) : Bool :=
  match s.bus.dev cs with
  | none => false
  | some d => p d

/-- Suspended devices take fills without limit in QUIESCE and HALTED (R122). -/
def State.fillsUnlimited (s : State) : Bool := s.bridge.state == .quiesce || s.bridge.state == .halted

/-- A device takes the line read of a fill (R113, R120, R122). -/
def Device.takesFill (d : Device) (unlimited : Bool) : Bool :=
  d.state == .ready || (d.state == .eraseSuspended && (unlimited || decide (d.fillsTaken < Config.fillsPerSuspension)))

/-- A device takes a status poll when one is due (R113). -/
def Device.takesPoll (d : Device) : Bool :=
  match d.state with
  | .unknown => true
  | .ready => d.resumeStep == .pollWaits
  | .busyProgram => true
  | .busyErase => true
  | .eraseSuspended => false
  | .stuck => true

/-- A SUSPEND of a device's erase can be made at all: it is erasing, none is requested, the profile supports it, the bridge
is not HALTED, and no RESUME of QUIESCE has been made for the erase (R113, R120, R122). -/
def State.suspendable (s : State) (d : Device) : Bool :=
  d.state == .busyErase && !d.suspendRequested && s.settings.profile.suspendSupported && s.bridge.state != .halted
    && !(s.bridge.state == .quiesce && d.resumedInQuiesce)

/-- A SUSPEND for fill service is eligible for the device (R120, R122). -/
def State.fillSuspendable (s : State) (d : Device) : Bool :=
  s.suspendable d && decide (d.suspensions < Config.suspendMax) && d.polledBusy

/-! ## The claims of the five classes (R118) -/

/-- A claim that may receive a grant. -/
inductive Grant where
  /-- The line read of a QUEUED fill. -/
  | fill (f : Fill)
  /-- A SUSPEND for fill service. -/
  | fillSuspend (cs : ChipSelect)
  | poll (cs : ChipSelect)
  /-- The read of a line of the descriptor. -/
  | descriptor (line : Nat)
  /-- A window read of a bank in REBUILD. -/
  | bankRead (bank : Bank) (window : Nat)
  /-- The program of the head record. -/
  | append (q : QueueItem)
  /-- The program of the next window of a bank being written. -/
  | bankProgram (r : BankRun)
  /-- The Commit Engine's next transaction. -/
  | commit (c : CommitRecord)
  /-- A SUSPEND for a commit read in QUIESCE. -/
  | commitSuspend (cs : ChipSelect)
  /-- The RESUME that follows adoption. -/
  | loadResume (cs : ChipSelect)
  | resume (cs : ChipSelect)
  | erase (r : EraseRecord)
deriving DecidableEq, Repr

/-- Class FILL: the oldest eligible fill; when none is, a SUSPEND for the device of the oldest fill that waits for one
(R118, R120). -/
def State.fillClaim (s : State) : Option Grant :=
  let queued := s.reads.fills.filter fun f => f.phase == .queued
  match queued.find? fun f => s.devIs (s.fillDevice f) fun d => d.takesFill s.fillsUnlimited with
  | some f => some (.fill f)
  | none =>
    (queued.find? fun f => s.devIs (s.fillDevice f) fun d => s.fillSuspendable d).map
      fun f => .fillSuspend (s.fillDevice f)

/-- Class POLL: the poll that became due earliest; of the two that become due together at entry to LOAD either may be taken
(R28, R118; log 10). -/
def State.pollClaim (s : State) (tie : Bool) : Option Grant :=
  let due := s.bus.pollsDue.filter fun cs => s.devIs cs Device.takesPoll
  match due with
  | [] => none
  | [cs] => some (.poll cs)
  | cs :: other :: _ => some (.poll (if s.bus.pollsTied && tie then other else cs))

/-- Class JOURNAL: the reads of PS 0 in LOAD, line 0 before line 1 (log 52), the reads of REBUILD, a window of a bank being
written, or the head record (R29, R118, R133, R138, R142). -/
def State.journalClaim (s : State) : Option Grant :=
  if s.bridge.state == .load then
    if s.devIs .cs0 Device.takesRead then
      match s.bridge.load with
      | .readLine0 => some (.descriptor 0)
      | .readLine1 _ => some (.descriptor 1)
      | _ => none
    else none
  else if s.bridge.state == .rebuild && s.journal.rebuild != .firstWrite then
    if s.devIs .cs0 Device.takesRead then
      match s.journal.rebuild with
      | .readA => some (.bankRead .a 0)
      | .readB _ => some (.bankRead .b 0)
      | .examine c windows _ _ => some (.bankRead c.bank windows.length)
      | _ => none
    else none
  else if s.devIs .cs0 Device.takesProgram then
    match s.journal.run with
    | some r => if r.inProgress || r.abandoned then none else some (.bankProgram r)
    | none => s.appendClaim.map Grant.append
  else none

/-- Class COMMIT: the engine's next read or program, or in QUIESCE a SUSPEND for its read (R105, R118, R122). -/
def State.commitClaim (s : State) : Option Grant :=
  match s.commit with
  | none => none
  | some c =>
    match c.claim with
    | none => none
    | some (ps, program) =>
      let cs := deviceOf s.settings ps
      if s.devIs cs fun d => if program then d.takesProgram else d.takesRead then some (.commit c)
      else if !program && s.bridge.state == .quiesce && s.devIs cs fun d => s.suspendable d then
        some (.commitSuspend cs)
      else none

/-- The RESUME of R31 that comes first; it belongs to LOAD (R31; log 23). -/
def State.loadResumeClaim (s : State) : Option Grant :=
  if s.bridge.state != .load then none
  else if s.devIs .cs0 fun d => d.resumeStep == .resumeDue && d.state == .ready then some (.loadResume .cs0)
  else if s.devIs .cs1 fun d => d.resumeStep == .resumeDue && d.state == .ready then some (.loadResume .cs1)
  else none

/-- The erase presented by the Erase Engine, when its device can take it (R123). -/
def State.eraseClaim (s : State) : Option Grant :=
  match s.erase.record with
  | none => none
  | some r =>
    if !r.erasing && s.devIs (deviceOf s.settings r.ps) Device.takesProgram then some (.erase r) else none

/-- Class ERASE: a RESUME before an erase (R118). -/
def State.eraseClass (s : State) : Option Grant :=
  match s.loadResumeClaim with
  | some g => some g
  | none =>
    match s.bus.resumesDue.filter fun cs => s.resumeDue cs with
    | cs :: _ => some (.resume cs)
    | [] => s.eraseClaim

/-! ## The choice (R118, R119) -/

/-- A JOURNAL or COMMIT claim is eligible (R119). -/
def State.othersWait (s : State) : Bool := s.journalClaim.isSome || s.commitClaim.isSome

/-- The grant in class order and the burst count after it (R118, R119). -/
def State.inOrder (s : State) (tie : Bool) : Option (Grant × Nat) :=
  match s.fillClaim with
  | some g => some (g, if s.othersWait then s.bus.burst + 1 else 0)
  | none =>
    match s.pollClaim tie with
    | some g => some (g, s.bus.burst)
    | none =>
      match s.journalClaim with
      | some g => some (g, 0)
      | none =>
        match s.commitClaim with
        | some g => some (g, 0)
        | none => s.eraseClass.map fun g => (g, s.bus.burst)

/-- The grant that the arbiter makes and the burst count after it: at a count of 8 a JOURNAL or COMMIT claim goes first
(R118, R119). -/
def State.chosen (s : State) (tie : Bool) : Option (Grant × Nat) :=
  if s.bus.burst == Config.burstMax && s.othersWait then
    match s.journalClaim with
    | some g => some (g, 0)
    | none => s.commitClaim.map fun g => (g, 0)
  else s.inOrder tie

/-- The arbiter makes grants: the bus is idle, the bridge is not in RESET, and no request of LOAD or REBUILD waits (R118,
R153; log 18). -/
def State.arbiterOpen (s : State) : Bool := s.bus.tx.isNone && s.bridge.state != .reset && !s.stopWaits

/-! ## The grants -/

/-- A fill is issued: its physical sector is fixed and its line read begins (R81, R120). -/
def State.grantFill (s : State) (f : Fill) : State :=
  let ps := s.resolve f.key.sector
  let cs := deviceOf s.settings ps
  let t := s.setReads { s.reads with fills := s.reads.fills.map fun x =>
    if x == f then { x with phase := .issued ps } else x }
  (t.mapDev cs fun d => if d.state == .eraseSuspended then
      { d with fillsTaken := min Config.fillsPerSuspension (d.fillsTaken + 1) } else d).beginRead
    .fillRead cs (deviceAddr s.settings ps (64 * f.key.line))

/-- A SUSPEND is granted; one for fill service is counted (R120, R122). -/
def State.grantSuspend (s : State) (cs : ChipSelect) (counted : Bool) : State :=
  (s.mapDev cs fun d => { d with
    suspendRequested := true, fillsTaken := 0, suspensions := if counted then d.suspensions + 1 else d.suspensions }).begin
      .suspend cs none [[s.settings.profile.suspendOp]]

/-- A status poll is granted; what is due then is no longer tied (R28, R112, R114). -/
def State.grantPoll (s : State) (cs : ChipSelect) : State :=
  (s.setBus { s.bus with pollsDue := s.bus.pollsDue.filter fun x => x != cs, pollsTied := false }).begin .poll cs none
    (pollFrames s.settings.profile)

/-- The program of the head record is granted and takes its sequence number, or FENCED is set when none is left (R132,
R133, R140; log 32). -/
def State.grantAppend (s : State) (q : QueueItem) : State :=
  if Config.sequenceMax < s.journal.nextSeq then s.setFenced .sequence
  else
    match s.journal.active with
    | none => s
    | some bank =>
      (s.setJournal { s.journal with
        nextSeq := s.journal.nextSeq + 1
        queue := s.journal.queue.mapIdx fun i x => if i = 0 then { x with begun := true, inProgress := true } else x }
        ).beginProgram .cs0 (4096 * bankBase s.settings bank + 16 * s.journal.pointer)
          (q.record.bytes s.journal.nextSeq) .journal

/-- The program of a bank's window is granted and its records take their numbers (R132, R138, R140; log 32). -/
def State.grantBankProgram (s : State) (r : BankRun) : State :=
  let n := windowNumbers s.settings r.copy r.window
  if Config.sequenceMax < s.journal.nextSeq + n - 1 then s.setFenced .sequence
  else
    (s.setJournal { s.journal with
      nextSeq := s.journal.nextSeq + n, run := some { r with inProgress := true } }).beginProgram .cs0
        (4096 * bankBase s.settings r.bank + 256 * r.window)
        (windowBytes s.settings r.copy r.generation r.window s.journal.nextSeq) .journal

/-- The Commit Engine's transaction is granted (R94, R95, R98, R105). -/
def State.grantCommit (s : State) (c : CommitRecord) : State :=
  let t := s.setCommit (some { c with granted := true })
  let read := fun ps pos => t.beginRead .commitRead (deviceOf s.settings ps) (deviceAddr s.settings ps pos)
  let program := fun ps pos bytes =>
    t.beginProgram (deviceOf s.settings ps) (deviceAddr s.settings ps pos) bytes .commit
  match c.work with
  | .probeRead l _ _ => read c.oldPs (64 * l)
  | .copyWindow w => read c.oldPs (256 * w)
  | .copyLine _ l _ _ => read c.oldPs (64 * l)
  | .programSpan w _ => program c.oldPs (256 * w + (s.span c w).1) (s.spanBytes c w)
  | .copyProgram w bytes => program (c.target.getD 0) (256 * w) bytes
  | _ => s

/-- An erase is granted; a RAW erase invalidates the lines of its sector (R123, R124, R127). -/
def State.grantErase (s : State) (r : EraseRecord) : State :=
  let t := (s.setErase { s.erase with record := some { r with erasing := true } }).beginErase
    (deviceOf s.settings r.ps) (deviceAddr s.settings r.ps 0) .erase
  match r.kind with
  | .raw => t.setReads (t.reads.invalidateLines r.ps (List.range 64))
  | _ => t

/-- A RESUME is granted; in QUIESCE its grant sets the mark (R121, R122). -/
def State.grantResume (s : State) (cs : ChipSelect) : State :=
  let t := s.mapDev cs fun d => { d with resumedInQuiesce := d.resumedInQuiesce || s.bridge.state == .quiesce }
  (t.setBus { t.bus with resumesDue := t.bus.resumesDue.filter fun x => x != cs }).begin .resume cs none
    [[s.settings.profile.resumeOp]]

/-- The transaction of a grant begins. -/
def State.grant (s : State) : Grant → State
  | .fill f => s.grantFill f
  | .fillSuspend cs => s.grantSuspend cs true
  | .poll cs => s.grantPoll cs
  | .descriptor line => s.beginRead .descriptorRead .cs0 (64 * line)
  | .bankRead bank w => s.beginRead .journalRead .cs0 (4096 * bankBase s.settings bank + 256 * w)
  | .append q => s.grantAppend q
  | .bankProgram r => s.grantBankProgram r
  | .commit c => s.grantCommit c
  | .commitSuspend cs => s.grantSuspend cs false
  | .loadResume cs =>
    (s.mapDev cs fun d => { d with resumeStep := .pollWaits }).begin .resume cs none [[s.settings.profile.resumeOp]]
  | .resume cs => s.grantResume cs
  | .erase r => s.grantErase r

/-- The arbiter's grant carried out: the burst count with it (R119), where a transaction began (log 32). -/
def State.arbitrate (s : State) (tie : Bool) : State :=
  match s.noteResumes.chosen tie with
  | none => s.noteResumes
  | some (g, burst) =>
    let t := s.noteResumes.grant g
    if t.bus.tx.isSome then t.setBus { t.bus with burst := burst } else t

end Sys2Proof.Machine
end

