-- ==== Sys2Proof/Machine/Descriptor.lean ====
section
/-! DEFINITION. The descriptor: its fields, the eleven checks, its adoption, and the steps of LOAD (02 R19 to R31; 11 R169). -/

namespace Sys2Proof.Machine

/-! ## Fields (R20 to R26, R169) -/

/-- Bit i of byte n of the descriptor. -/
def flagAt (d : List Byte) (n i : Nat) : Bool := (at1 d n).getLsbD i

/-- One byte of the descriptor as a number. -/
def numAt (d : List Byte) (n : Nat) : Nat := (at1 d n).toNat

/-- C by the device size code; none for a code that is not listed (R21, R169). -/
def sectorsOfSize (code : Byte) : Option Nat :=
  if code = 0x04 then some 1024 else if code = 0x08 then some 2048 else if code = 0x10 then some 4096 else none

/-- C (R1). -/
def descC (d : List Byte) : Nat := (sectorsOfSize (at1 d 6)).getD 0

/-- T (R1). -/
def descT (d : List Byte) : Nat := numAt d 5 * descC d

/-- J (R3). -/
def descJ (d : List Byte) : Nat := numAt d 7

/-- S (R4). -/
def descS (d : List Byte) : Nat := at2 d 8

/-- D (R3). -/
def descD (d : List Byte) : Nat := descT d - 2 * descJ d - 1

/-- L (R4). -/
def descL (d : List Byte) : Nat := descD d - descS d

/-- The command profile (R23). -/
def descProfile (d : List Byte) : Profile where
  readOp := at1 d 20
  dummy := numAt d 21
  writeEnableOp := at1 d 22
  programOp := at1 d 23
  sectorEraseOp := at1 d 24
  readStatusOp := at1 d 25
  suspendSupported := flagAt d 28 0
  suspendOp := at1 d 26
  resumeOp := at1 d 27
  busyBit := numAt d 29
  errorBit := if at1 d 30 = 0xFF then none else some (numAt d 30)
  pollInterval := at2 d 32
  programTimeout := numAt d 31
  eraseTimeout := at2 d 34

/-- The requester table (R24). -/
def descRights (d : List Byte) (r : Nat) : Rights :=
  ⟨flagAt d (36 + r) 0, if flagAt d (36 + r) 1 then 1 else 0, flagAt d (36 + r) 2⟩

/-- Entry e of the region table (R25). -/
def descRegion (d : List Byte) (e : Nat) : Region where
  first := at2 d (48 + 8 * e)
  last := at2 d (50 + 8 * e)
  readMask := at1 d (52 + 8 * e)
  writeMask := at1 d (53 + 8 * e)
  policy := if flagAt d (54 + 8 * e) 0 then .alwaysRelocate else .inPlaceAllowed

/-- The entries in force (R25). -/
def descRegions (d : List Byte) : List Region := (List.range (numAt d 44)).map (descRegion d)

/-! ## The checks (R27) -/

/-- A number lies in a range. -/
def within (lo hi n : Nat) : Bool := decide (lo ≤ n) && decide (n ≤ hi)

/-- The signature (R20). -/
def signature : List Byte := [0x56, 0x52, 0x43, 0x4C]

/-- Check 9: the command profile (R23, R27, R169). -/
def profileLegal (p : Profile) : Bool :=
  decide (p.dummy ≤ 2) && decide (p.busyBit ≤ 7)
    && (match p.errorBit with
      | none => true
      | some e => decide (e ≤ 7) && e != p.busyBit)
    && within 10 1000 p.pollInterval && within 1 50 p.programTimeout && within 50 2000 p.eraseTimeout

/-- Two regions share a logical sector. -/
def Region.overlaps (x y : Region) : Bool := decide (x.first ≤ y.last) && decide (y.first ≤ x.last)

/-- No two of the regions share a logical sector. -/
def regionsApart : List Region → Bool
  | [] => true
  | x :: rest => rest.all (fun y => !x.overlaps y) && regionsApart rest

/-- Check 10: the regions (R25, R27). -/
def regionsLegal (d : List Byte) : Bool :=
  decide (numAt d 44 ≤ 8)
    && (descRegions d).all (fun r => decide (r.first ≤ r.last) && decide (r.last < descL d))
    && regionsApart (descRegions d)

/-- Whole units of `size` needed to hold n (ceil). -/
def units (n size : Nat) : Nat := (n + size - 1) / size

/-- The sectors that check 11 asks of a bank (R27). -/
def sectorsNeeded (d : List Byte) : Nat := units (units (descL d) 24 * 64) 4096 + units (descS d * 16) 4096 + 2

/-- Check number i passes on the 128 bytes of a descriptor (R27). -/
def checkPasses (d : List Byte) (i : Nat) : Bool :=
  match i with
  | 1 => d.take 4 == signature
  | 2 => at1 d 4 == 0x01
  | 3 => at4 d 124 == (crc32 (d.take 124)).toNat
  | 4 => (numAt d 5 == 1 || numAt d 5 == 2) && (sectorsOfSize (at1 d 6)).isSome
  | 5 => within 8 32 (descJ d)
  | 6 => within 16 512 (descS d) && decide (4 * descS d ≤ descD d)
  | 7 => within 4 64 (numAt d 10) && decide (numAt d 10 < descS d)
  | 8 => within 8 14 (numAt d 11) && within 1 (numAt d 11) (numAt d 12) && decide (at2 d 14 ≤ 1000)
      && within 1 100 (numAt d 16) && within 10 2000 (at2 d 18)
  | 9 => profileLegal (descProfile d)
  | 10 => regionsLegal d
  | 11 => decide (sectorsNeeded d ≤ descJ d)
  | _ => true

/-- The descriptor check index: the first check that fails, 0 when all pass (R27). -/
def descriptorIndex (d : List Byte) : Nat :=
  (([1, 2, 3, 4, 5, 6, 7, 8, 9, 10, 11] : List Nat).find? fun i => !checkPasses d i).getD 0

/-! ## Adoption (R30) -/

/-- The values adopted from a descriptor (R30). -/
def adopted (d : List Byte) : Settings where
  raw := false
  deviceCount := numAt d 5
  deviceSectors := descC d
  totalSectors := descT d
  bankSectors := descJ d
  dataBase := 2 * descJ d + 1
  dataSectors := descD d
  spares := descS d
  windowSectors := descL d
  lowMark := numAt d 10
  highMark := numAt d 11
  drainMark := numAt d 12
  linger := at2 d 14
  powerDeadline := numAt d 16
  resetDeadline := at2 d 18
  profile := descProfile d
  requesters := ⟨((List.range 8).map (descRights d)).toArray, by simp⟩
  regions := descRegions d

/-- The descriptor adopted: its settings in force, the gate at its default, chip select 1 dropped with one device, and the
RESUMEs of R31 due (R26, R30, R31). R31 names no moment at which device 1 is judged READY: the model judges it here (log 67). -/
def State.adopt (s : State) (d : List Byte) : State :=
  let two := numAt d 5 == 2
  let dev0 := s.bus.dev0.map fun x => { x with resumeStep := .resumeDue }
  let dev1 := if two then s.bus.dev1.map fun x =>
      if x.state == .ready then { x with resumeStep := .resumeDue } else x
    else none
  { s with
    settings := adopted d
    access := { s.access with gateOpen := flagAt d 45 0 }
    bus := { s.bus with
      dev0 := dev0
      dev1 := dev1
      pollsDue := if two then s.bus.pollsDue else s.bus.pollsDue.filter fun c => c == .cs0 }
    bridge := { s.bridge with load := .resuming } }

/-- The checks applied to the two lines taken: adoption, or DESCRIPTOR_INVALID and RAW (R27, R29, R30). -/
def State.validate (s : State) (d : List Byte) : State :=
  if descriptorIndex d = 0 then s.adopt d
  else
    ((s.setBridge { s.bridge with checkIndex := descriptorIndex d }).raise
      { kind := .descriptorInvalid, value := some (descriptorIndex d) }).enterRaw

/-- A line read of the descriptor has ended (R29). -/
def State.descriptorRead (s : State) (line : Line) : State :=
  match s.bridge.load with
  | .readLine0 => s.setBridge { s.bridge with load := .readLine1 line }
  | .readLine1 line0 => s.validate (line0.bytes ++ line.bytes)
  | _ => s

/-! ## The other steps of LOAD -/

/-- A chip select is settled: READY or STUCK (R28). -/
def State.settled (s : State) (cs : ChipSelect) : Bool := s.devIs cs fun d => d.state == .ready || d.state == .stuck

/-- LOAD moves on when both chip selects are settled (R28). -/
def State.loadAdvance (s : State) : State :=
  if s.bridge.state == .load && s.bridge.load == .polling && !s.stopWaits && s.settled .cs0 && s.settled .cs1 then
    if s.devIs .cs0 fun d => d.state == .stuck then
      (s.raise { kind := .descriptorInvalid, value := some 0 }).enterRaw
    else s.setBridge { s.bridge with load := .readLine0 }
  else s

/-- LOAD ends in REBUILD when no RESUME or poll of R31 is left (R30, R31). -/
def State.loadEnd (s : State) : State :=
  if s.bridge.state == .load && s.bridge.load == .resuming && !s.stopWaits
      && !(s.devIs .cs0 fun d => d.resumeStep != .none) && !(s.devIs .cs1 fun d => d.resumeStep != .none) then
    (s.setBridge { s.bridge with state := .rebuild, load := .idle }).setJournal { s.journal with rebuild := .readA }
  else s

end Sys2Proof.Machine
end

