-- ==== Sys2Proof/Machine/Buffer.lean ====
section
/-! DEFINITION. The commands of the Write-Combining Buffer and of the Commit Engine's reads (04 R63 to R65; 06 R93, R105). -/

namespace Sys2Proof.Machine

/-- The linger timer expires with the buffer not empty: the flag is set (R63). -/
def Wcb.lingers (w : Wcb) : Wcb :=
  if w.lingerRunning && !w.entries.isEmpty then { w with lingerRunning := false, lingerFlag := true } else w

/-- LINGER_EXPIRY (R63). -/
def execLingerExpiry (s : State) : Host.Outcome State Fault Refusal := .next (s.setWcb s.wcb.lingers)

/-- The sector that the buffer offers now: drain mode, an idle Commit Engine and an OPEN entry of a sector not pinned, in a
state in which it makes offers (R64, R73, R88). -/
def State.offer (s : State) : Option Nat :=
  if (s.bridge.state == .service || s.bridge.state == .raw || s.bridge.state == .quiesce) && s.commit.isNone
      && s.drainMode then s.wcb.offer s.reads
  else none

/-- The offer carried out: the capture, and the commit's record and first stage (R64, R65, R93). -/
def State.takeOffer (s : State) (sector : Nat) : State :=
  let t := s.setWcb (s.wcb.capture sector)
  t.commitStart (t.newRecord sector)

/-- The buffer's offer, where it makes one (R64). -/
def State.commitOffer (s : State) : State :=
  match s.offer with
  | none => s
  | some sector => s.takeOffer sector

/-- COMMIT_OFFER (R64). -/
def execCommitOffer (s : State) : Host.Outcome State Fault Refusal := s.commitOffer.noted

/-- The transaction on the bus is of the use told. -/
def State.busHolds (s : State) (use : BusUse) : Bool :=
  match s.bus.tx with
  | none => false
  | some t => t.use == use

/-- The bytes of the Commit Engine's read on the bus are taken (R105). -/
def State.takeCommitRead (s : State) (bytes : List Byte) : State :=
  if s.busHolds .commitRead then s.busIdle.commitReadEnd bytes else s

/-- COMMIT_READ_END (R105). -/
def execCommitReadEnd (bytes : List Byte) (s : State) : Host.Outcome State Fault Refusal :=
  (s.takeCommitRead bytes).noted

end Sys2Proof.Machine
end

