-- ==== Sys2Proof/Machine/FlashCommands.lean ====
section
/-! DEFINITION. The commands of the flash bus: grants, frame ends, polls, timeouts, fill completions (05 R82, R83; 07 R114 to
R122; 02 R28, R31). -/

namespace Sys2Proof.Machine

/-- A grant, where the arbiter makes one (R118). -/
def State.arbiterGrant (s : State) (tie : Bool) : State := if s.arbiterOpen then s.arbitrate tie else s

/-- ARBITER_GRANT (R118). -/
def execArbiterGrant (tie : Bool) (s : State) : Host.Outcome State Fault Refusal := (s.arbiterGrant tie).noted

/-! ## Fill completion (R82, R83) -/

/-- The answers of a fill's reads, in the order of attachment (R83). -/
def State.fillAnswers (s : State) (f : Fill) (line : Line) : List Response :=
  f.reads.map fun id =>
    match s.port.find id with
    | none => ⟨id, .ok, []⟩
    | some e => ⟨id, .ok, readBytes e.snapshot (match e.place with
        | none => 0
        | some p => p.offset) line⟩

/-- A fill completes: the line is installed unless superseded, its reads are answered, it leaves the list (R82). -/
def State.fillComplete (s : State) (f : Fill) (line : Line) : State :=
  let r := if f.superseded then s.reads else s.reads.install ⟨f.key, f.group, line⟩
  (s.setReads { r with fills := r.fills.filter fun x => x.phase == .queued }).answerInOrder (s.fillAnswers f line)

/-- The fill whose line read is on the bus (R81). -/
def ReadUnit.issued (r : ReadUnit) : Option Fill := r.fills.find? fun f => f.phase != .queued

/-- The bytes of the fill on the bus are taken (R82). -/
def State.takeFill (s : State) (line : Line) : State :=
  if s.busHolds .fillRead then
    match s.reads.issued with
    | none => s.busIdle
    | some f => s.busIdle.fillComplete f line
  else s

/-- FILL_COMPLETE (R82). -/
def execFillComplete (bytes : Line) (s : State) : Host.Outcome State Fault Refusal := (s.takeFill bytes).noted

/-! ## The end of a command frame (R114, R121) -/

/-- The device at the end of its program or erase command (R114). -/
def Device.commandEnd (d : Device) : Device := { d with pollTimer := true, opTimer := .running }

/-- The device at the end of a SUSPEND (R114). -/
def Device.suspendEnd (d : Device) : Device := { d with pollTimer := true }

/-- The device at the end of a RESUME: after adoption its poll is awaited, otherwise the erase runs on (R31, R114, R121). -/
def Device.resumeEnd (d : Device) : Device :=
  if d.resumeStep == .pollWaits then { d with pollTimer := true }
  else { d with state := .busyErase, pollTimer := true, opTimer := .running, polledBusy := false }

/-- The last frame of a program, erase, SUSPEND or RESUME ends (R114). -/
def State.frameEnd (s : State) : State :=
  match s.bus.tx with
  | none => s
  | some t =>
    match t.use with
    | .program => s.busIdle.mapDev t.cs Device.commandEnd
    | .erase => s.busIdle.mapDev t.cs Device.commandEnd
    | .suspend => s.busIdle.mapDev t.cs Device.suspendEnd
    | .resume => s.busIdle.mapDev t.cs Device.resumeEnd
    | _ => s

/-- COMMAND_FRAME_END (R114). -/
def execCommandFrameEnd (s : State) : Host.Outcome State Fault Refusal := s.frameEnd.noted

/-! ## Polls (R114, R115) -/

/-- A poll becomes due for a chip select; one due already keeps its place (R114, R118). -/
def FlashBus.addPoll (x : FlashBus) (cs : ChipSelect) : FlashBus :=
  if x.pollsDue.contains cs then x else { x with pollsDue := x.pollsDue ++ [cs] }

/-- The poll interval timer of a device expires, where it runs (R114). -/
def State.pollExpires (s : State) (cs : ChipSelect) : State :=
  if s.devIs cs Device.pollTimer then
    s.setBus ((s.mapDev cs fun d => { d with pollTimer := false }).bus.addPoll cs)
  else s

/-- POLL_DUE (R114). -/
def execPollDue (cs : ChipSelect) (s : State) : Host.Outcome State Fault Refusal := .next (s.pollExpires cs)

/-- The busy bit of a status byte (R23). -/
def Profile.busy (p : Profile) (byte : Byte) : Bool := byte.getLsbD p.busyBit

/-- The error bit of a status byte, clear where the profile names none (R23, R115). -/
def Profile.error (p : Profile) (byte : Byte) : Bool :=
  match p.errorBit with
  | none => false
  | some i => byte.getLsbD i

/-- The device of a poll that showed it busy: polled again after the interval (R114, R115, R120). -/
def Device.stillBusy (d : Device) : Device := { d with pollTimer := true, polledBusy := true }

/-- The device READY with nothing in progress (R115). -/
def Device.nowReady (d : Device) : Device :=
  { Device.idle .ready with resumedInQuiesce := d.resumedInQuiesce }

/-- The device whose suspension is confirmed (R115). -/
def Device.suspended (d : Device) : Device :=
  { d with state := .eraseSuspended, suspendRequested := false, opTimer := .paused, pollTimer := false }

/-- The device that the poll after R31's RESUME shows busy: an erase of no owner and no address (R31, R117). -/
def Device.resumedErase (d : Device) : Device :=
  { Device.idle .busyErase with
    op := some ⟨.erase, none, .nobody⟩, pollTimer := true, opTimer := .running, resumedInQuiesce := d.resumedInQuiesce }

/-- A device record replaced and its polls no longer due. -/
def State.settle (s : State) (cs : ChipSelect) (d : Device) : State :=
  s.setBus { s.bus.setDev cs (some d) with pollsDue := s.bus.pollsDue.filter fun x => x != cs }

/-- The owner of an operation that has ended receives the result (R115, R116). -/
def State.endOperation (s : State) (o : Option Operation) (ok : Bool) : State :=
  match o with
  | none => s
  | some x => s.tellOwner x.owner ok

/-- A status byte taken for a device (R28, R31, R115). -/
def State.polled (s : State) (cs : ChipSelect) (d : Device) (byte : Byte) : State :=
  if s.settings.profile.busy byte then
    if d.resumeStep == .pollWaits then (s.settle cs d.resumedErase).loadEnd
    else s.setDev cs (some d.stillBusy)
  else if d.resumeStep == .pollWaits then (s.settle cs d.nowReady).loadEnd
  else
    match d.state with
    | .unknown => (s.settle cs d.nowReady).loadAdvance
    | .ready => s
    | .busyProgram => (s.settle cs d.nowReady).endOperation d.op (!s.settings.profile.error byte)
    | .busyErase =>
      if d.suspendRequested then s.settle cs d.suspended
      else (s.settle cs d.nowReady).endOperation d.op (!s.settings.profile.error byte)
    | .eraseSuspended => s
    | .stuck => s.settle cs d.nowReady

/-- The byte of the status poll on the bus is taken (R115). -/
def State.takePoll (s : State) (byte : Byte) : State :=
  match s.bus.tx with
  | none => s
  | some t =>
    if t.use == .poll then
      match s.bus.dev t.cs with
      | none => s.busIdle
      | some d => s.busIdle.polled t.cs d byte
    else s

/-- STATUS_POLL (R115). -/
def execStatusPoll (byte : Byte) (s : State) : Host.Outcome State Fault Refusal := (s.takePoll byte).noted

/-! ## Timeouts (R28, R116) -/

/-- The DEVICE_TIMEOUT event: the chip select, and the sector that the operation named (R116). -/
def State.timeoutEvent (s : State) (cs : ChipSelect) (o : Option Operation) : EventBody where
  kind := .deviceTimeout
  location :=
    match o with
    | none => none
    | some x => x.addr.map fun a => .ps (psOfAddr s.settings cs a)
  value := some (match cs with
    | .cs0 => 0
    | .cs1 => 1)

/-- The device STUCK after a timeout (R116). -/
def Device.nowStuck (d : Device) : Device :=
  { d with state := .stuck, op := none, suspendRequested := false, opTimer := .stopped, suspensions := 0, fillsTaken := 0 }

/-- An event of the Flash Bus Engine received among the events that the owner's blocks raise at the same moment, in a free
place (R166; log 9): `f` is what the owner does. -/
def State.raiseAmong (s : State) (e : EventBody) (f : State → State) : State :=
  let t := f (s.setEvents ⟨[], 0, .armed⟩)
  let bodies := t.events.queue.map EventRecord.body
  let place := if bodies.isEmpty then 0 else Config.freeOrder t.free % (bodies.length + 1)
  (t.setEvents ((insertAt bodies place e).foldl EventBlock.receive s.events)).setFree (t.free + 1)

/-- The operation of a device ends as a failure at its timeout (R116). -/
def State.timedOut (s : State) (cs : ChipSelect) (d : Device) : State :=
  (s.setDev cs (some d.nowStuck)).raiseAmong (s.timeoutEvent cs d.op) fun t => t.endOperation d.op false

/-- The operation timer of a device reaches its timeout, where it runs (R116). -/
def State.operationTimeout (s : State) (cs : ChipSelect) : State :=
  match s.bus.dev cs with
  | none => s
  | some d => if d.opTimer == .running then s.timedOut cs d else s

/-- OPERATION_TIMEOUT (R116). -/
def execOperationTimeout (cs : ChipSelect) (s : State) : Host.Outcome State Fault Refusal := (s.operationTimeout cs).noted

/-- A chip select still busy 2000 ms after entry to LOAD becomes STUCK (R28; log 40). DEVICE_TIMEOUT is received before the
DESCRIPTOR_INVALID with which LOAD then enters RAW (log 50). -/
def State.loadPollTimeout (s : State) (cs : ChipSelect) : State :=
  match s.bus.dev cs with
  | none => s
  | some d =>
    if s.bridge.state == .load && d.state == .unknown then
      ((s.setDev cs (some { d with state := .stuck })).raise (s.timeoutEvent cs none)).loadAdvance
    else s

/-- LOAD_POLL_TIMEOUT (R28). -/
def execLoadPollTimeout (cs : ChipSelect) (s : State) : Host.Outcome State Fault Refusal := (s.loadPollTimeout cs).noted

end Sys2Proof.Machine
end

