-- ==== Sys2Proof/Machine/Work.lean ====
section
/-! DEFINITION. The commands of the Erase Engine, of compaction and of the quiesce (07 R123; 08 R137; 09 R156, R157). -/

namespace Sys2Proof.Machine

/-! ## ERASE_CLAIM (R123) -/

/-- The bank to erase: the one begun, else a STALE one (R123, R126; log 27). -/
def State.staleBank (s : State) : Option BankWork :=
  let fresh : Option BankWork :=
    if s.journal.isIn .a .stale then some ⟨.a, 0, 1⟩
    else if s.journal.isIn .b .stale then some ⟨.b, 0, 1⟩
    else none
  match s.erase.bankWork with
  | some w => if s.journal.isIn w.bank .stale then some w else fresh
  | none => fresh

/-- The Erase Engine's choice of a bank sector, where bank erases are not held (R123, R126). -/
def State.bankChoice (s : State) : Option BankWork := if s.bankEraseHeld then none else s.staleBank

/-- The Erase Engine's choice of the queue head, where DATA erases are not held and the record wait is empty (R123). -/
def State.dataChoice (s : State) : Option Nat :=
  if s.dataEraseHeld || s.erase.wait.isSome then none else s.map.queued.head?

/-- The RAW erase to claim (R123, R127). -/
def State.rawChoice (s : State) : Option Nat :=
  match s.erase.raw with
  | none => none
  | some r => if r.outcome.isNone then some r.ps else none

/-- The Erase Engine's next work (R123). -/
def State.eraseChoice (s : State) : State :=
  if s.bridge.state == .raw then
    match s.rawChoice with
    | none => s
    | some ps => s.setErase { s.erase with record := some ⟨.raw, ps, false⟩ }
  else
    match s.bankChoice with
    | some w =>
      s.setErase { s.erase with
        record := some ⟨.bank w, bankBase s.settings w.bank + w.place, false⟩, bankWork := some w }
    | none =>
      match s.dataChoice with
      | none => s
      | some ps => s.setErase { s.erase with record := some ⟨.data, ps, false⟩ }

/-- With its erase record empty the engine chooses its next work (R123); none while a stop waits (R153). -/
def State.eraseNext (s : State) : State := if s.erase.record.isNone && !s.stopWaits then s.eraseChoice else s

/-- ERASE_CLAIM (R123). -/
def execEraseClaim (s : State) : Host.Outcome State Fault Refusal := .next s.eraseNext

/-! ## COMPACTION_START (R137) -/

/-- The other bank, when every condition of the start holds (R137). -/
def State.compactionBank (s : State) : Option Bank :=
  match s.journal.active with
  | none => none
  | some bank =>
    if s.bridge.state == .service && s.journal.compaction == .pending && !s.journal.fenced
        && s.journal.isIn bank.other .erased && s.map.target.isNone && !s.dataEraseInProgress then some bank.other
    else none

/-- The generation of the bank to be written: the ACTIVE bank's plus one; past FFFFFFFFh a free value (R138; log 11). -/
def State.nextGeneration (s : State) : BitVec 32 :=
  if s.journal.generation = 0xFFFFFFFF then Config.freeGeneration else s.journal.generation + 1

/-- The start: RUNNING, the bank COMPACTING, the collections copied (R137). -/
def State.startCompaction (s : State) (bank : Bank) : State :=
  s.setJournal (({ s.journal with
    compaction := .running
    run := some ⟨bank, s.nextGeneration, ⟨s.map.remap, s.map.pool, s.map.retired⟩, 0, false, false⟩ } : MapJournal).setRow
      bank (some ⟨.compacting, some s.nextGeneration⟩))

/-- The start, where every condition holds (R137). -/
def State.compactionStart (s : State) : State :=
  match s.compactionBank with
  | none => s
  | some bank => s.startCompaction bank

/-- COMPACTION_START (R137). -/
def execCompactionStart (s : State) : Host.Outcome State Fault Refusal :=
  .next s.compactionStart

/-! ## The quiesce (R156, R157) -/

/-- The detail code of a cause. -/
def Cause.code : Cause → DetailCode
  | .power => .power
  | .orderly => .orderly

/-- No transaction is on the bus and no program of the Map Journal is in progress (R156, R157). -/
def State.flashQuiet (s : State) : Bool := s.bus.tx.isNone && !s.journalProgramInProgress

/-- The drain is complete (R156). -/
def State.drained (s : State) : Bool :=
  s.bridge.state == .quiesce && !s.bridge.expired && s.wcb.entries.isEmpty && s.commit.isNone && s.reads.fills.isEmpty
    && s.flashQuiet

/-- The drain is complete: the timer stops, QUIESCE_DONE, and the end of the quiesce (R156). -/
def State.drainDone (s : State) : State :=
  ((s.setBridge { s.bridge with deadline := .stopped }).raise
    { kind := .quiesceDone, code := s.bridge.cause.map Cause.code }).endQuiesce

/-- DRAIN_COMPLETE (R156). -/
def execDrainComplete (s : State) : Host.Outcome State Fault Refusal := .next (if s.drained then s.drainDone else s)

/-- The deadline expires: abandonment, the commit ended, QUIESCE_EXPIRED (R73, R108, R157). -/
def State.expire (s : State) : State :=
  let t := s.setBridge { s.bridge with expired := true, deadline := .stopped }
  let r := t.abandonBuffer
  (r.1.commitExpire).raise
    { kind := .quiesceExpired, code := s.bridge.cause.map Cause.code, value := some r.2 }

/-- The deadline timer runs in QUIESCE (R150, R157). -/
def State.deadlineRuns (s : State) : Bool := s.bridge.state == .quiesce && s.bridge.deadline != .stopped

/-- QUIESCE_DEADLINE_EXPIRY (R157). -/
def execQuiesceDeadlineExpiry (s : State) : Host.Outcome State Fault Refusal :=
  (if s.deadlineRuns then s.expire else s).noted

/-- After the expiry nothing that had begun is left (R157). -/
def State.expiryOver (s : State) : Bool :=
  s.bridge.state == .quiesce && s.bridge.expired && s.commit.isNone && s.flashQuiet

/-- QUIESCE_EXIT_AFTER_EXPIRY (R157). -/
def execQuiesceExitAfterExpiry (s : State) : Host.Outcome State Fault Refusal :=
  .next (if s.expiryOver then s.endQuiesce else s)

end Sys2Proof.Machine
end

