-- ==== Sys2Proof/Machine/Link.lean ====
section
/-! DEFINITION. The commands of the maintenance link (10 R160 to R168; 11 R170). A command that reaches the bridge while
PORST is asserted is not acknowledged and has no effect (R160; log 39). -/

namespace Sys2Proof.Machine

/-! ## Codings (R170) -/

/-- A flag as a bit of a byte at position i. -/
def bitAt (flag : Bool) (i : Nat) : Nat := if flag then 2 ^ i else 0

/-- The code of a result code (R170). -/
def ResultCode.byte : ResultCode → Byte
  | .done => 0x00
  | .refusedState => 0x01
  | .refusedLocked => 0x02
  | .badParam => 0x03
  | .busy => 0x04

/-- The code of a bridge state (R170). -/
def BridgeState.byte : BridgeState → Byte
  | .reset => 0x00
  | .load => 0x01
  | .rebuild => 0x02
  | .service => 0x03
  | .raw => 0x04
  | .quiesce => 0x05
  | .halted => 0x06

/-- The code of an event kind (R170). -/
def EventKind.byte : EventKind → Byte
  | .accessDenied => 0x01
  | .guardHit => 0x02
  | .writeGated => 0x03
  | .protocolError => 0x04
  | .overrun => 0x05
  | .commitFailed => 0x06
  | .sectorRetired => 0x07
  | .poolLow => 0x08
  | .poolEmpty => 0x09
  | .worn => 0x0A
  | .deviceTimeout => 0x0B
  | .journalCompacted => 0x0C
  | .fenced => 0x0D
  | .descriptorInvalid => 0x0E
  | .rebuildFailed => 0x0F
  | .serviceReady => 0x10
  | .quiesceDone => 0x11
  | .quiesceExpired => 0x12
  | .gateOpenRefused => 0x13

/-- The code of a detail (R170). -/
def DetailCode.byte : DetailCode → Byte
  | .tag => 0x01
  | .length => 0x02
  | .crossing => 0x03
  | .requester => 0x04
  | .region => 0x05
  | .program => 0x06
  | .erase => 0x07
  | .compaction => 0x08
  | .bankErase => 0x09
  | .sequence => 0x0A
  | .noBank => 0x0B
  | .power => 0x0C
  | .orderly => 0x0D

/-- The code of a guard mode (R170). -/
def GuardMode.byte : GuardMode → Byte
  | .none => 0x00
  | .writeDeny => 0x01
  | .allDeny => 0x02

/-- The mode a byte names; none for another coding (R163, R170). -/
def guardModeOf (b : Byte) : Option GuardMode :=
  if b = 0x00 then some .none else if b = 0x01 then some .writeDeny else if b = 0x02 then some .allDeny else none

/-- The location kind and its four bytes (R170); of kind 00h, for which R170 gives no location, the four are 00h (log 59). -/
def locationBytes : Option Location → List Byte
  | none => 0x00 :: le4 0
  | some (.address a) => 0x01 :: le4 a
  | some (.ls n) => 0x02 :: le4 n
  | some (.ps n) => 0x03 :: le4 n

/-- The 15 bytes of an event record (R170). -/
def EventRecord.bytes (r : EventRecord) : List Byte :=
  [r.body.kind.byte] ++ le2 r.number.toNat
    ++ [match r.body.requester with
      | none => 0xFF
      | some q => BitVec.ofNat 8 q.val]
    ++ locationBytes r.body.location
    ++ [match r.body.code with
      | none => 0x00
      | some c => c.byte]
    ++ le4 (r.body.value.getD 0) ++ [BitVec.ofNat 8 r.dropped]

/-- The code of the ACTIVE bank (R170). -/
def bankByte : Option Bank → Byte
  | none => 0x00
  | some .a => 0x01
  | some .b => 0x02

/-- The flags byte of STATUS (R170); bits 5 to 7, which R170 does not name, are 0 (log 60). -/
def State.statusFlags (s : State) : Byte :=
  BitVec.ofNat 8 (bitAt s.map.worn 0 + bitAt s.journal.fenced 1 + bitAt s.wcb.hold 2 + bitAt s.access.gateOpen 3
    + bitAt s.access.gateLock 4)

/-- Free journal slots as STATUS reports them: 0 where no bank is ACTIVE (R149, R162). -/
def State.slotsReported (s : State) : Nat := if s.journal.active.isSome then s.freeSlots else 0

/-- The 18 bytes of the STATUS block (R162, R170). -/
def State.statusBlock (s : State) : List Byte :=
  [s.bridge.state.byte, s.statusFlags, BitVec.ofNat 8 s.wcb.occupancy]
    ++ le2 s.map.pool.length ++ le2 s.map.queue.length ++ le2 s.map.retired.length
    ++ [bankByte s.journal.active] ++ le4 s.journal.generation.toNat ++ le2 s.slotsReported
    ++ [BitVec.ofNat 8 s.events.queue.length, BitVec.ofNat 8 s.bridge.checkIndex]

/-- The gate byte (R170); bits 2 to 7, which R170 does not name, are 0 (log 60). -/
def Access.gateByte (a : Access) : Byte := BitVec.ofNat 8 (bitAt a.gateOpen 0 + bitAt a.gateLock 1)

/-- The seven bytes of a guard slot (R170). The lock byte is answered 00h or 01h: the slot keeps bit 0 of the byte sent
alone (log 54). -/
def GuardSlot.bytes (g : GuardSlot) (slot : Byte) : List Byte :=
  [slot] ++ le2 g.first ++ le2 g.last ++ [g.mode.byte, if g.lock then 0x01 else 0x00]

/-! ## The state check (R161) -/

/-- A command taken only while the link listens (R160). -/
def State.onLink (s : State) (t : State) : Host.Outcome State Fault Refusal := .next (if s.linkListens then t else s)

/-- The guard and gate commands are taken in SERVICE and RAW, and refused REFUSED_STATE elsewhere (R161). -/
def State.inService (s : State) (t : State) : State :=
  if s.bridge.state == .service || s.bridge.state == .raw then t else s.reply .refusedState []

/-! ## STATUS, EVENT_READ, NOTICE_ACK -/

/-- STATUS (R162). -/
def execStatus (s : State) : Host.Outcome State Fault Refusal := s.onLink (s.reply .done s.statusBlock)

/-- EVENT_READ carried out (R167). -/
def State.readEvent (s : State) : State :=
  match s.events.queue with
  | [] => s.reply .done [0x00]
  | r :: rest =>
    (s.setEvents { s.events with queue := rest }).reply .done (BitVec.ofNat 8 rest.length :: r.bytes)

/-- EVENT_READ (R167). -/
def execEventRead (s : State) : Host.Outcome State Fault Refusal := s.onLink s.readEvent

/-- NOTICE_ACK carried out: from NOTIFIED the notice is armed and at once notified again if records are held (R168). -/
def State.ackNotice (s : State) : State :=
  let t := s.setEvents (if s.events.notice == .notified then s.events.rearm else s.events)
  t.reply .done [if t.events.notice == .notified then 0x01 else 0x00, BitVec.ofNat 8 t.events.queue.length]

/-- NOTICE_ACK (R168). -/
def execNoticeAck (s : State) : Host.Outcome State Fault Refusal := s.onLink s.ackNotice

/-! ## Guards (R163) -/

/-- A slot of the guard table. -/
def Access.guard (a : Access) (slot : Nat) : GuardSlot := a.guards.toList.getD slot GuardSlot.powerOn

/-- A slot written whole (R54). -/
def Access.setGuard (a : Access) (slot : Nat) (g : GuardSlot) : Access :=
  { a with guards := a.guards.setIfInBounds slot g }

/-- The range of a GUARD_SET is legal: last LS less than L in SERVICE, not greater than 4095 in RAW (R163). -/
def State.guardRange (s : State) (first last : BitVec 16) : Bool :=
  decide (first.toNat ≤ last.toNat)
    && decide (last.toNat < if s.bridge.state == .raw then Config.rawSectors else s.settings.windowSectors)

/-- GUARD_SET judged in order (R163). -/
def State.setGuard (s : State) (slot : Byte) (first last : BitVec 16) (mode lock : Byte) : State :=
  match guardModeOf mode with
  | none => s.reply .badParam []
  | some m =>
    if 3 < slot.toNat then s.reply .badParam []
    else if (s.access.guard slot.toNat).lock then s.reply .refusedLocked []
    else if !s.guardRange first last then s.reply .badParam []
    else
      let g : GuardSlot := ⟨first.toNat, last.toNat, m, lock.getLsbD 0⟩
      (s.setAccess (s.access.setGuard slot.toNat g)).reply .done (g.bytes slot)

/-- GUARD_SET (R163). -/
def execGuardSet (slot : Byte) (first last : BitVec 16) (mode lock : Byte) (s : State) :
    Host.Outcome State Fault Refusal :=
  s.onLink (s.inService (s.setGuard slot first last mode lock))

/-- GUARD_READ (R163). -/
def execGuardRead (slot : Byte) (s : State) : Host.Outcome State Fault Refusal :=
  s.onLink (s.inService
    (if 3 < slot.toNat then s.reply .badParam [] else s.reply .done ((s.access.guard slot.toNat).bytes slot)))

/-! ## The gate (R55, R164) -/

/-- A gate command carried out and answered with the gate byte (R164). -/
def State.gateTo (s : State) (a : Access) : State := (s.setAccess a).reply .done [a.gateByte]

/-- GATE_OPEN judged: refused under the lock without AUTH (R55, R164). -/
def State.openGate (s : State) (auth : Bool) : State :=
  if s.access.gateLock && !auth then
    (s.reply .refusedLocked [s.access.gateByte]).raise { kind := .gateOpenRefused }
  else s.gateTo { s.access with gateOpen := true }

/-- GATE_OPEN with the level of AUTH at it (R55). -/
def execGateOpen (auth : Bool) (s : State) : Host.Outcome State Fault Refusal := s.onLink (s.inService (s.openGate auth))

/-- GATE_CLOSE (R55). -/
def execGateClose (s : State) : Host.Outcome State Fault Refusal :=
  s.onLink (s.inService (s.gateTo { s.access with gateOpen := false }))

/-- GATE_LOCK (R55). -/
def execGateLock (s : State) : Host.Outcome State Fault Refusal :=
  s.onLink (s.inService (s.gateTo { s.access with gateLock := true }))

/-! ## Resets (R152 to R155, R164) -/

/-- ORDERLY_RESET: answered DONE in every state (R161, R164). -/
def execOrderlyReset (s : State) : Host.Outcome State Fault Refusal :=
  if s.linkListens then ((s.reply .done []).orderlyRequest).noted else .next s

/-- WARM_RESET: answered DONE before the reset acts; nothing more in RESET (R152, R164). -/
def execWarmReset (s : State) : Host.Outcome State Fault Refusal :=
  s.onLink (if s.bridge.state == .reset then s.reply .done [] else (s.reply .done []).warmReset)

/-! ## RAW_ERASE and the store (R160, R165) -/

/-- RAW_ERASE in RAW (R165). -/
def State.takeRawErase (s : State) (ps : BitVec 16) : State :=
  match s.erase.raw with
  | some _ => s.setLink { s.link with store := .followsRaw }
  | none =>
    if Config.rawSectors ≤ ps.toNat then s.reply .badParam []
    else (s.setErase { s.erase with raw := some ⟨ps.toNat, none⟩ }).setLink { s.link with store := .followsRaw }

/-- RAW_ERASE (R165). -/
def execRawErase (ps : BitVec 16) (s : State) : Host.Outcome State Fault Refusal :=
  s.onLink (if s.bridge.state == .raw then s.takeRawErase ps else s.reply .refusedState [])

/-- MALFORMED_WRITE: nothing but BAD_PARAM (R160). -/
def execMalformedWrite (_bytes : List Byte) (s : State) : Host.Outcome State Fault Refusal :=
  s.onLink (s.reply .badParam [])

/-- The code of a RAW erase's outcome (R170). -/
def RawOutcome.byte : RawOutcome → Byte
  | .erased => 0x00
  | .timedOut => 0x01

/-- What the result store shows: code and data (R160, R165, R170). -/
def State.stored (s : State) : ResultCode × List Byte :=
  match s.link.store with
  | .empty => (.badParam, [])
  | .stored code data => (code, data)
  | .followsRaw =>
    match s.erase.raw with
    | none => (.badParam, [])
    | some r =>
      match r.outcome with
      | none => (.busy, le2 r.ps)
      | some o => (.done, le2 r.ps ++ [o.byte])

/-- The bytes of the result store (R170). -/
def State.storeBytes (s : State) : List Byte := s.stored.1.byte :: s.stored.2

/-- The bytes of a read: the store from its first byte, FFh beyond its end (R160). -/
def readOut (bytes : List Byte) (count : Nat) : List Byte := (List.range count).map fun i => bytes.getD i 0xFF

/-- The first read that returns DONE delivers a RAW erase's outcome: the engine holds it no more and the store keeps the
answer (R165). -/
def State.deliver (s : State) : State :=
  match s.link.store with
  | .followsRaw =>
    if s.stored.1 == .done then
      (s.setErase { s.erase with raw := none }).setLink { s.link with store := .stored .done s.stored.2 }
    else s
  | _ => s

/-- A read of the store carried out. -/
def State.readResult (s : State) (count : Nat) : State :=
  (s.deliver).setLink { s.deliver.link with sent := readOut s.storeBytes count }

/-- RESULT_READ (R160, R165). -/
def execResultRead (count : Nat) (s : State) : Host.Outcome State Fault Refusal := s.onLink (s.readResult count)

end Sys2Proof.Machine
end

