-- ==== Sys2Proof/Machine/Requests.lean ====
section
/-! DEFINITION. The requests: acceptance, the checks in order, routing, and the response handshake (03 R37 to R53; 04 R59 to
R61, R68 to R70, R72; 05 R76 to R79). -/

namespace Sys2Proof.Machine

/-! ## The checks (R44 to R52) -/

/-- What the checks say of a request: pass, or the refusing status with its event; the place once the window check has
passed (R39, R44). -/
inductive Verdict where
  | pass (place : Place)
  | refuse (status : Status) (event : Option EventBody) (place : Option Place)
deriving DecidableEq, Repr

/-- The rights of a requester (R24). -/
def Settings.rights (c : Settings) (r : Fin 8) : Rights := c.requesters[r]

/-- A write kind: the kinds of the write mask, the READ_ONLY check and the gate check. -/
def ReqKind.isWrite (k : ReqKind) : Bool := k == .write || k == .durableWrite

/-- An event of the Access Checker or the port with a requester and an address (R46, R47, R49, R52). -/
def portEvent (kind : EventKind) (src : Source) (addr : BitVec 25) (code : Option DetailCode) : EventBody where
  kind := kind
  requester := some src.requester
  location := some (.address addr.toNat)
  code := code

/-- The region check passes (R49); it is not applied in RAW (R34). -/
def State.regionAllows (s : State) (kind : ReqKind) (src : Source) (sector : Nat) : Bool :=
  s.settings.raw ||
    (match s.settings.regions.find? fun r => decide (r.first ≤ sector) && decide (sector ≤ r.last) with
      | none => false
      | some r => (if kind.isWrite then r.writeMask else r.readMask).getLsbD src.requester.val)

/-- A guard slot refuses the kind in the sector (R50). -/
def GuardSlot.refuses (g : GuardSlot) (kind : ReqKind) (sector : Nat) : Bool :=
  decide (g.first ≤ sector) && decide (sector ≤ g.last)
    && (match g.mode with
      | .none => false
      | .writeDeny => kind.isWrite
      | .allDeny => true)

/-- The lowest guard slot that refuses (R50). -/
def Access.guardHit (a : Access) (kind : ReqKind) (sector : Nat) : Option Nat :=
  (List.range 4).find? fun i => (a.guards.toList.getD i GuardSlot.powerOn).refuses kind sector

/-- The gate admits a write: OPEN, or privileged from a requester with gate_bypass (R52). -/
def State.gateAdmits (s : State) (src : Source) : Bool :=
  s.access.gateOpen || (src.privileged && (s.settings.rights src.requester).gateBypass)

/-- The event of GUARD_HIT: the logical sector, in RAW the physical one, and the slot (R50, R166). -/
def State.guardEvent (s : State) (src : Source) (sector slot : Nat) : EventBody where
  kind := .guardHit
  requester := some src.requester
  location := some (if s.settings.raw then .ps sector else .ls sector)
  value := some slot

/-- Checks 4 to 7b on a request that passed the first three, in order (R48 to R52). -/
def State.checkPlace (s : State) (kind : ReqKind) (src : Source) (addr : BitVec 25) (len : BitVec 7) : Verdict :=
  let p := placeOf addr len
  if s.settings.windowSectors * Config.sectorBytes ≤ addr.toNat then .refuse .outOfWindow none none
  else if !s.regionAllows kind src p.key.sector then
    .refuse .denied (some (portEvent .accessDenied src addr (some .region))) (some p)
  else
    match s.access.guardHit kind p.key.sector with
    | some slot => .refuse .guarded (some (s.guardEvent src p.key.sector slot)) (some p)
    | none =>
      if kind.isWrite && (s.map.worn || s.journal.fenced) then .refuse .readOnly none (some p)
      else if kind.isWrite && !s.gateAdmits src then
        .refuse .gated (some (portEvent .writeGated src addr none)) (some p)
      else .pass p

/-- Checks 2 (LENGTH, CROSSING) to 7b on a request whose tag is free, in SERVICE or RAW (R44, R46 to R52). -/
def State.check (s : State) (kind : ReqKind) (src : Source) (addr : BitVec 25) (len : BitVec 7) : Verdict :=
  if len.toNat = 0 ∨ 64 < len.toNat then
    .refuse .protocol (some (portEvent .protocolError src addr (some .length))) none
  else if 64 < addr.toNat % 64 + len.toNat then
    .refuse .protocol (some (portEvent .protocolError src addr (some .crossing))) none
  else if !(s.settings.rights src.requester).enabled then
    .refuse .denied (some (portEvent .accessDenied src addr (some .requester))) none
  else s.checkPlace kind src addr len

/-! ## Entries and refusals (R39, R40, R42) -/

/-- A tag is held by an entry, in either phase (R40, R46). -/
def Port.holds (p : Port) (id : Tag) : Bool := p.pending.any fun e => e.id == id

/-- An entry made WAITING (R39). -/
def State.listEntry (s : State) (kind : ReqKind) (src : Source) (place : Option Place) (snap : Snapshot) : State :=
  s.setPort { s.port with
    pending := s.port.pending ++ [⟨tagOf src, kind, src.privileged, place, snap, .waiting⟩] }

/-- An event raised, where there is one. -/
def State.raiseOpt (s : State) (e : Option EventBody) : State :=
  match e with
  | none => s
  | some x => s.raise x

/-- A request refused into its table entry, answered at once (R39). -/
def State.refuse (s : State) (kind : ReqKind) (src : Source) (status : Status) (event : Option EventBody)
    (place : Option Place) : State :=
  ((s.listEntry kind src place []).answer (tagOf src) status []).raiseOpt event

/-- A duplicate refused into the refusal slot (R40). -/
def State.refuseDuplicate (s : State) (src : Source) (status : Status) (event : Option EventBody) : State :=
  (s.setPort { s.port with slot := some ⟨tagOf src, status⟩, answers := s.port.answers ++ [.slot] }).raiseOpt event

/-- Requests are checked beyond the state check: the bridge is in SERVICE or RAW (R45). -/
def State.serving (s : State) : Bool := s.bridge.state == .service || s.bridge.state == .raw

/-- The acceptance of a READ, WRITE or DURABLE_WRITE: the checks in order, then the block that serves it (R37, R44). A
request that request ready does not let in is held on the channel (R37; log 3). -/
def State.accept (s : State) (kind : ReqKind) (src : Source) (addr : BitVec 25) (len : BitVec 7)
    (route : Place → State) : State :=
  if !s.reqReady then s
  else if s.port.holds (tagOf src) then
    if s.serving then
      s.refuseDuplicate src .protocol (some (portEvent .protocolError src addr (some .tag)))
    else s.refuseDuplicate src .halted none
  else if !s.serving then s.refuse kind src .halted none none
  else
    match s.check kind src addr len with
    | .refuse status event place => s.refuse kind src status event place
    | .pass place => route place

/-! ## Routing (R53) -/

/-- A READ routed to the Read Unit: answered from its snapshot, from the cache, or attached to a fill (R76 to R79). -/
def State.routeRead (s : State) (src : Source) (p : Place) : State :=
  let snap := s.wcb.snapshot p
  let t := s.listEntry .read src (some p) snap
  let group := (s.settings.rights src.requester).group
  if snap.all Option.isSome then t.answer (tagOf src) .ok (readBytes snap p.offset Line.zero)
  else
    match s.reads.lookup p.key with
    | some x =>
      if x.group == group then
        (t.setReads (s.reads.touch x)).answer (tagOf src) .ok (readBytes snap p.offset x.data)
      else t.setReads (s.reads.miss p.key group (tagOf src))
    | none => t.setReads (s.reads.miss p.key group (tagOf src))

/-- A write refused by the buffer: OVERRUN, with its event (R53, R61). -/
def State.overrun (s : State) (kind : ReqKind) (src : Source) (addr : BitVec 25) (p : Place) : State :=
  s.refuse kind src .overrun (some { portEvent .overrun src addr none with value := some s.wcb.occupancy }) (some p)

/-- A write taken into the buffer waits for its commits (R70, R72). -/
def State.takeDurable (s : State) (kind : ReqKind) (src : Source) (p : Place) (w : Wcb) : State :=
  (s.listEntry kind src (some p) []).setWcb { w with waits := w.waits ++ [w.durableSet (tagOf src) p.key] }

/-- A write routed to the buffer as a DURABLE_WRITE (R53, R70, R72). -/
def State.routeDurable (s : State) (kind : ReqKind) (src : Source) (addr : BitVec 25) (data : Line) (p : Place) : State :=
  match s.wcb.takeWrite s.settings p data with
  | none => s.overrun kind src addr p
  | some w => s.takeDurable kind src p w

/-- A WRITE routed to the buffer: posted in SERVICE, handled as a DURABLE_WRITE in RAW (R53, R59, R72). -/
def State.routeWrite (s : State) (src : Source) (addr : BitVec 25) (data : Line) (p : Place) : State :=
  if s.settings.raw then s.routeDurable .write src addr data p
  else
    match s.wcb.takeWrite s.settings p data with
    | none => s.overrun .write src addr p
    | some w => ((s.listEntry .write src (some p) []).setWcb w).answer (tagOf src) .ok []

/-- A BARRIER routed to the buffer: answered at once when it is empty (R53, R69). -/
def State.routeBarrier (s : State) (src : Source) : State :=
  let t := s.listEntry .barrier src none []
  if s.wcb.entries.isEmpty then t.answer (tagOf src) .ok []
  else t.setWcb { s.wcb with waits := s.wcb.waits ++ [s.wcb.barrierSet (tagOf src)] }

/-- The TAG refusal of a BARRIER raises PROTOCOL_ERROR without an address (R46). -/
def barrierTagEvent (src : Source) : EventBody where
  kind := .protocolError
  requester := some src.requester
  code := some .tag

/-- The acceptance of a BARRIER: the state check and the tag part of the protocol check (R44, R45, R46). -/
def State.acceptBarrier (s : State) (src : Source) : State :=
  if !s.reqReady then s
  else if s.port.holds (tagOf src) then
    if s.serving then s.refuseDuplicate src .protocol (some (barrierTagEvent src))
    else s.refuseDuplicate src .halted none
  else if !s.serving then s.refuse .barrier src .halted none none
  else s.routeBarrier src

/-- The head of the answer queue leaves with its entry or the slot (R42). -/
def Port.taken (p : Port) : Port :=
  match p.answers with
  | [] => p
  | .slot :: rest => { p with slot := none, answers := rest }
  | .entry id :: rest => { p with pending := p.pending.filter fun e => e.id != id, answers := rest }

/-! ## The commands -/

/-- READ (R76). -/
def execRead (src : Source) (addr : BitVec 25) (len : BitVec 7) (s : State) : Host.Outcome State Fault Refusal :=
  .next (s.accept .read src addr len fun p => s.routeRead src p)

/-- WRITE (R59). -/
def execWrite (src : Source) (addr : BitVec 25) (len : BitVec 7) (data : Line) (s : State) :
    Host.Outcome State Fault Refusal :=
  .next (s.accept .write src addr len fun p => s.routeWrite src addr data p)

/-- DURABLE_WRITE (R70). -/
def execDurableWrite (src : Source) (addr : BitVec 25) (len : BitVec 7) (data : Line) (s : State) :
    Host.Outcome State Fault Refusal :=
  .next (s.accept .durableWrite src addr len fun p => s.routeDurable .durableWrite src addr data p)

/-- BARRIER (R69). -/
def execBarrier (src : Source) (s : State) : Host.Outcome State Fault Refusal := .next (s.acceptBarrier src)

/-- RESPONSE_TAKEN (R42). -/
def execResponseTaken (s : State) : Host.Outcome State Fault Refusal := .next (s.setPort s.port.taken)

end Sys2Proof.Machine
end

