-- ==== Sys2Proof/Machine/StartUp.lean ====
section
/-! DEFINITION. The commands of the reset lines and of the start-up (09 R151 to R155; 02 R29; 08 R142; 10 R160). -/

namespace Sys2Proof.Machine

/-- PORST_ASSERT: RESET of kind power-on from any state, also during a warm RESET (R151). -/
def execPorstAssert (s : State) : Host.Outcome State Fault Refusal :=
  .next ((s.enterReset .powerOn).setPins { s.pins with porst := true })

/-- PORST_RELEASE: the straps are latched; with RESET deasserted the bridge enters LOAD (R151, R160; log 5). -/
def execPorstRelease (straps : BitVec 2) (s : State) : Host.Outcome State Fault Refusal :=
  .next
    (if s.pins.porst then
      ((s.setPins { s.pins with porst := false }).setLink { s.link with straps := straps }).leaveReset
    else s)

/-- RESET_ASSERT: RESET of kind warm at once; no effect of its own in RESET (R151). -/
def execResetAssert (s : State) : Host.Outcome State Fault Refusal :=
  .next
    ((if s.bridge.state == .reset then s else s.enterReset .warm).setPins { s.pins with reset := true })

/-- RESET_RELEASE: with PORST deasserted too the bridge enters LOAD (R151). -/
def execResetRelease (s : State) : Host.Outcome State Fault Refusal :=
  .next ((s.setPins { s.pins with reset := false }).leaveReset)

/-- The effect of PFAIL at its assertion (R153, R154, R155). -/
def State.pfailAsserted (s : State) : State :=
  match s.bridge.state with
  | .load => s.setBridge { s.bridge with stopPower := true }
  | .rebuild => s.setBridge { s.bridge with stopPower := true }
  | .service => s.enterQuiesce .power
  | .raw => s.enterQuiesce .power
  | .quiesce =>
    if s.bridge.cause == some .orderly then
      s.setBridge { s.bridge with
        cause := some .power
        deadline := match s.bridge.deadline with
          | .running ms => .earlier ms s.settings.powerDeadline
          | d => d }
    else s
  | _ => s

/-- PFAIL becomes asserted, where it was not (R153 to R155). -/
def State.pfailRises (s : State) : State :=
  if s.pins.pfail then s else (s.setPins { s.pins with pfail := true }).pfailAsserted

/-- PFAIL_ASSERT (R153 to R155). -/
def execPfailAssert (s : State) : Host.Outcome State Fault Refusal := s.pfailRises.noted

/-- PFAIL_DEASSERT: the level alone (R155, R158). -/
def execPfailDeassert (s : State) : Host.Outcome State Fault Refusal := .next (s.setPins { s.pins with pfail := false })

/-- RESET_REQ becomes asserted, where it was not: it acts at its assertion alone (R154). -/
def State.resetReqRises (s : State) : State :=
  if s.pins.resetReq then s else (s.setPins { s.pins with resetReq := true }).orderlyRequest

/-- RESET_REQ_ASSERT (R153 to R155, R158). -/
def execResetReqAssert (s : State) : Host.Outcome State Fault Refusal := s.resetReqRises.noted

/-- RESET_REQ_DEASSERT: the level alone (R154). -/
def execResetReqDeassert (s : State) : Host.Outcome State Fault Refusal :=
  .next (s.setPins { s.pins with resetReq := false })

/-- No transaction is in flight any more in LOAD or REBUILD: PFAIL goes before an orderly request (R153). -/
def State.stopNow (s : State) : State :=
  if (s.bridge.state == .load || s.bridge.state == .rebuild) && s.bus.tx.isNone then
    if s.bridge.stopPower then s.haltStart
    else if s.bridge.stopOrderly then s.warmReset
    else s
  else s

/-- STOP_AFTER_TRANSACTION (R153). -/
def execStopAfterTransaction (s : State) : Host.Outcome State Fault Refusal := .next s.stopNow

/-- A line of the descriptor on the bus is taken; while a stop waits, LOAD goes no further (R29, R153; log 18). -/
def State.takeDescriptorLine (s : State) (line : Line) : State :=
  if s.busHolds .descriptorRead then
    if s.stopWaits || s.bridge.state != .load then s.busIdle else s.busIdle.descriptorRead line
  else s

/-- DESCRIPTOR_READ_END (R29). -/
def execDescriptorReadEnd (bytes : Line) (s : State) : Host.Outcome State Fault Refusal :=
  (s.takeDescriptorLine bytes).noted

/-- A window of a bank on the bus is taken; while a stop waits, REBUILD goes no further (R142, R153; log 18). -/
def State.takeBankWindow (s : State) (w : Window) : State :=
  if s.busHolds .journalRead then
    if s.stopWaits || s.bridge.state != .rebuild then s.busIdle else s.busIdle.rebuildRead w
  else s

/-- JOURNAL_READ_END (R142). -/
def execJournalReadEnd (bytes : Window) (s : State) : Host.Outcome State Fault Refusal := (s.takeBankWindow bytes).noted

end Sys2Proof.Machine
end

