-- ==== Sys2Proof/Machine/Dispatch.lean ====
section
/-! DEFINITION. The effect of each command on everything but the queue of commands: one arm for each row of the
table, in its order. -/

namespace Sys2Proof.Machine

/-- The effect of a command on everything but the queue. -/
def exec (i : Instr) (s : State) : Host.Outcome State Fault Refusal :=
  match i with
  | .porstAssert => Sys2Proof.Machine.execPorstAssert s
  | .resetAssert => Sys2Proof.Machine.execResetAssert s
  | .resetRelease => Sys2Proof.Machine.execResetRelease s
  | .pfailAssert => Sys2Proof.Machine.execPfailAssert s
  | .resetReqAssert => Sys2Proof.Machine.execResetReqAssert s
  | .stopAfterTransaction => Sys2Proof.Machine.execStopAfterTransaction s
  | .read src addr len => Sys2Proof.Machine.execRead src addr len s
  | .write src addr len data => Sys2Proof.Machine.execWrite src addr len data s
  | .durableWrite src addr len data => Sys2Proof.Machine.execDurableWrite src addr len data s
  | .barrier src => Sys2Proof.Machine.execBarrier src s
  | .responseTaken => Sys2Proof.Machine.execResponseTaken s
  | .lingerExpiry => Sys2Proof.Machine.execLingerExpiry s
  | .commitOffer => Sys2Proof.Machine.execCommitOffer s
  | .compactionStart => Sys2Proof.Machine.execCompactionStart s
  | .eraseClaim => Sys2Proof.Machine.execEraseClaim s
  | .arbiterGrant tie => Sys2Proof.Machine.execArbiterGrant tie s
  | .fillComplete bytes => Sys2Proof.Machine.execFillComplete bytes s
  | .commitReadEnd bytes => Sys2Proof.Machine.execCommitReadEnd bytes s
  | .descriptorReadEnd bytes => Sys2Proof.Machine.execDescriptorReadEnd bytes s
  | .journalReadEnd bytes => Sys2Proof.Machine.execJournalReadEnd bytes s
  | .commandFrameEnd => Sys2Proof.Machine.execCommandFrameEnd s
  | .pollDue cs => Sys2Proof.Machine.execPollDue cs s
  | .statusPoll byte => Sys2Proof.Machine.execStatusPoll byte s
  | .operationTimeout cs => Sys2Proof.Machine.execOperationTimeout cs s
  | .loadPollTimeout cs => Sys2Proof.Machine.execLoadPollTimeout cs s
  | .drainComplete => Sys2Proof.Machine.execDrainComplete s
  | .quiesceDeadlineExpiry => Sys2Proof.Machine.execQuiesceDeadlineExpiry s
  | .quiesceExitAfterExpiry => Sys2Proof.Machine.execQuiesceExitAfterExpiry s
  | .status => Sys2Proof.Machine.execStatus s
  | .eventRead => Sys2Proof.Machine.execEventRead s
  | .noticeAck => Sys2Proof.Machine.execNoticeAck s
  | .guardSet slot first last mode lock => Sys2Proof.Machine.execGuardSet slot first last mode lock s
  | .guardRead slot => Sys2Proof.Machine.execGuardRead slot s
  | .gateOpen auth => Sys2Proof.Machine.execGateOpen auth s
  | .gateClose => Sys2Proof.Machine.execGateClose s
  | .gateLock => Sys2Proof.Machine.execGateLock s
  | .orderlyReset => Sys2Proof.Machine.execOrderlyReset s
  | .warmReset => Sys2Proof.Machine.execWarmReset s
  | .rawErase ps => Sys2Proof.Machine.execRawErase ps s
  | .malformedWrite bytes => Sys2Proof.Machine.execMalformedWrite bytes s
  | .resultRead count => Sys2Proof.Machine.execResultRead count s
  | .pfailDeassert => Sys2Proof.Machine.execPfailDeassert s
  | .resetReqDeassert => Sys2Proof.Machine.execResetReqDeassert s
  | .porstRelease straps => Sys2Proof.Machine.execPorstRelease straps s

end Sys2Proof.Machine
end

