-- ==== Sys2Proof/Machine/Step.lean ====
section
/-! DEFINITION. One step of the block: the command at the front of the queue. -/

namespace Sys2Proof.Machine

/-- One step: the front command's effect with the queue's rest; with no command waiting the bridge idles (log 2). -/
def step (s : State) : Host.Outcome State Fault Refusal :=
  match s.pending with
  | [] => .next s
  | c :: rest => exec c (s.setPending rest)

/-- A state with a command put at the front of its queue. -/
def State.withCommand (s : State) (c : Instr) : State := s.setPending (c :: s.pending)

/-- The host's placing of a table word: the command it spells at the front of the queue (none spells one, log 34). -/
def State.withFetchWord (s : State) (nbits w : Nat) : State :=
  match decodeTableWord nbits w with
  | none => s
  | some c => s.withCommand c

end Sys2Proof.Machine
end

