-- ==== Sys2Proof/Machine/FlashLines.lean ====
section
/-! DEFINITION. The flash bus at its lines: the levels of the chip selects, the clock and FDO through the frames of the
transaction on the bus, and the bytes that the levels of FDI spell (07 R112; 11 R171). How long a level lasts is not modelled
(log 2). -/

namespace Sys2Proof.Machine

/-! ## Lines out (R171) -/

/-- The levels of the flash bus lines that the bridge drives. The chip selects are active low: false is asserted. FDO is none
while no byte is sent, where R171 gives it no level (log 64). -/
structure FlashLines where
  fcs0 : Bool
  fcs1 : Bool
  fclk : Bool
  fdo : Option Bool
deriving DecidableEq, Repr

/-- The lines between frames: both chip selects deasserted, the clock idle low (R112, R171). -/
def FlashLines.idle : FlashLines := ⟨true, true, false, none⟩

/-- One clock of a frame: low with the bit that the falling edge put out, then high with the bit standing, at whose rising
edge a bit is taken (R171). -/
def clockLevels (cs : ChipSelect) (bit : Option Bool) : List FlashLines :=
  [⟨cs != .cs0, cs != .cs1, false, bit⟩, ⟨cs != .cs0, cs != .cs1, true, bit⟩]

/-- A frame on the lines: one assertion of the chip select through which its bytes are sent and then taken, and its
deassertion (R112, R171). -/
def frameLevels (cs : ChipSelect) (sent : List Byte) (taken : Nat) : List FlashLines :=
  (((sent.flatMap msbFirst).map some ++ List.replicate (8 * taken) none).flatMap (clockLevels cs)) ++ [FlashLines.idle]

/-- How many bytes a transaction takes after those it sends (R112); the Commit Engine reads a line or, for a window of its
copy, 256 bytes (R98). -/
def State.bytesTaken (s : State) (t : BusTx) : Nat :=
  match t.use with
  | .fillRead => 64
  | .descriptorRead => 64
  | .journalRead => 256
  | .commitRead =>
    match s.commit with
    | none => 64
    | some c =>
      match c.work with
      | .copyWindow _ => 256
      | _ => 64
  | .poll => 1
  | .program => 0
  | .erase => 0
  | .suspend => 0
  | .resume => 0

/-- The levels of the lines, from the bus idle through every frame of the transaction that holds it (R112, R171). -/
def State.flashLevels (s : State) : List FlashLines :=
  FlashLines.idle ::
    match s.bus.tx with
    | none => []
    | some t => t.frames.flatMap fun sent => frameLevels t.cs sent (s.bytesTaken t)

/-! ## FDI (R171) -/

/-- The command with which the transaction on the bus ends when its bytes are those that the levels of FDI spell; the pull-down
holds the line low where no device drives it (R112, R171; log 1). -/
def State.flashEnd (s : State) (levels : List Bool) : Option Instr :=
  match s.bus.tx with
  | none => none
  | some t =>
    match t.use with
    | .fillRead => some (.fillComplete (Line.ofFn (byteOfLevels levels)))
    | .descriptorRead => some (.descriptorReadEnd (Line.ofFn (byteOfLevels levels)))
    | .journalRead => some (.journalReadEnd (Window.ofFn (byteOfLevels levels)))
    | .commitRead => some (.commitReadEnd ((List.range (s.bytesTaken t)).map (byteOfLevels levels)))
    | .poll => some (.statusPoll (byteOfLevels levels 0))
    | .program => some .commandFrameEnd
    | .erase => some .commandFrameEnd
    | .suspend => some .commandFrameEnd
    | .resume => some .commandFrameEnd

end Sys2Proof.Machine
end

