-- ==== Sys2Proof/Machine/LinkWires.lean ====
section
/-! DEFINITION. The maintenance link at its two wires (10 R160): START, STOP and clocked bits, the acknowledge of the link's own
address and of each byte of a write, the bytes of a read, and the command that the end of a write is. The rates of the clock
are left out with all times (log 2); what R160 leaves open of the framing is log 66. -/

namespace Sys2Proof.Machine

/-! ## The wires -/

/-- What the board controller does on the wires (R160). -/
inductive LinkWire where
  /-- START, or a repeated START. -/
  | start
  /-- One clock, with the level that the controller puts on SDA: true leaves the line released. -/
  | clock (sda : Bool)
  | stop
deriving DecidableEq, Repr

/-- The level that the bridge puts on SDA during the present clock, true leaving the line released: low to acknowledge its
address or a byte taken, and the bits of the byte it sends, most significant first, FFh beyond the store's end (R160). -/
def State.linkSda (s : State) : Bool :=
  match s.link.frame with
  | .idle => true
  | .address _ => true
  | .addressAck _ => false
  | .writing _ _ => true
  | .writeAck _ => false
  | .reading store place bit => (store.getD place 0xFF).getLsbD (7 - bit)
  | .readAck _ _ => true

/-- The bridge may hold SCL low: only within the acknowledge bit of a byte it receives (R160), of its address or of a write
(log 66). For how long it does is a time (log 2). -/
def State.linkMayHoldScl (s : State) : Bool :=
  match s.link.frame with
  | .idle => false
  | .address _ => false
  | .addressAck _ => true
  | .writing _ _ => false
  | .writeAck _ => true
  | .reading _ _ _ => false
  | .readAck _ _ => false

/-! ## The transfer -/

/-- The transfer comes to another place. -/
def State.setFrame (s : State) (f : LinkFrame) : State := s.setLink { s.link with frame := f }

/-- The link listens and the address byte names it: its upper seven bits are the link's address (R160). -/
def State.linkAnswers (s : State) (byte : Byte) : Bool := s.linkListens && (byte >>> 1).setWidth 7 == s.linkAddress

/-- What follows the eighth bit of an address byte: the acknowledge of the link's own address, or nothing (R160). -/
def State.frameAfterAddress (s : State) (byte : Byte) : LinkFrame :=
  if s.linkAnswers byte then .addressAck (byte.getLsbD 0) else .idle

/-- A byte of a read has been sent: the bytes sent grow by it, and the first one, where it is DONE, delivers a RAW erase's
outcome (R160, R165; log 31). -/
def State.byteSent (s : State) (store : List Byte) (place : Nat) : State :=
  let t := if place = 0 ∧ store.getD 0 0xFF = ResultCode.done.byte then s.deliver else s
  t.setLink { t.link with sent := (if place = 0 then [] else s.link.sent) ++ [store.getD place 0xFF] }

/-- One clock, in which the controller puts the level told on SDA (R160). -/
def State.linkClock (s : State) (sda : Bool) : State :=
  match s.link.frame with
  | .idle => s
  | .address bits =>
    if bits.length < 7 then s.setFrame (.address (bits ++ [sda]))
    else s.setFrame (s.frameAfterAddress (byteOfLevels (bits ++ [sda]) 0))
  | .addressAck read => s.setFrame (if read then .reading s.storeBytes 0 0 else .writing [] [])
  | .writing bytes bits =>
    if bits.length < 7 then s.setFrame (.writing bytes (bits ++ [sda]))
    else s.setFrame (.writeAck (bytes ++ [byteOfLevels (bits ++ [sda]) 0]))
  | .writeAck bytes => s.setFrame (.writing bytes [])
  | .reading store place bit =>
    if bit < 7 then s.setFrame (.reading store place (bit + 1))
    else (s.byteSent store place).setFrame (.readAck store place)
  | .readAck store place => s.setFrame (if sda then .idle else .reading store (place + 1) 0)

/-- A command carried out at once, as one action: it stands before those that wait (R160). -/
def State.carryOut (s : State) (c : Instr) : State :=
  match step (s.withCommand c) with
  | .next t => t
  | .fault _ => s
  | .refused _ => s

/-- A STOP or a repeated START ends the transfer: a write gives its command, with AUTH at the level told (R55, R160). -/
def State.endTransfer (s : State) (auth : Bool) (f : LinkFrame) : State :=
  match s.link.frame with
  | .writing bytes _ => (s.setFrame f).carryOut (decodeLinkWrite auth bytes)
  | .writeAck bytes => (s.setFrame f).carryOut (decodeLinkWrite auth bytes)
  | _ => s.setFrame f

/-- What one action of the controller on the wires does, AUTH at the level told (R160). -/
def State.linkWire (s : State) (auth : Bool) : LinkWire → State
  | .start => s.endTransfer auth (.address [])
  | .clock sda => s.linkClock sda
  | .stop => s.endTransfer auth .idle

/-- Actions on the wires one after another: the state after them, and the level that the bridge puts on SDA during each
clock. -/
def State.linkRun (auth : Bool) : State → List LinkWire → State × List Bool
  | s, [] => (s, [])
  | s, w :: rest =>
    let r := State.linkRun auth (s.linkWire auth w) rest
    (r.1, match w with
      | .start => r.2
      | .clock _ => s.linkSda :: r.2
      | .stop => r.2)

/-- The clocks of a byte that the controller sends, most significant bit first (R160). -/
def sendClocks (b : Byte) : List LinkWire := (msbFirst b).map LinkWire.clock

end Sys2Proof.Machine
end

