-- ==== Sys2Proof/Safety.lean ====
section
/-! DEFINITION. What it means that the machine goes on (the spec names no event that stops it), and what every step keeps:
the laws of the blocks as properties of a state. -/

namespace Sys2Proof.Machine

/-- A state whose next step is a next state. -/
def goesOn (s : State) : Prop := ∃ t, step s = .next t

/-- The next state of an outcome, where it is one. -/
def nextOf (o : Host.Outcome State Fault Refusal) : Option State :=
  match o with
  | .next t => some t
  | .fault _ => none
  | .refused _ => none

/-! ## What every step keeps -/

/-- Law 11 (R167, R168): at most 16 records, dropped counts at most 255, and ARMED only with the queue empty. -/
def EventBlock.wf (e : EventBlock) : Prop :=
  e.queue.length ≤ 16 ∧ (∀ r ∈ e.queue, r.dropped ≤ 255) ∧ (e.notice = .armed → e.queue = [])

/-- Law 10 (R39, R42): at most 32 entries, no requester and tag twice; the answer queue holds each answered entry and the
occupied refusal slot once and nothing else. -/
def Port.wf (p : Port) : Prop :=
  p.pending.length ≤ 32 ∧ (p.pending.map PendEntry.id).Nodup ∧ p.answers.Nodup
    ∧ (∀ id, AnswerRef.entry id ∈ p.answers ↔ ∃ e ∈ p.pending, e.id = id ∧ e.phase ≠ .waiting)
    ∧ (AnswerRef.slot ∈ p.answers ↔ p.slot.isSome = true)

/-- R77 and R79: at most 32 valid slots, no key in two of them; no key in two fills that are not superseded. -/
def ReadUnit.wf (r : ReadUnit) : Prop :=
  r.cache.length ≤ 32 ∧ (r.cache.map CacheLine.key).Nodup
    ∧ ((r.fills.filter fun f => !f.superseded).map Fill.key).Nodup

/-- The kind of the operation in progress in a device of each state (R111). -/
def DeviceState.opKind : DeviceState → Option OpKind
  | .busyProgram => some .program
  | .busyErase => some .erase
  | .eraseSuspended => some .erase
  | .unknown => none
  | .ready => none
  | .stuck => none

/-- A device record (R111): the one operation in progress is of the kind of its state, a suspended erase counted (law 8), and
the timer stands still while it is suspended (R121); at most 8 suspensions, at most 4 fills counted in one (law 9, R120). -/
def Device.wf (d : Device) : Prop :=
  d.op.map Operation.kind = d.state.opKind ∧ (d.state = .eraseSuspended → d.opTimer = .paused)
    ∧ d.suspensions ≤ 8 ∧ d.fillsTaken ≤ 4

/-- What a device is while a transaction of it is on the bus: it has left READY at the grant of a program or an erase (law 8,
R113, R114), and a RESUME is that of a suspended erase or that of R31. -/
def Device.carries (d : Device) : BusUse → Prop
  | .program => d.state = .busyProgram ∧ d.opTimer = .stopped
  | .erase => d.state = .busyErase ∧ d.opTimer = .stopped
  | .resume => d.state = .eraseSuspended ∨ d.resumeStep = .pollWaits
  | _ => True

/-- R119, law 8 (R113) and law 9 (R120): the burst count is at most 8, and every device record is as the transaction on the
bus and its own state say. -/
def FlashBus.wf (x : FlashBus) : Prop :=
  x.burst ≤ 8 ∧ ∀ cs d, x.dev cs = some d → d.wf ∧ ∀ tx, x.tx = some tx → tx.cs = cs → d.carries tx.use

/-- RESET, LOAD and REBUILD, in which the buffer holds nothing (R74). -/
def BridgeState.early (b : BridgeState) : Bool := b == .reset || b == .load || b == .rebuild

/-- The settings of a descriptor or of RAW are in force. -/
def Bridge.hasSettings (b : Bridge) : Bool :=
  b.state == .rebuild || b.state == .service || b.state == .raw || b.state == .quiesce || b.load == .resuming

/-- Law 4 (R58, R60): no line in two entries, at most H + 1 entries, HOLD asserted at H entries or more, the allowance
unspent at no more than H. -/
def Wcb.wf (w : Wcb) (highMark : Nat) : Prop :=
  (w.entries.map Entry.key).Nodup
    ∧ w.occupancy ≤ highMark + 1
    ∧ (w.hold = false → w.occupancy < highMark ∨ w.occupancy = 0)
    ∧ (w.hold = true → w.grace = true → w.occupancy ≤ highMark)

/-- Law 4 with H as it stands; nothing buffered in RESET, LOAD and REBUILD (R74); H from 8 to 14 once settings are in force
(R22, R33). -/
def State.wcbWf (s : State) : Prop :=
  s.wcb.wf s.settings.highMark
    ∧ (s.bridge.state.early = true → s.wcb.entries = [] ∧ s.wcb.hold = false)
    ∧ (s.bridge.hasSettings = true → 8 ≤ s.settings.highMark ∧ s.settings.highMark ≤ 14)

/-- R151: while PORST or RESET is asserted the bridge is in RESET, and in RESET every block stands as entry to RESET left
it (the table "Effects of Reset by Block" of spec 09). -/
def State.resetWf (s : State) : Prop :=
  ((s.pins.porst = true ∨ s.pins.reset = true) → s.bridge.state = .reset)
    ∧ (s.bridge.state = .reset →
        s.bridge = ⟨.reset, none, .stopped, false, false, false, 0, .idle⟩ ∧ s.settings = Settings.none
        ∧ s.port = ⟨[], none, []⟩ ∧ s.wcb = Wcb.empty ∧ s.reads = ⟨[], []⟩ ∧ s.commit = none ∧ s.map = SectorMap.empty
        ∧ s.bus = FlashBus.empty ∧ s.erase = EraseEngine.empty ∧ s.journal = MapJournal.empty ∧ s.access.gateOpen = false)

/-- The laws of the blocks together. -/
def State.lawful (s : State) : Prop := s.events.wf ∧ s.port.wf ∧ s.reads.wf ∧ s.bus.wf ∧ s.wcbWf ∧ s.resetWf

/-! ## A request at the port, as the statements name it (R37 to R52) -/

/-- The command that presents a request of a kind (R38). -/
def ReqKind.command (kind : ReqKind) (src : Source) (addr : BitVec 25) (len : BitVec 7) (data : Line) : Instr :=
  match kind with
  | .read => .read src addr len
  | .write => .write src addr len data
  | .durableWrite => .durableWrite src addr len data
  | .barrier => .barrier src

/-- A request is accepted and its requester and tag are free: the bridge is past REBUILD, the table has room, the slot is
empty (R37, R40). -/
def State.accepts (s : State) (src : Source) : Prop :=
  s.bridge.state.early = false ∧ s.port.pending.length < 32 ∧ s.port.slot = none
    ∧ ∀ e ∈ s.port.pending, e.id ≠ tagOf src

/-- The bridge serves requests: SERVICE or RAW (R45). -/
def State.serves (s : State) : Prop := s.bridge.state = .service ∨ s.bridge.state = .raw

/-- Length and range lie in one line (R46). -/
def spanLegal (addr : BitVec 25) (len : BitVec 7) : Prop :=
  1 ≤ len.toNat ∧ len.toNat ≤ 64 ∧ addr.toNat % 64 + len.toNat ≤ 64

/-- The sector of an address (R5, R34). -/
def sectorOf (addr : BitVec 25) : Nat := addr.toNat / 4096

/-- A region holds a sector. -/
def Region.holds (r : Region) (sector : Nat) : Prop := r.first ≤ sector ∧ sector ≤ r.last

/-- The mask of a region that a kind is judged by names the requester (R49). -/
def Region.names (r : Region) (kind : ReqKind) (q : Fin 8) : Prop :=
  (if kind = .read then r.readMask else r.writeMask).getLsbD q.val = true

/-- The region check passes (R49); in RAW it is not applied. -/
def State.regionPasses (s : State) (kind : ReqKind) (src : Source) (sector : Nat) : Prop :=
  s.settings.raw = true
    ∨ (∃ r ∈ s.settings.regions, r.holds sector)
      ∧ ∀ r ∈ s.settings.regions, r.holds sector → r.names kind src.requester

/-- The region check refuses (R49): no region holds the sector, or none of those that hold it names the requester. -/
def State.regionRefuses (s : State) (kind : ReqKind) (src : Source) (sector : Nat) : Prop :=
  s.settings.raw = false ∧ ∀ r ∈ s.settings.regions, r.holds sector → ¬ r.names kind src.requester

/-- A guard slot refuses a kind in a sector (R50). -/
def GuardSlot.stops (g : GuardSlot) (kind : ReqKind) (sector : Nat) : Prop :=
  g.first ≤ sector ∧ sector ≤ g.last ∧ (g.mode = .allDeny ∨ (g.mode = .writeDeny ∧ kind ≠ .read))

/-- No guard slot refuses (R50). -/
def State.unguarded (s : State) (kind : ReqKind) (sector : Nat) : Prop :=
  ∀ i : Fin 4, ¬ (s.access.guards[i]).stops kind sector

/-- The request comes past the protocol, requester and window checks (R46 to R48). -/
def State.inWindow (s : State) (src : Source) (addr : BitVec 25) (len : BitVec 7) : Prop :=
  s.accepts src ∧ s.serves ∧ spanLegal addr len ∧ (s.settings.requesters[src.requester]).enabled = true
    ∧ addr.toNat < s.settings.windowSectors * 4096

/-- A request past the region and guard checks too (R49, R50). -/
def State.unrefused (s : State) (kind : ReqKind) (src : Source) (addr : BitVec 25) (len : BitVec 7) : Prop :=
  s.inWindow src addr len ∧ s.regionPasses kind src (sectorOf addr) ∧ s.unguarded kind (sectorOf addr)

/-- A write past every check (R51, R52). -/
def State.writable (s : State) (kind : ReqKind) (src : Source) (addr : BitVec 25) (len : BitVec 7) : Prop :=
  s.unrefused kind src addr len ∧ s.map.worn = false ∧ s.journal.fenced = false
    ∧ (s.access.gateOpen = true
      ∨ (src.privileged = true ∧ (s.settings.requesters[src.requester]).gateBypass = true))

/-- The port with one more entry at the young end of its table (R39). -/
def State.withEntry (s : State) (e : PendEntry) : State :=
  { s with port := { s.port with pending := s.port.pending ++ [e] } }

/-- The port with one more entry, answered at its acceptance (R39, R42). -/
def State.withAnswered (s : State) (kind : ReqKind) (src : Source) (place : Option Place) (snap : Snapshot)
    (status : Status) (data : List Byte) : State :=
  { s with port := { s.port with
    pending := s.port.pending ++ [⟨tagOf src, kind, src.privileged, place, snap, .answered status data⟩]
    answers := s.port.answers ++ [.entry (tagOf src)] } }

/-- A request refused at its acceptance: an answered entry without data, no snapshot, and nothing more. -/
def State.withRefused (s : State) (kind : ReqKind) (src : Source) (status : Status) (place : Option Place) : State :=
  s.withAnswered kind src place [] status []

/-- A duplicate refused into the slot (R40). -/
def State.withDuplicate (s : State) (src : Source) (status : Status) : State :=
  { s with port := { s.port with slot := some ⟨tagOf src, status⟩, answers := s.port.answers ++ [.slot] } }

/-! ## The starts of LOAD, as the statements name them (R28, R151, R152) -/

/-- The bridge at entry to LOAD: both chip selects unknown, a poll of each due, a PFAIL that is asserted acted on. -/
def State.atLoad (s : State) : State :=
  { s with
    bridge := { s.bridge with state := .load, load := .polling, stopPower := s.pins.pfail }
    bus := ⟨none, 0, [.cs0, .cs1], true, [], some (Device.idle .unknown), some (Device.idle .unknown)⟩ }

/-- The bridge after entry to RESET of kind warm: every block as at power-on but the guards, the gate lock, the result
store, the straps and the event queue. -/
def State.atWarmReset (s : State) : State :=
  { State.reset with
    pins := s.pins
    access := { s.access with gateOpen := false }
    link := { s.link with store := if s.link.store = .followsRaw then .stored .refusedState [] else s.link.store }
    events := { s.events with notice := if s.events.queue = [] then .armed else .notified }
    free := s.free
    pending := s.pending }

/-- A warm reset that goes on to LOAD unless a reset line is asserted (R152). -/
def State.warmStart (s : State) : State :=
  if s.pins.porst = true ∨ s.pins.reset = true then s.atWarmReset else s.atWarmReset.atLoad

/-- One more event received (R166). -/
def State.withEvent (s : State) (b : EventBody) : State := { s with events := s.events.receive b }

/-- A result in the store (R160). -/
def State.withResult (s : State) (code : ResultCode) (data : List Byte) : State :=
  { s with link := { s.link with store := .stored code data } }

/-! ## Commits and sectors, as the statements name them -/

/-- A byte under the image mask of a line of a sector needs a 0-to-1 change over the flash bytes told (R94). -/
def State.needsErase (s : State) (sector line : Nat) (flash : Line) : Prop :=
  ∃ i < 64, (s.image sector line).2.getLsbD i = true ∧ (s.image sector line).1.byte i &&& ~~~ flash.byte i ≠ 0

/-- Byte `pos` of window `w` of a commit's sector lies under the image mask of a line of its record (R95, R98). -/
abbrev State.imaged (s : State) (c : CommitRecord) (w pos : Nat) : Prop :=
  4 * w + pos / 64 ∈ c.lines ∧ (s.image c.sector (4 * w + pos / 64)).2.getLsbD (pos % 64) = true

/-- Byte `pos` of window `w` as a commit sends it: the image byte where a line of the record has it under its mask, the
byte told elsewhere (R95, R98). -/
def State.newByte (s : State) (c : CommitRecord) (w pos : Nat) (other : Byte) : Byte :=
  if s.imaged c w pos then (s.image c.sector (4 * w + pos / 64)).1.byte (pos % 64) else other

/-- The Read Unit after an invalidation of each of the lines of a sector told (R84). -/
def ReadUnit.withoutLines (r : ReadUnit) (sector : Nat) (lines : List Nat) : ReadUnit where
  cache := r.cache.filter fun x => decide (¬ (x.key.sector = sector ∧ x.key.line ∈ lines))
  fills := r.fills.map fun f =>
    if f.key.sector = sector ∧ f.key.line ∈ lines ∧ f.phase ≠ .queued then { f with superseded := true } else f

/-- The Sector Map with its target, if it holds one, released to the erase queue's tail (R14). -/
def SectorMap.released (m : SectorMap) : SectorMap :=
  { m with
    target := none
    queue := m.queue ++ (match m.target with
      | none => []
      | some ps => [⟨ps, false⟩]) }

/-- The bridge once a commit has given up what it held: its target released, its waiting take and its records that no
program has begun withdrawn (R104). -/
def State.givenUp (s : State) : State :=
  { s with
    map := { s.map.released with taking := false }
    journal := { s.journal with queue :=
      (s.journal.queue.filter fun q => decide (q.begun = true ∨ q.claimant ≠ .commit)) } }

/-- Every physical sector that the Sector Map names, class by class (R8). -/
def SectorMap.named (m : SectorMap) : List Nat :=
  m.remap ++ m.target.toList ++ m.pool ++ m.queue.map QueuedSector.ps ++ m.retired.map RetiredSector.ps

/-- The physical sectors of the data area (R3). -/
def Settings.dataArea (c : Settings) : List Nat := (List.range c.dataSectors).map fun n => c.dataBase + n

/-! ## What a device takes, as the statements name it (R113) -/

/-- A chip select takes reads: its device is READY or its erase is suspended. -/
def State.canRead (s : State) (cs : ChipSelect) : Prop :=
  ∃ d, s.bus.dev cs = some d ∧ (d.state = .ready ∨ d.state = .eraseSuspended)

/-- A chip select takes a program or an erase: its device is READY (law 8). -/
def State.canProgram (s : State) (cs : ChipSelect) : Prop := ∃ d, s.bus.dev cs = some d ∧ d.state = .ready

/-- A SUSPEND may be made of a device: it is BUSY_ERASE with none requested, the profile supports it, the bridge is not
HALTED, and in QUIESCE no RESUME has been made for the erase (R113, R120, R122). -/
def State.maySuspend (s : State) (d : Device) : Prop :=
  d.state = .busyErase ∧ d.suspendRequested = false ∧ s.settings.profile.suspendSupported = true
    ∧ s.bridge.state ≠ .halted ∧ (s.bridge.state = .quiesce → d.resumedInQuiesce = false)

/-! ## Transactions, as the statements name them (R112) -/

/-- A read at a device address begins: opcode, address with its most significant byte first, dummy bytes. -/
def State.withRead (s : State) (use : BusUse) (cs : ChipSelect) (a : Nat) : State :=
  { s with bus := { s.bus with tx := some ⟨use, cs, some (BitVec.ofNat 24 a),
    [s.settings.profile.readOp :: BitVec.ofNat 8 (a / 65536) :: BitVec.ofNat 8 (a / 256) :: BitVec.ofNat 8 a
      :: List.replicate s.settings.profile.dummy 0x00]⟩ } }

/-- A program at a device address begins: the write-enable frame, then opcode, address and bytes; its device is busy with
it. -/
def State.withProgram (s : State) (cs : ChipSelect) (d : Device) (a : Nat) (bytes : List Byte) (owner : Owner) : State :=
  { s with
    bus := FlashBus.setDev
      { s.bus with tx := some ⟨.program, cs, some (BitVec.ofNat 24 a), [[s.settings.profile.writeEnableOp],
        s.settings.profile.programOp :: BitVec.ofNat 8 (a / 65536) :: BitVec.ofNat 8 (a / 256) :: BitVec.ofNat 8 a :: bytes]⟩ }
      cs (some { d with
        state := .busyProgram, op := some ⟨.program, some a, owner⟩, suspendRequested := false, pollTimer := false,
        opTimer := .stopped }) }

/-- A transaction of one opcode without an address begins, the device record of its chip select set. -/
def State.withOpcode (s : State) (use : BusUse) (cs : ChipSelect) (op : Byte) (d : Device) : State :=
  { s with bus := FlashBus.setDev { s.bus with tx := some ⟨use, cs, none, [[op]]⟩ } cs (some d) }

end Sys2Proof.Machine
end

