-- ==== Sys2Proof/Certificates/Slice0/Obligations.lean ====
section
/-! DEFINITION. The statements for the provers. A result is an equation for the next state, so that it carries its frame:
what the record does not name is unchanged. -/

open Sys2Proof Sys2Proof.Machine

/-! ## One step -/

/-- A step takes the command at the front of the queue and runs it with the queue's rest. -/
def Obligations.StepRunsTheFrontCommand : Prop :=
  ∀ (c : Instr) (rest : List Instr) (s : State), step { s with pending := c :: rest } = exec c { s with pending := rest }

/-- Every command answers a next state and leaves the queue alone; on an empty queue a step idles (the model's choice,
log 2). -/
def Obligations.EveryCommandGoesOn : Prop :=
  (∀ (c : Instr) (s : State), ∃ t, exec c s = .next t ∧ t.pending = s.pending)
    ∧ ∀ s : State, s.pending = [] → step s = .next s

/-! ## Resets (spec 09) -/

/-- PORST_ASSERT leaves every block as the table "Effects of Reset by Block" gives for power-on; the pins beside PORST,
the straps and the bytes last sent stay (logs 4, 6, 31), and a transfer on the link is dropped (log 66). Discarded settings
and pointers stand as log 7 gives. The same while PORST is asserted already (log 49). -/
def Obligations.PorstAssertEmptiesEveryBlock : Prop :=
  ∀ s : State, exec .porstAssert s = .next
    { pins := { s.pins with porst := true }
      bridge := ⟨.reset, none, .stopped, false, false, false, 0, .idle⟩
      settings := Settings.none
      port := ⟨[], none, []⟩
      access := ⟨Vector.replicate 4 ⟨0, 0, .none, false⟩, false, false⟩
      wcb := ⟨[], false, false, false, false, []⟩
      reads := ⟨[], []⟩
      commit := none
      map := ⟨false, [], [], [], [], none, false, false, false, false⟩
      bus := ⟨none, 0, [], false, [], none, none⟩
      erase := ⟨none, none, none, none⟩
      journal := ⟨none, none, 0, 0, .idle, 1, false, [], none, .idle⟩
      link := { s.link with store := .empty, frame := .idle }
      events := ⟨[], 0, .armed⟩
      free := s.free
      pending := s.pending }

/-- RESET_ASSERT is a reset of kind warm at once; in RESET it has no effect of its own. WARM_RESET is answered DONE; in RESET
it does no more, elsewhere it is a warm reset left at once for LOAD unless PORST or RESET is asserted. -/
def Obligations.WarmResetsRestartTheBridge : Prop :=
  (∀ s : State,
    (s.bridge.state = .reset → exec .resetAssert s = .next { s with pins := { s.pins with reset := true } })
      ∧ (s.bridge.state ≠ .reset →
          exec .resetAssert s = .next { s.atWarmReset with pins := { s.pins with reset := true } }))
  ∧ (∀ s : State, s.pins.porst = false →
    (s.bridge.state = .reset → exec .warmReset s = .next (s.withResult .done []))
      ∧ (s.bridge.state ≠ .reset → exec .warmReset s = .next (s.withResult .done []).warmStart))

/-- RESET is left for LOAD when PORST and RESET are both deasserted; the straps are latched at PORST_RELEASE (log 5). -/
def Obligations.ReleaseOfTheLinesEntersLoad : Prop :=
  (∀ s : State, s.bridge.state = .reset → s.pins.porst = false →
      exec .resetRelease s = .next { s with pins := { s.pins with reset := false } }.atLoad)
    ∧ (∀ s : State, s.bridge.state ≠ .reset ∨ s.pins.porst = true →
        exec .resetRelease s = .next { s with pins := { s.pins with reset := false } })
    ∧ (∀ (s : State) (straps : BitVec 2), s.pins.porst = true → s.bridge.state = .reset → s.pins.reset = false →
        exec (.porstRelease straps) s = .next
          { s with pins := { s.pins with porst := false }, link := { s.link with straps := straps } }.atLoad)
    ∧ (∀ (s : State) (straps : BitVec 2), s.pins.porst = true → s.bridge.state ≠ .reset ∨ s.pins.reset = true →
        exec (.porstRelease straps) s = .next
          { s with pins := { s.pins with porst := false }, link := { s.link with straps := straps } })

/-- The gate at the resets, at adoption and at entry to RAW; the lock is not changed by these, and no request is accepted
before adoption. -/
def Obligations.GateAtResetAdoptionAndRaw : Prop :=
  (∀ (s : State) (kind : ResetKind), (s.enterReset kind).access.gateOpen = false)
    ∧ (∀ s : State, (s.enterReset .warm).access = { s.access with gateOpen := false })
    ∧ (∀ (s : State) (d : List Byte), (s.adopt d).access = { s.access with gateOpen := (d.getD 45 0xFF).getLsbD 0 })
    ∧ (∀ s : State, s.enterRaw.access = { s.access with gateOpen := false })
    ∧ (∀ s : State, s.bridge.state = .reset ∨ s.bridge.state = .load ∨ s.bridge.state = .rebuild → s.reqReady = false)

/-! ## PFAIL, RESET_REQ and the quiesce (spec 09) -/

/-- The deassertion of PFAIL or RESET_REQ changes the level alone; in LOAD and REBUILD a stop noted before it stays noted,
which is the model's reading (log 18). In LOAD and REBUILD a PFAIL or an orderly request is noted for the end of the
transaction in flight; in RESET and HALTED it has no effect. In SERVICE and RAW, PFAIL starts a
quiesce of cause POWER, RESET_REQ and ORDERLY_RESET one of cause ORDERLY. A line asserted again without having been
deasserted does nothing (log 3). -/
def Obligations.StopRequestsActByState : Prop :=
  ((∀ s : State, exec .pfailDeassert s = .next { s with pins := { s.pins with pfail := false } })
    ∧ (∀ s : State, exec .resetReqDeassert s = .next { s with pins := { s.pins with resetReq := false } })
    ∧ (∀ s : State, s.pins.pfail = true → exec .pfailAssert s = .next s.noteResumes)
    ∧ (∀ s : State, s.pins.resetReq = true → exec .resetReqAssert s = .next s.noteResumes)
    ∧ (∀ s : State, s.bridge.state = .load ∨ s.bridge.state = .rebuild →
        (s.pins.pfail = false → exec .pfailAssert s = .next
          { s with pins := { s.pins with pfail := true }, bridge := { s.bridge with stopPower := true } }.noteResumes)
        ∧ (s.pins.resetReq = false → exec .resetReqAssert s = .next
          { s with
            pins := { s.pins with resetReq := true }, bridge := { s.bridge with stopOrderly := true } }.noteResumes)
        ∧ (s.pins.porst = false → exec .orderlyReset s = .next
          ({ s with bridge := { s.bridge with stopOrderly := true } }.withResult .done []).noteResumes))
    ∧ (∀ s : State, s.bridge.state = .reset ∨ s.bridge.state = .halted →
        (s.pins.pfail = false →
          exec .pfailAssert s = .next { s with pins := { s.pins with pfail := true } }.noteResumes)
        ∧ (s.pins.resetReq = false →
          exec .resetReqAssert s = .next { s with pins := { s.pins with resetReq := true } }.noteResumes)
        ∧ (s.pins.porst = false → exec .orderlyReset s = .next (s.withResult .done []).noteResumes)))
  ∧ (∀ s : State, s.serves →
    (s.pins.pfail = false →
      exec .pfailAssert s = .next ({ s with pins := { s.pins with pfail := true } }.enterQuiesce .power).noteResumes)
    ∧ (s.pins.resetReq = false →
      exec .resetReqAssert s = .next
        ({ s with pins := { s.pins with resetReq := true } }.enterQuiesce .orderly).noteResumes)
    ∧ (s.pins.porst = false →
      exec .orderlyReset s = .next ((s.withResult .done []).enterQuiesce .orderly).noteResumes))

/-- Entry to QUIESCE: the cause, the timer's load, compaction abandoned, claims not granted withdrawn, a RAW erase not granted
withdrawn and its store set; nothing else changes but for a commit that waits in ALLOCATE under a hold. The hold that
compaction made has ended, so that commit presents its take at once and goes on as it is granted, waits or is refused; under
a full journal it waits on, and under FENCED it ends FAILED. -/
def Obligations.EntryToQuiesce : Prop :=
  ∀ (s : State) (cause : Cause), ∃ (j : MapJournal) (e : EraseEngine) (l : Link),
    (∀ t : State, t = { s with
        bridge := { s.bridge with
          state := .quiesce, cause := some cause, expired := false,
          deadline := .running (if cause = .power then s.settings.powerDeadline else s.settings.resetDeadline) }
        journal := j, erase := e, link := l } →
      ((∀ c, s.commit = some c → c.work ≠ .allocHeld) → s.enterQuiesce cause = t)
      ∧ (∀ c, s.commit = some c → c.work = .allocHeld →
        (s.journal.fenced = true → s.enterQuiesce cause = t.commitFailed c)
        ∧ (s.journal.fenced = false → t.journalFull = true →
          s.enterQuiesce cause = { t with commit := some { c with target := none, granted := false } })
        ∧ (s.journal.fenced = false → t.journalFull = false →
          (∀ ps, t.take.2 = .granted ps → s.enterQuiesce cause = t.take.1.commitGranted c ps)
          ∧ (t.take.2 = .waits → s.enterQuiesce cause
              = { t.take.1 with commit := some { c with target := none, work := .takeWaits, granted := false } })
          ∧ (t.take.2 = .refused → s.enterQuiesce cause = t.take.1.commitFailed c))))
    ∧ (j.compaction = .idle ∧ j.attempt = 1 ∧ j.pointer = s.journal.pointer ∧ j.nextSeq = s.journal.nextSeq
        ∧ j.queue = s.journal.queue ∧ j.fenced = s.journal.fenced ∧ j.rebuild = s.journal.rebuild)
    ∧ (s.journal.run = none → j.run = none ∧ j.bankA = s.journal.bankA ∧ j.bankB = s.journal.bankB)
    ∧ (∀ r, s.journal.run = some r → r.inProgress = true →
        j.run = some { r with abandoned := true } ∧ j.bankA = s.journal.bankA ∧ j.bankB = s.journal.bankB)
    ∧ (∀ r, s.journal.run = some r → r.inProgress = false →
        j.run = none ∧ j.row r.bank = some ⟨.stale, none⟩ ∧ j.row r.bank.other = s.journal.row r.bank.other)
    ∧ (∀ r, s.erase.record = some r → r.erasing = true → e = s.erase ∧ l = s.link)
    ∧ (∀ r, s.erase.record = some r → r.erasing = false → r.kind ≠ .raw → e.record = none)
    ∧ (s.erase.record = none → e.record = none)
    ∧ e.wait = s.erase.wait ∧ e.bankWork = s.erase.bankWork
    ∧ (∀ ps, s.erase.raw = some ⟨ps, none⟩ → (∀ r, s.erase.record = some r → r.erasing = false) →
        e.record = none ∧ e.raw = none
          ∧ l = { s.link with store :=
              if s.link.store = .followsRaw then .stored .refusedState [] else s.link.store })
    ∧ ((∀ ps, s.erase.raw ≠ some ⟨ps, none⟩) → e.raw = s.erase.raw ∧ l = s.link)

/-- In QUIESCE with cause ORDERLY a PFAIL changes the cause to POWER and the timer runs on with the earlier deadline, also
after the expiry, when it is stopped; the bridge will end in HALTED. A further PFAIL, a deassertion, RESET_REQ and
ORDERLY_RESET have no effect. PORST, RESET and WARM_RESET end QUIESCE at once and the buffered writes are lost. -/
def Obligations.QuiesceHeedsPfailAlone : Prop :=
  ∀ s : State, s.bridge.state = .quiesce →
    (s.bridge.cause = some .orderly → s.pins.pfail = false →
      exec .pfailAssert s = .next { s with
        pins := { s.pins with pfail := true }
        bridge := { s.bridge with
          cause := some .power
          deadline := (match s.bridge.deadline with
            | .stopped => .stopped
            | .running ms => .earlier ms s.settings.powerDeadline
            | .earlier ms p => .earlier ms p) } }.noteResumes)
    ∧ (s.bridge.cause = some .power → s.endQuiesce.bridge.state = .halted)
    ∧ (s.bridge.cause = some .power → s.pins.pfail = false →
        exec .pfailAssert s = .next { s with pins := { s.pins with pfail := true } }.noteResumes)
    ∧ exec .pfailDeassert s = .next { s with pins := { s.pins with pfail := false } }
    ∧ (s.pins.resetReq = false →
        exec .resetReqAssert s = .next { s with pins := { s.pins with resetReq := true } }.noteResumes)
    ∧ (s.pins.porst = false → exec .orderlyReset s = .next (s.withResult .done []).noteResumes)
    ∧ (∃ t, exec .porstAssert s = .next t ∧ t.bridge.state = .reset ∧ t.wcb = Wcb.empty)
    ∧ (∃ t, exec .resetAssert s = .next t ∧ t.bridge.state = .reset ∧ t.wcb = Wcb.empty)
    ∧ (s.pins.porst = false → ∃ t, exec .warmReset s = .next t ∧ t.wcb = Wcb.empty
        ∧ t.bridge.state = if s.pins.reset = true then .reset else .load)

/-- STOP_AFTER_TRANSACTION in LOAD and REBUILD with no transaction in flight: HALTED with cause POWER for a PFAIL, before
any orderly request; a warm reset for an orderly request. Otherwise nothing. What HALTED then keeps is the model's choice
(log 19). -/
def Obligations.StopAfterTransaction : Prop :=
  (∀ s : State, (s.bridge.state = .load ∨ s.bridge.state = .rebuild) → s.bus.tx = none →
    (s.bridge.stopPower = true → exec .stopAfterTransaction s = .next { s with
      bridge := { s.bridge with
        state := .halted, cause := some .power, stopPower := false, stopOrderly := false, load := .idle }
      erase := EraseEngine.empty
      journal := MapJournal.empty })
    ∧ (s.bridge.stopPower = false → s.bridge.stopOrderly = true →
        exec .stopAfterTransaction s = .next s.warmStart)
    ∧ (s.bridge.stopPower = false → s.bridge.stopOrderly = false → exec .stopAfterTransaction s = .next s))
  ∧ ∀ s : State, ¬(s.bridge.state = .load ∨ s.bridge.state = .rebuild) ∨ s.bus.tx ≠ none →
      exec .stopAfterTransaction s = .next s

/-- DRAIN_COMPLETE: in QUIESCE before the expiry, with the buffer, the Commit Engine, the fill list, the bus and the
journal's programs idle, the timer stops, QUIESCE_DONE carries the cause, and the bridge enters HALTED or a warm reset.
QUIESCE_EXIT_AFTER_EXPIRY: with the Commit Engine, the bus and the journal's programs idle after the expiry, the same end
without an event; fills that wait do not hold it. -/
def Obligations.QuiesceEndsInHaltedOrWarmReset : Prop :=
  ((∀ s : State, s.bridge.state = .quiesce → s.bridge.expired = false → s.wcb.entries = [] → s.commit = none →
    s.reads.fills = [] → s.bus.tx = none → s.journalProgramInProgress = false →
      (s.bridge.cause = some .power → exec .drainComplete s = .next
        ({ s with bridge := { s.bridge with state := .halted, deadline := .stopped, expired := false } }.withEvent
          { kind := .quiesceDone, code := some .power }))
      ∧ (s.bridge.cause = some .orderly → exec .drainComplete s = .next
          (s.withEvent { kind := .quiesceDone, code := some .orderly }).warmStart))
  ∧ ∀ s : State, s.bridge.state ≠ .quiesce ∨ s.bridge.expired = true ∨ s.wcb.entries ≠ [] ∨ s.commit ≠ none
      ∨ s.reads.fills ≠ [] ∨ s.bus.tx ≠ none ∨ s.journalProgramInProgress = true → exec .drainComplete s = .next s)
  ∧ ((∀ s : State, s.bridge.state = .quiesce → s.bridge.expired = true → s.commit = none → s.bus.tx = none →
    s.journalProgramInProgress = false →
      (s.bridge.cause = some .power → exec .quiesceExitAfterExpiry s = .next
        { s with bridge := { s.bridge with state := .halted, deadline := .stopped, expired := false } })
      ∧ (s.bridge.cause = some .orderly → exec .quiesceExitAfterExpiry s = .next s.warmStart))
  ∧ ∀ s : State, s.bridge.state ≠ .quiesce ∨ s.bridge.expired = false ∨ s.commit ≠ none ∨ s.bus.tx ≠ none
      ∨ s.journalProgramInProgress = true → exec .quiesceExitAfterExpiry s = .next s)

/-- QUIESCE_DEADLINE_EXPIRY: the buffer abandons every entry and answers every wait set FAILED, keeping its grace
allowance (log 37), and QUIESCE_EXPIRED carries the cause and the count of entries. A commit whose transaction is granted,
or whose record's program has begun, is left to end, also where that program has failed and is still to be written again
(log 22). One that waits ends at once: with MAP appended and RETIRE(old PS) not begun, by the switch with disposition
QUEUE and its invalidations; otherwise its target is released, its take and its record are withdrawn, and nothing is
raised. A timer that does not run has no expiry (log 2). The order of the answers is free (log 8). -/
def Obligations.DeadlineExpiryAbandonsTheBuffer : Prop :=
  (∀ s : State, s.bridge.state = .quiesce → s.bridge.deadline ≠ .stopped → ∀ cause, s.bridge.cause = some cause →
    ∀ t : State, t = State.answerTogether
      { s with
        bridge := { s.bridge with expired := true, deadline := .stopped }
        wcb := ⟨[], false, s.wcb.grace, false, false, []⟩ }
      (s.wcb.waits.map fun w => ⟨w.id, .failed, []⟩) →
    ∀ expired, expired = (fun u : State => (u.withEvent
      { kind := .quiesceExpired, code := some (if cause = .power then DetailCode.power else .orderly),
        value := some s.wcb.entries.length }).noteResumes) →
      (s.commit = none → exec .quiesceDeadlineExpiry s = .next (expired t))
      ∧ ∀ c, s.commit = some c →
        (c.granted = true ∨ (∃ q ∈ s.journal.queue, q.claimant = .commit ∧ q.begun = true) →
          exec .quiesceDeadlineExpiry s = .next (expired t))
        ∧ (c.granted = false → (∀ q ∈ s.journal.queue, q.claimant = .commit → q.begun = false) →
          (c.work ≠ .appendRetireOld →
            exec .quiesceDeadlineExpiry s = .next (expired { t.givenUp with commit := none }))
          ∧ (∀ target, c.work = .appendRetireOld → c.target = some target →
            exec .quiesceDeadlineExpiry s = .next (expired { t with
              commit := none
              reads := s.reads.withoutLines c.sector c.lines
              map := { s.map with
                remap := s.map.remap.set c.sector target, target := none
                queue := s.map.queue ++ [(⟨c.oldPs, false⟩ : QueuedSector)] }
              journal := { s.journal with
                queue := (s.journal.queue.filter fun q => decide (q.begun = true ∨ q.claimant ≠ .commit)) } }))))
  ∧ ∀ s : State, s.bridge.state ≠ .quiesce ∨ s.bridge.deadline = .stopped →
      exec .quiesceDeadlineExpiry s = .next s.noteResumes

/-! ## Requests at the port (spec 03, 05) -/

/-- A request presented while request ready is deasserted is held on the channel: nothing changes (log 3). In QUIESCE and
HALTED every request accepted with a free tag is answered HALTED, with no event. -/
def Obligations.RequestsAreHeldOrAnsweredHalted : Prop :=
  (∀ s : State, s.bridge.state.early = true ∨ 32 ≤ s.port.pending.length ∨ s.port.slot ≠ none →
    ∀ (kind : ReqKind) (src : Source) (addr : BitVec 25) (len : BitVec 7) (data : Line),
      exec (kind.command src addr len data) s = .next s)
  ∧ (∀ (s : State) (src : Source), s.accepts src → s.bridge.state = .quiesce ∨ s.bridge.state = .halted →
    ∀ (kind : ReqKind) (addr : BitVec 25) (len : BitVec 7) (data : Line),
      exec (kind.command src addr len data) s = .next (s.withRefused kind src .halted none))

/-- A request whose requester and tag an entry holds is refused into the refusal slot: HALTED where the state check fails,
PROTOCOL with its event otherwise; a BARRIER's event carries no address. -/
def Obligations.DuplicateTagGoesToTheSlot : Prop :=
  ∀ (s : State) (src : Source), s.bridge.state.early = false → s.port.pending.length < 32 → s.port.slot = none →
    (∃ e ∈ s.port.pending, e.id = tagOf src) →
    ∀ (kind : ReqKind) (addr : BitVec 25) (len : BitVec 7) (data : Line),
      (¬ s.serves → exec (kind.command src addr len data) s = .next (s.withDuplicate src .halted))
      ∧ (s.serves → exec (kind.command src addr len data) s = .next ((s.withDuplicate src .protocol).withEvent
          { kind := .protocolError, requester := some src.requester, code := some .tag,
            location := if kind = .barrier then none else some (.address addr.toNat) }))

/-- Length 0 or above 64 is refused PROTOCOL with cause LENGTH, a range past byte 63 of its line with cause CROSSING. A
requester not enabled is refused DENIED with its event; an address at L·4096 or above OUT_OF_WINDOW with none. -/
def Obligations.ProtocolRequesterAndWindowChecks : Prop :=
  (∀ (s : State) (src : Source), s.accepts src → s.serves →
    ∀ (kind : ReqKind) (addr : BitVec 25) (len : BitVec 7) (data : Line), kind ≠ .barrier →
      (len.toNat = 0 ∨ 64 < len.toNat →
        exec (kind.command src addr len data) s = .next ((s.withRefused kind src .protocol none).withEvent
          { kind := .protocolError, requester := some src.requester, location := some (.address addr.toNat),
            code := some .length }))
      ∧ (1 ≤ len.toNat → len.toNat ≤ 64 → 64 < addr.toNat % 64 + len.toNat →
        exec (kind.command src addr len data) s = .next ((s.withRefused kind src .protocol none).withEvent
          { kind := .protocolError, requester := some src.requester, location := some (.address addr.toNat),
            code := some .crossing })))
  ∧ (∀ (s : State) (src : Source), s.accepts src → s.serves →
    ∀ (kind : ReqKind) (addr : BitVec 25) (len : BitVec 7) (data : Line), kind ≠ .barrier → spanLegal addr len →
      ((s.settings.requesters[src.requester]).enabled = false →
        exec (kind.command src addr len data) s = .next ((s.withRefused kind src .denied none).withEvent
          { kind := .accessDenied, requester := some src.requester, location := some (.address addr.toNat),
            code := some .requester }))
      ∧ ((s.settings.requesters[src.requester]).enabled = true → s.settings.windowSectors * 4096 ≤ addr.toNat →
        exec (kind.command src addr len data) s = .next (s.withRefused kind src .outOfWindow none)))

/-- Outside RAW a request in a sector that no region holds, or whose region does not name its requester for its kind, is
refused DENIED with its event. A guard slot that holds the sector refuses writes in WRITE_DENY and every kind in ALL_DENY:
GUARDED, with GUARD_HIT of the lowest slot that refuses; the location is the LS, in RAW the PS. -/
def Obligations.RegionAndGuardChecks : Prop :=
  (∀ (s : State) (kind : ReqKind) (src : Source) (addr : BitVec 25) (len : BitVec 7) (data : Line), kind ≠ .barrier →
    s.inWindow src addr len → s.regionRefuses kind src (sectorOf addr) →
      exec (kind.command src addr len data) s = .next
        ((s.withRefused kind src .denied (some (placeOf addr len))).withEvent
          { kind := .accessDenied, requester := some src.requester, location := some (.address addr.toNat),
            code := some .region }))
  ∧ (∀ (s : State) (kind : ReqKind) (src : Source) (addr : BitVec 25) (len : BitVec 7) (data : Line), kind ≠ .barrier →
    s.inWindow src addr len → s.regionPasses kind src (sectorOf addr) →
    ∀ i : Fin 4, (s.access.guards[i]).stops kind (sectorOf addr) →
      (∀ j : Fin 4, j < i → ¬ (s.access.guards[j]).stops kind (sectorOf addr)) →
      exec (kind.command src addr len data) s = .next
        ((s.withRefused kind src .guarded (some (placeOf addr len))).withEvent
          { kind := .guardHit, requester := some src.requester, value := some i.val,
            location := some (if s.settings.raw = true then .ps (sectorOf addr) else .ls (sectorOf addr)) }))

/-- Under WORN or FENCED a write is refused READ_ONLY with no event; otherwise, with the gate CLOSED, a write that is not a
privileged one of a requester with gate_bypass is refused GATED with WRITE_GATED. -/
def Obligations.ReadOnlyAndGateChecks : Prop :=
  ∀ (s : State) (kind : ReqKind) (src : Source) (addr : BitVec 25) (len : BitVec 7) (data : Line),
    kind = .write ∨ kind = .durableWrite → s.unrefused kind src addr len →
      (s.map.worn = true ∨ s.journal.fenced = true →
        exec (kind.command src addr len data) s = .next (s.withRefused kind src .readOnly (some (placeOf addr len))))
      ∧ (s.map.worn = false → s.journal.fenced = false → s.access.gateOpen = false →
          src.privileged = false ∨ (s.settings.requesters[src.requester]).gateBypass = false →
        exec (kind.command src addr len data) s = .next
          ((s.withRefused kind src .gated (some (placeOf addr len))).withEvent
            { kind := .writeGated, requester := some src.requester, location := some (.address addr.toNat) }))

/-- The snapshot of a read carries the buffered value of each byte under the dirty or the image mask; a read's bytes are the
snapshot's where it carries a value and the line's otherwise. A READ past its checks is answered at once where the snapshot
covers it, with the cache untouched, or where a slot of its group holds the line, which becomes the most recently used. -/
def Obligations.ReadIsAnsweredFromTheBufferOrTheCache : Prop :=
  ((∀ (w : Wcb) (p : Place), (w.snapshot p).length = p.length)
    ∧ (∀ (w : Wcb) (p : Place) (i : Nat), i < p.length → w.find p.key = none → (w.snapshot p)[i]? = some none)
    ∧ (∀ (w : Wcb) (p : Place) (i : Nat) (e : Entry), i < p.length → w.find p.key = some e →
        (w.snapshot p)[i]? = some
          (if (e.dirty ||| e.imageMask).getLsbD (p.offset + i) = true then some (e.data.byte (p.offset + i)) else none))
    ∧ (∀ (snap : Snapshot) (offset : Nat) (l : Line) (i : Nat) (v : Option Byte), snap[i]? = some v →
        (readBytes snap offset l)[i]? = some (v.getD (l.byte (offset + i)))))
  ∧ (∀ (s : State) (src : Source) (addr : BitVec 25) (len : BitVec 7), s.unrefused .read src addr len →
    ((∀ v ∈ s.wcb.snapshot (placeOf addr len), v ≠ none) →
      exec (.read src addr len) s = .next
        (s.withAnswered .read src (some (placeOf addr len)) (s.wcb.snapshot (placeOf addr len)) .ok
          ((s.wcb.snapshot (placeOf addr len)).map fun v => v.getD 0)))
    ∧ (none ∈ s.wcb.snapshot (placeOf addr len) → ∀ x, s.reads.lookup (placeOf addr len).key = some x →
        x.group = (s.settings.requesters[src.requester]).group →
        exec (.read src addr len) s = .next
          (State.withAnswered
            { s with reads := { s.reads with cache := (s.reads.cache.filter fun y => y.key ≠ x.key) ++ [x] } }
            .read src (some (placeOf addr len)) (s.wcb.snapshot (placeOf addr len)) .ok
            (readBytes (s.wcb.snapshot (placeOf addr len)) (placeOf addr len).offset x.data))))

/-- A READ that misses waits: attached at the end of the fill of its key that is not superseded, whatever its group, or
else to a new QUEUED fill at the young end. -/
def Obligations.ReadThatMissesWaitsForAFill : Prop :=
  ∀ (s : State) (src : Source) (addr : BitVec 25) (len : BitVec 7), s.unrefused .read src addr len →
    none ∈ s.wcb.snapshot (placeOf addr len) →
    (∀ x, s.reads.lookup (placeOf addr len).key = some x → x.group ≠ (s.settings.requesters[src.requester]).group) →
      ((∀ f ∈ s.reads.fills, f.key = (placeOf addr len).key → f.superseded = true) →
        exec (.read src addr len) s = .next
          (State.withEntry
            { s with reads := { s.reads with fills := s.reads.fills ++
                [⟨(placeOf addr len).key, (s.settings.requesters[src.requester]).group, .queued, false,
                  [tagOf src]⟩] } }
            ⟨tagOf src, .read, src.privileged, some (placeOf addr len), s.wcb.snapshot (placeOf addr len), .waiting⟩))
      ∧ ((∃ f ∈ s.reads.fills, f.key = (placeOf addr len).key ∧ f.superseded = false) →
        exec (.read src addr len) s = .next
          (State.withEntry
            { s with reads := { s.reads with fills := s.reads.fills.map fun f =>
                if f.key = (placeOf addr len).key ∧ f.superseded = false then { f with reads := f.reads ++ [tagOf src] }
                else f } }
            ⟨tagOf src, .read, src.privileged, some (placeOf addr len), s.wcb.snapshot (placeOf addr len), .waiting⟩))

/-! ## The Write-Combining Buffer (spec 04) -/

/-- The buffer takes a write by merging it into the entry of its line, in place and whatever HOLD, or by a new OPEN entry
at the young end; the new entry asserts HOLD at H with the grace allowance, spends it under HOLD, and is refused when it
is spent. A new entry without HOLD sets the allowance where it asserts HOLD and clears it elsewhere, also one left unspent
when HOLD was released, which the model keeps till then (log 37); a merge leaves it. Every write taken starts the linger timer
when the linger time is not 0. Its bytes go to bytes offset to offset + length - 1 of the line, and the mask marks exactly those; a new
entry's other bytes, never given to anyone, are 00h (log 33). -/
def Obligations.BufferTakesAWrite : Prop :=
  (∀ (w : Wcb) (c : Settings) (p : Place) (data : Line),
    ((∃ e ∈ w.entries, e.key = p.key) → w.takeWrite c p data = some { w with
      entries := w.entries.map fun x =>
        if x.key = p.key then
          { x with
            data := mergeLine x.data p.offset p.length data
            dirty := x.dirty ||| spanMask p.offset p.length }
        else x
      lingerRunning := decide (c.linger ≠ 0) })
    ∧ ((∀ e ∈ w.entries, e.key ≠ p.key) → w.hold = false → w.takeWrite c p data = some { w with
      entries := w.entries ++
        [⟨p.key, mergeLine Line.zero p.offset p.length data, spanMask p.offset p.length, .opened, false⟩]
      hold := decide (w.entries.length + 1 = c.highMark)
      grace := decide (w.entries.length + 1 = c.highMark)
      lingerRunning := decide (c.linger ≠ 0) })
    ∧ ((∀ e ∈ w.entries, e.key ≠ p.key) → w.hold = true → w.grace = true → w.takeWrite c p data = some { w with
      entries := w.entries ++
        [⟨p.key, mergeLine Line.zero p.offset p.length data, spanMask p.offset p.length, .opened, false⟩]
      hold := true
      grace := false
      lingerRunning := decide (c.linger ≠ 0) })
    ∧ ((∀ e ∈ w.entries, e.key ≠ p.key) → w.hold = true → w.grace = false → w.takeWrite c p data = none))
  ∧ (∀ (old data : Line) (offset length i : Nat), offset + length ≤ 64 → i < 64 →
    (mergeLine old offset length data).byte i =
        (if offset ≤ i ∧ i < offset + length then data.byte (i - offset) else old.byte i)
      ∧ (spanMask offset length).getLsbD i = decide (offset ≤ i ∧ i < offset + length))

/-- A WRITE in SERVICE that the buffer takes is answered OK at once; a write of any kind that the buffer refuses is answered
OVERRUN, with the occupancy in its event. -/
def Obligations.WriteIsPostedOrOverrun : Prop :=
  (∀ (s : State) (src : Source) (addr : BitVec 25) (len : BitVec 7) (data : Line), s.settings.raw = false →
    s.writable .write src addr len → ∀ w, s.wcb.takeWrite s.settings (placeOf addr len) data = some w →
      exec (.write src addr len data) s = .next
        (State.withAnswered { s with wcb := w } .write src (some (placeOf addr len)) [] .ok []))
  ∧ (∀ (s : State) (kind : ReqKind) (src : Source) (addr : BitVec 25) (len : BitVec 7) (data : Line),
    kind = .write ∨ kind = .durableWrite → s.writable kind src addr len →
    s.wcb.takeWrite s.settings (placeOf addr len) data = none →
      exec (kind.command src addr len data) s = .next
        ((s.withRefused kind src .overrun (some (placeOf addr len))).withEvent
          { kind := .overrun, requester := some src.requester, location := some (.address addr.toNat),
            value := some s.wcb.entries.length }))

/-- A DURABLE_WRITE that the buffer takes, and in RAW every WRITE, waits with one member for its line: two completions where
the entry is COMMITTING, one otherwise. -/
def Obligations.DurableWriteWaitsForItsCommits : Prop :=
  ∀ (s : State) (kind : ReqKind) (src : Source) (addr : BitVec 25) (len : BitVec 7) (data : Line),
    kind = .durableWrite ∨ (kind = .write ∧ s.settings.raw = true) → s.writable kind src addr len →
    ∀ w, s.wcb.takeWrite s.settings (placeOf addr len) data = some w →
      exec (kind.command src addr len data) s = .next
        (State.withEntry
          { s with wcb := { w with waits := w.waits ++ [⟨tagOf src, false, [⟨(placeOf addr len).key,
              (match s.wcb.find (placeOf addr len).key with
                | none => 1
                | some e => if e.isOpen then 1 else 2), .ok⟩]⟩] } }
          ⟨tagOf src, kind, src.privileged, some (placeOf addr len), [], .waiting⟩)

/-- A BARRIER accepted with the buffer empty is answered OK at once; otherwise it waits for every entry then held: once for
an OPEN entry and a COMMITTING one without dirty bytes, twice for a COMMITTING one with dirty bytes. -/
def Obligations.BarrierWaitsForEveryEntry : Prop :=
  ∀ (s : State) (src : Source), s.accepts src → s.serves →
    (s.wcb.entries = [] → exec (.barrier src) s = .next (s.withAnswered .barrier src none [] .ok []))
    ∧ (s.wcb.entries ≠ [] → exec (.barrier src) s = .next
        (State.withEntry
          { s with wcb := { s.wcb with waits := s.wcb.waits ++ [⟨tagOf src, true,
              s.wcb.entries.map fun e => ⟨e.key, if e.state ≠ .opened ∧ e.dirty ≠ 0 then 2 else 1, .ok⟩⟩] } }
          ⟨tagOf src, .barrier, src.privileged, none, [], .waiting⟩))

/-- The response presented is the head of the answer queue; at its handshake its entry leaves the table, or the slot
empties, and the next head is presented; with no answer presented the handshake changes nothing (log 3). An answer makes the
WAITING entry ANSWERED and puts it at the tail of the answer queue; a request that no WAITING entry holds is not answered.
On the channel a response carries its requester, its tag, the code of its status, 0h to Ah, and byte i of its data on lanes
8i to 8i+7; the channel's signals are valid exactly while a response is presented. -/
def Obligations.ResponseTakenFreesItsTag : Prop :=
  ((∀ s : State, s.port.answers = [] → exec .responseTaken s = .next s ∧ s.response = none)
    ∧ (∀ (s : State) (rest : List AnswerRef) (r : SlotRefusal), s.port.answers = .slot :: rest → s.port.slot = some r →
        s.response = some ⟨r.id, r.status, []⟩
          ∧ exec .responseTaken s = .next { s with port := { s.port with slot := none, answers := rest } })
    ∧ (∀ (s : State) (rest : List AnswerRef) (id : Tag), s.port.answers = .entry id :: rest →
        exec .responseTaken s = .next
          { s with port := { s.port with
            pending := s.port.pending.filter fun e => e.id ≠ id, answers := rest } })
    ∧ (∀ (s : State) (rest : List AnswerRef) (e : PendEntry) (status : Status) (data : List Byte),
        s.port.answers = .entry e.id :: rest → s.port.find e.id = some e → e.phase = .answered status data →
        s.response = some ⟨e.id, status, data⟩))
  ∧ (∀ (p : Port) (id : Tag) (status : Status) (data : List Byte),
    ((∃ e ∈ p.pending, e.id = id ∧ e.phase = .waiting) → p.answer id status data = { p with
      pending := p.pending.map fun e =>
        if e.id = id ∧ e.phase = .waiting then { e with phase := .answered status data } else e
      answers := p.answers ++ [.entry id] })
    ∧ ((∀ e ∈ p.pending, e.id = id → e.phase ≠ .waiting) → p.answer id status data = p))
  ∧ (∀ s : State,
    (s.responseSignals = none ↔ s.response = none)
    ∧ ∀ r, s.response = some r → ∃ x, s.responseSignals = some x
      ∧ x.requester.toNat = r.id.requester ∧ x.tag.toNat = r.id.tag ∧ x.status = r.status.code
      ∧ ∀ (i : Nat) (b : Byte), i < 64 → r.data.length ≤ 64 → r.data[i]? = some b → x.data.extractLsb' (8 * i) 8 = b)
  ∧ ([Status.ok, .protocol, .outOfWindow, .denied, .guarded, .gated, .readOnly, .overrun, .failed, .halted,
      .needsErase].map Status.code = [0x0, 0x1, 0x2, 0x3, 0x4, 0x5, 0x6, 0x7, 0x8, 0x9, 0xA])

/-- The linger timer, where it runs with the buffer not empty, sets the linger flag and stops; the expiry of a timer that does
not run, or runs over an empty buffer, changes nothing, which is the model's choice (log 2). -/
def Obligations.LingerExpirySetsTheFlag : Prop :=
  ∀ s : State,
    (s.wcb.lingerRunning = true → s.wcb.entries ≠ [] →
      exec .lingerExpiry s = .next { s with wcb := { s.wcb with lingerRunning := false, lingerFlag := true } })
    ∧ (s.wcb.lingerRunning = false ∨ s.wcb.entries = [] → exec .lingerExpiry s = .next s)

/-! ## Commits (spec 04, 06) -/

/-- COMMIT_OFFER and ALLOCATE. In drain mode with the Commit Engine idle the buffer offers the sector of its oldest OPEN
entry whose sector is not pinned: every OPEN entry of it is captured, and the commit begins. The probe takes the lines held
in the cache from it and reads the first other one; with every line in the cache it ends at once: the first window's
program, in RAW the end NEEDS_ERASE, else ALLOCATE; ALWAYS_RELOCATE begins in ALLOCATE. ALLOCATE under FENCED ends FAILED,
under a hold waits, and otherwise presents the take, which is granted, made to wait or refused; a grant begins the copy at
window 0. A sector that no region holds has the policy IN_PLACE_ALLOWED (log 38). No offer is made outside drain mode, with
the engine busy, or with nothing OPEN and unpinned. -/
def Obligations.CommitOfferCapturesTheSector : Prop :=
  (∀ (s : State) (older younger : List Entry) (e : Entry),
    s.bridge.state = .service ∨ s.bridge.state = .raw ∨ s.bridge.state = .quiesce → s.commit = none →
    s.wcb.waits ≠ [] ∨ s.settings.drainMark ≤ s.wcb.entries.length ∨ s.wcb.lingerFlag = true
      ∨ s.settings.linger = 0 ∨ s.bridge.state = .quiesce →
    s.wcb.entries = older ++ e :: younger → e.state = .opened → s.reads.pinned e.key.sector = false →
    (∀ x ∈ older, x.state ≠ .opened ∨ s.reads.pinned x.key.sector = true) →
    ∀ captured, captured = s.wcb.entries.map (fun x =>
      if x.key.sector = e.key.sector ∧ x.state = .opened then { x with dirty := 0, state := .committing x.data x.dirty }
      else x) →
    ∀ t : State, t = { s with wcb := { s.wcb with entries := captured } } →
    ∀ c : CommitRecord,
      c.sector = e.key.sector →
      c.lines = (List.range 64).filter (fun i => captured.any fun x => x.key = ⟨e.key.sector, i⟩ ∧ x.state ≠ .opened) →
      c.oldPs = s.resolve e.key.sector → c.target = none → c.attempts = 0 → c.convert = false → c.keepAttempts = false →
      c.granted = false →
      (c.policy = (if s.settings.raw = true then none else some .inPlaceAllowed) →
        s.settings.raw = true ∨ (∀ r ∈ s.settings.regions, r.holds e.key.sector → r.policy = .inPlaceAllowed) →
        ∀ found : Bool,
        (∀ (known rest : List Nat) (l : Nat), c.lines = known ++ l :: rest →
          (∀ k ∈ known, ∃ x, s.reads.lookup ⟨c.sector, k⟩ = some x) → s.reads.lookup ⟨c.sector, l⟩ = none →
          (found = true ↔ ∃ k ∈ known, ∃ x, s.reads.lookup ⟨c.sector, k⟩ = some x ∧ t.needsErase c.sector k x.data) →
          c.work = .probeRead l rest found →
          exec .commitOffer s = .next { t with commit := some c }.noteResumes)
        ∧ ((∀ k ∈ c.lines, ∃ x, s.reads.lookup ⟨c.sector, k⟩ = some x) → c.work = .allocHeld →
          (found = true ↔ ∃ k ∈ c.lines, ∃ x, s.reads.lookup ⟨c.sector, k⟩ = some x ∧ t.needsErase c.sector k x.data) →
          (found = false → ∀ w rest, c.windows = w :: rest →
            exec .commitOffer s = .next { t with commit := some { c with work := .programSpan w rest } }.noteResumes)
          ∧ (found = true → s.settings.raw = true →
            exec .commitOffer s = .next { (t.completeCommit .needsErase).1 with commit := none }.noteResumes)
          ∧ (found = true → s.settings.raw = false → exec .commitOffer s = .next (t.commitAllocate c).noteResumes)))
      ∧ (c.policy = some .alwaysRelocate → c.work = .allocHeld → s.settings.raw = false →
        (∃ r ∈ s.settings.regions, r.holds e.key.sector) →
        (∀ r ∈ s.settings.regions, r.holds e.key.sector → r.policy = .alwaysRelocate) →
        exec .commitOffer s = .next (t.commitAllocate c).noteResumes))
  ∧ (∀ s : State, s.commit ≠ none ∨ s.drainMode = false
      ∨ (∀ x ∈ s.wcb.entries, x.state ≠ .opened ∨ s.reads.pinned x.key.sector = true) →
    exec .commitOffer s = .next s.noteResumes)
  ∧ (∀ (s : State) (c : CommitRecord),
    (s.journal.fenced = true → s.commitAllocate c = s.commitFailed c)
    ∧ (s.journal.fenced = false → s.journal.compaction ≠ .idle ∨ s.journalFull = true →
      s.commitAllocate c = { s with commit := some { c with target := none, work := .allocHeld, granted := false } })
    ∧ (s.journal.fenced = false → s.journal.compaction = .idle → s.journalFull = false →
      (∀ ps, s.take.2 = .granted ps → s.commitAllocate c = s.take.1.commitGranted c ps)
      ∧ (s.take.2 = .waits → s.commitAllocate c
          = { s.take.1 with commit := some { c with target := none, work := .takeWaits, granted := false } })
      ∧ (s.take.2 = .refused → s.commitAllocate c = s.take.1.commitFailed c))
    ∧ (∀ ps, s.commitGranted c ps = s.copyFrom { c with
        target := some ps
        attempts := if c.attempts = 0 then 1 else if c.keepAttempts = true then c.attempts else c.attempts + 1
        keepAttempts := false } 16))
  ∧ (∀ s : State,
    (∀ c, s.commit = some c → c.work = .allocHeld → s.bridge.expired = false → s.commitHoldEnd = s.commitAllocate c)
    ∧ ((∀ c, s.commit = some c → c.work ≠ .allocHeld ∨ s.bridge.expired = true) → s.commitHoldEnd = s))

/-- At a commit's report, where no failed-commit note stands, each COMMITTING entry is freed, or reopened at the young end
where it has dirty bytes; HOLD falls at H - 2, the allowance as it stands (log 37), and the linger timer and flag with the
last entry; each wait set counts its members once, takes the result into those still OK, and is answered when all have
counted down; FAILED counts the lines lost. A report that finds no COMMITTING entry changes nothing. The order of the
answers is free (log 8). A commit that ends FAILED releases its target, withdraws a waiting take and its records not
begun, reports FAILED and raises COMMIT_FAILED with the sector and the lines lost; after the deadline expiry it raises
nothing. -/
def Obligations.CommitReportFreesOrReopensEntries : Prop :=
  (∀ (s : State) (result : CommitResult), (∀ e ∈ s.wcb.entries, e.failNote = false) →
    ∀ committing, committing = s.wcb.entries.filter (fun e => decide (e.state ≠ .opened)) → committing ≠ [] →
    ∀ kept, kept = s.wcb.entries.filter (fun e => decide (e.state = .opened))
        ++ (committing.filter fun e => decide (e.dirty ≠ 0)).map (fun e => { e with state := .opened }) →
    ∀ counted, counted = s.wcb.waits.map (fun w => { w with
      members := w.members.map fun m =>
        if m.key ∈ committing.map Entry.key ∧ 0 < m.count then
          { m with count := m.count - 1, result := if m.result = .ok then result else m.result }
        else m }) →
      s.completeCommit result =
        (State.answerTogether
          { s with wcb := { s.wcb with
            entries := kept
            waits := counted.filter fun w => w.members.any fun m => decide (m.count ≠ 0)
            hold := s.wcb.hold && decide (s.settings.highMark < kept.length + 2)
            lingerRunning := s.wcb.lingerRunning && !kept.isEmpty
            lingerFlag := s.wcb.lingerFlag && !kept.isEmpty } }
          ((counted.filter fun w => w.members.all fun m => decide (m.count = 0)).map fun w =>
            ⟨w.id, (match w.members.find? fun m => decide (m.result ≠ .ok) with
              | none => .ok
              | some m => if w.isBarrier = true then .failed else if m.result = .needsErase then .needsErase else .failed),
              []⟩),
         if result = .failed then committing.length else 0))
  ∧ (∀ (s : State) (result : CommitResult), (∀ e ∈ s.wcb.entries, e.state = .opened) → s.completeCommit result = (s, 0))
  ∧ (∀ (s : State) (c : CommitRecord),
    (s.bridge.expired = true → s.commitFailed c = { (s.givenUp.completeCommit .failed).1 with commit := none })
    ∧ (s.bridge.expired = false →
      s.commitFailed c = State.withEvent { (s.givenUp.completeCommit .failed).1 with commit := none }
        { kind := .commitFailed, value := some (s.givenUp.completeCommit .failed).2,
          location := some (if s.settings.raw = true then .ps c.sector else .ls c.sector) }))

/-- The ends of the Commit Engine's reads and programs, and the copy. The probe goes on line by line, a cached one being
taken from the cache; without a 0-to-1 change it leads to the first window's program; with one in RAW to the end NEEDS_ERASE,
in SERVICE to ALLOCATE. A program in place invalidates its lines; on success the next window follows, after the last the
commit ends OK; on failure RAW ends FAILED, SERVICE converts and enters ALLOCATE. The copy takes windows in ascending order:
read whole where nothing of it is cached, else line by line; built of image bytes under the masks and old bytes elsewhere;
programmed unless all FFh; a failure asks for RETIRE(target), the end of window 15 for MAP; where the journal is full the
record is reported to wait at once and the target given up, with ALLOCATE again, or after the third attempt the end FAILED.
Past the deadline expiry a read or a program that does not complete the commit ends it. A byte not sent reads 00h (log 35);
which lines come from the cache is decided when a window's turn comes (log 26), and the others are read in ascending order
(log 68); past the expiry a full journal ends the commit (log 22); an end that finds no commit read on the bus changes
nothing (log 3). -/
def Obligations.CommitReadEndGoesOn : Prop :=
  (∀ (s : State) (c : CommitRecord) (bytes : List Byte), s.busHolds .commitRead = true → s.commit = some c →
    ∀ t : State, t = { s with bus := { s.bus with tx := none } } →
    (s.bridge.expired = true → exec (.commitReadEnd bytes) s = .next (t.commitFailed c).noteResumes)
    ∧ (s.bridge.expired = false →
      (∀ l rest found known, c.work = .probeRead l rest found →
        (∀ k ∈ known, ∃ x, s.reads.lookup ⟨c.sector, k⟩ = some x) →
        ∀ found' : Bool, (found' = true ↔ found = true ∨ s.needsErase c.sector l (lineOfBytes bytes)
          ∨ ∃ k ∈ known, ∃ x, s.reads.lookup ⟨c.sector, k⟩ = some x ∧ s.needsErase c.sector k x.data) →
        (∀ l' rest', rest = known ++ l' :: rest' → s.reads.lookup ⟨c.sector, l'⟩ = none →
          exec (.commitReadEnd bytes) s = .next
            { t with commit := some { c with work := .probeRead l' rest' found', granted := false } }.noteResumes)
        ∧ (rest = known → found' = false → ∀ w windows, c.windows = w :: windows →
          exec (.commitReadEnd bytes) s = .next
            { t with commit := some { c with work := .programSpan w windows, granted := false } }.noteResumes)
        ∧ (rest = known → found' = true → s.settings.raw = true →
          exec (.commitReadEnd bytes) s = .next { (t.completeCommit .needsErase).1 with commit := none }.noteResumes)
        ∧ (rest = known → found' = true → s.settings.raw = false →
          exec (.commitReadEnd bytes) s = .next (t.commitAllocate c).noteResumes))
      ∧ (∀ w built, c.work = .copyWindow w →
        built = (List.range 256).map (fun pos => s.newByte c w pos (bytes.getD pos 0)) →
        ((∃ b ∈ built, b ≠ 0xFF) → exec (.commitReadEnd bytes) s = .next
          { t with commit := some { c with work := .copyProgram w built, granted := false } }.noteResumes)
        ∧ ((∀ b ∈ built, b = 0xFF) → exec (.commitReadEnd bytes) s = .next (t.copyFrom c (15 - w)).noteResumes))
      ∧ (∀ w l l' rest got, c.work = .copyLine w l (l' :: rest) got →
        exec (.commitReadEnd bytes) s = .next { t with commit := some { c with
          work := .copyLine w l' rest ((l, lineOfBytes bytes) :: got), granted := false } }.noteResumes)
      ∧ (∀ w l got built, c.work = .copyLine w l [] got →
        built = (List.range 256).map (fun pos =>
          s.newByte c w pos (match ((l, lineOfBytes bytes) :: got).find? fun g => decide (g.1 = 4 * w + pos / 64) with
            | none => 0
            | some g => g.2.byte (pos % 64))) →
        ((∃ b ∈ built, b ≠ 0xFF) → exec (.commitReadEnd bytes) s = .next
          { t with commit := some { c with work := .copyProgram w built, granted := false } }.noteResumes)
        ∧ ((∀ b ∈ built, b = 0xFF) → exec (.commitReadEnd bytes) s = .next (t.copyFrom c (15 - w)).noteResumes))))
  ∧ (∀ (s : State) (bytes : List Byte), s.busHolds .commitRead = false →
      exec (.commitReadEnd bytes) s = .next s.noteResumes)
  ∧ (∀ (s : State) (c : CommitRecord), s.commit = some c →
    (∀ w rest, c.work = .programSpan w rest →
      ∀ t : State, t = { s with reads := s.reads.withoutLines c.sector (c.lines.filter fun l => decide (l / 4 = w)) } →
      (rest = [] → s.tellOwner .commit true = { (t.completeCommit .ok).1 with commit := none })
      ∧ (∀ w' rest', rest = w' :: rest' → s.bridge.expired = false → s.tellOwner .commit true
          = { t with commit := some { c with work := .programSpan w' rest', granted := false } })
      ∧ (rest ≠ [] → s.bridge.expired = true → s.tellOwner .commit true = t.commitFailed c)
      ∧ (s.bridge.expired = true ∨ s.settings.raw = true → s.tellOwner .commit false = t.commitFailed c)
      ∧ (s.bridge.expired = false → s.settings.raw = false →
          s.tellOwner .commit false = t.commitAllocate { c with convert := true }))
    ∧ (∀ w bytes, c.work = .copyProgram w bytes →
      (s.bridge.expired = true → ∀ ok, s.tellOwner .commit ok = s.commitFailed c)
      ∧ (s.bridge.expired = false → s.tellOwner .commit true = s.copyFrom c (15 - w))
      ∧ (s.bridge.expired = false → s.journal.fenced = true → s.tellOwner .commit false = s.commitFailed c)
      ∧ (s.bridge.expired = false → s.journal.fenced = false → s.journalFull = false →
          s.tellOwner .commit false = { s with
            journal := { s.journal with
              queue := s.journal.queue ++ [⟨.commit, .retire (c.target.getD 0) .program, false, false⟩] }
            commit := some { c with work := .appendRetireTarget, granted := false } })
      ∧ (s.bridge.expired = false → s.journal.fenced = false → s.journalFull = true →
        ∀ u : State, u = { s with journal := { s.journal with queue :=
          (s.journal.queue.filter fun q => decide (q.inProgress = true ∨ q.claimant ≠ .commit)) } } →
        (c.attempts < 3 → s.tellOwner .commit false = { u with
          map := s.map.released, commit := some { c with target := none, work := .allocHeld, granted := false } })
        ∧ (3 ≤ c.attempts → s.tellOwner .commit false = u.commitFailed c))))
  ∧ (∀ (s : State) (c : CommitRecord),
    (∀ w, w ≤ 15 →
      ∀ needed, needed = ([4 * w, 4 * w + 1, 4 * w + 2, 4 * w + 3] : List Nat).filter (fun l =>
        decide ¬(l ∈ c.lines ∧ (s.image c.sector l).2 = BitVec.allOnes 64)) →
      ((∀ i < 4, s.reads.lookup ⟨c.sector, 4 * w + i⟩ = none) → needed ≠ [] →
        s.copyFrom c (16 - w) = { s with commit := some { c with work := .copyWindow w, granted := false } })
      ∧ (∀ l rest, (∃ i < 4, s.reads.lookup ⟨c.sector, 4 * w + i⟩ ≠ none) →
        needed.filter (fun l => (s.reads.lookup ⟨c.sector, l⟩).isNone) = l :: rest →
        s.copyFrom c (16 - w) = { s with commit := some { c with
          work := .copyLine w l rest
            (needed.filterMap fun l => (s.reads.lookup ⟨c.sector, l⟩).map fun x => (l, x.data))
          granted := false } })
      ∧ (∀ built, (∀ l ∈ needed, s.reads.lookup ⟨c.sector, l⟩ ≠ none) →
        built = (List.range 256).map (fun pos => s.newByte c w pos
          (match s.reads.lookup ⟨c.sector, 4 * w + pos / 64⟩ with
            | none => 0
            | some x => x.data.byte (pos % 64))) →
        ((∃ b ∈ built, b ≠ 0xFF) →
          s.copyFrom c (16 - w) = { s with commit := some { c with work := .copyProgram w built, granted := false } })
        ∧ ((∀ b ∈ built, b = 0xFF) → s.copyFrom c (16 - w) = s.copyFrom c (15 - w))))
    ∧ (s.journal.fenced = true → s.copyFrom c 0 = s.commitFailed c)
    ∧ (s.journal.fenced = false → s.journalFull = false → s.copyFrom c 0 = { s with
        journal := { s.journal with
          queue := s.journal.queue ++ [⟨.commit, .map c.sector (c.target.getD 0) c.oldPs, false, false⟩] }
        commit := some { c with work := .appendMap, granted := false } })
    ∧ (s.journal.fenced = false → s.journalFull = true →
      ∀ u : State, u = { s with journal := { s.journal with queue :=
        (s.journal.queue.filter fun q => decide (q.inProgress = true ∨ q.claimant ≠ .commit)) } } →
      (s.bridge.expired = false → s.copyFrom c 0 = { u with
        map := s.map.released
        commit := some { c with target := none, keepAttempts := true, work := .allocHeld, granted := false } })
      ∧ (s.bridge.expired = true → s.copyFrom c 0 = u.commitFailed c)))

/-! ## Reads and fills (spec 05) -/

/-- A fill completes: unless it is superseded its line is installed in the slot of its key, else in an invalid slot, else in
the least recently used one, and becomes the most recently used; its reads are answered in the order of attachment; it
leaves the list. The end of a fill with none on the bus changes nothing, which is the model's choice (log 3). -/
def Obligations.FillCompleteInstallsAndAnswers : Prop :=
  (∀ (s : State) (f : Fill) (bytes : Line), s.busHolds .fillRead = true →
    s.reads.fills.find? (fun x => decide (x.phase ≠ .queued)) = some f →
    ∀ others, others = s.reads.cache.filter (fun x => decide (x.key ≠ f.key)) →
      exec (.fillComplete bytes) s = .next
        (State.answerInOrder
          { s with
            bus := { s.bus with tx := none }
            reads := ⟨if f.superseded = true then s.reads.cache
              else (if others.length < 32 then others else others.drop 1) ++ [⟨f.key, f.group, bytes⟩],
              s.reads.fills.filter fun x => decide (x.phase = .queued)⟩ }
          (f.reads.map fun id => ⟨id, .ok, (match s.port.find id with
            | none => []
            | some e => readBytes e.snapshot (match e.place with
              | none => 0
              | some p => p.offset) bytes)⟩)).noteResumes)
  ∧ ∀ (s : State) (bytes : Line), s.busHolds .fillRead = false →
      exec (.fillComplete bytes) s = .next s.noteResumes

/-! ## The flash bus (spec 07) -/

/-- RESUMEs due: outside QUIESCE and HALTED for a suspended device with no fill ISSUED and no fill QUEUED or four taken; in
QUIESCE for a program that waits with no fill and no commit read waiting; in HALTED never. Noting them changes nothing else:
those due before keep their places, a new one comes after them, and of two new ones chip select 0 comes first. That a RESUME
is due as long as its condition holds is the model's reading (log 25), the order of two new ones its choice (log 56). -/
def Obligations.ResumesBecomeDue : Prop :=
  ∀ (s : State) (due : ChipSelect → Bool),
    (∀ cs, due cs = true ↔
      (∃ d, s.bus.dev cs = some d ∧ d.state = .eraseSuspended ∧ s.bus.resuming cs = false
        ∧ ((s.bridge.state ≠ .quiesce ∧ s.bridge.state ≠ .halted ∧ s.fillOn cs true = false
              ∧ (s.fillOn cs false = false ∨ d.fillsTaken = 4))
          ∨ (s.bridge.state = .quiesce ∧ s.fillOn cs false = false ∧ s.commitClaimOn cs false = false
              ∧ (s.commitClaimOn cs true = true ∨ (cs = .cs0 ∧ s.journalProgramWaits = true)))))) →
    s.noteResumes = { s with bus := { s.bus with
      resumesDue := s.bus.resumesDue.filter due
        ++ [ChipSelect.cs0, .cs1].filter fun cs => due cs && decide (cs ∉ s.bus.resumesDue) } }

/-- ARBITER_GRANT makes no grant while the bus is busy, in RESET, while a stop waits, or with no eligible claim; otherwise
the chosen claim's transaction begins with the burst count of the choice. A grant that can begin none (an append or a window
with no sequence number left) is carried out and leaves the burst count. Law 8: a program or an erase that stands on the bus
after a grant found its device READY and leaves it BUSY with that operation. That no grant is made while a stop waits, and
that a grant without a transaction leaves the burst count, are the model's choices (logs 18 and 32). -/
def Obligations.ArbiterGrantsTheChosenClaim : Prop :=
  (∀ (s : State) (tie : Bool), s.bus.tx ≠ none ∨ s.bridge.state = .reset ∨ s.bridge.stopPower = true
      ∨ s.bridge.stopOrderly = true → exec (.arbiterGrant tie) s = .next s.noteResumes)
  ∧ (∀ (s : State) (tie : Bool), s.noteResumes.chosen tie = none → exec (.arbiterGrant tie) s = .next s.noteResumes)
  ∧ (∀ (s : State) (tie : Bool) (g : Grant) (burst : Nat), s.bus.tx = none → s.bridge.state ≠ .reset →
      s.bridge.stopPower = false → s.bridge.stopOrderly = false → s.noteResumes.chosen tie = some (g, burst) →
      ((s.noteResumes.grant g).bus.tx ≠ none →
        exec (.arbiterGrant tie) s = .next
          { s.noteResumes.grant g with bus := { (s.noteResumes.grant g).bus with burst := burst } }.noteResumes)
      ∧ ((s.noteResumes.grant g).bus.tx = none →
        exec (.arbiterGrant tie) s = .next (s.noteResumes.grant g).noteResumes))
  ∧ (∀ (s t : State) (tie : Bool) (tx : BusTx), s.bus.tx = none → exec (.arbiterGrant tie) s = .next t →
      t.bus.tx = some tx → tx.use = .program ∨ tx.use = .erase →
      (∃ d, s.bus.dev tx.cs = some d ∧ d.state = .ready)
        ∧ ∃ d o, t.bus.dev tx.cs = some d ∧ d.op = some o ∧ d.opTimer = .stopped
          ∧ (tx.use = .program → d.state = .busyProgram ∧ o.kind = .program)
          ∧ (tx.use = .erase → d.state = .busyErase ∧ o.kind = .erase))

/-- The claims and the choice. A device READY takes a program or an erase, one READY or suspended a read; a fill on a
suspended device only below four, without limit in QUIESCE and HALTED. FILL: the oldest fill that its device takes, with
none a SUSPEND for the oldest fill whose device may be suspended. POLL: the one due earliest. JOURNAL and COMMIT: the one
next transaction, or in QUIESCE a SUSPEND for a commit read. ERASE: RESUMEs, those of LOAD first, before an erase. The
classes go in this order; the burst count rises at a FILL grant with a JOURNAL or COMMIT claim eligible, else is 0, 0 at a
JOURNAL or COMMIT grant, unchanged at POLL and ERASE; at 8 the eligible JOURNAL claim, else the COMMIT claim, goes first.
Of the two polls that become due together at entry to LOAD either goes first, until one is granted (log 10). The model's
readings: line 0 before line 1 (log 52), the reads of REBUILD in class JOURNAL (log 14), the RESUMEs of LOAD in order of
chip select (log 23), RESUMEs due as ResumesBecomeDue has them (logs 25 and 56). -/
def Obligations.ArbiterOrderAndBurstLimit : Prop :=
  (∀ (s : State) (tie : Bool),
    (s.bus.burst = 8 → ∀ g, s.journalClaim = some g → s.chosen tie = some (g, 0))
    ∧ (s.bus.burst = 8 → s.journalClaim = none → ∀ g, s.commitClaim = some g → s.chosen tie = some (g, 0))
    ∧ (s.bus.burst ≠ 8 ∨ (s.journalClaim = none ∧ s.commitClaim = none) →
      (∀ g, s.fillClaim = some g → s.chosen tie = some (g,
        if s.journalClaim = none ∧ s.commitClaim = none then 0 else s.bus.burst + 1))
      ∧ (s.fillClaim = none → ∀ g, s.pollClaim tie = some g → s.chosen tie = some (g, s.bus.burst))
      ∧ (s.fillClaim = none → s.pollClaim tie = none → ∀ g, s.journalClaim = some g → s.chosen tie = some (g, 0))
      ∧ (s.fillClaim = none → s.pollClaim tie = none → s.journalClaim = none → ∀ g, s.commitClaim = some g →
          s.chosen tie = some (g, 0))
      ∧ (s.fillClaim = none → s.pollClaim tie = none → s.journalClaim = none → s.commitClaim = none →
          s.chosen tie = s.eraseClass.map fun g => (g, s.bus.burst))))
  ∧ (∀ (s : State) (takes suspends : Fill → Prop),
    takes = (fun f => f.phase = .queued ∧ ∃ d, s.bus.dev (deviceOf s.settings (s.resolve f.key.sector)) = some d
      ∧ (d.state = .ready ∨ d.state = .eraseSuspended
        ∧ (d.fillsTaken < 4 ∨ s.bridge.state = .quiesce ∨ s.bridge.state = .halted))) →
    suspends = (fun f => f.phase = .queued ∧ ∃ d, s.bus.dev (deviceOf s.settings (s.resolve f.key.sector)) = some d
      ∧ s.maySuspend d ∧ d.suspensions < 8 ∧ d.polledBusy = true) →
    (∀ older f younger, s.reads.fills = older ++ f :: younger → takes f → (∀ x ∈ older, ¬ takes x) →
      s.fillClaim = some (.fill f))
    ∧ ((∀ x ∈ s.reads.fills, ¬ takes x) →
      (∀ older f younger, s.reads.fills = older ++ f :: younger → suspends f → (∀ x ∈ older, ¬ suspends x) →
        s.fillClaim = some (.fillSuspend (deviceOf s.settings (s.resolve f.key.sector))))
      ∧ ((∀ x ∈ s.reads.fills, ¬ suspends x) → s.fillClaim = none)))
  ∧ (∀ (s : State) (tie : Bool) (polls : ChipSelect → Prop),
    polls = (fun cs => ∃ d, s.bus.dev cs = some d ∧ (d.state = .unknown ∨ d.state = .busyProgram ∨ d.state = .busyErase
      ∨ d.state = .stuck ∨ (d.state = .ready ∧ d.resumeStep = .pollWaits))) →
    (∀ older cs younger, s.bus.pollsDue = older ++ cs :: younger → polls cs → (∀ x ∈ older, ¬ polls x) →
      (s.bus.pollsTied = false ∨ tie = false ∨ (∀ x ∈ younger, ¬ polls x) → s.pollClaim tie = some (.poll cs))
      ∧ (∀ between other rest, younger = between ++ other :: rest → polls other → (∀ x ∈ between, ¬ polls x) →
        s.bus.pollsTied = true → tie = true → s.pollClaim tie = some (.poll other)))
    ∧ ((∀ x ∈ s.bus.pollsDue, ¬ polls x) → s.pollClaim tie = none))
  ∧ (∀ s : State,
    (s.bridge.state = .load →
      (s.canRead .cs0 → s.bridge.load = .readLine0 → s.journalClaim = some (.descriptor 0))
      ∧ (s.canRead .cs0 → ∀ line, s.bridge.load = .readLine1 line → s.journalClaim = some (.descriptor 1))
      ∧ (¬ s.canRead .cs0 ∨ s.bridge.load ≠ .readLine0 ∧ (∀ line, s.bridge.load ≠ .readLine1 line) →
        s.journalClaim = none))
    ∧ (s.bridge.state = .rebuild → s.journal.rebuild ≠ .firstWrite →
      (s.canRead .cs0 → s.journal.rebuild = .readA → s.journalClaim = some (.bankRead .a 0))
      ∧ (s.canRead .cs0 → ∀ w, s.journal.rebuild = .readB w → s.journalClaim = some (.bankRead .b 0))
      ∧ (s.canRead .cs0 → ∀ c windows rest spoiled, s.journal.rebuild = .examine c windows rest spoiled →
        s.journalClaim = some (.bankRead c.bank windows.length))
      ∧ (¬ s.canRead .cs0 ∨ s.journal.rebuild = .idle ∨ s.journal.rebuild = .firstErase → s.journalClaim = none))
    ∧ (s.bridge.state ≠ .load → s.bridge.state ≠ .rebuild ∨ s.journal.rebuild = .firstWrite →
      (¬ s.canProgram .cs0 → s.journalClaim = none)
      ∧ (s.canProgram .cs0 →
        (∀ r, s.journal.run = some r → r.inProgress = false → r.abandoned = false →
          s.journalClaim = some (.bankProgram r))
        ∧ (∀ r, s.journal.run = some r → r.inProgress = true ∨ r.abandoned = true → s.journalClaim = none)
        ∧ (s.journal.run = none →
          ∀ appends : Prop, appends = (s.journal.fenced = false ∧ s.journal.active ≠ none
            ∧ s.journal.pointer < s.settings.bankSectors * 256
            ∧ (s.bridge.state = .service ∨ s.bridge.state = .quiesce)) →
          (appends → ∀ q rest, s.journal.queue = q :: rest → q.inProgress = false →
            s.journalClaim = some (.append q))
          ∧ (¬ appends ∨ s.journal.queue = [] ∨ (∃ q rest, s.journal.queue = q :: rest ∧ q.inProgress = true) →
            s.journalClaim = none)))))
  ∧ (∀ s : State,
    (s.commit = none → s.commitClaim = none)
    ∧ ∀ c, s.commit = some c →
      (c.granted = true ∨ c.work = .allocHeld ∨ c.work = .takeWaits ∨ c.work = .appendRetireTarget ∨ c.work = .appendMap
        ∨ c.work = .appendRetireOld → s.commitClaim = none)
      ∧ ∀ cs, cs = deviceOf s.settings c.oldPs → c.granted = false →
        ((∃ l rest found, c.work = .probeRead l rest found) ∨ (∃ w, c.work = .copyWindow w)
            ∨ (∃ w l rest got, c.work = .copyLine w l rest got) →
          (s.canRead cs → s.commitClaim = some (.commit c))
          ∧ (¬ s.canRead cs → s.bridge.state = .quiesce → (∃ d, s.bus.dev cs = some d ∧ s.maySuspend d) →
            s.commitClaim = some (.commitSuspend cs))
          ∧ (¬ s.canRead cs → ¬ (s.bridge.state = .quiesce ∧ ∃ d, s.bus.dev cs = some d ∧ s.maySuspend d) →
            s.commitClaim = none))
        ∧ (∀ w rest, c.work = .programSpan w rest →
          (s.canProgram cs → s.commitClaim = some (.commit c)) ∧ (¬ s.canProgram cs → s.commitClaim = none))
        ∧ (∀ w bytes ps, c.work = .copyProgram w bytes → c.target = some ps →
          (s.canProgram (deviceOf s.settings ps) → s.commitClaim = some (.commit c))
          ∧ (¬ s.canProgram (deviceOf s.settings ps) → s.commitClaim = none)))
  ∧ (∀ (s : State) (first : ChipSelect → Prop), first = (fun cs => s.bridge.state = .load
      ∧ ∃ d, s.bus.dev cs = some d ∧ d.resumeStep = .resumeDue ∧ d.state = .ready) →
    (first .cs0 → s.eraseClass = some (.loadResume .cs0))
    ∧ (¬ first .cs0 → first .cs1 → s.eraseClass = some (.loadResume .cs1))
    ∧ (¬ first .cs0 → ¬ first .cs1 →
      (∀ cs rest, s.noteResumes.bus.resumesDue = cs :: rest → s.noteResumes.eraseClass = some (.resume cs))
      ∧ (s.noteResumes.bus.resumesDue = [] →
        (∀ r, s.erase.record = some r → r.erasing = false → s.canProgram (deviceOf s.settings r.ps) →
          s.noteResumes.eraseClass = some (.erase r))
        ∧ ((∀ r, s.erase.record = some r → r.erasing = true ∨ ¬ s.canProgram (deviceOf s.settings r.ps)) →
          s.noteResumes.eraseClass = none))))

/-- What each grant begins, with the frames of R112 built from the profile in force. A fill's sector is fixed, and one on
a suspended device counts, up to 4, where the count stays also in QUIESCE (log 24). An append takes its sequence number, a
bank's window those of its records; with none left FENCED is set instead (log 32). The Commit Engine reads a line or a
window of the old sector, programs the span of a window from its lowest to its highest image byte with FFh between, or a
built window into the target. A SUSPEND requests it and counts one for fill service, and for a commit read counts none but
starts the fills at 0 too (log 47); a RESUME in QUIESCE sets the mark. The descriptor's lines and the windows of the banks
are read on chip select 0. An erase makes its device busy; a RAW erase invalidates the lines of its sector. Logs 24, 32
and 47 are the model's inferences. On the lines (R171) a frame is one assertion of the device's chip select alone, active
low, through which its bytes go out most significant bit first, each bit from the clock's fall to its next rise, and the
bytes taken follow; between frames the clock is low; FDO has no level told while no byte is sent (log 64). The levels of
FDI spell the bytes of the command that ends the transaction, most significant bit first, 0 where nothing drives the line. -/
def Obligations.GrantsBeginTheirTransactions : Prop :=
  (∀ (s : State) (f : Fill) (ps : Nat) (cs : ChipSelect) (d : Device), s.resolve f.key.sector = ps →
    cs = deviceOf s.settings ps → s.bus.dev cs = some d →
    s.grant (.fill f) = State.withRead
      { s with
        reads := { s.reads with fills := s.reads.fills.map fun x => if x = f then { x with phase := .issued ps } else x }
        bus := s.bus.setDev cs (some
          { d with fillsTaken := if d.state = .eraseSuspended then min 4 (d.fillsTaken + 1) else d.fillsTaken }) }
      .fillRead cs (sectorInDevice s.settings ps * 4096 + 64 * f.key.line))
  ∧ (∀ (s : State) (cs : ChipSelect), s.grant (.poll cs) = { s with bus := { s.bus with
      pollsDue := s.bus.pollsDue.filter fun x => decide (x ≠ cs)
      pollsTied := false
      tx := some ⟨.poll, cs, none, [[s.settings.profile.readStatusOp]]⟩ } })
  ∧ (∀ (s : State) (d : Device), s.bus.dev0 = some d →
    (∀ (q : QueueItem) (rest : List QueueItem) (bank : Bank), s.journal.queue = q :: rest →
      s.journal.active = some bank → s.journal.nextSeq ≤ 0xFFFFFFFF →
      s.grant (.append q) = State.withProgram
        { s with journal := { s.journal with
          nextSeq := s.journal.nextSeq + 1
          queue := { q with begun := true, inProgress := true } :: rest } }
        .cs0 d (4096 * bankBase s.settings bank + 16 * s.journal.pointer) (q.record.bytes s.journal.nextSeq) .journal)
    ∧ (∀ q, 0xFFFFFFFF < s.journal.nextSeq → s.grant (.append q) = s.setFenced .sequence)
    ∧ (∀ (r : BankRun) (n : Nat), n = windowNumbers s.settings r.copy r.window →
      (s.journal.nextSeq + n - 1 ≤ 0xFFFFFFFF →
        s.grant (.bankProgram r) = State.withProgram
          { s with journal := { s.journal with
            nextSeq := s.journal.nextSeq + n, run := some { r with inProgress := true } } }
          .cs0 d (4096 * bankBase s.settings r.bank + 256 * r.window)
          (windowBytes s.settings r.copy r.generation r.window s.journal.nextSeq) .journal)
      ∧ (0xFFFFFFFF < s.journal.nextSeq + n - 1 → s.grant (.bankProgram r) = s.setFenced .sequence)))
  ∧ (∀ (s : State) (c : CommitRecord), ∀ t : State, t = { s with commit := some { c with granted := true } } →
    (∀ l rest found, c.work = .probeRead l rest found → s.grant (.commit c) = t.withRead .commitRead
      (deviceOf s.settings c.oldPs) (sectorInDevice s.settings c.oldPs * 4096 + 64 * l))
    ∧ (∀ w l rest got, c.work = .copyLine w l rest got → s.grant (.commit c) = t.withRead .commitRead
      (deviceOf s.settings c.oldPs) (sectorInDevice s.settings c.oldPs * 4096 + 64 * l))
    ∧ (∀ w, c.work = .copyWindow w → s.grant (.commit c) = t.withRead .commitRead
      (deviceOf s.settings c.oldPs) (sectorInDevice s.settings c.oldPs * 4096 + 256 * w))
    ∧ (∀ w rest first last d, c.work = .programSpan w rest → s.bus.dev (deviceOf s.settings c.oldPs) = some d →
      first ≤ last → last < 256 → s.imaged c w first → s.imaged c w last →
      (∀ pos, pos < 256 → s.imaged c w pos → first ≤ pos ∧ pos ≤ last) →
      s.grant (.commit c) = t.withProgram (deviceOf s.settings c.oldPs) d
        (sectorInDevice s.settings c.oldPs * 4096 + 256 * w + first)
        ((List.range (last + 1 - first)).map fun i => s.newByte c w (first + i) 0xFF) .commit)
    ∧ (∀ w bytes target d, c.work = .copyProgram w bytes → c.target = some target →
      s.bus.dev (deviceOf s.settings target) = some d →
      s.grant (.commit c) = t.withProgram (deviceOf s.settings target) d
        (sectorInDevice s.settings target * 4096 + 256 * w) bytes .commit))
  ∧ (∀ (s : State) (cs : ChipSelect) (d : Device), s.bus.dev cs = some d →
    s.grant (.fillSuspend cs) = s.withOpcode .suspend cs s.settings.profile.suspendOp
      { d with suspendRequested := true, fillsTaken := 0, suspensions := d.suspensions + 1 }
    ∧ s.grant (.commitSuspend cs) = s.withOpcode .suspend cs s.settings.profile.suspendOp
      { d with suspendRequested := true, fillsTaken := 0 }
    ∧ s.grant (.resume cs) = State.withOpcode
      { s with bus := { s.bus with resumesDue := s.bus.resumesDue.filter fun x => decide (x ≠ cs) } }
      .resume cs s.settings.profile.resumeOp
      { d with resumedInQuiesce := d.resumedInQuiesce || decide (s.bridge.state = .quiesce) }
    ∧ s.grant (.loadResume cs) = s.withOpcode .resume cs s.settings.profile.resumeOp { d with resumeStep := .pollWaits })
  ∧ (∀ (s : State) (line w : Nat) (bank : Bank),
    s.grant (.descriptor line) = s.withRead .descriptorRead .cs0 (64 * line)
    ∧ s.grant (.bankRead bank w) = s.withRead .journalRead .cs0 (4096 * bankBase s.settings bank + 256 * w))
  ∧ (∀ (s : State) (r : EraseRecord) (cs : ChipSelect) (d : Device) (a : Nat),
      cs = deviceOf s.settings r.ps → s.bus.dev cs = some d → a = sectorInDevice s.settings r.ps * 4096 →
      s.grant (.erase r) = { s with
        erase := { s.erase with record := some { r with erasing := true } }
        reads := if r.kind = .raw then s.reads.withoutLines r.ps (List.range 64) else s.reads
        bus := FlashBus.setDev
          { s.bus with tx := some ⟨.erase, cs, some (BitVec.ofNat 24 a), [[s.settings.profile.writeEnableOp],
            [s.settings.profile.sectorEraseOp, BitVec.ofNat 8 (a / 65536), BitVec.ofNat 8 (a / 256),
              BitVec.ofNat 8 a]]⟩ } cs (some { d with
            state := .busyErase, op := some ⟨.erase, some a, .erase⟩, suspendRequested := false, pollTimer := false,
            opTimer := .stopped, suspensions := 0, fillsTaken := 0, resumedInQuiesce := false, polledBusy := true }) })
  ∧ (∀ (s : State) (idle : FlashLines), idle = ⟨true, true, false, none⟩ →
    (s.bus.tx = none → s.flashLevels = [idle] ∧ ∀ levels, s.flashEnd levels = none)
    ∧ ∀ (tx : BusTx) (clock : Option Bool → List FlashLines), s.bus.tx = some tx →
      clock = (fun bit => [⟨decide (tx.cs ≠ .cs0), decide (tx.cs ≠ .cs1), false, bit⟩,
        ⟨decide (tx.cs ≠ .cs0), decide (tx.cs ≠ .cs1), true, bit⟩]) →
      s.flashLevels = idle :: tx.frames.flatMap (fun sent =>
        (sent.flatMap fun b => ([7, 6, 5, 4, 3, 2, 1, 0] : List Nat).flatMap fun i => clock (some (b.getLsbD i)))
          ++ (List.replicate (8 * s.bytesTaken tx) none).flatMap clock ++ [idle])
      ∧ (tx.use = .fillRead ∨ tx.use = .descriptorRead → s.bytesTaken tx = 64)
      ∧ (tx.use = .journalRead → s.bytesTaken tx = 256) ∧ (tx.use = .poll → s.bytesTaken tx = 1)
      ∧ (tx.use = .program ∨ tx.use = .erase ∨ tx.use = .suspend ∨ tx.use = .resume → s.bytesTaken tx = 0)
      ∧ (∀ c, tx.use = .commitRead → s.commit = some c →
        ((∃ w, c.work = .copyWindow w) → s.bytesTaken tx = 256)
        ∧ ((∀ w, c.work ≠ .copyWindow w) → s.bytesTaken tx = 64))
      ∧ ∀ (levels : List Bool) (f : Nat → Byte),
        (∀ i j, j < 8 → (f i).getLsbD (7 - j) = levels.getD (8 * i + j) false) →
        (tx.use = .fillRead → s.flashEnd levels = some (.fillComplete (Line.ofFn f)))
        ∧ (tx.use = .descriptorRead → s.flashEnd levels = some (.descriptorReadEnd (Line.ofFn f)))
        ∧ (tx.use = .journalRead → s.flashEnd levels = some (.journalReadEnd (Window.ofFn f)))
        ∧ (tx.use = .commitRead →
          s.flashEnd levels = some (.commitReadEnd ((List.range (s.bytesTaken tx)).map f)))
        ∧ (tx.use = .poll → s.flashEnd levels = some (.statusPoll (f 0)))
        ∧ (tx.use = .program ∨ tx.use = .erase ∨ tx.use = .suspend ∨ tx.use = .resume →
          s.flashEnd levels = some .commandFrameEnd))

/-- The end of a command's last frame: the bus is idle; a program or erase starts the poll interval timer and the
operation timer, a SUSPEND the poll interval timer; after a RESUME the erase and its timer run on and a new SUSPEND waits
for a busy poll; after the RESUME that follows adoption the poll interval timer runs for its one poll (log 23). Without
such a transaction nothing ends (log 3). A poll interval timer that runs and expires makes one poll due; one due already
keeps its place (log 48); one that does not run makes none due (log 2). -/
def Obligations.CommandFrameEndStartsTheTimers : Prop :=
  (∀ s : State,
    (∀ tx d, s.bus.tx = some tx → s.bus.dev tx.cs = some d →
      (tx.use = .program ∨ tx.use = .erase →
        exec .commandFrameEnd s = .next { s with
          bus := { s.bus with tx := none }.setDev tx.cs (some { d with pollTimer := true, opTimer := .running }) }.noteResumes)
      ∧ (tx.use = .suspend ∨ (tx.use = .resume ∧ d.resumeStep = .pollWaits) →
        exec .commandFrameEnd s = .next { s with
          bus := { s.bus with tx := none }.setDev tx.cs (some { d with pollTimer := true }) }.noteResumes)
      ∧ (tx.use = .resume → d.resumeStep ≠ .pollWaits →
        exec .commandFrameEnd s = .next { s with
          bus := { s.bus with tx := none }.setDev tx.cs (some { d with
            state := .busyErase, pollTimer := true, opTimer := .running, polledBusy := false }) }.noteResumes))
    ∧ (s.bus.tx = none → exec .commandFrameEnd s = .next s.noteResumes)
    ∧ (∀ tx, s.bus.tx = some tx → tx.use = .fillRead ∨ tx.use = .commitRead ∨ tx.use = .descriptorRead
        ∨ tx.use = .journalRead ∨ tx.use = .poll → exec .commandFrameEnd s = .next s.noteResumes))
  ∧ (∀ (s : State) (cs : ChipSelect),
    (∀ d, s.bus.dev cs = some d → d.pollTimer = true →
      exec (.pollDue cs) s = .next { s with
        bus := FlashBus.setDev
          { s.bus with pollsDue := if cs ∈ s.bus.pollsDue then s.bus.pollsDue else s.bus.pollsDue ++ [cs] } cs
          (some { d with pollTimer := false }) })
    ∧ ((∀ d, s.bus.dev cs = some d → d.pollTimer = false) → exec (.pollDue cs) s = .next s))

/-- A status byte with the busy bit set starts the poll interval again; clear, it makes a STUCK device READY, confirms a
suspension, or ends the program or erase, whose owner is told success exactly when the error bit is clear. In LOAD it makes
an unknown chip select READY, and with the other one settled LOAD goes on: to the descriptor, or with chip select 0 STUCK to
RAW with DESCRIPTOR_INVALID of index 0. The one poll after the RESUME that follows adoption makes the device READY, or BUSY
with an erase of no owner and no address, and with the last of these polls the bridge enters REBUILD. While a stop waits
LOAD goes no further (log 18). With no poll on the bus nothing happens (log 3). -/
def Obligations.StatusPollActsOnTheByte : Prop :=
  (∀ (s : State) (tx : BusTx) (d : Device) (byte : Byte), s.bus.tx = some tx → tx.use = .poll →
    s.bus.dev tx.cs = some d →
    ∀ idle, idle = (fun d' : Device => ({ s with
        bus := FlashBus.setDev
          { s.bus with tx := none, pollsDue := s.bus.pollsDue.filter fun x => decide (x ≠ tx.cs) } tx.cs (some d') }
          : State)) →
    ∀ ready, ready = (⟨.ready, none, false, false, .stopped, 0, 0, d.resumedInQuiesce, true, .none⟩ : Device) →
      (d.resumeStep ≠ .pollWaits → byte.getLsbD s.settings.profile.busyBit = true →
        exec (.statusPoll byte) s = .next { s with
          bus := { s.bus with tx := none }.setDev tx.cs (some { d with pollTimer := true, polledBusy := true })
            }.noteResumes)
      ∧ (d.resumeStep ≠ .pollWaits → byte.getLsbD s.settings.profile.busyBit = false →
        (d.state = .stuck → exec (.statusPoll byte) s = .next (idle ready).noteResumes)
        ∧ (d.state = .busyErase → d.suspendRequested = true →
            exec (.statusPoll byte) s = .next (idle { d with
              state := .eraseSuspended, suspendRequested := false, opTimer := .paused, pollTimer := false }).noteResumes)
        ∧ (∀ o, d.op = some o → d.state = .busyProgram ∨ (d.state = .busyErase ∧ d.suspendRequested = false) →
            exec (.statusPoll byte) s = .next ((idle ready).tellOwner o.owner
              (match s.settings.profile.errorBit with
                | none => true
                | some i => !byte.getLsbD i)).noteResumes)
        ∧ (∀ e, d.state = .unknown → s.bridge.state = .load → s.bridge.load = .polling →
            s.bus.dev (if tx.cs = .cs0 then .cs1 else .cs0) = some e →
            (s.bridge.stopPower = true ∨ s.bridge.stopOrderly = true ∨ e.state = .unknown →
              exec (.statusPoll byte) s = .next (idle ready).noteResumes)
            ∧ (s.bridge.stopPower = false → s.bridge.stopOrderly = false →
              (e.state = .ready ∨ (tx.cs = .cs0 ∧ e.state = .stuck) → exec (.statusPoll byte) s = .next
                { idle ready with bridge := { s.bridge with load := .readLine0 } }.noteResumes)
              ∧ (tx.cs = .cs1 → e.state = .stuck → exec (.statusPoll byte) s = .next
                ((idle ready).withEvent { kind := .descriptorInvalid, value := some 0 }).enterRaw.noteResumes))))
      ∧ (d.resumeStep = .pollWaits → ∀ after : State,
        after = idle (if byte.getLsbD s.settings.profile.busyBit = true then
          ⟨.busyErase, some ⟨.erase, none, .nobody⟩, false, true, .running, 0, 0, d.resumedInQuiesce, true, .none⟩
          else ready) →
        (s.bridge.stopPower = true ∨ s.bridge.stopOrderly = true
            ∨ (∃ cs e, after.bus.dev cs = some e ∧ e.resumeStep ≠ .none) →
          exec (.statusPoll byte) s = .next after.noteResumes)
        ∧ (s.bridge.state = .load → s.bridge.load = .resuming → s.bridge.stopPower = false →
            s.bridge.stopOrderly = false → (∀ cs e, after.bus.dev cs = some e → e.resumeStep = .none) →
          exec (.statusPoll byte) s = .next { after with
            bridge := { s.bridge with state := .rebuild, load := .idle }
            journal := { s.journal with rebuild := .readA } }.noteResumes)))
  ∧ ∀ (s : State) (byte : Byte), s.busHolds .poll = false → exec (.statusPoll byte) s = .next s.noteResumes

/-- An operation timer that reaches its timeout ends the operation as a failure: the device is STUCK, DEVICE_TIMEOUT carries
the chip select and the sector the operation named, and its owner is told: for every owner the state is what the owner makes
of the failure, with DEVICE_TIMEOUT among the owner's events in a place left free (log 9). An erase of no owner goes no
further, a DATA erase of a sector without its mark goes to the queue's tail with it. A timer that does not run has no
timeout (log 2). -/
def Obligations.OperationTimeoutMakesTheDeviceStuck : Prop :=
  ∀ (s : State) (cs : ChipSelect),
    ((∀ d, s.bus.dev cs = some d → d.opTimer ≠ .running) → exec (.operationTimeout cs) s = .next s.noteResumes)
    ∧ ∀ (d : Device) (o : Operation), s.bus.dev cs = some d → d.opTimer = .running → d.op = some o →
      ∀ timeout : EventBody, timeout =
        { kind := .deviceTimeout
          value := some (if cs = .cs0 then 0 else 1)
          location := o.addr.map fun a => .ps (if cs = .cs0 then a / 4096 else a / 4096 + s.settings.deviceSectors) } →
      ∀ stuck : State, stuck = ({ s with
          bus := s.bus.setDev cs (some { d with
            state := .stuck, op := none, suspendRequested := false, opTimer := .stopped, suspensions := 0,
            fillsTaken := 0 }) } : State) →
        (∀ told : State, told = State.tellOwner { stuck with events := ⟨[], 0, .armed⟩ } o.owner false →
          ∃ before after : List EventBody, told.events.queue.map EventRecord.body = before ++ after
            ∧ exec (.operationTimeout cs) s = .next { told with
                free := told.free + 1
                events := (before ++ timeout :: after).foldl EventBlock.receive s.events }.noteResumes)
        ∧ (o.owner = .nobody → exec (.operationTimeout cs) s = .next
            { stuck with free := s.free + 1, events := s.events.receive timeout }.noteResumes)
        ∧ (o.owner = .erase → ∀ (ps : Nat) (q : QueuedSector) (rest : List QueuedSector),
            s.erase.record = some ⟨.data, ps, true⟩ → s.map.queue = q :: rest → q.failedOnce = false →
            exec (.operationTimeout cs) s = .next { stuck with
              free := s.free + 1
              events := s.events.receive timeout
              erase := { s.erase with record := none }
              map := { s.map with queue := rest ++ [(⟨q.ps, true⟩ : QueuedSector)] } }.noteResumes)

/-- A chip select still unknown at 2000 ms in LOAD becomes STUCK with DEVICE_TIMEOUT; LOAD goes on when both are settled,
with chip select 0 READY to the descriptor, with chip select 0 STUCK to RAW with DESCRIPTOR_INVALID of index 0, received
after the DEVICE_TIMEOUT (log 50). While a stop waits LOAD goes no further (log 18). The timeout is a command for each chip
select (log 40); outside LOAD, or for a settled chip select, it changes nothing (logs 2 and 3). -/
def Obligations.LoadPollTimeoutSettlesTheChipSelect : Prop :=
  (∀ (s : State) (cs : ChipSelect), s.bridge.state ≠ .load ∨ (∀ d, s.bus.dev cs = some d → d.state ≠ .unknown) →
    exec (.loadPollTimeout cs) s = .next s.noteResumes)
  ∧ ∀ (s : State) (cs : ChipSelect) (d e : Device), s.bridge.state = .load → s.bridge.load = .polling →
    s.bus.dev cs = some d → d.state = .unknown → s.bus.dev (if cs = .cs0 then .cs1 else .cs0) = some e →
    ∀ u : State, u = (State.withEvent { s with bus := s.bus.setDev cs (some { d with state := .stuck }) }
        { kind := .deviceTimeout, value := some (if cs = .cs0 then 0 else 1) }) →
      (s.bridge.stopPower = true ∨ s.bridge.stopOrderly = true ∨ e.state = .unknown →
        exec (.loadPollTimeout cs) s = .next u.noteResumes)
      ∧ (s.bridge.stopPower = false → s.bridge.stopOrderly = false →
        (cs = .cs1 → e.state = .ready → exec (.loadPollTimeout cs) s = .next
          { u with bridge := { s.bridge with load := .readLine0 } }.noteResumes)
        ∧ ((cs = .cs0 ∧ e.state = .ready) ∨ e.state = .stuck → exec (.loadPollTimeout cs) s = .next
          (u.withEvent { kind := .descriptorInvalid, value := some 0 }).enterRaw.noteResumes))

/-! ## Erases, the Sector Map and the map journal (spec 01, 07, 08) -/

/-- With its record empty the Erase Engine claims a RAW erase in RAW whose outcome it does not hold yet, and nothing else;
in SERVICE, and at first boot, the next sector of a STALE bank, bank A before bank B, unless FENCED; in SERVICE with none
STALE the head of the erase queue, unless the queue is empty, the record wait is not, or compaction, a full journal or
FENCED holds data erases. In QUIESCE, HALTED, RESET, LOAD and otherwise in REBUILD it chooses nothing, nor with a record,
nor while a stop waits (log 18). Where a bank erase has come to is kept in the engine (log 27). An erase that ends leaves
the record empty: a DATA erase asks for ERASED, or at a second failure for RETIRE(ERASE), not in HALTED, and under FENCED
its record wait stays; a first failure puts the sector at the queue's tail with its mark; a BANK erase goes on to the next
sector, tries a sector twice, and ends with the bank ERASED or FENCED, in QUIESCE and HALTED too (log 28), at first boot
with the bank to be written or REBUILD_FAILED; while a stop waits it goes no further (log 18); a RAW erase keeps its
outcome. -/
def Obligations.EraseClaimChoosesTheNextWork : Prop :=
  (∀ s : State, s.erase.record = none → s.bridge.stopPower = false → s.bridge.stopOrderly = false →
    (∀ ps, s.bridge.state = .raw → s.erase.raw = some ⟨ps, none⟩ →
      exec .eraseClaim s = .next { s with erase := { s.erase with record := some ⟨.raw, ps, false⟩ } })
    ∧ (s.bridge.state = .raw → (∀ ps, s.erase.raw ≠ some ⟨ps, none⟩) → exec .eraseClaim s = .next s)
    ∧ (s.bridge.state = .service ∨ (s.bridge.state = .rebuild ∧ s.journal.rebuild = .firstErase) →
      (s.journal.fenced = true → exec .eraseClaim s = .next s)
      ∧ (∀ bank, s.journal.fenced = false → (∀ w, s.erase.bankWork = some w → s.journal.isIn w.bank .stale = false) →
        s.journal.isIn bank .stale = true → bank = .a ∨ s.journal.isIn .a .stale = false →
        exec .eraseClaim s = .next { s with
          erase := { s.erase with
            record := some ⟨.bank ⟨bank, 0, 1⟩, if bank = .a then 1 else s.settings.bankSectors + 1, false⟩
            bankWork := some ⟨bank, 0, 1⟩ } })
      ∧ (∀ w, s.journal.fenced = false → s.erase.bankWork = some w → s.journal.isIn w.bank .stale = true →
        exec .eraseClaim s = .next { s with
          erase := { s.erase with
            record := some ⟨.bank w, (if w.bank = .a then 1 else s.settings.bankSectors + 1) + w.place, false⟩ } }))
    ∧ (s.journal.isIn .a .stale = false → s.journal.isIn .b .stale = false →
      (s.bridge.state = .rebuild → exec .eraseClaim s = .next s)
      ∧ (s.bridge.state = .service →
        (∀ q rest, s.map.queue = q :: rest → s.erase.wait = none → s.journal.fenced = false →
          s.journal.compaction = .idle → s.journalFull = false →
          exec .eraseClaim s = .next { s with erase := { s.erase with record := some ⟨.data, q.ps, false⟩ } })
        ∧ (s.map.queue = [] ∨ s.erase.wait ≠ none ∨ s.journal.compaction ≠ .idle ∨ s.journalFull = true →
          exec .eraseClaim s = .next s)))
    ∧ (s.bridge.state = .rebuild → s.journal.rebuild ≠ .firstErase → exec .eraseClaim s = .next s)
    ∧ (s.bridge.state = .quiesce ∨ s.bridge.state = .halted ∨ s.bridge.state = .reset ∨ s.bridge.state = .load →
        exec .eraseClaim s = .next s))
  ∧ (∀ s : State, s.erase.record ≠ none ∨ s.bridge.stopPower = true ∨ s.bridge.stopOrderly = true →
      exec .eraseClaim s = .next s)
  ∧ (∀ (s : State) (r : EraseRecord) (ok : Bool), s.erase.record = some r →
    ∀ t : State, t = { s with erase := { s.erase with record := none } } →
    (r.kind = .data → ∀ q rest, s.map.queue = q :: rest →
      (ok = false → q.failedOnce = false → s.tellOwner .erase ok
        = { t with map := { s.map with queue := rest ++ [(⟨q.ps, true⟩ : QueuedSector)] } })
      ∧ (ok = true ∨ q.failedOnce = true →
        (s.bridge.state = .halted → s.tellOwner .erase ok = t)
        ∧ (s.bridge.state ≠ .halted → s.tellOwner .erase ok = { t with
          erase := { s.erase with record := none, wait := some ⟨r.ps, !ok⟩ }
          journal := { s.journal with queue := s.journal.queue ++ (if s.journal.fenced = true then [] else
            [⟨.erase, if ok = true then .erased r.ps else .retire r.ps .erase, false, false⟩]) } })))
    ∧ (∀ w, r.kind = .bank w →
      (s.bridge.stopPower = true ∨ s.bridge.stopOrderly = true → s.tellOwner .erase ok = t)
      ∧ (s.bridge.stopPower = false → s.bridge.stopOrderly = false →
        (ok = true → w.place + 1 < s.settings.bankSectors → s.tellOwner .erase ok
          = { t with erase := { s.erase with record := none, bankWork := some ⟨w.bank, w.place + 1, 1⟩ } })
        ∧ (ok = false → w.attempt = 1 → s.tellOwner .erase ok
          = { t with erase := { s.erase with record := none, bankWork := some ⟨w.bank, w.place, 2⟩ } })
        ∧ ∀ u : State, u = { t with erase := { s.erase with record := none, bankWork := none } } →
          (s.bridge.state ≠ .rebuild → ok = true → s.settings.bankSectors ≤ w.place + 1 →
            s.tellOwner .erase ok = { u with journal := s.journal.setRow w.bank (some ⟨.erased, none⟩) })
          ∧ (s.bridge.state ≠ .rebuild → ok = false → w.attempt ≠ 1 → s.tellOwner .erase ok = u.setFenced .bankErase)
          ∧ (s.bridge.state = .rebuild → s.journal.rebuild = .firstErase →
            (ok = true → s.settings.bankSectors ≤ w.place + 1 → s.tellOwner .erase ok = { u with
              journal := { s.journal with
                bankA := some ⟨.compacting, some 1⟩, nextSeq := 1, rebuild := .firstWrite
                run := some ⟨.a, 1, ⟨(List.range s.settings.windowSectors).map fun n => s.settings.dataBase + n, [], []⟩,
                  0, false, false⟩ } })
            ∧ (ok = false → w.attempt ≠ 1 → s.tellOwner .erase ok
              = (u.withEvent { kind := .rebuildFailed, code := some .erase }).enterRaw))))
    ∧ (r.kind = .raw → s.tellOwner .erase ok
      = { t with erase := { s.erase with
          record := none, raw := some ⟨r.ps, some (if ok = true then .erased else .timedOut)⟩ } }))

/-- A PENDING compaction starts when every condition holds together: SERVICE, FENCED clear, the other bank ERASED, no
TARGET, no data erase in progress; no other condition holds it, an append in flight included (log 21). It takes its copy,
and the other bank becomes COMPACTING with the next generation; past FFFFFFFFh the generation is a free value (log 11).
Otherwise nothing. -/
def Obligations.CompactionStartsWhenAllHolds : Prop :=
  (∀ (s : State) (bank : Bank) (row : BankRow) (g : BitVec 32) (other : BankRow), s.journal.active = some bank →
    s.journal.row bank = some row → row.generation = some g → s.journal.row bank.other = some other →
    (s.bridge.state = .service → s.journal.compaction = .pending → s.journal.fenced = false → other.state = .erased →
      s.map.target = none → s.dataEraseInProgress = false →
      ∃ next : BitVec 32, (g ≠ 0xFFFFFFFF → next = g + 1)
        ∧ exec .compactionStart s = .next { s with
          journal := MapJournal.setRow
            { s.journal with
              compaction := .running
              run := some ⟨bank.other, next, ⟨s.map.remap, s.map.pool, s.map.retired⟩, 0, false, false⟩ }
            bank.other (some ⟨.compacting, some next⟩) })
    ∧ (s.bridge.state ≠ .service ∨ s.journal.compaction ≠ .pending ∨ s.journal.fenced = true ∨ other.state ≠ .erased
        ∨ s.map.target ≠ none ∨ s.dataEraseInProgress = true → exec .compactionStart s = .next s))
  ∧ ∀ s : State, s.journal.active = none → exec .compactionStart s = .next s

/-- An append that ends moves the pointer: on success past the slot, and the record leaves the queue and its claimant is
told; on failure to slot 0 of the next sector, and the record stays, under FENCED refused. Each move is judged: in SERVICE
below 256 free slots an IDLE compaction becomes PENDING and a data erase not granted is withdrawn; a commit's record that
waits while the journal is full is reported to the engine. ERASED takes its sector to the pool's tail, or to the take that
waits; RETIRE(ERASE) to the retired set, and a take with no sector left to come is refused with WORN. MAP is followed by
RETIRE(old PS) where the commit converts, else by the switch; RETIRE(old PS) by the switch with RETIRE; RETIRE(target) by
the retirement and a new ALLOCATE, or after the third by the end FAILED. A full journal gives up MAP with the target, or
RETIRE(target), or lets the switch go with QUEUE. The model's inferences: a record in flight that fails under FENCED is
refused (log 45); past the deadline expiry a full journal ends the commit (log 22); the full journal changes nothing for
the Erase Engine (log 17); a record whose program has failed in the last sector is given up though it was granted (log 62);
WORN is raised also where it is set (log 41). -/
def Obligations.AppendEndsMoveThePointer : Prop :=
  (∀ (s : State) (q : QueueItem) (rest : List QueueItem), s.journal.run = none → s.journal.queue = q :: rest →
    q.inProgress = true → (∀ x ∈ rest, x.inProgress = false) →
    (∀ moved : State,
      moved = State.judgeTrigger { s with journal := { s.journal with pointer := s.journal.pointer + 1, queue := rest } } →
      (∀ ps, q.claimant = .erase → q.record = .erased ps →
        (s.map.taking = false → s.tellOwner .journal true = State.reportFull { moved with
          erase := { moved.erase with wait := none }
          map := { s.map with
            queue := s.map.queue.filter fun x => decide (x.ps ≠ ps)
            pool := s.map.pool ++ [ps]
            lowArmed := s.map.lowArmed || decide (s.settings.lowMark + 4 ≤ s.map.pool.length + 1)
            emptyRaised := false } })
        ∧ (∀ c, s.map.taking = true → s.commit = some c → s.tellOwner .journal true = (State.commitGranted
          { moved with
            erase := { moved.erase with wait := none }
            map := { s.map with
              queue := s.map.queue.filter fun x => decide (x.ps ≠ ps)
              target := some ps, taking := false, emptyRaised := false } } c ps).reportFull))
      ∧ (∀ ps cause, q.claimant = .erase → q.record = .retire ps cause →
        ∀ u : State, u = State.retire { moved with
          erase := { moved.erase with wait := none }
          map := { s.map with queue := s.map.queue.filter fun x => decide (x.ps ≠ ps) } } ps cause →
        (u.map.taking = false ∨ u.map.pool ≠ [] ∨ u.map.queue ≠ [] → s.tellOwner .journal true = u.reportFull)
        ∧ (∀ c, u.map.taking = true → u.map.pool = [] → u.map.queue = [] → s.commit = some c →
          s.tellOwner .journal true = (State.commitFailed (State.withEvent
            { u with map := { u.map with worn := true, taking := false } }
            { kind := .worn, value := some u.map.retired.length }) c).reportFull))
      ∧ (∀ c, q.claimant = .commit → s.commit = some c →
        (c.work = .appendMap → c.convert = false ∨ s.bridge.expired = true ∨ s.journal.fenced = true →
          s.tellOwner .journal true = (moved.commitSwitch c false).reportFull)
        ∧ (c.work = .appendMap → c.convert = true → s.bridge.expired = false → s.journal.fenced = false →
          s.tellOwner .journal true = State.reportFull (if moved.journalFull = true then
              State.commitSwitch { moved with journal := { moved.journal with queue :=
                (rest.filter fun x => decide (x.claimant ≠ .commit)) } }
                { c with work := .appendRetireOld, granted := false } false
            else { moved with
              journal := { moved.journal with queue := rest ++ [⟨.commit, .retire c.oldPs .program, false, false⟩] }
              commit := some { c with work := .appendRetireOld, granted := false } }))
        ∧ (c.work = .appendRetireOld → s.tellOwner .journal true = (moved.commitSwitch c true).reportFull)
        ∧ (∀ ps, c.work = .appendRetireTarget → s.map.target = some ps →
          ∀ u : State, u = State.retire { moved with map := { s.map with target := none } } ps .program →
          (s.bridge.expired = true ∨ 3 ≤ c.attempts → s.tellOwner .journal true = (u.commitFailed c).reportFull)
          ∧ (s.bridge.expired = false → c.attempts < 3 →
            s.tellOwner .journal true = (u.commitAllocate { c with target := none }).reportFull))))
    ∧ (s.journal.fenced = false → s.tellOwner .journal false = (State.judgeTrigger { s with journal := { s.journal with
        pointer := (s.journal.pointer / 256 + 1) * 256
        queue := { q with inProgress := false } :: rest } }).reportFull)
    ∧ (s.journal.fenced = true → s.tellOwner .journal false = State.commitFenced { s with journal := { s.journal with
        pointer := (s.journal.pointer / 256 + 1) * 256, queue := [] } }))
  ∧ (∀ s : State,
    (s.bridge.state = .service → s.journal.compaction = .idle → s.journal.fenced = false → s.journal.active ≠ none →
      s.settings.bankSectors * 256 - s.journal.pointer < 256 → s.judgeTrigger = { s with
        journal := { s.journal with compaction := .pending }
        erase := { s.erase with record := s.erase.record.filter fun r => decide (r.erasing = true ∨ r.kind ≠ .data) } })
    ∧ (s.bridge.state ≠ .service ∨ s.journal.compaction ≠ .idle ∨ s.journal.fenced = true ∨ s.journal.active = none
        ∨ 256 ≤ s.settings.bankSectors * 256 - s.journal.pointer → s.judgeTrigger = s)
    ∧ (s.journalFull = true ↔ s.journal.active ≠ none ∧ s.settings.bankSectors * 256 ≤ s.journal.pointer)
    ∧ (s.journalFull = true → (∃ q ∈ s.journal.queue, q.claimant = .commit ∧ q.inProgress = false) →
        s.reportFull = s.commitFull)
    ∧ (s.journalFull = false ∨ (∀ q ∈ s.journal.queue, q.claimant = .commit → q.inProgress = true) → s.reportFull = s))
  ∧ (∀ (s : State) (c : CommitRecord), s.commit = some c →
    ∀ u : State, u = { s with journal := { s.journal with queue :=
      (s.journal.queue.filter fun q => decide (q.inProgress = true ∨ q.claimant ≠ .commit)) } } →
    (c.work = .appendMap → s.bridge.expired = false → s.commitFull = { u with
      map := s.map.released
      commit := some { c with target := none, keepAttempts := true, work := .allocHeld, granted := false } })
    ∧ (c.work = .appendRetireTarget → s.bridge.expired = false → c.attempts < 3 → s.commitFull = { u with
      map := s.map.released, commit := some { c with target := none, work := .allocHeld, granted := false } })
    ∧ (c.work = .appendRetireTarget → s.bridge.expired = true ∨ 3 ≤ c.attempts → s.commitFull = u.commitFailed c)
    ∧ (c.work = .appendMap → s.bridge.expired = true → s.commitFull = u.commitFailed c)
    ∧ (c.work = .appendRetireOld → s.commitFull = u.commitSwitch c false))
  ∧ (∀ (s : State) (c : CommitRecord) (target : Nat) (retire : Bool), c.target = some target →
    s.commitSwitch c retire = { (State.completeCommit { s.switchSector c.sector target c.oldPs retire with
      reads := s.reads.withoutLines c.sector c.lines } .ok).1 with commit := none })

/-- The end of a compaction's window: the last one makes the bank ACTIVE with its generation and the other STALE, moves
the pointer past the IMAGE_END, raises JOURNAL_COMPACTED, judges the trigger and lets a held take go on, whose events come
after (log 50); another goes on to the next window; a failure makes the bank STALE and the compaction PENDING for its
second attempt, the second failure sets FENCED. An abandoned one ends with its bank STALE unless the window was the last.
At first boot a failure is REBUILD_FAILED, the last window completes it, and while a stop waits nothing follows (log 18).
The bank's slots hold BANK_OPEN, three of FFh, the image records of four slots each, the list of free and retired sectors
and IMAGE_END. The BANK_OPEN, each image record, each record of the list and the IMAGE_END take one number each, in order; the
slots after the IMAGE_END give no bytes, so that the last window is sent to its last record alone (log 43). -/
def Obligations.CompactionWindowsEnd : Prop :=
  (∀ (s : State) (r : BankRun), s.journal.run = some r → r.inProgress = true → s.bridge.state ≠ .rebuild →
    ∀ dropped : State, dropped = { s with
      journal := ({ s.journal with run := none } : MapJournal).setRow r.bank (some ⟨.stale, none⟩) } →
    (r.window = lastWindow s.settings r.copy →
      s.tellOwner .journal true = (State.judgeTrigger (State.withEvent
        { s with journal := (({ s.journal with
            pointer := closingSlot s.settings r.copy + 1, compaction := .idle, attempt := 1, run := none }
              : MapJournal).setRow r.bank (some ⟨.active, some r.generation⟩)).setRow r.bank.other (some ⟨.stale, none⟩) }
        { kind := .journalCompacted, value := some r.generation.toNat })).commitHoldEnd)
    ∧ (r.window ≠ lastWindow s.settings r.copy → r.abandoned = false →
      s.tellOwner .journal true = { s with
        journal := { s.journal with run := some { r with window := r.window + 1, inProgress := false } } })
    ∧ (r.window ≠ lastWindow s.settings r.copy → r.abandoned = true → s.tellOwner .journal true = dropped)
    ∧ (r.abandoned = true → s.tellOwner .journal false = dropped)
    ∧ (r.abandoned = false → s.journal.attempt = 1 → s.tellOwner .journal false = { dropped with
        journal := { dropped.journal with compaction := .pending, attempt := 2 } })
    ∧ (r.abandoned = false → s.journal.attempt ≠ 1 → s.tellOwner .journal false = dropped.setFenced .compaction))
  ∧ (∀ (s : State) (r : BankRun) (ok : Bool), s.journal.run = some r → r.inProgress = true → s.bridge.state = .rebuild →
    s.journal.rebuild = .firstWrite →
    (s.bridge.stopPower = true ∨ s.bridge.stopOrderly = true → s.tellOwner .journal ok = s)
    ∧ (s.bridge.stopPower = false → s.bridge.stopOrderly = false →
      (ok = false →
        s.tellOwner .journal ok = (s.withEvent { kind := .rebuildFailed, code := some .program }).enterRaw)
      ∧ (ok = true → r.window = lastWindow s.settings r.copy → s.tellOwner .journal ok = s.firstBootDone r)
      ∧ (ok = true → r.window ≠ lastWindow s.settings r.copy → s.tellOwner .journal ok = { s with
          journal := { s.journal with run := some { r with window := r.window + 1, inProgress := false } } })))
  ∧ (∀ (c : Settings) (x : Collections) (n : Nat), n = (c.windowSectors + 23) / 24 →
    closingSlot c x = 4 + 4 * n + (x.pool.length + x.retired.length) ∧ lastWindow c x = closingSlot c x / 16
    ∧ bankPart c x 0 = .opening ∧ (∀ i, 1 ≤ i → i ≤ 3 → bankPart c x i = .padding)
    ∧ (∀ k, k < n → bankPart c x (4 + 4 * k) = .image k
        ∧ ∀ j, 1 ≤ j → j ≤ 3 → bankPart c x (4 + 4 * k + j) = .continued)
    ∧ (∀ i ps, x.pool[i]? = some ps → bankPart c x (4 + 4 * n + i) = .listed (.erased ps))
    ∧ (∀ (i : Nat) (r : RetiredSector), x.retired[i]? = some r →
        bankPart c x (4 + 4 * n + x.pool.length + i) = .listed (.retire r.ps r.cause))
    ∧ bankPart c x (closingSlot c x) = .closing ∧ (∀ slot, closingSlot c x < slot → bankPart c x slot = .beyond)
    ∧ ∀ (generation : BitVec 32) (w seq : Nat),
      windowNumbers c x w = ((List.range 16).filter fun i => (bankPart c x (16 * w + i)).takesNumber).length
      ∧ windowBytes c x generation w seq = (List.range 16).flatMap fun i => (bankPart c x (16 * w + i)).bytes c x generation
          (seq + ((List.range i).filter fun j => (bankPart c x (16 * w + j)).takesNumber).length))
  ∧ (∀ (c : Settings) (x : Collections) (generation : BitVec 32) (seq : Nat),
    ∀ checked, checked = (fun bytes : List Byte => bytes ++ le2 (crc16 bytes).toNat) →
    BankPart.bytes c x generation seq .opening = checked ([0x04, 0] ++ le4 seq ++ le4 generation.toNat ++ [0, 0, 0, 0])
    ∧ BankPart.bytes c x generation seq .padding = List.replicate 16 0xFF
    ∧ (∀ k, BankPart.bytes c x generation seq (.image k) = checked ([0x06, 0] ++ le4 seq ++ le2 (24 * k)
        ++ ((List.range 24).flatMap fun i => le2 (x.table.getD (24 * k + i) 0xFFFF)) ++ [0, 0, 0, 0, 0, 0]))
    ∧ BankPart.bytes c x generation seq .continued = [] ∧ BankPart.bytes c x generation seq .beyond = []
    ∧ BankPart.opening.takesNumber = true ∧ (∀ k, (BankPart.image k).takesNumber = true)
    ∧ (∀ d, (BankPart.listed d).takesNumber = true) ∧ BankPart.closing.takesNumber = true
    ∧ BankPart.padding.takesNumber = false ∧ BankPart.continued.takesNumber = false
    ∧ BankPart.beyond.takesNumber = false
    ∧ (∀ d, BankPart.bytes c x generation seq (.listed d) = d.bytes seq)
    ∧ BankPart.bytes c x generation seq .closing = checked ([0x05, 0] ++ le4 seq
        ++ le2 ((c.windowSectors + 23) / 24) ++ le2 (x.pool.length + x.retired.length) ++ [0, 0, 0, 0])
    ∧ (∀ ls newPs oldPs, (Delta.map ls newPs oldPs).bytes seq
        = checked ([0x01, 0] ++ le4 seq ++ le2 ls ++ le2 newPs ++ le2 oldPs ++ [0, 0]))
    ∧ (∀ ps, (Delta.erased ps).bytes seq = checked ([0x02, 0] ++ le4 seq ++ le2 ps ++ [0, 0, 0, 0, 0, 0]))
    ∧ ∀ ps cause, (Delta.retire ps cause).bytes seq = checked ([0x03, if cause = .program then 0x01 else 0x02]
        ++ le4 seq ++ le2 ps ++ [0, 0, 0, 0, 0, 0]))

/-- FENCED is set with its event: compaction IDLE with its attempt count left (log 44), a bank being written STALE,
records whose program is not in flight refused, one that waits to be written again among them (log 45), claims of data and
bank erases withdrawn; when it is set already nothing happens (log 28). The commit is told after the event (log 50): one
that holds, waits for a take, or waits for MAP or RETIRE(target) ends FAILED; one that waits for RETIRE(old PS) switches
with QUEUE; a record whose program has begun is let end. -/
def Obligations.FencedStopsTheJournal : Prop :=
  (∀ (s : State) (code : DetailCode),
    (s.journal.fenced = true → s.setFenced code = s)
    ∧ (s.journal.fenced = false → ∀ j : MapJournal,
      j = { s.journal with
        fenced := true, compaction := .idle, run := none, queue := s.journal.queue.filter fun q => q.inProgress } →
      ∀ told : MapJournal → State, told = (fun j' => State.withEvent
        { s with
          journal := j'
          erase := { s.erase with record := s.erase.record.filter fun r => decide (r.erasing = true ∨ r.kind = .raw) } }
        { kind := .fenced, code := some code }) →
      (s.journal.run = none → s.setFenced code = (told j).commitFenced)
      ∧ ∀ r, s.journal.run = some r → s.setFenced code = (told (j.setRow r.bank (some ⟨.stale, none⟩))).commitFenced))
  ∧ (∀ s : State, s.commit = none → s.commitFenced = s)
  ∧ ∀ (s : State) (c : CommitRecord), s.commit = some c →
    ((∃ q ∈ s.journal.queue, q.claimant = .commit ∧ q.begun = true) → s.commitFenced = s)
    ∧ ((∀ q ∈ s.journal.queue, q.claimant = .commit → q.begun = false) →
      (c.work = .allocHeld ∨ c.work = .takeWaits ∨ c.work = .appendMap ∨ c.work = .appendRetireTarget →
        s.commitFenced = s.commitFailed c)
      ∧ (c.work = .appendRetireOld → s.commitFenced = s.commitSwitch c false)
      ∧ (c.stage = .probe ∨ c.stage = .inPlace ∨ (c.stage = .copy ∧ c.work ≠ .appendRetireTarget) → s.commitFenced = s))

/-- The pool low mark: POOL_LOW once, at the take from P to P-1 sectors while ARMED; armed again by a join that brings the
pool to P+4; set by the length at the end of REBUILD, which raises none and in which no commit is in progress; DISARMED
at entry to RESET. -/
def Obligations.PoolLowMark : Prop :=
  (∀ (s : State) (ps : Nat) (rest : List Nat), s.map.pool = ps :: rest →
    (s.map.lowArmed = true → rest.length + 1 = s.settings.lowMark → s.take = (State.withEvent
      { s with map := { s.map with pool := rest, target := some ps, lowArmed := false } }
      { kind := .poolLow, location := some (.ps ps), value := some rest.length }, .granted ps))
    ∧ (s.map.lowArmed = false ∨ rest.length + 1 ≠ s.settings.lowMark → s.take =
      ({ s with map := { s.map with pool := rest, target := some ps } }, .granted ps)))
  ∧ (∀ (m : SectorMap) (lowMark ps : Nat), m.taking = false →
      (m.join lowMark ps).1.pool = m.pool ++ [ps]
      ∧ ((m.join lowMark ps).1.lowArmed = true ↔ m.lowArmed = true ∨ lowMark + 4 ≤ (m.pool ++ [ps]).length))
  ∧ (∀ (m : SectorMap) (lowMark ps : Nat), m.taking = true →
      (m.join lowMark ps).1.pool = m.pool ∧ (m.join lowMark ps).1.lowArmed = m.lowArmed)
  ∧ (∀ s : State, s.pins.pfail = false ∨ s.commit = none →
      (s.rebuildDone.map.lowArmed = true ↔ s.settings.lowMark ≤ s.map.pool.length)
      ∧ (∃ (w : List EventBody) (v : Option Nat),
          s.rebuildDone.events = (w.foldl EventBlock.receive s.events).receive { kind := .serviceReady, value := v }
          ∧ ∀ b ∈ w, b.kind = .worn))
  ∧ (∀ (s : State) (r : BankRun), s.pins.pfail = false ∨ s.commit = none → 1 ≤ s.settings.lowMark →
      (s.firstBootDone r).map.pool = [] ∧ (s.firstBootDone r).map.lowArmed = false)
  ∧ ∀ (s : State) (kind : ResetKind), (s.enterReset kind).map.lowArmed = false

/-- The empty episode: the take that begins it raises POOL_EMPTY with the erase queue's length and sets the flag; while
the flag is set a waiting take raises nothing; a join clears it whether the sector is passed on or stays; so does entry to
RESET; a take refused with pool and queue empty raises WORN instead, also where WORN is set (log 41). -/
def Obligations.PoolEmptyEpisode : Prop :=
  (∀ s : State, s.map.pool = [] → s.map.queue ≠ [] →
    (s.map.emptyRaised = false → s.take = (State.withEvent
      { s with map := { s.map with taking := true, emptyRaised := true } }
      { kind := .poolEmpty, value := some s.map.queue.length }, .waits))
    ∧ (s.map.emptyRaised = true → s.take = ({ s with map := { s.map with taking := true } }, .waits)))
  ∧ (∀ s : State, s.map.pool = [] → s.map.queue = [] → s.take = (State.withEvent
      { s with map := { s.map with worn := true, taking := false } }
      { kind := .worn, value := some s.map.retired.length }, .refused))
  ∧ (∀ (m : SectorMap) (lowMark ps : Nat), (m.join lowMark ps).1.emptyRaised = false
      ∧ (m.taking = true → (m.join lowMark ps).1.target = some ps ∧ (m.join lowMark ps).1.pool = m.pool))
  ∧ ∀ (s : State) (kind : ResetKind), (s.enterReset kind).map.emptyRaised = false

/-- The moves of sectors between classes: a switch, a retiring switch, a release, a retirement in ascending place. The
Sector Map names each sector once (laws 1, 2, 3 and 7): every move leaves the sectors named the same, whatever their
classes: the take, the join of the pool, both retirements, the switch, the release, the return to the erase queue's tail.
A completed REBUILD and a first boot name each sector of the data area once, and then the sectors not mapped are as many as
the spares. -/
def Obligations.SectorsMoveBetweenClasses : Prop :=
  (∀ (s : State) (ls target old : Nat), s.switchSector ls target old false = { s with map := { s.map with
      remap := s.map.remap.set ls target, target := none, queue := s.map.queue ++ [⟨old, false⟩] } })
  ∧ (∀ (s : State) (ls target old : Nat), s.switchSector ls target old true = State.withEvent
      { s with map := { s.map with
        remap := s.map.remap.set ls target, target := none
        retired := insertRetired ⟨old, .program⟩ s.map.retired } }
      { kind := .sectorRetired, location := some (.ps old), code := some .program })
  ∧ (∀ s : State, s.releaseTarget = { s with map := s.map.released })
  ∧ (∀ (s : State) (ps : Nat) (cause : RetireCause), s.retire ps cause = State.withEvent
      { s with map := { s.map with retired := insertRetired ⟨ps, cause⟩ s.map.retired } }
      { kind := .sectorRetired, location := some (.ps ps),
        code := some (if cause = .program then DetailCode.program else .erase) })
  ∧ (∀ (r : RetiredSector) (l : List RetiredSector), (insertRetired r l).Perm (r :: l)
      ∧ ((l.map RetiredSector.ps).Pairwise (· < ·) → (∀ x ∈ l, x.ps ≠ r.ps) →
          ((insertRetired r l).map RetiredSector.ps).Pairwise (· < ·)))
  ∧ (∀ s : State,
    (s.map.target = none → s.take.1.map.named.Perm s.map.named)
    ∧ (∀ (ls target old : Nat) (retire : Bool), s.map.remap[ls]? = some old → s.map.target = some target →
        (s.switchSector ls target old retire).map.named.Perm s.map.named)
    ∧ s.releaseTarget.map.named.Perm s.map.named ∧ s.map.requeueHead.named.Perm s.map.named
    ∧ (∀ ps, s.map.target = some ps →
        (State.retire { s with map := { s.map with target := none } } ps .program).map.named.Perm s.map.named)
    ∧ ∀ (q : QueuedSector) (out : SectorMap), q ∈ s.map.queue → (s.map.queue.map QueuedSector.ps).Nodup →
      out = { s.map with queue := s.map.queue.filter fun x => decide (x.ps ≠ q.ps) } →
      (s.map.taking = false ∨ s.map.target = none → (out.join s.settings.lowMark q.ps).1.named.Perm s.map.named)
      ∧ (State.retire { s with map := out } q.ps .erase).map.named.Perm s.map.named)
  ∧ (∀ (m : SectorMap) (c : Settings), m.remap.length = c.windowSectors →
      c.dataSectors = c.windowSectors + c.spares → m.named.Perm c.dataArea →
      m.named.Nodup
        ∧ m.target.toList.length + m.pool.length + m.queue.length + m.retired.length = c.spares)
  ∧ ∀ s : State, s.pins.pfail = false ∨ s.commit = none →
    s.settings.totalSectors = s.settings.dataBase + s.settings.dataSectors →
    (∀ (c : Contender) (windows : List Window) (l : Listing) (r : Replay), r.finish.passes s.settings = true →
      (s.choose c windows l r).map.named.Perm s.settings.dataArea
        ∧ (s.choose c windows l r).map.remap.length = s.settings.windowSectors)
    ∧ (∀ r, s.settings.dataSectors = s.settings.windowSectors + s.settings.spares →
      (s.firstBootDone r).map.named.Perm s.settings.dataArea
        ∧ (s.firstBootDone r).map.remap.length = s.settings.windowSectors)

/-! ## The descriptor and REBUILD (spec 02, 08) -/

/-- The identification checks: signature, format version, and the CRC-32 of bytes 0 to 123 against bytes 124 to 127, in that
order; a sector of FFh fails at check 1. -/
def Obligations.DescriptorIdentification : Prop :=
  (∀ d : List Byte, d.length = 128 →
    (d.take 4 ≠ [0x56, 0x52, 0x43, 0x4C] → descriptorIndex d = 1)
    ∧ (d.take 4 = [0x56, 0x52, 0x43, 0x4C] → d.getD 4 0 ≠ 1 → descriptorIndex d = 2)
    ∧ (d.take 4 = [0x56, 0x52, 0x43, 0x4C] → d.getD 4 0 = 1 →
        (crc32 (d.take 124)).toNat ≠ fromLE (d.drop 124) → descriptorIndex d = 3)
    ∧ (d.take 4 = [0x56, 0x52, 0x43, 0x4C] → d.getD 4 0 = 1 →
        (crc32 (d.take 124)).toNat = fromLE (d.drop 124) → descriptorIndex d = 0 ∨ 4 ≤ descriptorIndex d))
  ∧ descriptorIndex (List.replicate 128 0xFF) = 1
  ∧ (∀ bytes : List Byte, crc32 bytes = ~~~ bytes.foldl (fun (c : BitVec 32) b => (List.range 8).foldl (fun x _ =>
      if x.getLsbD 0 = true then x >>> 1 ^^^ 0xEDB88320 else x >>> 1) (c ^^^ b.setWidth 32)) 0xFFFFFFFF)

/-- The end of a line read of PS 0: line 0 is kept for line 1; with line 1 the checks are applied, the first that fails is
recorded and raised and the bridge enters RAW, and when all pass the descriptor is adopted. While a stop waits, or outside
LOAD, nothing more is done (log 18); the end of such a read with none on the bus changes nothing (log 3). Line 0 is read
before line 1 by the model's choice (log 52). -/
def Obligations.DescriptorReadEnd : Prop :=
  (∀ (s : State) (bytes : Line), s.busHolds .descriptorRead = true → s.bridge.state = .load →
    s.bridge.stopPower = false → s.bridge.stopOrderly = false →
    (s.bridge.load = .readLine0 → exec (.descriptorReadEnd bytes) s = .next { s with
      bus := { s.bus with tx := none }, bridge := { s.bridge with load := .readLine1 bytes } }.noteResumes)
    ∧ (∀ line0, s.bridge.load = .readLine1 line0 →
      (descriptorIndex (line0.bytes ++ bytes.bytes) = 0 → exec (.descriptorReadEnd bytes) s = .next
        ((State.adopt { s with bus := { s.bus with tx := none } } (line0.bytes ++ bytes.bytes)).noteResumes))
      ∧ (descriptorIndex (line0.bytes ++ bytes.bytes) ≠ 0 → exec (.descriptorReadEnd bytes) s = .next
        ((State.withEvent
          { s with
            bus := { s.bus with tx := none }
            bridge := { s.bridge with checkIndex := descriptorIndex (line0.bytes ++ bytes.bytes) } }
          { kind := .descriptorInvalid, value := some (descriptorIndex (line0.bytes ++ bytes.bytes)) }).enterRaw
            ).noteResumes)))
  ∧ (∀ (s : State) (bytes : Line), s.busHolds .descriptorRead = true →
      s.bridge.stopPower = true ∨ s.bridge.stopOrderly = true ∨ s.bridge.state ≠ .load →
      exec (.descriptorReadEnd bytes) s = .next { s with bus := { s.bus with tx := none } }.noteResumes)
  ∧ ∀ (s : State) (bytes : Line), s.busHolds .descriptorRead = false →
      exec (.descriptorReadEnd bytes) s = .next s.noteResumes

/-- The check index is the first of the eleven checks that fails, 0 when all pass; checks 4 to 11 are the ranges of device
fields, bank size, spares, pool low mark, buffer and timers, command profile, regions and journal room. Adoption puts every
value of the 128 bytes in force: devices and C, T, J, data_base, D, S, L, P, H, M, linger time and both deadlines, the
command profile, the eight requesters, the regions and the gate default, numbers of two bytes with the least significant
byte first. With one device chip select 1 is dropped; a RESUME is due for device 0, and for device 1 where it is READY.
R31 names no moment for that: the model judges READY here, at adoption (log 67). -/
def Obligations.DescriptorAdoption : Prop :=
  (∀ d : List Byte, descriptorIndex d = 0 ↔ ∀ i, 1 ≤ i → i ≤ 11 → checkPasses d i = true)
  ∧ (∀ (d : List Byte) (k : Nat), 1 ≤ k → (descriptorIndex d = k ↔
      k ≤ 11 ∧ checkPasses d k = false ∧ ∀ i, 1 ≤ i → i < k → checkPasses d i = true))
  ∧ ∀ (d : List Byte) (b : Nat → Byte) (n w : Nat → Nat) (C D L : Nat), b = (fun i => d.getD i 0xFF) →
    n = (fun i => (b i).toNat) → w = (fun i => n i + 256 * n (i + 1)) →
    C = (if b 6 = 0x04 then 1024 else if b 6 = 0x08 then 2048 else if b 6 = 0x10 then 4096 else 0) →
    D = n 5 * C - 2 * n 7 - 1 → L = D - w 8 →
    (checkPasses d 4 = true ↔ (n 5 = 1 ∨ n 5 = 2) ∧ (b 6 = 0x04 ∨ b 6 = 0x08 ∨ b 6 = 0x10))
    ∧ (checkPasses d 5 = true ↔ 8 ≤ n 7 ∧ n 7 ≤ 32)
    ∧ (checkPasses d 6 = true ↔ 16 ≤ w 8 ∧ w 8 ≤ 512 ∧ 4 * w 8 ≤ D)
    ∧ (checkPasses d 7 = true ↔ 4 ≤ n 10 ∧ n 10 ≤ 64 ∧ n 10 < w 8)
    ∧ (checkPasses d 8 = true ↔ 8 ≤ n 11 ∧ n 11 ≤ 14 ∧ 1 ≤ n 12 ∧ n 12 ≤ n 11 ∧ w 14 ≤ 1000 ∧ 1 ≤ n 16 ∧ n 16 ≤ 100
        ∧ 10 ≤ w 18 ∧ w 18 ≤ 2000)
    ∧ (checkPasses d 9 = true ↔ n 21 ≤ 2 ∧ n 29 ≤ 7 ∧ (b 30 = 0xFF ∨ (n 30 ≤ 7 ∧ n 30 ≠ n 29)) ∧ 10 ≤ w 32
        ∧ w 32 ≤ 1000 ∧ 1 ≤ n 31 ∧ n 31 ≤ 50 ∧ 50 ≤ w 34 ∧ w 34 ≤ 2000)
    ∧ (checkPasses d 10 = true ↔ n 44 ≤ 8
        ∧ (∀ e < n 44, w (48 + 8 * e) ≤ w (50 + 8 * e) ∧ w (50 + 8 * e) < L)
        ∧ ∀ e < n 44, ∀ f < e, w (50 + 8 * f) < w (48 + 8 * e) ∨ w (50 + 8 * e) < w (48 + 8 * f))
    ∧ (checkPasses d 11 = true ↔ ((L + 23) / 24 * 64 + 4095) / 4096 + (w 8 * 16 + 4095) / 4096 + 2 ≤ n 7)
    ∧ ∀ s : State, s.adopt d = { s with
      bridge := { s.bridge with load := .resuming }
      access := { s.access with gateOpen := (b 45).getLsbD 0 }
      bus := { s.bus with
        pollsDue := if n 5 = 2 then s.bus.pollsDue else s.bus.pollsDue.filter fun c => decide (c = .cs0)
        dev0 := s.bus.dev0.map fun x => { x with resumeStep := .resumeDue }
        dev1 := if n 5 = 2 then
            s.bus.dev1.map fun x => { x with resumeStep := if x.state = .ready then .resumeDue else x.resumeStep }
          else none }
      settings := {
        raw := false, deviceCount := n 5, deviceSectors := C, totalSectors := n 5 * C, bankSectors := n 7
        dataBase := 2 * n 7 + 1, dataSectors := D, spares := w 8, windowSectors := L, lowMark := n 10, highMark := n 11
        drainMark := n 12, linger := w 14, powerDeadline := n 16, resetDeadline := w 18
        profile := {
          readOp := b 20, dummy := n 21, writeEnableOp := b 22, programOp := b 23, sectorEraseOp := b 24
          readStatusOp := b 25, suspendOp := b 26, resumeOp := b 27, suspendSupported := (b 28).getLsbD 0
          busyBit := n 29, errorBit := if b 30 = 0xFF then none else some (n 30), programTimeout := n 31
          pollInterval := w 32, eraseTimeout := w 34 }
        requesters := Vector.ofFn fun r => ⟨(b (36 + r)).getLsbD 0, if (b (36 + r)).getLsbD 1 = true then 1 else 0,
          (b (36 + r)).getLsbD 2⟩
        regions := (List.range (n 44)).map fun e => {
          first := w (48 + 8 * e), last := w (50 + 8 * e), readMask := b (52 + 8 * e), writeMask := b (53 + 8 * e)
          policy := if (b (54 + 8 * e)).getLsbD 0 = true then .alwaysRelocate else .inPlaceAllowed } } }

/-- Entry to RAW puts its settings in force: the boot profile, device 0 alone, a window of 4096 sectors, every requester
enabled in group 0 without gate_bypass, no regions, H 12, M 1, linger 0, deadlines 5 ms and 100 ms, the gate CLOSED, the
Sector Map empty, the Map Journal idle; guards and gate lock are kept. With PFAIL asserted the bridge enters QUIESCE of cause
POWER at once (R154). R33 gives no value to J, data_base, D, S and P, nor to C and T: the 0 and the 4096 that stand for them
are the model's choice (log 51), and so are the 00h of the boot profile's suspend and resume opcodes, which R32 does not
give (log 61), and that the settings of RAW are held as such (log 36). -/
def Obligations.EntryToRawPutsItsSettingsInForce : Prop :=
  ∀ s t : State, t = { s with
      bridge := { s.bridge with state := .raw, load := .idle }
      settings := {
        raw := true, deviceCount := 1, deviceSectors := 4096, totalSectors := 4096, bankSectors := 0, dataBase := 0
        dataSectors := 0, spares := 0, windowSectors := 4096, lowMark := 0, highMark := 12, drainMark := 1, linger := 0
        powerDeadline := 5, resetDeadline := 100
        profile := {
          readOp := 0x03, dummy := 0, writeEnableOp := 0x06, programOp := 0x02, sectorEraseOp := 0x20
          readStatusOp := 0x05, suspendSupported := false, suspendOp := 0, resumeOp := 0, busyBit := 0
          errorBit := none, pollInterval := 100, programTimeout := 10, eraseTimeout := 1000 }
        requesters := Vector.replicate 8 ⟨true, 0, false⟩
        regions := [] }
      access := { s.access with gateOpen := false }
      map := SectorMap.empty
      bus := { s.bus with
        dev1 := none, resumesDue := [], pollsDue := s.bus.pollsDue.filter fun c => decide (c = .cs0) }
      erase := EraseEngine.empty
      journal := MapJournal.empty } →
    (s.pins.pfail = false → s.enterRaw = t)
    ∧ (s.pins.pfail = true → s.enterRaw = t.enterQuiesce .power
      ∧ (s.commit = none → s.enterRaw = { t with bridge := { s.bridge with
          state := .quiesce, cause := some .power, deadline := .running 5, expired := false, load := .idle } }))

/-- REBUILD: window 0 of bank A is kept, window 0 of bank B decides the contenders: a bank whose slot 0 holds a BANK_OPEN;
the higher generation first, at equal generations the higher number, else in a free order (log 12). One is examined window
by window (log 14): complete with N images, the list and IMAGE_END under rising numbers; replayed and checked; chosen,
else the next is examined. When they run out: first boot, whose map is filled at its end (log 20), or REBUILD_FAILED and
RAW where one was rejected or was incomplete of a generation other than 1 (log 13). Replay: MAP, ERASED and RETIRE over
table, free list and retired set, repeats skipped, a failure carried, that of a MAP of LS L or above too (log 46), an
unlisted cause byte read as a free cause (log 42), an ERASED or RETIRE of a sector in no class joining its list (log 57)
and the previous sector of a MAP leaving the table alone (log 58), and image entries of L or above passed over (log 63);
each sector of the bank up to an empty, torn, other or older slot; then pointer and next number (logs 15, 16, and 65: no
record of a padding slot counts) and the check, the list's head dropped. The chosen bank is ACTIVE,
the stale sectors are queued ascending, WORN, low mark and compaction are set, and SERVICE_READY opens SERVICE, or QUIESCE
under PFAIL. While a stop waits, or outside REBUILD, nothing more is done (log 18); without a bank read nothing at all
(log 3). -/
def Obligations.JournalReadEnd : Prop :=
  (∀ (s : State) (bytes : Window), s.busHolds .journalRead = true → s.bridge.state = .rebuild →
    s.bridge.stopPower = false → s.bridge.stopOrderly = false →
    ∀ t : State, t = { s with bus := { s.bus with tx := none } } →
    (s.journal.rebuild = .readA →
      exec (.journalReadEnd bytes) s = .next { t with journal := { s.journal with rebuild := .readB bytes } }.noteResumes)
    ∧ (∀ windowA, s.journal.rebuild = .readB windowA →
      (contenderOf .a windowA = none → contenderOf .b bytes = none → exec (.journalReadEnd bytes) s = .next { t with
        journal := { s.journal with bankA := some ⟨.stale, none⟩, rebuild := .firstErase } }.noteResumes)
      ∧ (∀ c, (contenderOf .a windowA = some c ∧ contenderOf .b bytes = none)
            ∨ (contenderOf .a windowA = none ∧ contenderOf .b bytes = some c) →
          exec (.journalReadEnd bytes) s = .next (t.examine [c] false).noteResumes)
      ∧ (∀ x y, contenderOf .a windowA = some x → contenderOf .b bytes = some y →
        (y.generation < x.generation ∨ (x.generation = y.generation ∧ y.sequence < x.sequence) →
          exec (.journalReadEnd bytes) s = .next (t.examine [x, y] false).noteResumes)
        ∧ (x.generation < y.generation ∨ (x.generation = y.generation ∧ x.sequence < y.sequence) →
          exec (.journalReadEnd bytes) s = .next (t.examine [y, x] false).noteResumes)
        ∧ (x.generation = y.generation → x.sequence = y.sequence → ∃ order, (order = [x, y] ∨ order = [y, x])
          ∧ exec (.journalReadEnd bytes) s = .next (State.examine { t with free := s.free + 1 } order false).noteResumes)))
    ∧ (∀ c windows rest spoiled, s.journal.rebuild = .examine c windows rest spoiled →
        exec (.journalReadEnd bytes) s = .next (t.judge c (windows ++ [bytes]) rest spoiled).noteResumes))
  ∧ (∀ (s : State) (bytes : Window), s.busHolds .journalRead = true →
      s.bridge.stopPower = true ∨ s.bridge.stopOrderly = true ∨ s.bridge.state ≠ .rebuild →
      exec (.journalReadEnd bytes) s = .next { s with bus := { s.bus with tx := none } }.noteResumes)
  ∧ (∀ (s : State) (bytes : Window), s.busHolds .journalRead = false →
      exec (.journalReadEnd bytes) s = .next s.noteResumes)
  ∧ (∀ (bank : Bank) (w : Window) (c : Contender), contenderOf bank w = some c ↔
      c.bank = bank ∧ c.window0 = w ∧ slotAt [w] 0 = .valid c.sequence (.bankOpen c.generation))
  ∧ (∀ s : State,
    s.examine [] false = { s with journal := { s.journal with bankA := some ⟨.stale, none⟩, rebuild := .firstErase } }
    ∧ s.examine [] true = (s.withEvent { kind := .rebuildFailed, code := some .noBank }).enterRaw
    ∧ ∀ (c : Contender) (rest : List Contender) (spoiled passed : Bool), passed = (spoiled || decide (c.generation ≠ 1)) →
      (s.examine (c :: rest) spoiled =
          { s with journal := { s.journal with rebuild := .examine c [c.window0] rest spoiled } }
        ∨ (s.examine (c :: rest) spoiled = s.examine rest passed
          ∧ ∀ more entries l, scanOpening s.settings c.sequence (c.window0 :: more) ≠ .done (entries, l)))
      ∧ ∀ windows : List Window,
        (windows.length < 16 * s.settings.bankSectors →
          s.judge c windows rest spoiled = { s with journal := { s.journal with rebuild := .examine c windows rest spoiled } }
          ∨ (s.judge c windows rest spoiled = s.examine rest passed
            ∧ ∀ more entries l, scanOpening s.settings c.sequence (windows ++ more) ≠ .done (entries, l)))
        ∧ (16 * s.settings.bankSectors ≤ windows.length →
          ((∀ entries l, scanOpening s.settings c.sequence windows ≠ .done (entries, l)) →
            s.judge c windows rest spoiled = s.examine rest passed)
          ∧ (∀ entries l r, scanOpening s.settings c.sequence windows = .done (entries, l) →
            r = replayDeltas s.settings windows l.closing (Replay.start s.settings entries l) →
            (r.finish.passes s.settings = true → s.judge c windows rest spoiled = s.choose c windows l r)
            ∧ (r.finish.passes s.settings = false → s.judge c windows rest spoiled = s.examine rest true))))
  ∧ (∀ (c : Settings) (opened : Nat) (windows : List Window) (entries : List Nat) (l : Listing) (n : Nat),
    n = (c.windowSectors + 23) / 24 → (scanOpening c opened windows = .done (entries, l) ↔
      ∃ (images : List (Nat × List Nat)) (listed : List (Nat × Delta)), images.length = n
        ∧ (∀ i seq es, images[i]? = some (seq, es) → imageAt windows (4 + 4 * i) = .valid seq (.image (24 * i) es))
        ∧ (∀ i seq d, listed[i]? = some (seq, d) → slotAt windows (4 + 4 * n + i) = .valid seq (.delta d))
        ∧ entries = images.flatMap Prod.snd
        ∧ listed.map Prod.snd = l.free.map Delta.erased ++ l.retired.map (fun x => Delta.retire x.ps x.cause)
        ∧ l.closing = 4 + 4 * n + listed.length ∧ l.closing < 16 * windows.length
        ∧ slotAt windows l.closing = .valid l.seq (.imageEnd n listed.length)
        ∧ (opened :: (images.map Prod.fst ++ listed.map Prod.fst ++ [l.seq])).Pairwise (· < ·))
    ∧ Replay.start c entries l = ⟨entries.take c.windowSectors, l.free, l.retired,
        decide (0xFFFF ∈ entries.take c.windowSectors), none, l.seq, none⟩)
  ∧ (∀ (r : Replay) (ps : Nat) (left : List Nat),
    (ps ∉ r.free ∧ left = r.free) ∨ (∃ ahead, r.free = ahead ++ ps :: left ∧ ps ∉ ahead) →
    (∀ ls old, ∃ failed : Bool, (failed = true ↔ r.failed = true ∨ r.table[ls]? ≠ some old
          ∨ (∃ x ∈ r.retired, x.ps = ps) ∨ ∃ other, other ≠ ls ∧ r.table[other]? = some ps)
        ∧ r.apply (.map ls ps old) = { r with table := r.table.set ls ps, free := left, failed := failed })
    ∧ (ps ∉ r.table → (∀ x ∈ r.retired, x.ps ≠ ps) → r.apply (.erased ps) = { r with free := left ++ [ps] }
        ∧ ∀ cause, r.apply (.retire ps cause) = { r with free := left, retired := r.retired ++ [⟨ps, cause⟩] })
    ∧ (ps ∈ r.table ∨ (∃ x ∈ r.retired, x.ps = ps) → r.apply (.erased ps) = { r with failed := true }
        ∧ ∀ cause, r.apply (.retire ps cause) = { r with failed := true }))
  ∧ (∀ (r : Replay) (slot seq : Nat) (d : Delta),
    (r.last = some d → r.take slot seq d = { r with lastSeq := seq, lastSlot := some slot })
    ∧ (r.last ≠ some d →
        r.take slot seq d = { r.apply d with last := some d, lastSeq := seq, lastSlot := some slot }))
  ∧ (∀ (windows : List Window) (n slot : Nat) (r : Replay), scanSector windows 0 slot r = r
    ∧ (∀ seq d, slotAt windows slot = .valid seq (.delta d) → r.lastSeq < seq →
        scanSector windows (n + 1) slot r = scanSector windows n (slot + 1) (r.take slot seq d))
    ∧ ((∀ seq d, slotAt windows slot = .valid seq (.delta d) → seq ≤ r.lastSeq) → scanSector windows (n + 1) slot r = r))
  ∧ (∀ (c : Settings) (windows : List Window) (l : Listing) (r : Replay) (first last : Nat),
    first = (l.closing + 1) / 256 → last = c.bankSectors * 256 →
    (∀ (n : Nat) (t : Replay), c.bankSectors = first + n → replayDeltas c windows l.closing t =
      (List.range n).foldl (fun u k => scanSector windows (256 * (first + k + 1) - max (l.closing + 1) (256 * (first + k)))
        (max (l.closing + 1) (256 * (first + k))) u) t)
    ∧ ((∀ k, l.closing < k → k < last → slotAt windows k = .empty) →
        pointerAfter c windows l.closing r = l.closing + 1)
    ∧ (∀ k, l.closing < k → k < last → slotAt windows k ≠ .empty →
        (∀ j, k < j → j < last → slotAt windows j = .empty) →
        (r.lastSlot = some k → pointerAfter c windows l.closing r = k + 1)
        ∧ (r.lastSlot ≠ some k → pointerAfter c windows l.closing r = (k / 256 + 1) * 256))
    ∧ (∀ reads : Nat → Nat → Prop, (∀ k seq, reads k seq ↔ (∃ x, slotAt windows k = .valid seq x)
          ∨ ((∀ m x, slotAt windows k ≠ .valid m x) ∧ k % 4 = 0 ∧ ∃ x, imageAt windows k = .valid seq x)) →
        ∃ m, nextSeqAfter c windows l = m + 1 ∧ l.seq ≤ m
          ∧ (∀ k seq, l.closing < k → k < last → reads k seq → seq ≤ m)
          ∧ (m = l.seq ∨ ∃ k, l.closing < k ∧ k < last ∧ reads k m))
    ∧ r.finish = { r with free := r.free.drop 1 }
    ∧ (r.passes c = true ↔ r.table.length = c.windowSectors
        ∧ (∀ ps ∈ r.table ++ r.free ++ r.retired.map RetiredSector.ps, c.dataBase ≤ ps ∧ ps < c.totalSectors)
        ∧ (r.table ++ r.free ++ r.retired.map RetiredSector.ps).Nodup
        ∧ r.free.length + r.retired.length ≤ c.spares ∧ r.failed = false))
  ∧ (∀ (s : State) (c : Contender) (windows : List Window) (l : Listing) (r : Replay), ∃ retired : List RetiredSector,
    retired.Perm r.retired ∧ retired.Pairwise (fun x y => x.ps ≤ y.ps)
    ∧ s.choose c windows l r = State.rebuildDone { s with
      map := { SectorMap.empty with
        remap := r.table, pool := r.free.drop 1, retired := retired
        queue := ((List.range s.settings.totalSectors).filter fun ps => decide (s.settings.dataBase ≤ ps ∧ ps ∉ r.table
          ∧ ps ∉ r.free.drop 1 ∧ ∀ x ∈ r.retired, x.ps ≠ ps)).map fun ps => ⟨ps, false⟩ }
      journal := MapJournal.setRow (MapJournal.setRow { s.journal with
          pointer := pointerAfter s.settings windows l.closing r, nextSeq := nextSeqAfter s.settings windows l }
        c.bank (some ⟨.active, some (BitVec.ofNat 32 c.generation)⟩)) c.bank.other (some ⟨.stale, none⟩) })
  ∧ (∀ (s : State) (bank : Bank) (g : BitVec 32), s.journal.active = some bank →
    s.journal.row bank = some ⟨.active, some g⟩ →
    ∀ (worn : Bool) (t : State), (worn = true ↔ s.map.pool = [] ∧ s.map.queue = []
        ∧ s.map.retired.length = s.settings.spares) →
      t = { s with
        map := { s.map with valid := true, worn := worn, lowArmed := decide (s.settings.lowMark ≤ s.map.pool.length) }
        journal := { s.journal with
          rebuild := .idle
          compaction := if s.settings.bankSectors * 256 - s.journal.pointer < 256 then .pending else .idle }
        events := EventBlock.receive (if worn = true then s.events.receive { kind := .worn, value := some s.map.retired.length }
            else s.events) { kind := .serviceReady, value := some g.toNat }
        bridge := { s.bridge with state := .service } } →
      (s.pins.pfail = false → s.rebuildDone = t) ∧ (s.pins.pfail = true → s.rebuildDone = t.enterQuiesce .power))
  ∧ (∀ (s : State) (r : BankRun), s.firstBootDone r = State.rebuildDone { s with
      map := { SectorMap.empty with
        remap := (List.range s.settings.windowSectors).map fun n => s.settings.dataBase + n
        queue := (List.range s.settings.spares).map fun n => ⟨s.settings.dataBase + s.settings.windowSectors + n, false⟩ }
      journal := { s.journal with
        bankA := some ⟨.active, some 1⟩, bankB := some ⟨.stale, none⟩
        pointer := closingSlot s.settings r.copy + 1, run := none } })
  ∧ (∀ (windows : List Window) (k : Nat) (w : Window) (b : List Byte), windows[k / 16]? = some w →
    ∀ number : Nat → Nat → Nat, (∀ i n, number i n = fromLE ((b.drop i).take n)) →
    (b = (w.bytes.drop (16 * (k % 16))).take 16 →
      ((∀ x ∈ b, x = 0xFF) → slotAt windows k = .empty)
      ∧ ((∃ x ∈ b, x ≠ 0xFF) → number 14 2 ≠ (crc16 (b.take 14)).toNat → slotAt windows k = .torn)
      ∧ ((∃ x ∈ b, x ≠ 0xFF) → number 14 2 = (crc16 (b.take 14)).toNat →
        (number 0 1 = 1 → slotAt windows k = .valid (number 2 4) (.delta (.map (number 6 2) (number 8 2) (number 10 2))))
        ∧ (number 0 1 = 2 → slotAt windows k = .valid (number 2 4) (.delta (.erased (number 6 2))))
        ∧ (number 0 1 = 3 → ∃ cause, (number 1 1 = 1 → cause = .program) ∧ (number 1 1 = 2 → cause = .erase)
            ∧ slotAt windows k = .valid (number 2 4) (.delta (.retire (number 6 2) cause)))
        ∧ (number 0 1 = 4 → slotAt windows k = .valid (number 2 4) (.bankOpen (number 6 4)))
        ∧ (number 0 1 = 5 → slotAt windows k = .valid (number 2 4) (.imageEnd (number 6 2) (number 8 2)))
        ∧ (number 0 1 = 0 ∨ 5 < number 0 1 → slotAt windows k = .torn)))
    ∧ (k % 4 = 0 → b = (w.bytes.drop (16 * (k % 16))).take 64 → number 0 1 = 6 →
      (number 62 2 = (crc16 (b.take 62)).toNat → imageAt windows k =
        .valid (number 2 4) (.image (number 6 2) ((List.range 24).map fun i => number (8 + 2 * i) 2)))
      ∧ (number 62 2 ≠ (crc16 (b.take 62)).toNat → imageAt windows k = .torn)))
  ∧ ∀ bytes : List Byte, crc16 bytes = bytes.foldl (fun (c : BitVec 16) (b : Byte) => (List.range 8).foldl
      (fun (x : BitVec 16) _ => if x.getLsbD 15 = true then x <<< 1 ^^^ 0x1021 else x <<< 1) (c ^^^ b.setWidth 16 <<< 8)) 0xFFFF

/-! ## The maintenance link and the events (spec 10, 11) -/

/-- STATUS answers DONE with the 18 bytes of its block; EVENT_READ removes the oldest record and answers it with the length
left, or an empty indication; NOTICE_ACK arms the notice and notifies again while records are held. The 15 bytes of an event
record, and the codes of bridge states, event kinds, details and locations, are those of R170's tables. The model's choices:
the bits of the flags byte that R170 does not name are 0 (log 60); the four location bytes of a record that carries no
location are 00h (log 59). -/
def Obligations.StatusEventReadAndNotice : Prop :=
  (∀ s : State, s.pins.porst = false →
    exec .status s = .next (s.withResult .done
      ([s.bridge.state.byte,
        BitVec.ofNat 8 ((if s.map.worn then 1 else 0) + (if s.journal.fenced then 2 else 0) + (if s.wcb.hold then 4 else 0)
          + (if s.access.gateOpen then 8 else 0) + (if s.access.gateLock then 16 else 0)),
        BitVec.ofNat 8 s.wcb.entries.length]
      ++ le2 s.map.pool.length ++ le2 s.map.queue.length ++ le2 s.map.retired.length
      ++ [(match s.journal.active with
        | none => 0x00
        | some .a => 0x01
        | some .b => 0x02 : Byte)]
      ++ le4 s.journal.generation.toNat
      ++ le2 (if s.journal.active = none then 0 else s.settings.bankSectors * 256 - s.journal.pointer)
      ++ [BitVec.ofNat 8 s.events.queue.length, BitVec.ofNat 8 s.bridge.checkIndex]))
    ∧ (s.events.queue = [] → exec .eventRead s = .next (s.withResult .done [0]))
    ∧ (∀ r rest, s.events.queue = r :: rest → ∀ (kind dropped : Byte) (requester code : Byte) (place : List Byte),
        kind = r.body.kind.byte → dropped = BitVec.ofNat 8 r.dropped →
        (r.body.requester = none → requester = 0xFF) → (∀ q, r.body.requester = some q → requester = BitVec.ofNat 8 q.val) →
        (r.body.code = none → code = 0x00) → (∀ c, r.body.code = some c → code = c.byte) →
        (r.body.location = none → place = [0x00, 0x00, 0x00, 0x00, 0x00]) →
        (∀ a, r.body.location = some (.address a) → place = 0x01 :: le4 a) →
        (∀ n, r.body.location = some (.ls n) → place = 0x02 :: le4 n) →
        (∀ n, r.body.location = some (.ps n) → place = 0x03 :: le4 n) →
        exec .eventRead s = .next (State.withResult { s with events := { s.events with queue := rest } } .done
          ([BitVec.ofNat 8 rest.length, kind] ++ le2 r.number.toNat ++ [requester] ++ place ++ [code]
            ++ le4 (r.body.value.getD 0) ++ [dropped])))
    ∧ (s.events.notice = .armed → exec .noticeAck s = .next
        (s.withResult .done [0, BitVec.ofNat 8 s.events.queue.length]))
    ∧ (s.events.notice = .notified → s.events.queue = [] → exec .noticeAck s = .next
        (State.withResult { s with events := { s.events with notice := .armed } } .done [0, 0]))
    ∧ (s.events.notice = .notified → s.events.queue ≠ [] → exec .noticeAck s = .next
        (s.withResult .done [1, BitVec.ofNat 8 s.events.queue.length])))
  ∧ (∀ n : Nat, le2 n = [BitVec.ofNat 8 n, BitVec.ofNat 8 (n / 256)]
      ∧ le4 n = [BitVec.ofNat 8 n, BitVec.ofNat 8 (n / 256), BitVec.ofNat 8 (n / 65536), BitVec.ofNat 8 (n / 16777216)])
  ∧ [BridgeState.reset, .load, .rebuild, .service, .raw, .quiesce, .halted].map BridgeState.byte = [0, 1, 2, 3, 4, 5, 6]
  ∧ [EventKind.accessDenied, .guardHit, .writeGated, .protocolError, .overrun, .commitFailed, .sectorRetired, .poolLow,
      .poolEmpty, .worn, .deviceTimeout, .journalCompacted, .fenced, .descriptorInvalid, .rebuildFailed, .serviceReady,
      .quiesceDone, .quiesceExpired, .gateOpenRefused].map EventKind.byte
    = [0x01, 0x02, 0x03, 0x04, 0x05, 0x06, 0x07, 0x08, 0x09, 0x0A, 0x0B, 0x0C, 0x0D, 0x0E, 0x0F, 0x10, 0x11, 0x12, 0x13]
  ∧ [DetailCode.tag, .length, .crossing, .requester, .region, .program, .erase, .compaction, .bankErase, .sequence, .noBank,
      .power, .orderly].map DetailCode.byte
    = [0x01, 0x02, 0x03, 0x04, 0x05, 0x06, 0x07, 0x08, 0x09, 0x0A, 0x0B, 0x0C, 0x0D]

/-- The receipt of an event: it takes the next number modulo 10000h, joins the tail while fewer than 16 records are held, and
is otherwise counted on the youngest record up to 255; the notice is NOTIFIED and ALERT asserted. -/
def Obligations.EventsAreKeptOrCounted : Prop :=
  (∀ (e : EventBlock) (b : EventBody), e.queue.length < 16 →
    e.receive b = ⟨e.queue ++ [⟨b, e.counter + 1, 0⟩], e.counter + 1, .notified⟩)
  ∧ (∀ (e : EventBlock) (b : EventBody) (older : List EventRecord) (r : EventRecord), e.queue = older ++ [r] →
      16 ≤ e.queue.length →
      e.receive b = ⟨older ++ [{ r with dropped := min 255 (r.dropped + 1) }], e.counter + 1, .notified⟩)
  ∧ ∀ s : State, s.alert = true ↔ s.events.notice = .notified

/-- GUARD_SET judged in order, slot and mode, lock, range; one that passes writes the slot whole and is answered with it.
GUARD_READ answers the slot and changes nothing. The lock byte answered is 00h or 01h, bit 0 of the one sent: the model's
choice (log 54). In SERVICE and RAW. -/
def Obligations.GuardSetAndRead : Prop :=
  ∀ (s : State) (slot : Byte) (first last : BitVec 16) (mode lock : Byte), s.pins.porst = false → s.serves →
    ∀ limit, limit = (if s.bridge.state = .raw then 4096 else s.settings.windowSectors) →
    (3 < slot.toNat ∨ 2 < mode.toNat →
      exec (.guardSet slot first last mode lock) s = .next (s.withResult .badParam []))
    ∧ (∀ (i : Fin 4) (m : GuardMode), slot.toNat = i.val → m.byte = mode →
      ((s.access.guards[i]).lock = true →
        exec (.guardSet slot first last mode lock) s = .next (s.withResult .refusedLocked []))
      ∧ ((s.access.guards[i]).lock = false → last.toNat < first.toNat ∨ limit ≤ last.toNat →
        exec (.guardSet slot first last mode lock) s = .next (s.withResult .badParam []))
      ∧ ((s.access.guards[i]).lock = false → first.toNat ≤ last.toNat → last.toNat < limit →
        exec (.guardSet slot first last mode lock) s = .next
          (State.withResult
            { s with access := { s.access with
              guards := s.access.guards.set i.val ⟨first.toNat, last.toNat, m, lock.getLsbD 0⟩ } }
            .done ([slot] ++ le2 first.toNat ++ le2 last.toNat ++ [mode, if lock.getLsbD 0 = true then 1 else 0]))))
    ∧ (3 < slot.toNat → exec (.guardRead slot) s = .next (s.withResult .badParam []))
    ∧ (∀ i : Fin 4, slot.toNat = i.val → exec (.guardRead slot) s = .next (s.withResult .done
        ([slot] ++ le2 (s.access.guards[i]).first ++ le2 (s.access.guards[i]).last
          ++ [(s.access.guards[i]).mode.byte, if (s.access.guards[i]).lock = true then 1 else 0])))

/-- GATE_OPEN, GATE_CLOSE and GATE_LOCK in SERVICE and RAW, each answered with the gate byte as it stands after; a
GATE_OPEN under the lock without AUTH is refused with the same byte and raises GATE_OPEN_REFUSED. ORDERLY_RESET and
WARM_RESET are answered DONE with no data in every state, the result placed before the reset acts. The gate byte's bits 2
to 7 are 0, which is the model's choice (log 60). -/
def Obligations.GateCommandsAndResetAnswers : Prop :=
  (∀ (s : State) (auth : Bool), s.pins.porst = false → s.serves →
    (s.access.gateLock = false ∨ auth = true → exec (.gateOpen auth) s = .next
      (State.withResult { s with access := { s.access with gateOpen := true } } .done
        [if s.access.gateLock = true then 3 else 1]))
    ∧ (s.access.gateLock = true → exec (.gateOpen false) s = .next
        ((s.withResult .refusedLocked [if s.access.gateOpen = true then 3 else 2]).withEvent { kind := .gateOpenRefused }))
    ∧ exec .gateClose s = .next
        (State.withResult { s with access := { s.access with gateOpen := false } } .done
          [if s.access.gateLock = true then 2 else 0])
    ∧ exec .gateLock s = .next
        (State.withResult { s with access := { s.access with gateLock := true } } .done
          [if s.access.gateOpen = true then 3 else 2]))
  ∧ ∀ s : State, s.pins.porst = false →
      exec .orderlyReset s = .next (s.withResult .done []).orderlyRequest.noteResumes
      ∧ (∃ t, exec .warmReset s = .next t ∧ t.link.store = .stored .done [])

/-- RAW_ERASE in RAW takes PS 0 to 4095, refuses others BAD_PARAM, and while one is held shows that one. A read of the
store gives its code and data and FFh beyond; the first read that returns DONE of a RAW erase delivers it. A malformed
write is answered BAD_PARAM and nothing else, the write of no byte among them (log 53). The bytes sent are kept for
observation (log 31). -/
def Obligations.RawEraseAndTheResultStore : Prop :=
  (∀ (s : State) (ps : BitVec 16), s.pins.porst = false → s.bridge.state = .raw →
    (s.erase.raw = none → ps.toNat ≤ 4095 → exec (.rawErase ps) s = .next { s with
      erase := { s.erase with raw := some ⟨ps.toNat, none⟩ }, link := { s.link with store := .followsRaw } })
    ∧ (s.erase.raw = none → 4095 < ps.toNat → exec (.rawErase ps) s = .next (s.withResult .badParam []))
    ∧ (s.erase.raw ≠ none → exec (.rawErase ps) s = .next { s with link := { s.link with store := .followsRaw } }))
  ∧ (∀ (s : State) (count : Nat), s.pins.porst = false →
      ∀ read, read = (fun bytes : List Byte => (List.range count).map fun i => bytes.getD i 0xFF) →
      (s.link.store = .empty → exec (.resultRead count) s = .next { s with link := { s.link with sent := read [3] } })
      ∧ (∀ code data, s.link.store = .stored code data →
          exec (.resultRead count) s = .next { s with link := { s.link with sent := read (code.byte :: data) } })
      ∧ (∀ ps, s.link.store = .followsRaw → s.erase.raw = some ⟨ps, none⟩ →
          exec (.resultRead count) s = .next { s with link := { s.link with sent := read (4 :: le2 ps) } })
      ∧ (∀ ps o, s.link.store = .followsRaw → s.erase.raw = some ⟨ps, some o⟩ →
          exec (.resultRead count) s = .next { s with
            erase := { s.erase with raw := none }
            link := { s.link with store := .stored .done (le2 ps ++ [o.byte]), sent := read (0 :: (le2 ps ++ [o.byte])) } }))
  ∧ ∀ (s : State) (bytes : List Byte), s.pins.porst = false →
      exec (.malformedWrite bytes) s = .next (s.withResult .badParam [])

/-- The state check: outside SERVICE and RAW the guard and gate commands are refused REFUSED_STATE and change nothing, and
RAW_ERASE outside RAW; under PORST the link takes nothing at all (log 39). -/
def Obligations.LinkCommandsAreRefusedByState : Prop :=
  ∀ (s : State) (c : Instr),
    (s.pins.porst = false → ¬ s.serves →
      (∃ slot first last mode lock, c = .guardSet slot first last mode lock) ∨ (∃ slot, c = .guardRead slot)
        ∨ (∃ auth, c = .gateOpen auth) ∨ c = .gateClose ∨ c = .gateLock →
      exec c s = .next (s.withResult .refusedState []))
    ∧ (s.pins.porst = false → s.bridge.state ≠ .raw → ∀ ps, c = .rawErase ps →
      exec c s = .next (s.withResult .refusedState []))
    ∧ (s.pins.porst = true → (∃ b, encodeLinkWrite c = some b) ∨ (∃ n, c = .resultRead n) → exec c s = .next s)

/-- The link's frames and their travel on the two wires. The command decoded from the bytes of a well-formed command's write is
that command, with every parameter at every value; AUTH is not in the frame (logs 6 and 30), and a write of no byte is a
malformed one (log 53). On the wires every byte goes most significant bit first. After a START the link acknowledges its own
address, 2Ch plus the straps; a write's bytes are acknowledged one by one, and its STOP or repeated START carries out the
command they spell; a read sends the bytes of RESULT_READ until the controller does not acknowledge one. Another address, or
any under PORST, is not acknowledged and changes nothing. SCL may be held low within the acknowledge bit of a byte received
alone. That the address byte is one of these is the model's reading (log 66). -/
def Obligations.LinkWritesDecodeToTheirCommand : Prop :=
  (∀ (i : Instr) (bytes : List Byte) (auth : Bool), i.wellFormed = true → encodeLinkWrite i = some bytes →
    (∀ a, i = .gateOpen a → a = auth) → decodeLinkWrite auth bytes = i)
  ∧ (∀ (s : State) (auth : Bool) (at_ : LinkFrame → State) (send : Byte → List LinkWire) (taken : List Bool),
    (∀ bytes bits, s.link.frame ≠ .writing bytes bits) → (∀ bytes, s.link.frame ≠ .writeAck bytes) →
    at_ = (fun f => { s with link := { s.link with frame := f } }) →
    send = (fun b => ([7, 6, 5, 4, 3, 2, 1, 0] : List Nat).map fun i => .clock (b.getLsbD i)) →
    taken = List.replicate 8 true ++ [false] →
    (∀ own : Byte, s.pins.porst = false → own.toNat = 2 * (0x2C + s.link.straps.toNat) →
      (∀ (bytes : List Byte) (last : LinkWire) (f : LinkFrame),
        (last = .stop ∧ f = .idle) ∨ (last = .start ∧ f = .address []) →
        ∃ t, exec (decodeLinkWrite auth bytes) (at_ f) = .next t
          ∧ s.linkRun auth (.start :: (send own ++ [.clock true] ++ (bytes.flatMap fun b => send b ++ [.clock true]) ++ [last]))
            = (t, taken ++ bytes.flatMap fun _ => taken))
      ∧ (∀ count, 1 ≤ count → ∃ t, exec (.resultRead count) (at_ .idle) = .next t
        ∧ s.linkRun auth (.start :: (send (own + 1) ++ [.clock true] ++ (List.range count).flatMap fun i =>
            List.replicate 8 (.clock true) ++ [.clock (decide (i + 1 = count))]))
          = (t, taken ++ (List.range count).flatMap fun i =>
              ([7, 6, 5, 4, 3, 2, 1, 0] : List Nat).map (t.link.sent.getD i 0).getLsbD ++ [true])))
    ∧ (∀ (byte : Byte) (levels : List Bool), s.pins.porst = true ∨ byte.toNat / 2 ≠ 0x2C + s.link.straps.toNat →
      s.linkRun auth (.start :: (send byte ++ levels.map .clock ++ [.stop]))
        = (at_ .idle, List.replicate (8 + levels.length) true)))
  ∧ ∀ s : State, s.linkMayHoldScl = true ↔ (∃ read, s.link.frame = .addressAck read) ∨ ∃ bytes, s.link.frame = .writeAck bytes

/-! ## What every step keeps -/

/-- Law 12: a locked guard slot keeps its range, mode and lock, and the gate lock stays set, under every command but
PORST_ASSERT, which clears both; a GUARD_SET on a locked slot is refused. The slot is locked by a GUARD_SET that names
lock, the gate lock by GATE_LOCK; the gate state still changes under the lock. -/
def Obligations.LocksHoldUntilPowerOnReset : Prop :=
  (∀ (c : Instr) (s t : State) (i : Fin 4), c ≠ .porstAssert → exec c s = .next t →
    ((s.access.guards[i]).lock = true → t.access.guards[i] = s.access.guards[i])
    ∧ (s.access.gateLock = true → t.access.gateLock = true))
  ∧ (∀ (s : State) (i : Fin 4), ∃ t, exec .porstAssert s = .next t ∧ (t.access.guards[i]).lock = false
      ∧ t.access.gateLock = false)
  ∧ (∀ (s : State) (slot : Byte) (first last : BitVec 16) (m : GuardMode) (lock : Byte) (i : Fin 4),
      s.pins.porst = false → s.serves → slot.toNat = i.val →
      ((s.access.guards[i]).lock = true →
        exec (.guardSet slot first last m.byte lock) s = .next (s.withResult .refusedLocked []))
      ∧ ((s.access.guards[i]).lock = false → first.toNat ≤ last.toNat →
          last.toNat < (if s.bridge.state = .raw then 4096 else s.settings.windowSectors) → lock.getLsbD 0 = true →
          ∃ t, exec (.guardSet slot first last m.byte lock) s = .next t ∧
            t.access.guards[i] = ⟨first.toNat, last.toNat, m, true⟩))
  ∧ (∀ s : State, s.pins.porst = false → s.serves →
      (∃ t, exec .gateLock s = .next t ∧ t.access.gateLock = true ∧ t.access.gateOpen = s.access.gateOpen)
      ∧ (∃ t, exec .gateClose s = .next t ∧ t.access.gateOpen = false ∧ t.access.gateLock = s.access.gateLock)
      ∧ (∃ t, exec (.gateOpen true) s = .next t ∧ t.access.gateOpen = true ∧ t.access.gateLock = s.access.gateLock))
  ∧ ∀ (s : State) (kind : ResetKind), (s.enterReset kind).access.gateOpen = false

/-- The state after reset keeps the laws of State.lawful: law 11 of the Event Queue and Notice, law 10 of the request
port, laws 8 and 9 of the Flash Bus Engine, law 4 of the Write-Combining Buffer, the keys of cache and fills, the reset
lines and what RESET leaves (discarded values by log 7, pins by log 4). The Sector Map's laws are stated in
SectorsMoveBetweenClasses. -/
def Obligations.ResetStateIsLawful : Prop := State.reset.lawful

/-- Every step keeps the laws of State.lawful: at most 16 event records and ARMED only with none (law 11); at most 32
requests, no tag twice, each answered one once in the answer queue (law 10); at most 32 cached lines with no key twice;
burst and suspension budgets (law 9); in each device at most the one program or erase of its state, a suspended erase
counted, and on the bus none but that of a device that has left READY for it (law 8); no line in two buffer entries and at
most H + 1 of them (law 4); the reset lines and what RESET leaves (values that RESET discards by log 7). The Sector Map's
laws are not among them: SectorsMoveBetweenClasses states them move by move. -/
def Obligations.EveryStepKeepsTheLaws : Prop := ∀ s t : State, s.lawful → step s = .next t → t.lawful
end

