-- ==== Sys2Proof/Laws/State.lean ====
section
/-! SUPPORT. One lemma for each field under each update of State, all by rfl. -/

namespace Sys2Proof.Machine

@[simp] theorem State.setPins_pins (s : State) (x : Pins) : (s.setPins x).pins = x := rfl
@[simp] theorem State.setPins_bridge (s : State) (x : Pins) : (s.setPins x).bridge = s.bridge := rfl
@[simp] theorem State.setPins_settings (s : State) (x : Pins) : (s.setPins x).settings = s.settings := rfl
@[simp] theorem State.setPins_port (s : State) (x : Pins) : (s.setPins x).port = s.port := rfl
@[simp] theorem State.setPins_access (s : State) (x : Pins) : (s.setPins x).access = s.access := rfl
@[simp] theorem State.setPins_wcb (s : State) (x : Pins) : (s.setPins x).wcb = s.wcb := rfl
@[simp] theorem State.setPins_reads (s : State) (x : Pins) : (s.setPins x).reads = s.reads := rfl
@[simp] theorem State.setPins_commit (s : State) (x : Pins) : (s.setPins x).commit = s.commit := rfl
@[simp] theorem State.setPins_map (s : State) (x : Pins) : (s.setPins x).map = s.map := rfl
@[simp] theorem State.setPins_bus (s : State) (x : Pins) : (s.setPins x).bus = s.bus := rfl
@[simp] theorem State.setPins_erase (s : State) (x : Pins) : (s.setPins x).erase = s.erase := rfl
@[simp] theorem State.setPins_journal (s : State) (x : Pins) : (s.setPins x).journal = s.journal := rfl
@[simp] theorem State.setPins_link (s : State) (x : Pins) : (s.setPins x).link = s.link := rfl
@[simp] theorem State.setPins_events (s : State) (x : Pins) : (s.setPins x).events = s.events := rfl
@[simp] theorem State.setPins_free (s : State) (x : Pins) : (s.setPins x).free = s.free := rfl
@[simp] theorem State.setPins_pending (s : State) (x : Pins) : (s.setPins x).pending = s.pending := rfl

@[simp] theorem State.setBridge_pins (s : State) (x : Bridge) : (s.setBridge x).pins = s.pins := rfl
@[simp] theorem State.setBridge_bridge (s : State) (x : Bridge) : (s.setBridge x).bridge = x := rfl
@[simp] theorem State.setBridge_settings (s : State) (x : Bridge) : (s.setBridge x).settings = s.settings := rfl
@[simp] theorem State.setBridge_port (s : State) (x : Bridge) : (s.setBridge x).port = s.port := rfl
@[simp] theorem State.setBridge_access (s : State) (x : Bridge) : (s.setBridge x).access = s.access := rfl
@[simp] theorem State.setBridge_wcb (s : State) (x : Bridge) : (s.setBridge x).wcb = s.wcb := rfl
@[simp] theorem State.setBridge_reads (s : State) (x : Bridge) : (s.setBridge x).reads = s.reads := rfl
@[simp] theorem State.setBridge_commit (s : State) (x : Bridge) : (s.setBridge x).commit = s.commit := rfl
@[simp] theorem State.setBridge_map (s : State) (x : Bridge) : (s.setBridge x).map = s.map := rfl
@[simp] theorem State.setBridge_bus (s : State) (x : Bridge) : (s.setBridge x).bus = s.bus := rfl
@[simp] theorem State.setBridge_erase (s : State) (x : Bridge) : (s.setBridge x).erase = s.erase := rfl
@[simp] theorem State.setBridge_journal (s : State) (x : Bridge) : (s.setBridge x).journal = s.journal := rfl
@[simp] theorem State.setBridge_link (s : State) (x : Bridge) : (s.setBridge x).link = s.link := rfl
@[simp] theorem State.setBridge_events (s : State) (x : Bridge) : (s.setBridge x).events = s.events := rfl
@[simp] theorem State.setBridge_free (s : State) (x : Bridge) : (s.setBridge x).free = s.free := rfl
@[simp] theorem State.setBridge_pending (s : State) (x : Bridge) : (s.setBridge x).pending = s.pending := rfl

@[simp] theorem State.setSettings_pins (s : State) (x : Settings) : (s.setSettings x).pins = s.pins := rfl
@[simp] theorem State.setSettings_bridge (s : State) (x : Settings) : (s.setSettings x).bridge = s.bridge := rfl
@[simp] theorem State.setSettings_settings (s : State) (x : Settings) : (s.setSettings x).settings = x := rfl
@[simp] theorem State.setSettings_port (s : State) (x : Settings) : (s.setSettings x).port = s.port := rfl
@[simp] theorem State.setSettings_access (s : State) (x : Settings) : (s.setSettings x).access = s.access := rfl
@[simp] theorem State.setSettings_wcb (s : State) (x : Settings) : (s.setSettings x).wcb = s.wcb := rfl
@[simp] theorem State.setSettings_reads (s : State) (x : Settings) : (s.setSettings x).reads = s.reads := rfl
@[simp] theorem State.setSettings_commit (s : State) (x : Settings) : (s.setSettings x).commit = s.commit := rfl
@[simp] theorem State.setSettings_map (s : State) (x : Settings) : (s.setSettings x).map = s.map := rfl
@[simp] theorem State.setSettings_bus (s : State) (x : Settings) : (s.setSettings x).bus = s.bus := rfl
@[simp] theorem State.setSettings_erase (s : State) (x : Settings) : (s.setSettings x).erase = s.erase := rfl
@[simp] theorem State.setSettings_journal (s : State) (x : Settings) : (s.setSettings x).journal = s.journal := rfl
@[simp] theorem State.setSettings_link (s : State) (x : Settings) : (s.setSettings x).link = s.link := rfl
@[simp] theorem State.setSettings_events (s : State) (x : Settings) : (s.setSettings x).events = s.events := rfl
@[simp] theorem State.setSettings_free (s : State) (x : Settings) : (s.setSettings x).free = s.free := rfl
@[simp] theorem State.setSettings_pending (s : State) (x : Settings) : (s.setSettings x).pending = s.pending := rfl

@[simp] theorem State.setPort_pins (s : State) (x : Port) : (s.setPort x).pins = s.pins := rfl
@[simp] theorem State.setPort_bridge (s : State) (x : Port) : (s.setPort x).bridge = s.bridge := rfl
@[simp] theorem State.setPort_settings (s : State) (x : Port) : (s.setPort x).settings = s.settings := rfl
@[simp] theorem State.setPort_port (s : State) (x : Port) : (s.setPort x).port = x := rfl
@[simp] theorem State.setPort_access (s : State) (x : Port) : (s.setPort x).access = s.access := rfl
@[simp] theorem State.setPort_wcb (s : State) (x : Port) : (s.setPort x).wcb = s.wcb := rfl
@[simp] theorem State.setPort_reads (s : State) (x : Port) : (s.setPort x).reads = s.reads := rfl
@[simp] theorem State.setPort_commit (s : State) (x : Port) : (s.setPort x).commit = s.commit := rfl
@[simp] theorem State.setPort_map (s : State) (x : Port) : (s.setPort x).map = s.map := rfl
@[simp] theorem State.setPort_bus (s : State) (x : Port) : (s.setPort x).bus = s.bus := rfl
@[simp] theorem State.setPort_erase (s : State) (x : Port) : (s.setPort x).erase = s.erase := rfl
@[simp] theorem State.setPort_journal (s : State) (x : Port) : (s.setPort x).journal = s.journal := rfl
@[simp] theorem State.setPort_link (s : State) (x : Port) : (s.setPort x).link = s.link := rfl
@[simp] theorem State.setPort_events (s : State) (x : Port) : (s.setPort x).events = s.events := rfl
@[simp] theorem State.setPort_free (s : State) (x : Port) : (s.setPort x).free = s.free := rfl
@[simp] theorem State.setPort_pending (s : State) (x : Port) : (s.setPort x).pending = s.pending := rfl

@[simp] theorem State.setAccess_pins (s : State) (x : Access) : (s.setAccess x).pins = s.pins := rfl
@[simp] theorem State.setAccess_bridge (s : State) (x : Access) : (s.setAccess x).bridge = s.bridge := rfl
@[simp] theorem State.setAccess_settings (s : State) (x : Access) : (s.setAccess x).settings = s.settings := rfl
@[simp] theorem State.setAccess_port (s : State) (x : Access) : (s.setAccess x).port = s.port := rfl
@[simp] theorem State.setAccess_access (s : State) (x : Access) : (s.setAccess x).access = x := rfl
@[simp] theorem State.setAccess_wcb (s : State) (x : Access) : (s.setAccess x).wcb = s.wcb := rfl
@[simp] theorem State.setAccess_reads (s : State) (x : Access) : (s.setAccess x).reads = s.reads := rfl
@[simp] theorem State.setAccess_commit (s : State) (x : Access) : (s.setAccess x).commit = s.commit := rfl
@[simp] theorem State.setAccess_map (s : State) (x : Access) : (s.setAccess x).map = s.map := rfl
@[simp] theorem State.setAccess_bus (s : State) (x : Access) : (s.setAccess x).bus = s.bus := rfl
@[simp] theorem State.setAccess_erase (s : State) (x : Access) : (s.setAccess x).erase = s.erase := rfl
@[simp] theorem State.setAccess_journal (s : State) (x : Access) : (s.setAccess x).journal = s.journal := rfl
@[simp] theorem State.setAccess_link (s : State) (x : Access) : (s.setAccess x).link = s.link := rfl
@[simp] theorem State.setAccess_events (s : State) (x : Access) : (s.setAccess x).events = s.events := rfl
@[simp] theorem State.setAccess_free (s : State) (x : Access) : (s.setAccess x).free = s.free := rfl
@[simp] theorem State.setAccess_pending (s : State) (x : Access) : (s.setAccess x).pending = s.pending := rfl

@[simp] theorem State.setWcb_pins (s : State) (x : Wcb) : (s.setWcb x).pins = s.pins := rfl
@[simp] theorem State.setWcb_bridge (s : State) (x : Wcb) : (s.setWcb x).bridge = s.bridge := rfl
@[simp] theorem State.setWcb_settings (s : State) (x : Wcb) : (s.setWcb x).settings = s.settings := rfl
@[simp] theorem State.setWcb_port (s : State) (x : Wcb) : (s.setWcb x).port = s.port := rfl
@[simp] theorem State.setWcb_access (s : State) (x : Wcb) : (s.setWcb x).access = s.access := rfl
@[simp] theorem State.setWcb_wcb (s : State) (x : Wcb) : (s.setWcb x).wcb = x := rfl
@[simp] theorem State.setWcb_reads (s : State) (x : Wcb) : (s.setWcb x).reads = s.reads := rfl
@[simp] theorem State.setWcb_commit (s : State) (x : Wcb) : (s.setWcb x).commit = s.commit := rfl
@[simp] theorem State.setWcb_map (s : State) (x : Wcb) : (s.setWcb x).map = s.map := rfl
@[simp] theorem State.setWcb_bus (s : State) (x : Wcb) : (s.setWcb x).bus = s.bus := rfl
@[simp] theorem State.setWcb_erase (s : State) (x : Wcb) : (s.setWcb x).erase = s.erase := rfl
@[simp] theorem State.setWcb_journal (s : State) (x : Wcb) : (s.setWcb x).journal = s.journal := rfl
@[simp] theorem State.setWcb_link (s : State) (x : Wcb) : (s.setWcb x).link = s.link := rfl
@[simp] theorem State.setWcb_events (s : State) (x : Wcb) : (s.setWcb x).events = s.events := rfl
@[simp] theorem State.setWcb_free (s : State) (x : Wcb) : (s.setWcb x).free = s.free := rfl
@[simp] theorem State.setWcb_pending (s : State) (x : Wcb) : (s.setWcb x).pending = s.pending := rfl

@[simp] theorem State.setReads_pins (s : State) (x : ReadUnit) : (s.setReads x).pins = s.pins := rfl
@[simp] theorem State.setReads_bridge (s : State) (x : ReadUnit) : (s.setReads x).bridge = s.bridge := rfl
@[simp] theorem State.setReads_settings (s : State) (x : ReadUnit) : (s.setReads x).settings = s.settings := rfl
@[simp] theorem State.setReads_port (s : State) (x : ReadUnit) : (s.setReads x).port = s.port := rfl
@[simp] theorem State.setReads_access (s : State) (x : ReadUnit) : (s.setReads x).access = s.access := rfl
@[simp] theorem State.setReads_wcb (s : State) (x : ReadUnit) : (s.setReads x).wcb = s.wcb := rfl
@[simp] theorem State.setReads_reads (s : State) (x : ReadUnit) : (s.setReads x).reads = x := rfl
@[simp] theorem State.setReads_commit (s : State) (x : ReadUnit) : (s.setReads x).commit = s.commit := rfl
@[simp] theorem State.setReads_map (s : State) (x : ReadUnit) : (s.setReads x).map = s.map := rfl
@[simp] theorem State.setReads_bus (s : State) (x : ReadUnit) : (s.setReads x).bus = s.bus := rfl
@[simp] theorem State.setReads_erase (s : State) (x : ReadUnit) : (s.setReads x).erase = s.erase := rfl
@[simp] theorem State.setReads_journal (s : State) (x : ReadUnit) : (s.setReads x).journal = s.journal := rfl
@[simp] theorem State.setReads_link (s : State) (x : ReadUnit) : (s.setReads x).link = s.link := rfl
@[simp] theorem State.setReads_events (s : State) (x : ReadUnit) : (s.setReads x).events = s.events := rfl
@[simp] theorem State.setReads_free (s : State) (x : ReadUnit) : (s.setReads x).free = s.free := rfl
@[simp] theorem State.setReads_pending (s : State) (x : ReadUnit) : (s.setReads x).pending = s.pending := rfl

@[simp] theorem State.setCommit_pins (s : State) (x : Option CommitRecord) : (s.setCommit x).pins = s.pins := rfl
@[simp] theorem State.setCommit_bridge (s : State) (x : Option CommitRecord) : (s.setCommit x).bridge = s.bridge := rfl
@[simp] theorem State.setCommit_settings (s : State) (x : Option CommitRecord) : (s.setCommit x).settings = s.settings := rfl
@[simp] theorem State.setCommit_port (s : State) (x : Option CommitRecord) : (s.setCommit x).port = s.port := rfl
@[simp] theorem State.setCommit_access (s : State) (x : Option CommitRecord) : (s.setCommit x).access = s.access := rfl
@[simp] theorem State.setCommit_wcb (s : State) (x : Option CommitRecord) : (s.setCommit x).wcb = s.wcb := rfl
@[simp] theorem State.setCommit_reads (s : State) (x : Option CommitRecord) : (s.setCommit x).reads = s.reads := rfl
@[simp] theorem State.setCommit_commit (s : State) (x : Option CommitRecord) : (s.setCommit x).commit = x := rfl
@[simp] theorem State.setCommit_map (s : State) (x : Option CommitRecord) : (s.setCommit x).map = s.map := rfl
@[simp] theorem State.setCommit_bus (s : State) (x : Option CommitRecord) : (s.setCommit x).bus = s.bus := rfl
@[simp] theorem State.setCommit_erase (s : State) (x : Option CommitRecord) : (s.setCommit x).erase = s.erase := rfl
@[simp] theorem State.setCommit_journal (s : State) (x : Option CommitRecord) : (s.setCommit x).journal = s.journal := rfl
@[simp] theorem State.setCommit_link (s : State) (x : Option CommitRecord) : (s.setCommit x).link = s.link := rfl
@[simp] theorem State.setCommit_events (s : State) (x : Option CommitRecord) : (s.setCommit x).events = s.events := rfl
@[simp] theorem State.setCommit_free (s : State) (x : Option CommitRecord) : (s.setCommit x).free = s.free := rfl
@[simp] theorem State.setCommit_pending (s : State) (x : Option CommitRecord) : (s.setCommit x).pending = s.pending := rfl

@[simp] theorem State.setMap_pins (s : State) (x : SectorMap) : (s.setMap x).pins = s.pins := rfl
@[simp] theorem State.setMap_bridge (s : State) (x : SectorMap) : (s.setMap x).bridge = s.bridge := rfl
@[simp] theorem State.setMap_settings (s : State) (x : SectorMap) : (s.setMap x).settings = s.settings := rfl
@[simp] theorem State.setMap_port (s : State) (x : SectorMap) : (s.setMap x).port = s.port := rfl
@[simp] theorem State.setMap_access (s : State) (x : SectorMap) : (s.setMap x).access = s.access := rfl
@[simp] theorem State.setMap_wcb (s : State) (x : SectorMap) : (s.setMap x).wcb = s.wcb := rfl
@[simp] theorem State.setMap_reads (s : State) (x : SectorMap) : (s.setMap x).reads = s.reads := rfl
@[simp] theorem State.setMap_commit (s : State) (x : SectorMap) : (s.setMap x).commit = s.commit := rfl
@[simp] theorem State.setMap_map (s : State) (x : SectorMap) : (s.setMap x).map = x := rfl
@[simp] theorem State.setMap_bus (s : State) (x : SectorMap) : (s.setMap x).bus = s.bus := rfl
@[simp] theorem State.setMap_erase (s : State) (x : SectorMap) : (s.setMap x).erase = s.erase := rfl
@[simp] theorem State.setMap_journal (s : State) (x : SectorMap) : (s.setMap x).journal = s.journal := rfl
@[simp] theorem State.setMap_link (s : State) (x : SectorMap) : (s.setMap x).link = s.link := rfl
@[simp] theorem State.setMap_events (s : State) (x : SectorMap) : (s.setMap x).events = s.events := rfl
@[simp] theorem State.setMap_free (s : State) (x : SectorMap) : (s.setMap x).free = s.free := rfl
@[simp] theorem State.setMap_pending (s : State) (x : SectorMap) : (s.setMap x).pending = s.pending := rfl

@[simp] theorem State.setBus_pins (s : State) (x : FlashBus) : (s.setBus x).pins = s.pins := rfl
@[simp] theorem State.setBus_bridge (s : State) (x : FlashBus) : (s.setBus x).bridge = s.bridge := rfl
@[simp] theorem State.setBus_settings (s : State) (x : FlashBus) : (s.setBus x).settings = s.settings := rfl
@[simp] theorem State.setBus_port (s : State) (x : FlashBus) : (s.setBus x).port = s.port := rfl
@[simp] theorem State.setBus_access (s : State) (x : FlashBus) : (s.setBus x).access = s.access := rfl
@[simp] theorem State.setBus_wcb (s : State) (x : FlashBus) : (s.setBus x).wcb = s.wcb := rfl
@[simp] theorem State.setBus_reads (s : State) (x : FlashBus) : (s.setBus x).reads = s.reads := rfl
@[simp] theorem State.setBus_commit (s : State) (x : FlashBus) : (s.setBus x).commit = s.commit := rfl
@[simp] theorem State.setBus_map (s : State) (x : FlashBus) : (s.setBus x).map = s.map := rfl
@[simp] theorem State.setBus_bus (s : State) (x : FlashBus) : (s.setBus x).bus = x := rfl
@[simp] theorem State.setBus_erase (s : State) (x : FlashBus) : (s.setBus x).erase = s.erase := rfl
@[simp] theorem State.setBus_journal (s : State) (x : FlashBus) : (s.setBus x).journal = s.journal := rfl
@[simp] theorem State.setBus_link (s : State) (x : FlashBus) : (s.setBus x).link = s.link := rfl
@[simp] theorem State.setBus_events (s : State) (x : FlashBus) : (s.setBus x).events = s.events := rfl
@[simp] theorem State.setBus_free (s : State) (x : FlashBus) : (s.setBus x).free = s.free := rfl
@[simp] theorem State.setBus_pending (s : State) (x : FlashBus) : (s.setBus x).pending = s.pending := rfl

@[simp] theorem State.setErase_pins (s : State) (x : EraseEngine) : (s.setErase x).pins = s.pins := rfl
@[simp] theorem State.setErase_bridge (s : State) (x : EraseEngine) : (s.setErase x).bridge = s.bridge := rfl
@[simp] theorem State.setErase_settings (s : State) (x : EraseEngine) : (s.setErase x).settings = s.settings := rfl
@[simp] theorem State.setErase_port (s : State) (x : EraseEngine) : (s.setErase x).port = s.port := rfl
@[simp] theorem State.setErase_access (s : State) (x : EraseEngine) : (s.setErase x).access = s.access := rfl
@[simp] theorem State.setErase_wcb (s : State) (x : EraseEngine) : (s.setErase x).wcb = s.wcb := rfl
@[simp] theorem State.setErase_reads (s : State) (x : EraseEngine) : (s.setErase x).reads = s.reads := rfl
@[simp] theorem State.setErase_commit (s : State) (x : EraseEngine) : (s.setErase x).commit = s.commit := rfl
@[simp] theorem State.setErase_map (s : State) (x : EraseEngine) : (s.setErase x).map = s.map := rfl
@[simp] theorem State.setErase_bus (s : State) (x : EraseEngine) : (s.setErase x).bus = s.bus := rfl
@[simp] theorem State.setErase_erase (s : State) (x : EraseEngine) : (s.setErase x).erase = x := rfl
@[simp] theorem State.setErase_journal (s : State) (x : EraseEngine) : (s.setErase x).journal = s.journal := rfl
@[simp] theorem State.setErase_link (s : State) (x : EraseEngine) : (s.setErase x).link = s.link := rfl
@[simp] theorem State.setErase_events (s : State) (x : EraseEngine) : (s.setErase x).events = s.events := rfl
@[simp] theorem State.setErase_free (s : State) (x : EraseEngine) : (s.setErase x).free = s.free := rfl
@[simp] theorem State.setErase_pending (s : State) (x : EraseEngine) : (s.setErase x).pending = s.pending := rfl

@[simp] theorem State.setJournal_pins (s : State) (x : MapJournal) : (s.setJournal x).pins = s.pins := rfl
@[simp] theorem State.setJournal_bridge (s : State) (x : MapJournal) : (s.setJournal x).bridge = s.bridge := rfl
@[simp] theorem State.setJournal_settings (s : State) (x : MapJournal) : (s.setJournal x).settings = s.settings := rfl
@[simp] theorem State.setJournal_port (s : State) (x : MapJournal) : (s.setJournal x).port = s.port := rfl
@[simp] theorem State.setJournal_access (s : State) (x : MapJournal) : (s.setJournal x).access = s.access := rfl
@[simp] theorem State.setJournal_wcb (s : State) (x : MapJournal) : (s.setJournal x).wcb = s.wcb := rfl
@[simp] theorem State.setJournal_reads (s : State) (x : MapJournal) : (s.setJournal x).reads = s.reads := rfl
@[simp] theorem State.setJournal_commit (s : State) (x : MapJournal) : (s.setJournal x).commit = s.commit := rfl
@[simp] theorem State.setJournal_map (s : State) (x : MapJournal) : (s.setJournal x).map = s.map := rfl
@[simp] theorem State.setJournal_bus (s : State) (x : MapJournal) : (s.setJournal x).bus = s.bus := rfl
@[simp] theorem State.setJournal_erase (s : State) (x : MapJournal) : (s.setJournal x).erase = s.erase := rfl
@[simp] theorem State.setJournal_journal (s : State) (x : MapJournal) : (s.setJournal x).journal = x := rfl
@[simp] theorem State.setJournal_link (s : State) (x : MapJournal) : (s.setJournal x).link = s.link := rfl
@[simp] theorem State.setJournal_events (s : State) (x : MapJournal) : (s.setJournal x).events = s.events := rfl
@[simp] theorem State.setJournal_free (s : State) (x : MapJournal) : (s.setJournal x).free = s.free := rfl
@[simp] theorem State.setJournal_pending (s : State) (x : MapJournal) : (s.setJournal x).pending = s.pending := rfl

@[simp] theorem State.setLink_pins (s : State) (x : Link) : (s.setLink x).pins = s.pins := rfl
@[simp] theorem State.setLink_bridge (s : State) (x : Link) : (s.setLink x).bridge = s.bridge := rfl
@[simp] theorem State.setLink_settings (s : State) (x : Link) : (s.setLink x).settings = s.settings := rfl
@[simp] theorem State.setLink_port (s : State) (x : Link) : (s.setLink x).port = s.port := rfl
@[simp] theorem State.setLink_access (s : State) (x : Link) : (s.setLink x).access = s.access := rfl
@[simp] theorem State.setLink_wcb (s : State) (x : Link) : (s.setLink x).wcb = s.wcb := rfl
@[simp] theorem State.setLink_reads (s : State) (x : Link) : (s.setLink x).reads = s.reads := rfl
@[simp] theorem State.setLink_commit (s : State) (x : Link) : (s.setLink x).commit = s.commit := rfl
@[simp] theorem State.setLink_map (s : State) (x : Link) : (s.setLink x).map = s.map := rfl
@[simp] theorem State.setLink_bus (s : State) (x : Link) : (s.setLink x).bus = s.bus := rfl
@[simp] theorem State.setLink_erase (s : State) (x : Link) : (s.setLink x).erase = s.erase := rfl
@[simp] theorem State.setLink_journal (s : State) (x : Link) : (s.setLink x).journal = s.journal := rfl
@[simp] theorem State.setLink_link (s : State) (x : Link) : (s.setLink x).link = x := rfl
@[simp] theorem State.setLink_events (s : State) (x : Link) : (s.setLink x).events = s.events := rfl
@[simp] theorem State.setLink_free (s : State) (x : Link) : (s.setLink x).free = s.free := rfl
@[simp] theorem State.setLink_pending (s : State) (x : Link) : (s.setLink x).pending = s.pending := rfl

@[simp] theorem State.setEvents_pins (s : State) (x : EventBlock) : (s.setEvents x).pins = s.pins := rfl
@[simp] theorem State.setEvents_bridge (s : State) (x : EventBlock) : (s.setEvents x).bridge = s.bridge := rfl
@[simp] theorem State.setEvents_settings (s : State) (x : EventBlock) : (s.setEvents x).settings = s.settings := rfl
@[simp] theorem State.setEvents_port (s : State) (x : EventBlock) : (s.setEvents x).port = s.port := rfl
@[simp] theorem State.setEvents_access (s : State) (x : EventBlock) : (s.setEvents x).access = s.access := rfl
@[simp] theorem State.setEvents_wcb (s : State) (x : EventBlock) : (s.setEvents x).wcb = s.wcb := rfl
@[simp] theorem State.setEvents_reads (s : State) (x : EventBlock) : (s.setEvents x).reads = s.reads := rfl
@[simp] theorem State.setEvents_commit (s : State) (x : EventBlock) : (s.setEvents x).commit = s.commit := rfl
@[simp] theorem State.setEvents_map (s : State) (x : EventBlock) : (s.setEvents x).map = s.map := rfl
@[simp] theorem State.setEvents_bus (s : State) (x : EventBlock) : (s.setEvents x).bus = s.bus := rfl
@[simp] theorem State.setEvents_erase (s : State) (x : EventBlock) : (s.setEvents x).erase = s.erase := rfl
@[simp] theorem State.setEvents_journal (s : State) (x : EventBlock) : (s.setEvents x).journal = s.journal := rfl
@[simp] theorem State.setEvents_link (s : State) (x : EventBlock) : (s.setEvents x).link = s.link := rfl
@[simp] theorem State.setEvents_events (s : State) (x : EventBlock) : (s.setEvents x).events = x := rfl
@[simp] theorem State.setEvents_free (s : State) (x : EventBlock) : (s.setEvents x).free = s.free := rfl
@[simp] theorem State.setEvents_pending (s : State) (x : EventBlock) : (s.setEvents x).pending = s.pending := rfl

@[simp] theorem State.setFree_pins (s : State) (x : Nat) : (s.setFree x).pins = s.pins := rfl
@[simp] theorem State.setFree_bridge (s : State) (x : Nat) : (s.setFree x).bridge = s.bridge := rfl
@[simp] theorem State.setFree_settings (s : State) (x : Nat) : (s.setFree x).settings = s.settings := rfl
@[simp] theorem State.setFree_port (s : State) (x : Nat) : (s.setFree x).port = s.port := rfl
@[simp] theorem State.setFree_access (s : State) (x : Nat) : (s.setFree x).access = s.access := rfl
@[simp] theorem State.setFree_wcb (s : State) (x : Nat) : (s.setFree x).wcb = s.wcb := rfl
@[simp] theorem State.setFree_reads (s : State) (x : Nat) : (s.setFree x).reads = s.reads := rfl
@[simp] theorem State.setFree_commit (s : State) (x : Nat) : (s.setFree x).commit = s.commit := rfl
@[simp] theorem State.setFree_map (s : State) (x : Nat) : (s.setFree x).map = s.map := rfl
@[simp] theorem State.setFree_bus (s : State) (x : Nat) : (s.setFree x).bus = s.bus := rfl
@[simp] theorem State.setFree_erase (s : State) (x : Nat) : (s.setFree x).erase = s.erase := rfl
@[simp] theorem State.setFree_journal (s : State) (x : Nat) : (s.setFree x).journal = s.journal := rfl
@[simp] theorem State.setFree_link (s : State) (x : Nat) : (s.setFree x).link = s.link := rfl
@[simp] theorem State.setFree_events (s : State) (x : Nat) : (s.setFree x).events = s.events := rfl
@[simp] theorem State.setFree_free (s : State) (x : Nat) : (s.setFree x).free = x := rfl
@[simp] theorem State.setFree_pending (s : State) (x : Nat) : (s.setFree x).pending = s.pending := rfl

@[simp] theorem State.setPending_pins (s : State) (x : List Instr) : (s.setPending x).pins = s.pins := rfl
@[simp] theorem State.setPending_bridge (s : State) (x : List Instr) : (s.setPending x).bridge = s.bridge := rfl
@[simp] theorem State.setPending_settings (s : State) (x : List Instr) : (s.setPending x).settings = s.settings := rfl
@[simp] theorem State.setPending_port (s : State) (x : List Instr) : (s.setPending x).port = s.port := rfl
@[simp] theorem State.setPending_access (s : State) (x : List Instr) : (s.setPending x).access = s.access := rfl
@[simp] theorem State.setPending_wcb (s : State) (x : List Instr) : (s.setPending x).wcb = s.wcb := rfl
@[simp] theorem State.setPending_reads (s : State) (x : List Instr) : (s.setPending x).reads = s.reads := rfl
@[simp] theorem State.setPending_commit (s : State) (x : List Instr) : (s.setPending x).commit = s.commit := rfl
@[simp] theorem State.setPending_map (s : State) (x : List Instr) : (s.setPending x).map = s.map := rfl
@[simp] theorem State.setPending_bus (s : State) (x : List Instr) : (s.setPending x).bus = s.bus := rfl
@[simp] theorem State.setPending_erase (s : State) (x : List Instr) : (s.setPending x).erase = s.erase := rfl
@[simp] theorem State.setPending_journal (s : State) (x : List Instr) : (s.setPending x).journal = s.journal := rfl
@[simp] theorem State.setPending_link (s : State) (x : List Instr) : (s.setPending x).link = s.link := rfl
@[simp] theorem State.setPending_events (s : State) (x : List Instr) : (s.setPending x).events = s.events := rfl
@[simp] theorem State.setPending_free (s : State) (x : List Instr) : (s.setPending x).free = s.free := rfl
@[simp] theorem State.setPending_pending (s : State) (x : List Instr) : (s.setPending x).pending = x := rfl

end Sys2Proof.Machine
end

