-- ==== Sys2Proof/Laws/Keeps.lean ====
section
/-! SUPPORT. What the shared operations keep: one relation between a state and a later one, with a lemma for each update and
each elementary operation. The lemmas of the stages stand in KeepsStages.lean. -/

namespace Sys2Proof.Machine

/-- Everything that the operations below the commands keep. -/
structure Keeps (s t : State) : Prop where
  pins : t.pins = s.pins
  pending : t.pending = s.pending
  lock : t.access.gateLock = s.access.gateLock
  guards : t.access.guards = s.access.guards
  on : s.bridge.state ≠ .reset → t.bridge.state ≠ .reset
  events : s.events.wf → t.events.wf
  port : s.port.wf → t.port.wf
  reads : s.reads.wf → t.reads.wf
  bus : s.bus.wf → t.bus.wf
  wcb : s.wcbWf → t.wcbWf

variable {s t u : State}

theorem Keeps.refl (s : State) : Keeps s s := ⟨rfl, rfl, rfl, rfl, id, id, id, id, id, id⟩

theorem Keeps.trans (h : Keeps s t) (k : Keeps t u) : Keeps s u :=
  ⟨k.pins.trans h.pins, k.pending.trans h.pending, k.lock.trans h.lock, k.guards.trans h.guards,
    fun x => k.on (h.on x), fun x => k.events (h.events x), fun x => k.port (h.port x), fun x => k.reads (h.reads x),
    fun x => k.bus (h.bus x), fun x => k.wcb (h.wcb x)⟩

/-! ## Updates that bear on nothing kept -/

theorem Keeps.setCommit {x} (h : Keeps s t) : Keeps s (t.setCommit x) :=
  h.trans ⟨rfl, rfl, rfl, rfl, id, id, id, id, id, id⟩
theorem Keeps.setMap {x} (h : Keeps s t) : Keeps s (t.setMap x) :=
  h.trans ⟨rfl, rfl, rfl, rfl, id, id, id, id, id, id⟩
theorem Keeps.setErase {x} (h : Keeps s t) : Keeps s (t.setErase x) :=
  h.trans ⟨rfl, rfl, rfl, rfl, id, id, id, id, id, id⟩
theorem Keeps.setJournal {x} (h : Keeps s t) : Keeps s (t.setJournal x) :=
  h.trans ⟨rfl, rfl, rfl, rfl, id, id, id, id, id, id⟩
theorem Keeps.setLink {x} (h : Keeps s t) : Keeps s (t.setLink x) :=
  h.trans ⟨rfl, rfl, rfl, rfl, id, id, id, id, id, id⟩
theorem Keeps.setFree {x} (h : Keeps s t) : Keeps s (t.setFree x) :=
  h.trans ⟨rfl, rfl, rfl, rfl, id, id, id, id, id, id⟩

/-! ## Updates of a block that keeps its law -/

theorem Keeps.setEvents {x} (h : Keeps s t) (k : t.events.wf → x.wf) : Keeps s (t.setEvents x) :=
  h.trans ⟨rfl, rfl, rfl, rfl, id, k, id, id, id, id⟩
theorem Keeps.setPort {x} (h : Keeps s t) (k : t.port.wf → x.wf) : Keeps s (t.setPort x) :=
  h.trans ⟨rfl, rfl, rfl, rfl, id, id, k, id, id, id⟩
theorem Keeps.setReads {x} (h : Keeps s t) (k : t.reads.wf → x.wf) : Keeps s (t.setReads x) :=
  h.trans ⟨rfl, rfl, rfl, rfl, id, id, id, k, id, id⟩
theorem Keeps.setBus {x} (h : Keeps s t) (k : t.bus.wf → x.wf) : Keeps s (t.setBus x) :=
  h.trans ⟨rfl, rfl, rfl, rfl, id, id, id, id, k, id⟩
/-- The bus's budgets may rest on those of the first state. -/
theorem Keeps.setBusOf {x} (h : Keeps s t) (k : s.bus.wf → x.wf) : Keeps s (t.setBus x) :=
  ⟨h.pins, h.pending, h.lock, h.guards, h.on, h.events, h.port, h.reads, k, h.wcb⟩
theorem Keeps.setWcb {x} (h : Keeps s t) (k : t.wcbWf → (t.setWcb x).wcbWf) : Keeps s (t.setWcb x) :=
  h.trans ⟨rfl, rfl, rfl, rfl, id, id, id, id, id, k⟩

/-- A move of the Bridge Controller that does not enter RESET, does not go back to LOAD or REBUILD, and needs no settings
that were not in force. -/
theorem Keeps.setBridge {x} (h : Keeps s t) (ho : x.state ≠ .reset) (he : x.state.early = true → t.bridge.state.early = true)
    (hs : x.hasSettings = true → t.bridge.hasSettings = true) : Keeps s (t.setBridge x) :=
  h.trans ⟨rfl, rfl, rfl, rfl, fun _ => ho, id, id, id, id, fun w =>
    ⟨w.1, fun e => w.2.1 (he e), fun e => w.2.2 (hs e)⟩⟩

/-! ## Events -/

theorem bumpYoungest_length (l : List EventRecord) : (bumpYoungest l).length = l.length := by
  induction l with
  | nil => rfl
  | cons x l ih =>
    cases l with
    | nil => rfl
    | cons y l => simpa [bumpYoungest] using ih

theorem bumpYoungest_dropped (l : List EventRecord) (h : ∀ r ∈ l, r.dropped ≤ 255) :
    ∀ r ∈ bumpYoungest l, r.dropped ≤ 255 := by
  induction l with
  | nil => simp [bumpYoungest]
  | cons x l ih =>
    cases l with
    | nil =>
      intro r hr
      simp only [bumpYoungest, List.mem_singleton] at hr
      subst hr
      exact Nat.min_le_left _ _
    | cons y l =>
      intro r hr
      simp only [bumpYoungest, List.mem_cons] at hr
      rcases hr with rfl | hr
      · exact h _ (by simp)
      · exact ih (fun q hq => h q (List.mem_cons_of_mem _ hq)) r (by simpa [bumpYoungest] using hr)

/-- Receipt of an event keeps law 11. -/
theorem EventBlock.receive_wf (e : EventBlock) (b : EventBody) (h : e.wf) : (e.receive b).wf := by
  obtain ⟨h1, h2, h3⟩ := h
  refine ⟨?_, ?_, ?_⟩
  · by_cases hc : e.queue.length < 16
    · simp only [EventBlock.receive, Config.eventMax, hc, if_true, List.length_append, List.length_singleton]
      omega
    · simp only [EventBlock.receive, Config.eventMax, hc, if_false, bumpYoungest_length]
      exact h1
  · simp only [EventBlock.receive]
    split
    · intro r hr
      rcases List.mem_append.1 hr with hr | hr
      · exact h2 r hr
      · simp only [List.mem_singleton] at hr
        subst hr
        exact Nat.zero_le _
    · exact bumpYoungest_dropped _ h2
  · intro h; simp [EventBlock.receive] at h

theorem Keeps.raise {b} (h : Keeps s t) : Keeps s (t.raise b) := h.setEvents (EventBlock.receive_wf _ _)

theorem Keeps.raiseOpt {b} (h : Keeps s t) : Keeps s (t.raiseOpt b) := by
  cases b with
  | none => exact h
  | some b => exact h.raise

theorem receiveAll_wf (l : List EventBody) (e : EventBlock) (h : e.wf) : (l.foldl EventBlock.receive e).wf := by
  induction l generalizing e with
  | nil => exact h
  | cons b l ih => exact ih _ (EventBlock.receive_wf e b h)

/-! ## Answers -/

/-- An answer given keeps law 10. -/
theorem Port.answer_wf (p : Port) (id : Tag) (st : Status) (d : List Byte) (h : p.wf) : (p.answer id st d).wf := by
  obtain ⟨h1, h2, h3, h4, h5⟩ := h
  unfold Port.answer
  split
  case isFalse => exact ⟨h1, h2, h3, h4, h5⟩
  case isTrue hw =>
    obtain ⟨e, he, hid⟩ := List.any_eq_true.1 hw
    simp only [Bool.and_eq_true, beq_iff_eq, PendEntry.isWaiting] at hid
    have hids : (p.pending.map fun e =>
        if e.id == id && e.isWaiting then { e with phase := .answered st d } else e).map PendEntry.id
          = p.pending.map PendEntry.id := by
      rw [List.map_map]
      apply List.map_congr_left
      intro x _
      simp only [Function.comp]
      split <;> rfl
    have huniq : ∀ x ∈ p.pending, x.id = id → x = e := fun x hx hxi =>
      List.inj_on_of_nodup_map h2 hx he (hxi.trans hid.1.symm)
    have hnot : AnswerRef.entry id ∉ p.answers := by
      intro hm
      obtain ⟨x, hx, hxi, hxp⟩ := (h4 id).1 hm
      rw [huniq x hx hxi] at hxp
      exact hxp hid.2
    refine ⟨by simpa using h1, by rw [hids]; exact h2, ?_, ?_, ?_⟩
    · simp [List.nodup_append, h3]
      intro a ha hc
      exact hnot (hc ▸ ha)
    · intro i
      simp only [List.mem_append, List.mem_singleton, List.mem_map]
      constructor
      · rintro (hm | hm)
        · obtain ⟨x, hx, hxi, hxp⟩ := (h4 i).1 hm
          refine ⟨_, ⟨x, hx, rfl⟩, ?_⟩
          split
          · exact ⟨hxi, by simp⟩
          · exact ⟨hxi, hxp⟩
        · injection hm with hm
          subst hm
          refine ⟨_, ⟨e, he, rfl⟩, ?_⟩
          simp [hid.1, PendEntry.isWaiting, hid.2]
      · rintro ⟨y, ⟨x, hx, rfl⟩, hy⟩
        by_cases hc : (x.id == id && x.isWaiting) = true
        · simp only [hc, if_true] at hy
          right
          simp only [Bool.and_eq_true, beq_iff_eq] at hc
          rw [← hy.1, hc.1]
        · simp only [hc] at hy
          exact Or.inl ((h4 i).2 ⟨x, hx, hy⟩)
    · simpa using h5

theorem Keeps.answer {id st d} (h : Keeps s t) : Keeps s (t.answer id st d) := h.setPort (Port.answer_wf _ _ _ _)

theorem Keeps.answerInOrder {l} (h : Keeps s t) : Keeps s (t.answerInOrder l) := by
  unfold State.answerInOrder
  induction l generalizing t with
  | nil => exact h
  | cons r l ih => exact ih h.answer

theorem Keeps.answerTogether {l} (h : Keeps s t) : Keeps s (t.answerTogether l) := by
  unfold State.answerTogether
  exact h.answerInOrder.setFree

end Sys2Proof.Machine
end

