-- ==== Sys2Proof/Laws/Blocks.lean ====
section
/-! SUPPORT. The operations of the buffer, the line cache and fill list, the port and the device records keep the laws of
their blocks. -/

namespace Sys2Proof.Machine

variable {s t : State}

/-! ## Write-Combining Buffer -/

theorem Wcb.noteFailure_keys (w : Wcb) (r : CommitResult) :
    (w.noteFailure r).entries.map Entry.key = w.entries.map Entry.key := by
  unfold Wcb.noteFailure
  rw [List.map_map]
  apply List.map_congr_left
  intro e _
  simp only [Function.comp]
  split <;> rfl

theorem Wcb.capture_keys (w : Wcb) (sector : Nat) :
    (w.capture sector).entries.map Entry.key = w.entries.map Entry.key := by
  unfold Wcb.capture
  rw [List.map_map]
  apply List.map_congr_left
  intro e _
  simp only [Function.comp]
  split <;> rfl

/-- The entries after a completion are some of those before it, each under its key. -/
theorem Wcb.complete_keys (w : Wcb) (highMark : Nat) (r : CommitResult) :
    ((w.complete highMark r).entries.map Entry.key).Subperm (w.entries.map Entry.key) := by
  have h : (w.complete highMark r).entries.map Entry.key
      = (w.entries.filter Entry.isOpen ++ w.committing.filter fun e => e.dirty != 0).map Entry.key := by
    simp only [Wcb.complete, Wcb.settle, List.map_append, List.map_map]
    rfl
  rw [h]
  have hs : (w.entries.filter Entry.isOpen ++ w.committing.filter fun e => e.dirty != 0).Subperm w.entries :=
    List.Subperm.trans (List.Sublist.append_left List.filter_sublist _).subperm
      (List.filter_append_perm Entry.isOpen w.entries).subperm
  obtain ⟨l, hp, hl⟩ := hs
  exact ⟨l.map Entry.key, hp.map _, hl.map _⟩

/-- A completion keeps law 4 (R58, R60, R66). -/
theorem Wcb.complete_wf (w : Wcb) (highMark : Nat) (r : CommitResult) (h : w.wf highMark) :
    (w.complete highMark r).wf highMark := by
  obtain ⟨h1, h2, h3, h4⟩ := h
  have hs := Wcb.complete_keys w highMark r
  have hn : ((w.complete highMark r).entries.map Entry.key).Nodup := by
    obtain ⟨l, hp, hl⟩ := hs
    exact hp.nodup_iff.1 (hl.nodup h1)
  have hl : (w.complete highMark r).occupancy ≤ w.occupancy := by
    simpa [Wcb.occupancy] using hs.length_le
  have hh : (w.complete highMark r).hold
      = (w.hold && decide (highMark < (w.complete highMark r).occupancy + 2)) := rfl
  have hg : (w.complete highMark r).grace = w.grace := rfl
  refine ⟨hn, by omega, ?_, ?_⟩
  · intro hf
    rw [hh] at hf
    cases hw : w.hold with
    | false => rcases h3 hw with h | h <;> omega
    | true =>
      rw [hw] at hf
      simp at hf
      omega
  · intro ht hgt
    rw [hh] at ht
    rw [hg] at hgt
    simp only [Bool.and_eq_true] at ht
    have := h4 ht.1 hgt
    omega

theorem Wcb.noteFailure_wf (w : Wcb) (highMark : Nat) (r : CommitResult) (h : w.wf highMark) :
    (w.noteFailure r).wf highMark := by
  obtain ⟨h1, h2, h3, h4⟩ := h
  have ho : (w.noteFailure r).occupancy = w.occupancy := by simp [Wcb.occupancy, Wcb.noteFailure]
  exact ⟨by rw [Wcb.noteFailure_keys]; exact h1, by rw [ho]; exact h2, by rw [ho]; exact h3, by rw [ho]; exact h4⟩

theorem Wcb.capture_wf (w : Wcb) (highMark sector : Nat) (h : w.wf highMark) : (w.capture sector).wf highMark := by
  obtain ⟨h1, h2, h3, h4⟩ := h
  have ho : (w.capture sector).occupancy = w.occupancy := by simp [Wcb.occupancy, Wcb.capture]
  exact ⟨by rw [Wcb.capture_keys]; exact h1, by rw [ho]; exact h2, by rw [ho]; exact h3, by rw [ho]; exact h4⟩

theorem Keeps.setWcbOf {x} (h : Keeps s t) (k : ∀ H, t.wcb.wf H → x.wf H)
    (e : t.wcb.entries = [] → t.wcb.hold = false → x.entries = [] ∧ x.hold = false) : Keeps s (t.setWcb x) :=
  h.setWcb fun w => ⟨k _ w.1, fun he => e (w.2.1 he).1 (w.2.1 he).2, w.2.2⟩

theorem Keeps.capture {sector} (h : Keeps s t) : Keeps s (t.setWcb (t.wcb.capture sector)) :=
  h.setWcbOf (fun _ => Wcb.capture_wf _ _ _) (fun e k => ⟨by simp [Wcb.capture, e], k⟩)

theorem Keeps.lingers (h : Keeps s t) : Keeps s (t.setWcb t.wcb.lingers) := by
  unfold Wcb.lingers
  split
  · exact h.setWcbOf (fun _ w => w) (fun e k => ⟨e, k⟩)
  · exact h.setWcbOf (fun _ w => w) (fun e k => ⟨e, k⟩)

/-- The Commit Engine's report keeps everything (R66, R71). -/
theorem Keeps.completeCommit {r} (h : Keeps s t) : Keeps s (t.completeCommit r).1 := by
  unfold State.completeCommit
  split
  · exact h
  · refine Keeps.answerTogether (h.setWcb fun w => ⟨?_, ?_, w.2.2⟩)
    · exact Wcb.complete_wf _ _ _ (Wcb.noteFailure_wf _ _ _ w.1)
    · intro he
      obtain ⟨e1, e2⟩ := w.2.1 he
      constructor
      · simp [Wcb.complete, Wcb.settle, Wcb.committing, Wcb.noteFailure, e1]
      · simp [Wcb.complete, Wcb.settle, Wcb.noteFailure, e2]

/-- Abandonment keeps everything (R73). -/
theorem Keeps.abandonBuffer (h : Keeps s t) : Keeps s t.abandonBuffer.1 := by
  unfold State.abandonBuffer
  refine Keeps.answerTogether (h.setWcbOf (fun H w => ?_) fun _ _ => ⟨rfl, rfl⟩)
  refine ⟨List.nodup_nil, Nat.zero_le _, fun _ => Or.inr rfl, fun hh => ?_⟩
  simp [Wcb.empty] at hh

/-- The buffer's taking of a write keeps law 4 where H is above 0 (R58 to R61). -/
theorem Wcb.takeWrite_wf (w x : Wcb) (c : Settings) (p : Place) (d : Line) (hH : 0 < c.highMark) (h : w.wf c.highMark)
    (ht : w.takeWrite c p d = some x) : x.wf c.highMark := by
  obtain ⟨h1, h2, h3, h4⟩ := h
  unfold Wcb.takeWrite at ht
  cases hf : w.find p.key with
  | some e =>
    rw [hf] at ht
    injection ht with ht
    subst ht
    have hk : (w.entries.map fun e => if e.key == p.key then e.merge p.offset p.length d else e).map Entry.key
        = w.entries.map Entry.key := by
      rw [List.map_map]
      apply List.map_congr_left
      intro e _
      simp only [Function.comp]
      split <;> rfl
    have ho : ∀ (y : Bool), ({ w with
        entries := w.entries.map fun e => if e.key == p.key then e.merge p.offset p.length d else e
        lingerRunning := y } : Wcb).occupancy = w.occupancy := by intro y; simp [Wcb.occupancy]
    refine ⟨by rw [hk]; exact h1, by rw [ho]; exact h2, by rw [ho]; exact h3, by rw [ho]; exact h4⟩
  | none =>
    rw [hf] at ht
    simp only at ht
    have hnew : p.key ∉ w.entries.map Entry.key := by
      intro hm
      obtain ⟨e, he, hk⟩ := List.mem_map.1 hm
      have := List.find?_eq_none.1 hf e he
      simp [hk] at this
    have hk : ((w.entries ++ [Entry.fresh p.key p.offset p.length d]).map Entry.key).Nodup := by
      rw [List.map_append, List.nodup_append]
      refine ⟨h1, by simp, ?_⟩
      intro a ha b hb
      simp only [List.map_cons, List.map_nil, List.mem_singleton] at hb
      rintro rfl
      apply hnew
      rw [hb] at ha
      exact ha
    have hocc : w.occupancy = w.entries.length := rfl
    cases hh : w.hold with
    | true =>
      cases hg : w.grace with
      | false => simp [hh, hg] at ht
      | true =>
        simp only [hh, hg, Bool.not_true, Bool.and_false, Bool.false_eq_true, if_false, Bool.true_or, Bool.false_and] at ht
        injection ht with ht
        subst ht
        have := h4 hh hg
        refine ⟨hk, ?_, ?_, ?_⟩
        · simp only [Wcb.occupancy, List.length_append, List.length_singleton]; omega
        · intro q; simp at q
        · intro _ q; simp at q
    | false =>
      simp only [hh, Bool.false_and, Bool.false_eq_true, if_false, Bool.false_or, Bool.not_false, Bool.true_and] at ht
      injection ht with ht
      subst ht
      have h3' := h3 hh
      refine ⟨hk, ?_, ?_, ?_⟩
      · simp only [Wcb.occupancy, List.length_append, List.length_singleton]; omega
      · intro q
        left
        simp only [beq_eq_false_iff_ne, ne_eq] at q
        simp only [Wcb.occupancy, List.length_append, List.length_singleton]
        omega
      · intro q _
        simp only [beq_iff_eq] at q
        simp only [Wcb.occupancy, List.length_append, List.length_singleton]
        omega

/-! ## Read Unit -/

theorem ReadUnit.touch_wf (r : ReadUnit) (c : CacheLine) (hm : c ∈ r.cache) (h : r.wf) : (r.touch c).wf := by
  obtain ⟨h1, h2, h3⟩ := h
  refine ⟨?_, ?_, h3⟩
  · have hlt : (r.cache.filter fun x => x.key != c.key).length < r.cache.length :=
      List.length_filter_lt_length_iff_exists.2 ⟨c, hm, by simp⟩
    simp only [ReadUnit.touch, List.length_append, List.length_singleton]
    omega
  · simp only [ReadUnit.touch, List.map_append, List.nodup_append]
    refine ⟨(List.filter_sublist.map _).nodup h2, by simp, ?_⟩
    intro a ha b hb
    obtain ⟨x, hx, rfl⟩ := List.mem_map.1 ha
    simp only [List.map_cons, List.map_nil, List.mem_singleton] at hb
    subst hb
    simpa using (List.mem_filter.1 hx).2

theorem ReadUnit.install_wf (r : ReadUnit) (c : CacheLine) (h : r.wf) : (r.install c).wf := by
  obtain ⟨h1, h2, h3⟩ := h
  have hsub : ((if (r.cache.filter fun x => x.key != c.key).length < Config.cacheMax
      then r.cache.filter fun x => x.key != c.key else (r.cache.filter fun x => x.key != c.key).drop 1)).Sublist
        (r.cache.filter fun x => x.key != c.key) := by
    split
    · exact List.Sublist.refl _
    · exact List.drop_sublist _ _
  have hlen : (r.cache.filter fun x => x.key != c.key).length ≤ 32 := le_trans (List.length_filter_le _ _) h1
  refine ⟨?_, ?_, h3⟩
  · simp only [ReadUnit.install, List.length_append, List.length_singleton]
    split
    case isTrue h => simp only [Config.cacheMax] at h; omega
    case isFalse h => simp only [List.length_drop]; omega
  · simp only [ReadUnit.install, List.map_append, List.nodup_append]
    refine ⟨((hsub.trans List.filter_sublist).map _).nodup h2, by simp, ?_⟩
    intro a ha b hb
    obtain ⟨x, hx, rfl⟩ := List.mem_map.1 ha
    simp only [List.map_cons, List.map_nil, List.mem_singleton] at hb
    subst hb
    simpa using (List.mem_filter.1 (hsub.subset hx)).2

theorem ReadUnit.invalidate_wf (r : ReadUnit) (k : Key) (h : r.wf) : (r.invalidate k).wf := by
  obtain ⟨h1, h2, h3⟩ := h
  refine ⟨le_trans (List.length_filter_le _ _) h1, (List.filter_sublist.map _).nodup h2, ?_⟩
  refine List.Sublist.nodup ?_ h3
  simp only [ReadUnit.invalidate]
  generalize r.fills = l
  induction l with
  | nil => exact List.Sublist.refl _
  | cons f l ih =>
    simp only [List.map_cons, List.filter_cons]
    by_cases hc : (f.key == k && f.phase != .queued) = true
    · simp only [hc, if_true, Bool.not_true, Bool.false_eq_true, if_false]
      split
      · exact (ih.trans (List.sublist_cons_self _ _))
      · exact ih
    · simp only [hc, Bool.false_eq_true, if_false]
      split
      · simpa using ih
      · exact ih

theorem ReadUnit.invalidateLines_wf (r : ReadUnit) (sector : Nat) (lines : List Nat) (h : r.wf) :
    (r.invalidateLines sector lines).wf := by
  unfold ReadUnit.invalidateLines
  induction lines generalizing r with
  | nil => exact h
  | cons l lines ih => exact ih _ (ReadUnit.invalidate_wf _ _ h)

/-- A change of fills that leaves their keys and marks leaves the keys of the fills not superseded. -/
theorem liveKeys_map (l : List Fill) (g : Fill → Fill) (hk : ∀ f, (g f).key = f.key)
    (hs : ∀ f, (g f).superseded = f.superseded) :
    ((l.map g).filter fun f => !f.superseded).map Fill.key = (l.filter fun f => !f.superseded).map Fill.key := by
  induction l with
  | nil => rfl
  | cons f l ih =>
    simp only [List.map_cons, List.filter_cons, hs]
    split
    · simp only [List.map_cons, hk, ih]
    · exact ih

theorem ReadUnit.miss_wf (r : ReadUnit) (k : Key) (g : Fin 2) (id : Tag) (h : r.wf) : (r.miss k g id).wf := by
  obtain ⟨h1, h2, h3⟩ := h
  unfold ReadUnit.miss
  split
  case isTrue ha =>
    refine ⟨h1, h2, ?_⟩
    simp only
    rw [liveKeys_map _ _ (fun f => by split <;> rfl) (fun f => by split <;> rfl)]
    exact h3
  case isFalse ha =>
    refine ⟨h1, h2, ?_⟩
    simp only [List.filter_append, List.map_append, List.nodup_append]
    refine ⟨h3, by simp, ?_⟩
    intro a hx b hb
    simp only [List.filter_cons, Bool.not_false, if_true, List.filter_nil, List.map_cons, List.map_nil,
      List.mem_singleton] at hb
    subst hb
    obtain ⟨f, hf, rfl⟩ := List.mem_map.1 hx
    intro hk
    apply ha
    rw [List.any_eq_true]
    exact ⟨f, (List.mem_filter.1 hf).1, by simp [hk, (List.mem_filter.1 hf).2]⟩

/-- Fills dropped from the list, or only their phase changed, keep the law. -/
theorem ReadUnit.filterFills_wf (r : ReadUnit) (p : Fill → Bool) (h : r.wf) :
    ({ r with fills := r.fills.filter p } : ReadUnit).wf := by
  obtain ⟨h1, h2, h3⟩ := h
  exact ⟨h1, h2, ((List.filter_sublist.filter _).map _).nodup h3⟩

theorem ReadUnit.issue_wf (r : ReadUnit) (f : Fill) (ps : Nat) (h : r.wf) :
    ({ r with fills := r.fills.map fun x => if x == f then { x with phase := .issued ps } else x } : ReadUnit).wf := by
  obtain ⟨h1, h2, h3⟩ := h
  refine ⟨h1, h2, ?_⟩
  simp only
  rw [liveKeys_map _ _ (fun f => by split <;> rfl) (fun f => by split <;> rfl)]
  exact h3

theorem Keeps.invalidateLines {sector lines} (h : Keeps s t) :
    Keeps s (t.setReads (t.reads.invalidateLines sector lines)) := h.setReads (ReadUnit.invalidateLines_wf _ _ _)

/-! ## Device records -/

/-- Polls due bear on no law of the bus. -/
theorem FlashBus.wf_of_same (x y : FlashBus) (h : x.wf) (hb : y.burst = x.burst) (h0 : y.dev0 = x.dev0)
    (h1 : y.dev1 = x.dev1) (ht : y.tx = none ∨ y.tx = x.tx) : y.wf := by
  refine ⟨hb ▸ h.1, fun cs d hd => ?_⟩
  have hd' : x.dev cs = some d := by cases cs <;> simpa [FlashBus.dev, h0, h1] using hd
  obtain ⟨w, k⟩ := h.2 cs d hd'
  refine ⟨w, fun tx e c => ?_⟩
  rcases ht with ht | ht
  · rw [ht] at e; cases e
  · exact k tx (ht ▸ e) c

theorem FlashBus.setDev_dev (x : FlashBus) (cs cs' : ChipSelect) (d : Option Device) :
    (x.setDev cs d).dev cs' = if cs' = cs then d else x.dev cs' := by
  cases cs <;> cases cs' <;> simp [FlashBus.setDev, FlashBus.dev]

@[simp] theorem FlashBus.setDev_tx (x : FlashBus) (cs : ChipSelect) (d : Option Device) : (x.setDev cs d).tx = x.tx := by
  cases cs <;> rfl

@[simp] theorem FlashBus.setDev_burst (x : FlashBus) (cs : ChipSelect) (d : Option Device) :
    (x.setDev cs d).burst = x.burst := by
  cases cs <;> rfl

theorem FlashBus.setDev_wf (x : FlashBus) (cs : ChipSelect) (d : Device) (h : x.wf)
    (hd : d.wf ∧ ∀ tx, x.tx = some tx → tx.cs = cs → d.carries tx.use) : (x.setDev cs (some d)).wf := by
  refine ⟨by simpa using h.1, fun c e he => ?_⟩
  rw [FlashBus.setDev_dev] at he
  rw [FlashBus.setDev_tx]
  split at he
  case isTrue hc => injection he with he; subst he hc; exact hd
  case isFalse => exact h.2 c e he

/-- A transaction begins on a bus whose device may carry it. -/
theorem FlashBus.begin_wf (x : FlashBus) (tx : BusTx) (h : x.wf) (k : ∀ d, x.dev tx.cs = some d → d.carries tx.use) :
    ({ x with tx := some tx } : FlashBus).wf := by
  refine ⟨h.1, fun cs d hd => ?_⟩
  have hd' : x.dev cs = some d := by cases cs <;> exact hd
  refine ⟨(h.2 cs d hd').1, fun y e c => ?_⟩
  injection e with e
  subst e c
  exact k d hd'

/-- A change of a device record that keeps its laws, which may rest on those of the first state. -/
theorem Keeps.mapDevOf {cs f} (h : Keeps s t)
    (k : s.bus.wf → ∀ d, t.bus.dev cs = some d → d.wf → (f d).wf
      ∧ ∀ tx, t.bus.tx = some tx → tx.cs = cs → d.carries tx.use → (f d).carries tx.use) : Keeps s (t.mapDev cs f) := by
  unfold State.mapDev State.setDev
  refine h.setBusOf fun w' => ?_
  have w := h.bus w'
  cases hd : t.bus.dev cs with
  | none =>
    refine ⟨by simpa using w.1, fun c e he => ?_⟩
    rw [FlashBus.setDev_dev] at he
    split at he
    · simp at he
    · simpa using w.2 c e he
  | some d =>
    obtain ⟨w1, w2⟩ := w.2 _ _ hd
    obtain ⟨k1, k2⟩ := k w' d hd w1
    exact FlashBus.setDev_wf _ _ _ w ⟨k1, fun tx e c => k2 tx e c (w2 tx e c)⟩

/-- A change of a device record that leaves its state, its operation with its timer and the step of R31. -/
theorem Keeps.mapDev {cs f} (h : Keeps s t)
    (k : ∀ d, t.bus.dev cs = some d → d.wf → (f d).wf ∧ ∀ u, d.carries u → (f d).carries u) :
    Keeps s (t.mapDev cs f) := h.mapDevOf fun _ d hd w => ⟨(k d hd w).1, fun tx _ _ => (k d hd w).2 tx.use⟩

theorem Keeps.busIdle (h : Keeps s t) : Keeps s t.busIdle :=
  h.setBus fun w => FlashBus.wf_of_same _ _ w rfl rfl rfl (Or.inl rfl)

theorem Keeps.begin {use cs addr frames} (h : Keeps s t)
    (k : s.bus.wf → ∀ d, t.bus.dev cs = some d → d.carries use) : Keeps s (t.begin use cs addr frames) :=
  h.setBusOf fun w => FlashBus.begin_wf _ _ (h.bus w) (k w)

/-- A read begins: no device state is asked for. -/
theorem Keeps.beginRead {use cs addr} (h : Keeps s t)
    (hu : use = .fillRead ∨ use = .commitRead ∨ use = .descriptorRead ∨ use = .journalRead) :
    Keeps s (t.beginRead use cs addr) :=
  h.begin fun _ d _ => by rcases hu with rfl | rfl | rfl | rfl <;> trivial

/-- A transaction begins and its device record is replaced by one that carries it. -/
theorem FlashBus.beginWith_wf (x : FlashBus) (tx : BusTx) (f : Device → Device) (h : x.wf)
    (k : ∀ d, d.wf → (f d).wf ∧ (f d).carries tx.use) :
    (({ x with tx := some tx } : FlashBus).setDev tx.cs ((x.dev tx.cs).map f)).wf := by
  refine ⟨by simpa using h.1, fun c e he => ?_⟩
  rw [FlashBus.setDev_dev] at he
  rw [FlashBus.setDev_tx]
  split at he
  case isTrue hc =>
    rw [Option.map_eq_some_iff] at he
    obtain ⟨d, hd, rfl⟩ := he
    obtain ⟨k1, k2⟩ := k d (h.2 _ d hd).1
    refine ⟨k1, fun y e _ => ?_⟩
    injection e with e
    exact e ▸ k2
  case isFalse hc =>
    have he' : x.dev c = some e := by cases c <;> exact he
    refine ⟨(h.2 c e he').1, fun y e' c' => ?_⟩
    injection e' with e'
    exact absurd (e' ▸ c').symm hc

theorem Keeps.beginProgram {cs addr bytes o} (h : Keeps s t) : Keeps s (t.beginProgram cs addr bytes o) := by
  refine h.trans ⟨rfl, rfl, rfl, rfl, id, id, id, id, fun w => ?_, id⟩
  have k := FlashBus.beginWith_wf t.bus ⟨.program, cs, some (BitVec.ofNat 24 addr),
    programFrames t.settings.profile addr bytes⟩ (fun d => d.startProgram addr o) w
    fun d w => ⟨⟨rfl, fun e => (by cases e), w.2.2⟩, rfl, rfl⟩
  cases cs <;> exact k

theorem Keeps.beginErase {cs addr o} (h : Keeps s t) : Keeps s (t.beginErase cs addr o) := by
  refine h.trans ⟨rfl, rfl, rfl, rfl, id, id, id, id, fun w => ?_, id⟩
  have k := FlashBus.beginWith_wf t.bus ⟨.erase, cs, some (BitVec.ofNat 24 addr),
    eraseFrames t.settings.profile addr⟩ (fun d => d.startErase addr o) w
    fun d _ => ⟨⟨rfl, fun e => (by cases e), Nat.zero_le _, Nat.zero_le _⟩, rfl, rfl⟩
  cases cs <;> exact k

theorem Keeps.settle {cs d} (h : Keeps s t) (k : s.bus.wf → d.wf) (ht : t.bus.tx = none) : Keeps s (t.settle cs d) :=
  h.setBusOf fun w => FlashBus.wf_of_same _ _
    (FlashBus.setDev_wf _ cs d (h.bus w) ⟨k w, fun tx e => by rw [ht] at e; cases e⟩) rfl rfl rfl (Or.inr rfl)

theorem Keeps.noteResumes (h : Keeps s t) : Keeps s t.noteResumes :=
  h.setBus fun w => FlashBus.wf_of_same _ _ w rfl rfl rfl (Or.inr rfl)

/-- The invalidations of a sector's lines, all at once (R84). -/
theorem ReadUnit.invalidateLines_eq (r : ReadUnit) (sector : Nat) (lines : List Nat) :
    r.invalidateLines sector lines = r.withoutLines sector lines := by
  unfold ReadUnit.invalidateLines
  induction lines generalizing r with
  | nil => simp [ReadUnit.withoutLines]
  | cons l lines ih =>
    rw [List.foldl_cons, ih]
    simp only [ReadUnit.withoutLines, ReadUnit.invalidate, List.filter_filter, List.map_map, ReadUnit.mk.injEq]
    refine ⟨?_, ?_⟩
    · refine List.filter_congr fun x _ => ?_
      rcases x with ⟨⟨a, b⟩, _, _⟩
      by_cases h : a = sector <;> by_cases k : b = l <;> simp [h, k]
    · refine List.map_congr_left fun f _ => ?_
      rcases f with ⟨⟨a, b⟩, g, ph, sup, rd⟩
      by_cases h : a = sector <;> by_cases k : b = l <;> by_cases m : b ∈ lines <;> by_cases q : ph = .queued <;>
        simp_all

end Sys2Proof.Machine
end

