-- ==== Sys2Proof/Laws/KeepsStages.lean ====
section
/-! SUPPORT. The stages of commits, the entries to the bridge states, REBUILD, the Map Journal and the Erase Engine keep
everything that Keeps names. -/

namespace Sys2Proof.Machine

variable {s t : State}

theorem Keeps.reply {code data} (h : Keeps s t) : Keeps s (t.reply code data) := by
  unfold State.reply
  repeat (first | exact h | assumption | with_reducible apply Keeps.setLink)

theorem Keeps.setWorn (h : Keeps s t) : Keeps s t.setWorn := by
  unfold State.setWorn
  repeat (first | exact h | assumption | with_reducible apply Keeps.setMap | with_reducible apply Keeps.raise)

theorem Keeps.take (h : Keeps s t) : Keeps s (t.take).1 := by
  unfold State.take
  repeat' split
  all_goals repeat (first | exact h | with_reducible apply Keeps.setWorn | with_reducible apply Keeps.raise | with_reducible apply Keeps.setMap)

theorem Keeps.retire {ps cause} (h : Keeps s t) : Keeps s (t.retire ps cause) := by
  unfold State.retire
  repeat' split
  all_goals repeat (first | exact h | assumption | with_reducible apply Keeps.setMap | with_reducible apply Keeps.raise)

theorem Keeps.releaseTarget (h : Keeps s t) : Keeps s t.releaseTarget := by
  unfold State.releaseTarget
  repeat' split
  all_goals repeat (first | exact h | assumption | with_reducible apply Keeps.setMap)

theorem Keeps.retireTarget (h : Keeps s t) : Keeps s t.retireTarget := by
  unfold State.retireTarget
  repeat' split
  all_goals repeat (first | exact h | assumption | with_reducible apply Keeps.setMap | with_reducible apply Keeps.retire)

theorem Keeps.switchSector {ls target old r} (h : Keeps s t) : Keeps s (t.switchSector ls target old r) := by
  unfold State.switchSector
  dsimp only
  repeat' split
  all_goals repeat (first | exact h | assumption | with_reducible apply Keeps.setMap | with_reducible apply Keeps.retire)

theorem Keeps.enqueue {c r} (h : Keeps s t) : Keeps s (t.enqueue c r) := by
  unfold State.enqueue
  repeat (first | exact h | assumption | with_reducible apply Keeps.setJournal)

theorem Keeps.withdraw {c} (h : Keeps s t) : Keeps s (t.withdraw c) := by
  unfold State.withdraw
  repeat (first | exact h | assumption | with_reducible apply Keeps.setJournal)

theorem Keeps.dropRecords {c} (h : Keeps s t) : Keeps s (t.dropRecords c) := by
  unfold State.dropRecords
  repeat (first | exact h | assumption | with_reducible apply Keeps.setJournal)

theorem Keeps.commitDone (h : Keeps s t) : Keeps s t.commitDone := by
  unfold State.commitDone
  repeat (first | exact h | assumption | with_reducible apply Keeps.setCommit | with_reducible apply Keeps.completeCommit)

theorem Keeps.commitNeedsErase (h : Keeps s t) : Keeps s t.commitNeedsErase := by
  unfold State.commitNeedsErase
  repeat (first | exact h | assumption | with_reducible apply Keeps.setCommit | with_reducible apply Keeps.completeCommit)

theorem Keeps.withdrawTake (h : Keeps s t) : Keeps s t.withdrawTake := by
  unfold State.withdrawTake
  repeat (first | exact h | assumption | with_reducible apply Keeps.setMap)

theorem Keeps.commitFailed {c} (h : Keeps s t) : Keeps s (t.commitFailed c) := by
  unfold State.commitFailed
  dsimp only
  repeat' split
  all_goals repeat (first | exact h | assumption | with_reducible apply Keeps.setCommit | with_reducible apply Keeps.raise | with_reducible apply Keeps.completeCommit | with_reducible apply Keeps.releaseTarget | with_reducible apply Keeps.withdraw | with_reducible apply Keeps.withdrawTake)

theorem Keeps.commitSwitch {c r} (h : Keeps s t) : Keeps s (t.commitSwitch c r) := by
  unfold State.commitSwitch
  dsimp only
  repeat (first | exact h | assumption | with_reducible apply Keeps.invalidateLines | with_reducible apply Keeps.switchSector | with_reducible apply Keeps.commitDone)

theorem Keeps.commitFull (h : Keeps s t) : Keeps s t.commitFull := by
  unfold State.commitFull
  repeat' split
  all_goals repeat (first | exact h | assumption | with_reducible apply Keeps.setCommit | with_reducible apply Keeps.releaseTarget | with_reducible apply Keeps.dropRecords | with_reducible apply Keeps.commitFailed | with_reducible apply Keeps.commitSwitch)

theorem Keeps.commitAsk {c w r refused} (hr : Keeps s refused) (h : Keeps s t) : Keeps s (t.commitAsk c w r refused) := by
  unfold State.commitAsk
  dsimp only
  repeat' split
  all_goals repeat (first | exact h | assumption | with_reducible apply Keeps.setCommit | with_reducible apply Keeps.enqueue | with_reducible apply Keeps.commitFull)

theorem Keeps.commitRecord {c} (h : Keeps s t) : Keeps s (t.commitRecord c) := by
  exact Keeps.commitAsk (Keeps.commitFailed h) h

theorem Keeps.copyFrom {c n} (h : Keeps s t) : Keeps s (t.copyFrom c n) := by
  induction n with
  | zero => exact Keeps.commitRecord h
  | succ n ih =>
    unfold State.copyFrom
    repeat' split
    all_goals repeat (first | exact h | exact ih | with_reducible apply Keeps.setCommit)

theorem Keeps.copyBuilt {c w bytes} (h : Keeps s t) : Keeps s (t.copyBuilt c w bytes) := by
  unfold State.copyBuilt
  repeat' split
  all_goals repeat (first | exact h | assumption | with_reducible apply Keeps.setCommit | with_reducible apply Keeps.copyFrom)

theorem Keeps.commitGranted {c ps} (h : Keeps s t) : Keeps s (t.commitGranted c ps) := by
  unfold State.commitGranted
  repeat' split
  all_goals repeat (first | exact h | assumption | with_reducible apply Keeps.copyFrom | with_reducible apply Keeps.copyFrom)

theorem Keeps.commitAllocate {c} (h : Keeps s t) : Keeps s (t.commitAllocate c) := by
  unfold State.commitAllocate
  dsimp only
  repeat' split
  all_goals repeat (first | exact h | assumption | with_reducible apply Keeps.setCommit | with_reducible apply Keeps.take | with_reducible apply Keeps.commitFailed | with_reducible apply Keeps.commitGranted)

theorem Keeps.commitHoldEnd (h : Keeps s t) : Keeps s t.commitHoldEnd := by
  unfold State.commitHoldEnd
  repeat' split
  all_goals repeat (first | exact h | assumption | with_reducible apply Keeps.commitAllocate)

theorem Keeps.programFrom {c l} (h : Keeps s t) : Keeps s (t.programFrom c l) := by
  cases l with
  | nil => exact Keeps.commitDone h
  | cons w l => exact h.setCommit

theorem Keeps.probeEnd {c f} (h : Keeps s t) : Keeps s (t.probeEnd c f) := by
  unfold State.probeEnd
  repeat' split
  all_goals repeat (first | exact h | assumption | with_reducible apply Keeps.commitNeedsErase | with_reducible apply Keeps.commitAllocate | with_reducible apply Keeps.programFrom)

theorem Keeps.probeFrom {c l f} (h : Keeps s t) : Keeps s (t.probeFrom c l f) := by
  induction l generalizing f with
  | nil => exact Keeps.probeEnd h
  | cons x l ih =>
    unfold State.probeFrom
    split
    · exact ih
    · exact h.setCommit

theorem Keeps.commitStart {c} (h : Keeps s t) : Keeps s (t.commitStart c) := by
  unfold State.commitStart
  repeat' split
  all_goals repeat (first | exact h | assumption | with_reducible apply Keeps.commitAllocate | with_reducible apply Keeps.probeFrom)

theorem Keeps.commitReadEnd {b} (h : Keeps s t) : Keeps s (t.commitReadEnd b) := by
  unfold State.commitReadEnd
  repeat' split
  all_goals repeat (first | exact h | assumption | with_reducible apply Keeps.setCommit | with_reducible apply Keeps.commitFailed | with_reducible apply Keeps.copyBuilt | with_reducible apply Keeps.probeFrom)

theorem Keeps.commitProgramEnd {ok} (h : Keeps s t) : Keeps s (t.commitProgramEnd ok) := by
  unfold State.commitProgramEnd
  dsimp only
  repeat' split
  all_goals
    first
    | exact h
    | skip
  all_goals repeat (first | exact h | exact Keeps.commitAsk (Keeps.commitFailed h) h | with_reducible apply Keeps.commitDone | with_reducible apply Keeps.commitFailed | with_reducible apply Keeps.programFrom | with_reducible apply Keeps.commitAllocate | with_reducible apply Keeps.copyFrom | with_reducible apply Keeps.invalidateLines)

theorem Keeps.commitAppended (h : Keeps s t) : Keeps s t.commitAppended := by
  unfold State.commitAppended
  repeat' split
  all_goals repeat (first | exact h | exact Keeps.commitAsk (Keeps.commitSwitch h) h | with_reducible apply Keeps.commitSwitch | with_reducible apply Keeps.commitFailed | with_reducible apply Keeps.commitAllocate | with_reducible apply Keeps.retireTarget)

theorem Keeps.commitFenced (h : Keeps s t) : Keeps s t.commitFenced := by
  unfold State.commitFenced
  repeat' split
  all_goals repeat (first | exact h | assumption | with_reducible apply Keeps.commitFailed | with_reducible apply Keeps.commitSwitch)

theorem Keeps.commitExpire (h : Keeps s t) : Keeps s t.commitExpire := by
  unfold State.commitExpire
  repeat' split
  all_goals repeat (first | exact h | assumption | with_reducible apply Keeps.withdraw | with_reducible apply Keeps.commitFailed | with_reducible apply Keeps.commitSwitch)

theorem Keeps.withdrawHeldClaims (h : Keeps s t) : Keeps s t.withdrawHeldClaims := by
  unfold State.withdrawHeldClaims
  repeat' split
  all_goals repeat (first | exact h | assumption | with_reducible apply Keeps.setErase)

theorem Keeps.withdrawRawErase (h : Keeps s t) : Keeps s t.withdrawRawErase := by
  unfold State.withdrawRawErase
  repeat' split
  all_goals repeat (first | exact h | assumption | with_reducible apply Keeps.setErase | with_reducible apply Keeps.setLink)

theorem Keeps.abandonCompaction (h : Keeps s t) : Keeps s t.abandonCompaction := by
  unfold State.abandonCompaction
  dsimp only
  repeat' split
  all_goals repeat (first | exact h | assumption | with_reducible apply Keeps.setJournal)

theorem Keeps.enterQuiesce {c} (hb : t.bridge.state = .service ∨ t.bridge.state = .raw) (h : Keeps s t) : Keeps s (t.enterQuiesce c) := by
  unfold State.enterQuiesce
  refine Keeps.commitHoldEnd (Keeps.withdrawRawErase (Keeps.withdrawHeldClaims (Keeps.abandonCompaction (h.setBridge ?_ ?_ ?_))))
  · simp
  · simp [BridgeState.early]
  · intro _
    rcases hb with hb | hb <;> simp [Bridge.hasSettings, hb]

theorem Keeps.heedPfail (hb : t.bridge.state = .service ∨ t.bridge.state = .raw) (h : Keeps s t) : Keeps s t.heedPfail := by
  unfold State.heedPfail
  split
  · exact Keeps.enterQuiesce hb h
  · exact h

theorem Keeps.enterService (hb : t.bridge.state = .rebuild) (h : Keeps s t) : Keeps s t.enterService := by
  unfold State.enterService
  refine Keeps.heedPfail (Or.inl rfl) (h.setBridge ?_ ?_ ?_)
  · simp
  · simp [BridgeState.early]
  · intro _
    simp [Bridge.hasSettings, hb]

theorem Keeps.enterRaw (hb : t.bridge.state = .load ∨ t.bridge.state = .rebuild) (h : Keeps s t) : Keeps s t.enterRaw := by
  unfold State.enterRaw
  refine Keeps.heedPfail (Or.inr rfl) (h.trans ⟨rfl, rfl, rfl, rfl, fun _ => by simp, id, id, id, fun w => ?_, fun w => ?_⟩)
  · refine ⟨w.1, fun cs d hd => ?_⟩
    cases cs
    · exact w.2 .cs0 d hd
    · simp [FlashBus.dev] at hd
  · obtain ⟨w1, w2, w3⟩ := w
    obtain ⟨e1, e2⟩ := w2 (by rcases hb with hb | hb <;> simp [BridgeState.early, hb])
    refine ⟨⟨w1.1, ?_, fun _ => Or.inr (by simp [Wcb.occupancy, e1]), fun hh => ?_⟩, ?_, ?_⟩
    · simp [Wcb.occupancy, e1]
    · simp [e2] at hh
    · simp [BridgeState.early]
    · intro _
      simp [Settings.inRaw]

theorem Keeps.enterHalted (h : Keeps s t) : Keeps s t.enterHalted := by
  unfold State.enterHalted
  refine h.setBridge ?_ ?_ ?_
  · simp
  · simp [BridgeState.early]
  · intro k
    simp [Bridge.hasSettings] at k
    simp [Bridge.hasSettings, k]

theorem Keeps.haltStart (h : Keeps s t) : Keeps s t.haltStart := by
  unfold State.haltStart
  refine h.trans ⟨rfl, rfl, rfl, rfl, fun _ => by simp, id, id, id, id, fun w => ⟨w.1, ?_, ?_⟩⟩
  · simp [BridgeState.early]
  · intro k
    simp [Bridge.hasSettings] at k

theorem Keeps.orderlyRequest (h : Keeps s t) : Keeps s t.orderlyRequest := by
  unfold State.orderlyRequest
  split
  case h_1 hb => exact h.setBridge (by simp [hb]) (fun x => x) (fun x => x)
  case h_2 hb => exact h.setBridge (by simp [hb]) (fun x => x) (fun x => x)
  case h_3 hb => exact Keeps.enterQuiesce (Or.inl hb) h
  case h_4 hb => exact Keeps.enterQuiesce (Or.inr hb) h
  case h_5 => exact h

theorem Keeps.pfailAsserted (h : Keeps s t) : Keeps s t.pfailAsserted := by
  unfold State.pfailAsserted
  split
  case h_1 hb => exact h.setBridge (by simp [hb]) (fun x => x) (fun x => x)
  case h_2 hb => exact h.setBridge (by simp [hb]) (fun x => x) (fun x => x)
  case h_3 hb => exact Keeps.enterQuiesce (Or.inl hb) h
  case h_4 hb => exact Keeps.enterQuiesce (Or.inr hb) h
  case h_5 hb =>
    split
    · exact h.setBridge (by simp [hb]) (fun x => x) (fun x => x)
    · exact h
  case h_6 => exact h

theorem Keeps.rebuildFailed {code} (hb : t.bridge.state = .rebuild) (h : Keeps s t) : Keeps s (t.rebuildFailed code) := by
  exact Keeps.enterRaw (Or.inr hb) h.raise

theorem Keeps.rebuildDone (hb : t.bridge.state = .rebuild) (h : Keeps s t) : Keeps s t.rebuildDone := by
  unfold State.rebuildDone
  dsimp only
  split <;> exact Keeps.enterService hb (Keeps.raise (Keeps.setJournal (by first | exact h.setMap.raise | exact h.setMap)))

theorem Keeps.firstBoot (h : Keeps s t) : Keeps s t.firstBoot := by
  unfold State.firstBoot
  repeat (first | exact h | assumption | with_reducible apply Keeps.setJournal)

theorem Keeps.firstBootWrite (h : Keeps s t) : Keeps s t.firstBootWrite := by
  unfold State.firstBootWrite
  repeat (first | exact h | assumption | with_reducible apply Keeps.setJournal)

theorem Keeps.firstBootDone {r} (hb : t.bridge.state = .rebuild) (h : Keeps s t) : Keeps s (t.firstBootDone r) := by
  unfold State.firstBootDone
  exact Keeps.rebuildDone hb (h.trans ⟨rfl, rfl, rfl, rfl, id, id, id, id, id, id⟩)

theorem Keeps.choose {c w l r} (hb : t.bridge.state = .rebuild) (h : Keeps s t) : Keeps s (t.choose c w l r) := by
  unfold State.choose
  exact Keeps.rebuildDone hb (h.trans ⟨rfl, rfl, rfl, rfl, id, id, id, id, id, id⟩)

theorem Keeps.examine {l sp} (hb : t.bridge.state = .rebuild) (h : Keeps s t) : Keeps s (t.examine l sp) := by
  induction l generalizing sp with
  | nil =>
    unfold State.examine
    split
    · exact Keeps.rebuildFailed hb h
    · exact Keeps.firstBoot h
  | cons c l ih =>
    unfold State.examine
    split
    · exact ih
    · exact h.setJournal

theorem Keeps.judge {c w l sp} (hb : t.bridge.state = .rebuild) (h : Keeps s t) : Keeps s (t.judge c w l sp) := by
  unfold State.judge
  repeat' split
  all_goals first | exact Keeps.examine hb h | exact h.setJournal | exact Keeps.choose hb h | (dsimp only; split; exact Keeps.choose hb h; exact Keeps.examine hb h)

theorem Keeps.rebuildRead {w} (hb : t.bridge.state = .rebuild) (h : Keeps s t) : Keeps s (t.rebuildRead w) := by
  unfold State.rebuildRead
  split
  · exact h.setJournal
  · exact Keeps.examine hb h.setFree
  · exact Keeps.judge hb h
  · exact h

theorem Keeps.setFenced {code} (h : Keeps s t) : Keeps s (t.setFenced code) := by
  unfold State.setFenced
  split
  · exact h
  · exact Keeps.commitFenced (Keeps.withdrawHeldClaims h.setJournal.raise)

theorem Keeps.judgeTrigger (h : Keeps s t) : Keeps s t.judgeTrigger := by
  unfold State.judgeTrigger
  repeat' split
  all_goals repeat (first | exact h | assumption | with_reducible apply Keeps.setJournal | with_reducible apply Keeps.withdrawHeldClaims)

theorem Keeps.reportFull (h : Keeps s t) : Keeps s t.reportFull := by
  unfold State.reportFull
  repeat' split
  all_goals repeat (first | exact h | assumption | with_reducible apply Keeps.commitFull)

theorem Keeps.eraseRecorded {ps} (h : Keeps s t) : Keeps s (t.eraseRecorded ps) := by
  unfold State.eraseRecorded
  dsimp only
  repeat' split
  all_goals repeat (first | exact h | assumption | with_reducible apply Keeps.setMap | with_reducible apply Keeps.setErase | with_reducible apply Keeps.commitGranted)

theorem Keeps.retireRecorded {ps cause} (h : Keeps s t) : Keeps s (t.retireRecorded ps cause) := by
  unfold State.retireRecorded
  dsimp only
  have k : Keeps s (((t.setErase { t.erase with wait := none }).setMap
      { t.map with queue := t.map.queue.filter fun q => q.ps != ps }).retire ps cause) := Keeps.retire h.setErase.setMap
  split
  · split
    · exact Keeps.setWorn k
    · exact Keeps.commitFailed (Keeps.setWorn k)
  · exact k

theorem Keeps.tellAppended {q} (h : Keeps s t) : Keeps s (t.tellAppended q) := by
  unfold State.tellAppended
  repeat' split
  all_goals repeat (first | exact h | assumption | with_reducible apply Keeps.retire | with_reducible apply Keeps.commitAppended | with_reducible apply Keeps.eraseRecorded | with_reducible apply Keeps.retireRecorded)

theorem Keeps.appended {q} (h : Keeps s t) : Keeps s (t.appended q) := by
  unfold State.appended
  repeat (first | exact h | assumption | with_reducible apply Keeps.setJournal | with_reducible apply Keeps.judgeTrigger | with_reducible apply Keeps.reportFull | with_reducible apply Keeps.tellAppended)

theorem Keeps.appendFailed (h : Keeps s t) : Keeps s t.appendFailed := by
  unfold State.appendFailed
  repeat' split
  all_goals repeat (first | exact h | assumption | with_reducible apply Keeps.setJournal | with_reducible apply Keeps.commitFenced | with_reducible apply Keeps.judgeTrigger | with_reducible apply Keeps.reportFull)

theorem Keeps.appendEnd {ok} (h : Keeps s t) : Keeps s (t.appendEnd ok) := by
  unfold State.appendEnd
  repeat' split
  all_goals repeat (first | exact h | assumption | with_reducible apply Keeps.appended | with_reducible apply Keeps.appendFailed)

theorem Keeps.compacted {r} (h : Keeps s t) : Keeps s (t.compacted r) := by
  unfold State.compacted
  dsimp only
  repeat (first | exact h | assumption | with_reducible apply Keeps.setJournal | with_reducible apply Keeps.raise | with_reducible apply Keeps.commitHoldEnd | with_reducible apply Keeps.judgeTrigger)

theorem Keeps.compactionFailed {r} (h : Keeps s t) : Keeps s (t.compactionFailed r) := by
  unfold State.compactionFailed
  dsimp only
  repeat' split
  all_goals repeat (first | exact h | assumption | with_reducible apply Keeps.setJournal | with_reducible apply Keeps.setFenced)

theorem Keeps.bankProgramEnd {r ok} (h : Keeps s t) : Keeps s (t.bankProgramEnd r ok) := by
  unfold State.bankProgramEnd
  split
  case isTrue hf =>
    have hb : t.bridge.state = .rebuild := by simpa using (Bool.and_eq_true_iff.1 hf).1
    repeat' split
    · exact h
    · exact Keeps.rebuildFailed hb h
    · exact Keeps.firstBootDone hb h
    · exact h.setJournal
  case isFalse hf =>
    repeat' split
    · exact Keeps.compactionFailed h
    · exact Keeps.compacted h
    · exact h.setJournal
    · exact h.setJournal

theorem Keeps.journalProgramEnd {ok} (h : Keeps s t) : Keeps s (t.journalProgramEnd ok) := by
  unfold State.journalProgramEnd
  repeat' split
  all_goals repeat (first | exact h | assumption | with_reducible apply Keeps.appendEnd | with_reducible apply Keeps.bankProgramEnd)

theorem Keeps.eraseAsk {ps r} (h : Keeps s t) : Keeps s (t.eraseAsk ps r) := by
  unfold State.eraseAsk
  dsimp only
  repeat' split
  all_goals repeat (first | exact h | assumption | with_reducible apply Keeps.setErase | with_reducible apply Keeps.retire | with_reducible apply Keeps.enqueue)

theorem Keeps.dataEraseEnd {ps ok} (h : Keeps s t) : Keeps s (t.dataEraseEnd ps ok) := by
  unfold State.dataEraseEnd
  repeat' split
  all_goals repeat (first | exact h | assumption | with_reducible apply Keeps.setMap | with_reducible apply Keeps.eraseAsk)

theorem Keeps.bankSectorErased {w} (h : Keeps s t) : Keeps s (t.bankSectorErased w) := by
  unfold State.bankSectorErased
  dsimp only
  repeat' split
  all_goals repeat (first | exact h | assumption | with_reducible apply Keeps.setErase | with_reducible apply Keeps.setJournal | with_reducible apply Keeps.firstBootWrite)

theorem Keeps.bankSectorFailed {w} (h : Keeps s t) : Keeps s (t.bankSectorFailed w) := by
  unfold State.bankSectorFailed
  dsimp only
  repeat' split
  case isTrue => exact h.setErase
  case isFalse.isTrue hf =>
    have hb : t.bridge.state = .rebuild := by
      have := (Bool.and_eq_true_iff.1 hf).1
      simpa using this
    exact Keeps.rebuildFailed hb h.setErase
  case isFalse.isFalse => exact Keeps.setFenced h.setErase

theorem Keeps.eraseEnd {ok} (h : Keeps s t) : Keeps s (t.eraseEnd ok) := by
  unfold State.eraseEnd
  dsimp only
  repeat' split
  all_goals repeat (first | exact h | assumption | with_reducible apply Keeps.setErase | with_reducible apply Keeps.dataEraseEnd | with_reducible apply Keeps.bankSectorErased | with_reducible apply Keeps.bankSectorFailed)

theorem Keeps.tellOwner {o ok} (h : Keeps s t) : Keeps s (t.tellOwner o ok) := by
  unfold State.tellOwner
  repeat' split
  all_goals repeat (first | exact h | assumption | with_reducible apply Keeps.commitProgramEnd | with_reducible apply Keeps.journalProgramEnd | with_reducible apply Keeps.eraseEnd)

end Sys2Proof.Machine
end

