-- ==== Sys2Proof/Laws/KeepsCommands.lean ====
section
/-! SUPPORT. What the arbiter, the requests and the other steps below the commands keep. -/

namespace Sys2Proof.Machine

variable {s t : State}

/-! ## The arbiter's choice -/

/-- A test of a chip select that has a record is the test of the record. -/
theorem devIs_eq {cs : ChipSelect} {p : Device → Bool} {d : Device} (hd : s.bus.dev cs = some d) : s.devIs cs p = p d := by
  rw [State.devIs, hd]

/-- What the choice of a claim says of its device: a SUSPEND for fill service finds fewer than 8 of them (R120), a RESUME a
suspended erase (R113), a program or an erase a READY device (law 8, R113); a commit's transaction is not granted yet. -/
def Grant.backed (s : State) : Grant → Prop
  | .fillSuspend cs => ∀ d, s.bus.dev cs = some d → d.suspensions < 8
  | .resume cs => ∀ d, s.bus.dev cs = some d → d.state = .eraseSuspended
  | .append _ => s.devIs .cs0 Device.takesProgram = true
  | .bankProgram _ => s.devIs .cs0 Device.takesProgram = true
  | .commit c => c.granted = false ∧ ∀ ps, c.claim = some (ps, true) → s.devIs (deviceOf s.settings ps) Device.takesProgram = true
  | .erase r => s.devIs (deviceOf s.settings r.ps) Device.takesProgram = true
  | _ => True

theorem fillClaim_backed (s : State) (g : Grant) (h : s.fillClaim = some g) : g.backed s := by
  unfold State.fillClaim at h
  dsimp only at h
  split at h
  · injection h with h; subst h; trivial
  · rw [Option.map_eq_some_iff] at h
    obtain ⟨f, hf, rfl⟩ := h
    intro d hd
    have hp := List.find?_some hf
    rw [devIs_eq hd] at hp
    simp only [State.fillSuspendable, Bool.and_eq_true, decide_eq_true_eq] at hp
    exact hp.1.2

theorem pollClaim_backed (s : State) (tie : Bool) (g : Grant) (h : s.pollClaim tie = some g) : g.backed s := by
  unfold State.pollClaim at h
  dsimp only at h
  repeat' split at h
  all_goals first
    | (injection h with h; subst h; trivial)
    | cases h

theorem journalClaim_backed (s : State) (g : Grant) (h : s.journalClaim = some g) : g.backed s := by
  unfold State.journalClaim at h
  repeat' split at h
  all_goals first
    | (injection h with h; subst h; trivial)
    | (cases h; done)
    | (rw [Option.map_eq_some_iff] at h; obtain ⟨q, _, rfl⟩ := h; assumption)

theorem commitClaim_backed (s : State) (g : Grant) (h : s.commitClaim = some g) : g.backed s := by
  unfold State.commitClaim at h
  split at h
  · cases h
  case h_2 c _ =>
    split at h
    · cases h
    case h_2 ps program hc =>
      have hg : c.granted = false := by
        by_contra hn
        rw [CommitRecord.claim, if_pos (by simpa using hn)] at hc
        cases hc
      cases program <;> simp only [Bool.false_eq_true, if_true, if_false, Bool.not_true, Bool.not_false, Bool.true_and,
        Bool.false_and] at h
      · repeat' split at h
        · injection h with h; subst h
          refine ⟨hg, fun ps' e => ?_⟩
          rw [hc] at e
          cases e
        · injection h with h; subst h; trivial
        · cases h
      · split at h
        case isTrue hd =>
          injection h with h; subst h
          refine ⟨hg, fun ps' e => ?_⟩
          rw [hc] at e
          cases e
          exact hd
        case isFalse => cases h

theorem eraseClass_backed (s : State) (g : Grant) (h : s.eraseClass = some g) : g.backed s := by
  unfold State.eraseClass at h
  split at h
  case h_1 x hx =>
    injection h with h; subst h
    unfold State.loadResumeClaim at hx
    repeat' split at hx
    all_goals first
      | (injection hx with hx; subst hx; trivial)
      | cases hx
  case h_2 =>
    split at h
    case h_1 cs rest hr =>
      injection h with h; subst h
      intro d hd
      have hm : cs ∈ s.bus.resumesDue.filter fun cs => s.resumeDue cs := by rw [hr]; simp
      have hd' := (List.mem_filter.1 hm).2
      simp only [State.resumeDue, hd, Bool.and_eq_true, beq_iff_eq] at hd'
      exact hd'.1.1
    case h_2 =>
      unfold State.eraseClaim at h
      repeat' split at h
      · cases h
      case isTrue hc => injection h with h; subst h; exact (Bool.and_eq_true_iff.1 hc).2
      · cases h

/-- The chosen claim is backed by its device; the burst count stays at most 8 (R119). -/
theorem chosen_backed (s : State) (tie : Bool) (g : Grant) (b : Nat) (h : s.chosen tie = some (g, b)) :
    (s.bus.burst ≤ 8 → b ≤ 8) ∧ g.backed s := by
  have pair : ∀ {x : Grant} {n : Nat}, some (x, n) = some (g, b) → x = g ∧ n = b := fun e => by
    injection e with e; injection e with e1 e2; exact ⟨e1, e2⟩
  unfold State.chosen at h
  split at h
  case isTrue =>
    split at h
    case h_1 x hx => obtain ⟨rfl, rfl⟩ := pair h; exact ⟨fun _ => Nat.zero_le _, journalClaim_backed s _ hx⟩
    case h_2 =>
      rw [Option.map_eq_some_iff] at h
      obtain ⟨x, hx, he⟩ := h
      injection he with h1 h2; subst h1 h2
      exact ⟨fun _ => Nat.zero_le _, commitClaim_backed s _ hx⟩
  case isFalse hc =>
    unfold State.inOrder at h
    split at h
    case h_1 x hx =>
      obtain ⟨rfl, rfl⟩ := pair h
      refine ⟨fun hb => ?_, fillClaim_backed s _ hx⟩
      split
      case isTrue ho =>
        have hn : s.bus.burst ≠ 8 := fun e => hc (by simp [Config.burstMax, e, ho])
        omega
      case isFalse => exact Nat.zero_le _
    case h_2 =>
      split at h
      case h_1 x hx => obtain ⟨rfl, rfl⟩ := pair h; exact ⟨id, pollClaim_backed s tie _ hx⟩
      case h_2 =>
        split at h
        case h_1 x hx => obtain ⟨rfl, rfl⟩ := pair h; exact ⟨fun _ => Nat.zero_le _, journalClaim_backed s _ hx⟩
        case h_2 =>
          split at h
          case h_1 x hx => obtain ⟨rfl, rfl⟩ := pair h; exact ⟨fun _ => Nat.zero_le _, commitClaim_backed s _ hx⟩
          case h_2 =>
            rw [Option.map_eq_some_iff] at h
            obtain ⟨x, hx, he⟩ := h
            injection he with h1 h2; subst h1 h2
            exact ⟨id, eraseClass_backed s _ hx⟩

/-! ## Grants -/

theorem Keeps.grantFill {f} (h : Keeps s t) : Keeps s (t.grantFill f) := by
  unfold State.grantFill
  dsimp only
  refine Keeps.beginRead (Keeps.mapDev (h.setReads (ReadUnit.issue_wf _ _ _)) fun d _ k => ?_) (Or.inl rfl)
  split
  · exact ⟨⟨k.1, k.2.1, k.2.2.1, Nat.min_le_left _ _⟩, fun u c => by cases u <;> exact c⟩
  · exact ⟨k, fun _ c => c⟩

theorem Keeps.grantSuspend {cs c} (h : Keeps s t)
    (k : s.bus.wf → c = true → ∀ d, t.bus.dev cs = some d → d.suspensions < 8) : Keeps s (t.grantSuspend cs c) := by
  unfold State.grantSuspend
  refine Keeps.begin (Keeps.mapDevOf h fun w d hd q => ⟨⟨q.1, q.2.1, ?_, Nat.zero_le _⟩, fun tx _ _ x => ?_⟩)
    fun _ _ _ => trivial
  · dsimp only
    split
    case isTrue hc => have := k w hc d hd; omega
    case isFalse => exact q.2.2.1
  · revert x; cases tx.use <;> exact id

theorem Keeps.grantPoll {cs} (h : Keeps s t) : Keeps s (t.grantPoll cs) :=
  Keeps.begin (h.setBus fun w => FlashBus.wf_of_same _ _ w rfl rfl rfl (Or.inr rfl)) fun _ _ _ => trivial

theorem Keeps.grantAppend {q} (h : Keeps s t) : Keeps s (t.grantAppend q) := by
  unfold State.grantAppend
  repeat' split
  · exact Keeps.setFenced h
  · exact h
  · exact Keeps.beginProgram h.setJournal

theorem Keeps.grantBankProgram {r} (h : Keeps s t) : Keeps s (t.grantBankProgram r) := by
  unfold State.grantBankProgram
  dsimp only
  split
  · exact Keeps.setFenced h
  · exact Keeps.beginProgram h.setJournal

theorem Keeps.grantCommit {c} (h : Keeps s t) : Keeps s (t.grantCommit c) := by
  unfold State.grantCommit
  dsimp only
  split
  · exact Keeps.beginRead h.setCommit (Or.inr (Or.inl rfl))
  · exact Keeps.beginRead h.setCommit (Or.inr (Or.inl rfl))
  · exact Keeps.beginRead h.setCommit (Or.inr (Or.inl rfl))
  · exact Keeps.beginProgram h.setCommit
  · exact Keeps.beginProgram h.setCommit
  · exact h

theorem Keeps.grantErase {r} (h : Keeps s t) : Keeps s (t.grantErase r) := by
  unfold State.grantErase
  dsimp only
  split
  · exact Keeps.invalidateLines (Keeps.beginErase h.setErase)
  · exact Keeps.beginErase h.setErase

theorem Keeps.grantResume {cs} (h : Keeps s t)
    (k : ∀ d, t.bus.dev cs = some d → d.state = .eraseSuspended) : Keeps s (t.grantResume cs) := by
  unfold State.grantResume
  dsimp only
  refine Keeps.begin (Keeps.setBus (Keeps.mapDev h fun _ _ w => ⟨w, fun u c => by cases u <;> exact c⟩)
    fun w => FlashBus.wf_of_same _ _ w rfl rfl rfl (Or.inr rfl)) fun _ d hd => Or.inl ?_
  have hd' : ((t.bus.setDev cs ((t.bus.dev cs).map fun d =>
      { d with resumedInQuiesce := d.resumedInQuiesce || t.bridge.state == .quiesce })).dev cs) = some d := by
    cases cs <;> exact hd
  rw [FlashBus.setDev_dev, if_pos rfl, Option.map_eq_some_iff] at hd'
  obtain ⟨e, he, rfl⟩ := hd'
  exact k e he

theorem Keeps.grantLoadResume {cs} (h : Keeps s t) : Keeps s (t.grant (.loadResume cs)) := by
  refine Keeps.begin (Keeps.mapDev h fun _ _ w => ⟨w, fun u c => ?_⟩) fun _ d hd => Or.inr ?_
  · cases u <;> first | exact c | exact Or.inr rfl
  · have hd' : ((t.bus.setDev cs ((t.bus.dev cs).map fun d => { d with resumeStep := .pollWaits })).dev cs) = some d := by
      cases cs <;> exact hd
    rw [FlashBus.setDev_dev, if_pos rfl, Option.map_eq_some_iff] at hd'
    obtain ⟨e, _, rfl⟩ := hd'
    rfl

/-- A grant that its device backs keeps the laws. -/
theorem Keeps.grant {g} (h : Keeps s t) (k : g.backed t) : Keeps s (t.grant g) := by
  cases g with
  | fill f => exact Keeps.grantFill h
  | fillSuspend cs => exact Keeps.grantSuspend h fun _ _ => k
  | poll cs => exact Keeps.grantPoll h
  | descriptor l => exact Keeps.beginRead h (Or.inr (Or.inr (Or.inl rfl)))
  | bankRead b w => exact Keeps.beginRead h (Or.inr (Or.inr (Or.inr rfl)))
  | append q => exact Keeps.grantAppend h
  | bankProgram r => exact Keeps.grantBankProgram h
  | commit c => exact Keeps.grantCommit h
  | commitSuspend cs => exact Keeps.grantSuspend h fun _ e => absurd e (by simp)
  | loadResume cs => exact Keeps.grantLoadResume h
  | resume cs => exact Keeps.grantResume h k
  | erase r => exact Keeps.grantErase h

theorem Keeps.setBurst {b} (h : Keeps s t) (k : s.bus.wf → b ≤ 8) : Keeps s (t.setBus { t.bus with burst := b }) :=
  h.setBusOf fun w => ⟨k w, fun cs d hd => (h.bus w).2 cs d (by cases cs <;> exact hd)⟩

/-- A grant. -/
theorem State.arbitrate_keeps (s : State) (tie : Bool) : Keeps s (s.arbitrate tie) := by
  unfold State.arbitrate
  have hn : Keeps s s.noteResumes := (Keeps.refl s).noteResumes
  split
  · exact hn
  case h_2 g b hg =>
    obtain ⟨hb, hk⟩ := chosen_backed _ _ _ _ hg
    dsimp only
    split
    · exact Keeps.setBurst (Keeps.grant hn hk) fun w => hb (hn.bus w).1
    · exact Keeps.grant hn hk

/-! ## Fills, frames, polls and timeouts -/

theorem Keeps.takeFill {l} (h : Keeps s t) : Keeps s (t.takeFill l) := by
  unfold State.takeFill
  split
  · split
    · exact h.busIdle
    · unfold State.fillComplete
      dsimp only
      refine Keeps.answerInOrder (h.busIdle.setReads fun w => ReadUnit.filterFills_wf _ _ ?_)
      split
      · exact w
      · exact ReadUnit.install_wf _ _ w
  · exact h

/-- The last frame of a transaction ends: its device record may change as one that carries it. -/
theorem Keeps.endFrame {f tx} (h : Keeps s t) (ht : t.bus.tx = some tx) (k : ∀ d : Device, d.wf → d.carries tx.use → (f d).wf) :
    Keeps s (t.busIdle.mapDev tx.cs f) := by
  refine h.busIdle.mapDevOf fun w d hd q => ⟨k d q (((h.bus w).2 tx.cs d ?_).2 tx ht rfl), fun y e => ?_⟩
  · cases hc : tx.cs <;> rw [hc] at hd <;> exact hd
  · cases (show none = some y from e)

theorem Keeps.frameEnd (h : Keeps s t) : Keeps s t.frameEnd := by
  unfold State.frameEnd
  split
  · exact h
  case h_2 tx ht =>
    split
    case h_1 hu =>
      refine h.endFrame ht fun d w c => ⟨w.1, fun e => ?_, w.2.2⟩
      rw [hu] at c
      exact absurd (c.1.symm.trans e) (by decide)
    case h_2 hu =>
      refine h.endFrame ht fun d w c => ⟨w.1, fun e => ?_, w.2.2⟩
      rw [hu] at c
      exact absurd (c.1.symm.trans e) (by decide)
    case h_3 => exact h.endFrame ht fun d w _ => w
    case h_4 hu =>
      refine h.endFrame ht fun d w c => ?_
      unfold Device.resumeEnd
      split
      case isTrue => exact w
      case isFalse hn =>
        rw [hu] at c
        have hs : d.state = .eraseSuspended := c.resolve_right fun e => hn (by rw [e]; rfl)
        exact ⟨by rw [w.1, hs]; rfl, fun e => (by cases e), w.2.2⟩
    case h_5 => exact h

theorem FlashBus.addPoll_wf (x : FlashBus) (cs : ChipSelect) (h : x.wf) : (x.addPoll cs).wf := by
  unfold FlashBus.addPoll
  split
  · exact h
  · exact FlashBus.wf_of_same _ _ h rfl rfl rfl (Or.inr rfl)

theorem Keeps.pollExpires {cs} (h : Keeps s t) : Keeps s (t.pollExpires cs) := by
  unfold State.pollExpires
  split
  · have k : Keeps t (t.mapDev cs fun d => { d with pollTimer := false }) :=
      (Keeps.refl t).mapDev fun _ _ w => ⟨w, fun u c => by cases u <;> exact c⟩
    exact h.setBus fun w => FlashBus.addPoll_wf _ _ (k.bus w)
  · exact h

theorem Keeps.endOperation {o ok} (h : Keeps s t) : Keeps s (t.endOperation o ok) := by
  unfold State.endOperation
  split
  · exact h
  · exact Keeps.tellOwner h

theorem Keeps.loadAdvance (h : Keeps s t) : Keeps s t.loadAdvance := by
  unfold State.loadAdvance
  split
  case isTrue hc =>
    have hb : t.bridge.state = .load := by simp only [Bool.and_eq_true, beq_iff_eq] at hc; exact hc.1.1.1.1
    split
    · exact Keeps.enterRaw (Or.inl hb) h.raise
    · refine h.setBridge (by simp [hb]) (fun x => x) fun x => ?_
      simp [Bridge.hasSettings, hb] at x
  case isFalse => exact h

theorem Keeps.loadEnd (h : Keeps s t) : Keeps s t.loadEnd := by
  unfold State.loadEnd
  split
  case isTrue hc =>
    simp only [Bool.and_eq_true, beq_iff_eq] at hc
    refine Keeps.setJournal (h.setBridge (by simp) (fun _ => ?_) fun _ => ?_)
    · simp [BridgeState.early, hc.1.1.1.1]
    · simp [Bridge.hasSettings, hc.1.1.1.2]
  case isFalse => exact h

/-- The operation of a device whose state is known. -/
theorem Device.wf_op {d : Device} (w : d.wf) {st : DeviceState} (h : d.state = st) :
    d.op.map Operation.kind = st.opKind := h ▸ w.1

theorem Keeps.polled {cs d b} (h : Keeps s t) (hd : s.bus.wf → d.wf) (ht : t.bus.tx = none) :
    Keeps s (t.polled cs d b) := by
  have hr : s.bus.wf → Device.wf d.nowReady :=
    fun _ => ⟨rfl, fun e => (by cases e), Nat.zero_le _, Nat.zero_le _⟩
  have he : s.bus.wf → Device.wf d.resumedErase :=
    fun _ => ⟨rfl, fun e => (by cases e), Nat.zero_le _, Nat.zero_le _⟩
  unfold State.polled
  repeat' split
  · exact Keeps.loadEnd (h.settle he ht)
  · exact h.setBusOf fun w => FlashBus.setDev_wf _ _ _ (h.bus w) ⟨hd w, fun tx e => by rw [ht] at e; cases e⟩
  · exact Keeps.loadEnd (h.settle hr ht)
  · exact Keeps.loadAdvance (h.settle hr ht)
  · exact h
  · exact Keeps.endOperation (h.settle hr ht)
  case h_4.isTrue hs _ =>
    exact h.settle (fun w => ⟨(Device.wf_op (hd w) hs).trans rfl, fun _ => rfl, (hd w).2.2⟩) ht
  · exact Keeps.endOperation (h.settle hr ht)
  · exact h
  · exact h.settle hr ht

/-- A poll. -/
theorem State.takePoll_keeps (s : State) (b : Byte) : Keeps s (s.takePoll b) := by
  unfold State.takePoll
  repeat' split
  · exact Keeps.refl s
  · exact (Keeps.refl s).busIdle
  case h_2 d hd => exact Keeps.polled (Keeps.refl s).busIdle (fun w => (w.2 _ d hd).1) rfl
  · exact Keeps.refl s

/-- An event received among those of another block keeps what the block's own work keeps. -/
theorem Keeps.raiseAmong {e f} (h : Keeps s t) (k : ∀ u, Keeps u (f u)) : Keeps s (t.raiseAmong e f) := by
  have q := k (t.setEvents ⟨[], 0, .armed⟩)
  refine h.trans ⟨q.pins, q.pending, q.lock, q.guards, q.on, fun w => receiveAll_wf _ _ w, q.port, q.reads, q.bus, q.wcb⟩

/-- A device whose timer runs carries no program, no erase and no RESUME but that of R31. -/
theorem Device.carries_running {d e : Device} (w : d.wf) (h : d.opTimer = .running) (k : d.resumeStep = e.resumeStep)
    {u : BusUse} (c : d.carries u) : e.carries u := by
  cases u with
  | program => exact absurd (h.symm.trans c.2) (by decide)
  | erase => exact absurd (h.symm.trans c.2) (by decide)
  | resume =>
    refine Or.inr (k ▸ c.resolve_left fun hs => ?_)
    exact absurd (h.symm.trans (w.2.1 hs)) (by decide)
  | _ => trivial

/-- A timeout in a state that keeps the laws of the bus. -/
theorem State.operationTimeout_keeps (s : State) (cs : ChipSelect) : Keeps s (s.operationTimeout cs) := by
  unfold State.operationTimeout
  repeat' split
  · exact Keeps.refl s
  case h_2.isTrue d hd hr =>
    unfold State.timedOut
    refine Keeps.raiseAmong ((Keeps.refl s).setBus fun w => FlashBus.setDev_wf _ _ _ w
      ⟨⟨rfl, fun e => (by cases e), Nat.zero_le _, Nat.zero_le _⟩, fun tx e c => ?_⟩) fun u => Keeps.endOperation (Keeps.refl u)
    obtain ⟨w1, w2⟩ := w.2 cs d hd
    have hr' : d.opTimer = .running := by simpa using hr
    exact Device.carries_running (e := d.nowStuck) w1 hr' rfl (w2 tx e c)
  · exact Keeps.refl s

theorem State.loadPollTimeout_keeps (s : State) (cs : ChipSelect) : Keeps s (s.loadPollTimeout cs) := by
  unfold State.loadPollTimeout
  repeat' split
  · exact Keeps.refl s
  case h_2.isTrue d hd hr =>
    have hs : d.state = .unknown := by simpa using (Bool.and_eq_true_iff.1 hr).2
    refine Keeps.loadAdvance (Keeps.raise ((Keeps.refl s).setBus fun w => FlashBus.setDev_wf _ _ _ w ⟨?_, fun tx e c => ?_⟩))
    · exact ⟨(Device.wf_op (w.2 cs d hd).1 hs).trans rfl, fun e => (by cases e), (w.2 cs d hd).1.2.2⟩
    · have k := (w.2 cs d hd).2 tx e c
      cases hu : tx.use <;> rw [hu] at k <;> first | trivial | skip
      · exact absurd (hs.symm.trans k.1) (by decide)
      · exact absurd (hs.symm.trans k.1) (by decide)
      · exact Or.inr (k.resolve_left fun e => absurd (hs.symm.trans e) (by decide))
  · exact Keeps.refl s

/-! ## LOAD -/

/-- A descriptor whose eleven checks pass has H from 8 to 14 (R22, R27). -/
theorem adopted_highMark (d : List Byte) (h : descriptorIndex d = 0) :
    8 ≤ (adopted d).highMark ∧ (adopted d).highMark ≤ 14 := by
  have h8 : checkPasses d 8 = true := by
    by_contra hc
    unfold descriptorIndex at h
    cases hf : ([1, 2, 3, 4, 5, 6, 7, 8, 9, 10, 11] : List Nat).find? (fun i => !checkPasses d i) with
    | none =>
      have := List.find?_eq_none.1 hf 8 (by decide)
      simp at this
      exact hc this
    | some i =>
      have hm := List.mem_of_find?_eq_some hf
      rw [hf] at h
      simp only [Option.getD_some] at h
      subst h
      simp at hm
  simp only [checkPasses, within, Bool.and_eq_true, decide_eq_true_eq] at h8
  exact h8.1.1.1.1

theorem Keeps.validate {d} (h : Keeps s t) (hb : t.bridge.state = .load) (ht : t.bus.tx = none) : Keeps s (t.validate d) := by
  unfold State.validate
  split
  case isTrue hd =>
    unfold State.adopt
    dsimp only
    refine h.trans ⟨rfl, rfl, rfl, rfl, id, id, id, id, fun w => ?_, fun w => ?_⟩
    · refine ⟨w.1, fun cs x hx => ⟨?_, fun tx e => by cases (show none = some tx from ht ▸ e)⟩⟩
      cases cs
      · simp only [FlashBus.dev] at hx
        rw [Option.map_eq_some_iff] at hx
        obtain ⟨y, hy, rfl⟩ := hx
        exact (w.2 .cs0 y hy).1
      · simp only [FlashBus.dev] at hx
        split at hx
        · rw [Option.map_eq_some_iff] at hx
          obtain ⟨y, hy, rfl⟩ := hx
          have := (w.2 .cs1 y hy).1
          split <;> exact this
        · simp at hx
    · obtain ⟨w1, w2, w3⟩ := w
      obtain ⟨e1, e2⟩ := w2 (by simp [BridgeState.early, hb])
      refine ⟨⟨w1.1, ?_, fun _ => Or.inr (by simp [Wcb.occupancy, e1]), fun hh => ?_⟩, fun _ => ⟨e1, e2⟩, fun _ => ?_⟩
      · simp [Wcb.occupancy, e1]
      · simp [e2] at hh
      · exact adopted_highMark d hd
  case isFalse =>
    exact Keeps.enterRaw (Or.inl hb) (Keeps.raise (h.setBridge (by simp [hb]) (fun x => x) fun x => x))

theorem Keeps.takeDescriptorLine {l} (h : Keeps s t) : Keeps s (t.takeDescriptorLine l) := by
  unfold State.takeDescriptorLine
  repeat' split
  · exact h.busIdle
  case isTrue.isFalse hc =>
    simp only [Bool.or_eq_true, bne_iff_ne, ne_eq, not_or, not_not] at hc
    unfold State.descriptorRead
    split
    · refine h.busIdle.setBridge (by simp [State.busIdle, hc.2]) (fun x => x) fun x => ?_
      simp [Bridge.hasSettings, State.busIdle, hc.2] at x
    · exact Keeps.validate h.busIdle hc.2 rfl
    · exact h.busIdle
  · exact h

theorem Keeps.takeBankWindow {w} (h : Keeps s t) : Keeps s (t.takeBankWindow w) := by
  unfold State.takeBankWindow
  repeat' split
  · exact h.busIdle
  case isTrue.isFalse hc =>
    simp only [Bool.or_eq_true, bne_iff_ne, ne_eq, not_or, not_not] at hc
    exact Keeps.rebuildRead hc.2 h.busIdle
  · exact h

/-! ## Buffer, commit, erase, compaction, expiry -/

theorem Keeps.commitOffer (h : Keeps s t) : Keeps s t.commitOffer := by
  unfold State.commitOffer
  split
  · exact h
  · exact Keeps.commitStart h.capture

theorem Keeps.takeCommitRead {b} (h : Keeps s t) : Keeps s (t.takeCommitRead b) := by
  unfold State.takeCommitRead
  split
  · exact Keeps.commitReadEnd h.busIdle
  · exact h

theorem Keeps.eraseNext (h : Keeps s t) : Keeps s t.eraseNext := by
  unfold State.eraseNext State.eraseChoice
  repeat' split
  all_goals first
    | exact h
    | exact h.setErase

theorem Keeps.compactionStart (h : Keeps s t) : Keeps s t.compactionStart := by
  unfold State.compactionStart State.startCompaction
  split
  · exact h
  · exact h.setJournal

theorem Keeps.expire (h : Keeps s t) (hb : t.bridge.state ≠ .reset) : Keeps s t.expire := by
  unfold State.expire
  exact Keeps.raise (Keeps.commitExpire (Keeps.abandonBuffer (h.setBridge hb (fun x => x) fun x => x)))

/-! ## Requests -/

/-- A new WAITING entry keeps law 10 where its tag is free and there is room (R39). -/
theorem Port.admit_wf (p : Port) (e : PendEntry) (he : e.phase = .waiting) (h : p.wf) (hf : p.holds e.id = false)
    (hl : p.pending.length < 32) : ({ p with pending := p.pending ++ [e] } : Port).wf := by
  obtain ⟨h1, h2, h3, h4, h5⟩ := h
  have hn : ∀ x ∈ p.pending, x.id ≠ e.id := by
    intro x hx hc
    have := List.any_eq_false.1 hf x hx
    simp [hc] at this
  refine ⟨by simpa using hl, ?_, h3, ?_, h5⟩
  · rw [List.map_append, List.nodup_append]
    refine ⟨h2, by simp, ?_⟩
    intro a ha b hb
    obtain ⟨x, hx, rfl⟩ := List.mem_map.1 ha
    simp only [List.map_cons, List.map_nil, List.mem_singleton] at hb
    subst hb
    exact hn x hx
  · intro id
    rw [h4 id]
    constructor
    · rintro ⟨x, hx, hp⟩
      exact ⟨x, by simp [hx], hp⟩
    · rintro ⟨x, hx, hp⟩
      rcases List.mem_append.1 hx with hx | hx
      · exact ⟨x, hx, hp⟩
      · simp only [List.mem_singleton] at hx
        subst hx
        exact absurd he hp.2

/-- The port has room for a new request. -/
theorem reqReady_room (s : State) (h : s.reqReady = true) : s.port.pending.length < 32 ∧ s.port.slot = none := by
  unfold State.reqReady at h
  split at h
  all_goals first
    | cases h
    | (rw [Bool.and_eq_true] at h
       exact ⟨of_decide_eq_true h.1, by simpa using h.2⟩)

theorem Keeps.listEntry {kind src place snap} (h : Keeps s t) (hf : t.port.holds (tagOf src) = false)
    (hl : t.port.pending.length < 32) : Keeps s (t.listEntry kind src place snap) := by
  refine h.setPort fun w => Port.admit_wf _ ⟨tagOf src, kind, src.privileged, place, snap, .waiting⟩ rfl w hf hl

theorem Keeps.refuse {kind src st ev place} (h : Keeps s t) (hf : t.port.holds (tagOf src) = false)
    (hl : t.port.pending.length < 32) : Keeps s (t.refuse kind src st ev place) :=
  Keeps.raiseOpt (Keeps.answer (Keeps.listEntry h hf hl))

theorem Keeps.refuseDuplicate {src st ev} (h : Keeps s t) (hs : t.port.slot = none) :
    Keeps s (t.refuseDuplicate src st ev) := by
  refine Keeps.raiseOpt (h.setPort fun w => ?_)
  obtain ⟨h1, h2, h3, h4, h5⟩ := w
  have hn : AnswerRef.slot ∉ t.port.answers := by
    intro hm
    have := h5.1 hm
    simp [hs] at this
  refine ⟨h1, h2, ?_, ?_, by simp⟩
  · simp only [List.nodup_append]
    refine ⟨h3, by simp, ?_⟩
    intro a ha b hb
    simp only [List.mem_singleton] at hb
    subst hb
    rintro rfl
    exact hn ha
  · intro id
    simp [h4 id]

theorem Keeps.accept {kind src addr len} {route : Place → State}
    (k : t.serving = true → t.port.holds (tagOf src) = false → t.port.pending.length < 32 → ∀ p, Keeps s (route p))
    (h : Keeps s t) : Keeps s (t.accept kind src addr len route) := by
  unfold State.accept
  split
  · exact h
  case isFalse hr =>
    obtain ⟨r1, r2⟩ := reqReady_room t (by simpa using hr)
    split
    · split <;> exact Keeps.refuseDuplicate h r2
    case isFalse hh =>
      have hh' : t.port.holds (tagOf src) = false := by simpa using hh
      split
      · exact Keeps.refuse h hh' r1
      case isFalse hs =>
        split
        · exact Keeps.refuse h hh' r1
        · exact k (by simpa using hs) hh' r1 _

theorem serving_hasSettings (h : t.serving = true) : t.bridge.hasSettings = true ∧ t.bridge.state.early = false := by
  simp only [State.serving, Bool.or_eq_true, beq_iff_eq] at h
  rcases h with h | h <;> simp [Bridge.hasSettings, BridgeState.early, h]

theorem Keeps.takeWrite {p d x} (h : Keeps s t) (hs : t.serving = true) (hx : t.wcb.takeWrite t.settings p d = some x) :
    Keeps s (t.setWcb x) := by
  refine h.setWcb fun w => ⟨?_, ?_, w.2.2⟩
  · exact Wcb.takeWrite_wf _ _ _ _ _ (show 0 < t.settings.highMark from lt_of_lt_of_le (by decide) (w.2.2 (serving_hasSettings hs).1).1) w.1 hx
  · intro he
    rw [show (t.setWcb x).bridge.state.early = t.bridge.state.early from rfl, (serving_hasSettings hs).2] at he
    simp at he

theorem Keeps.setWaits {l} (h : Keeps s t) : Keeps s (t.setWcb { t.wcb with waits := l }) :=
  h.setWcbOf (fun _ w => w) fun e k => ⟨e, k⟩

theorem Keeps.routeRead {src p} (h : Keeps s t) (hf : t.port.holds (tagOf src) = false)
    (hl : t.port.pending.length < 32) : Keeps s (t.routeRead src p) := by
  unfold State.routeRead
  dsimp only
  split
  · exact Keeps.answer (Keeps.listEntry h hf hl)
  · split
    case h_1 x hx =>
      split
      · exact Keeps.answer ((Keeps.listEntry h hf hl).setReads (ReadUnit.touch_wf _ _ (List.mem_of_find?_eq_some hx)))
      · exact (Keeps.listEntry h hf hl).setReads (ReadUnit.miss_wf _ _ _ _)
    case h_2 => exact (Keeps.listEntry h hf hl).setReads (ReadUnit.miss_wf _ _ _ _)

theorem Keeps.routeDurable {kind src addr d p} (h : Keeps s t) (hs : t.serving = true)
    (hf : t.port.holds (tagOf src) = false) (hl : t.port.pending.length < 32) :
    Keeps s (t.routeDurable kind src addr d p) := by
  unfold State.routeDurable
  split
  · exact Keeps.refuse h hf hl
  case h_2 x hx =>
    have k : Keeps s ((t.listEntry kind src (some p) []).setWcb x) :=
      Keeps.takeWrite (t := t.listEntry kind src (some p) []) (Keeps.listEntry h hf hl) hs hx
    exact Keeps.setWaits k

theorem Keeps.routeWrite {src addr d p} (h : Keeps s t) (hs : t.serving = true)
    (hf : t.port.holds (tagOf src) = false) (hl : t.port.pending.length < 32) :
    Keeps s (t.routeWrite src addr d p) := by
  unfold State.routeWrite
  split
  · exact Keeps.routeDurable h hs hf hl
  · split
    · exact Keeps.refuse h hf hl
    case h_2 x hx =>
      exact Keeps.answer (Keeps.takeWrite (t := t.listEntry .write src (some p) []) (Keeps.listEntry h hf hl) hs hx)

theorem Keeps.acceptBarrier {src} (h : Keeps s t) : Keeps s (t.acceptBarrier src) := by
  unfold State.acceptBarrier
  split
  · exact h
  case isFalse hr =>
    obtain ⟨r1, r2⟩ := reqReady_room t (by simpa using hr)
    split
    · split <;> exact Keeps.refuseDuplicate h r2
    case isFalse hh =>
      have hh' : t.port.holds (tagOf src) = false := by simpa using hh
      split
      · exact Keeps.refuse h hh' r1
      · unfold State.routeBarrier
        dsimp only
        split
        · exact Keeps.answer (Keeps.listEntry h hh' r1)
        · exact Keeps.setWaits (t := t.listEntry .barrier src none []) (Keeps.listEntry h hh' r1)

/-- The handshake keeps law 10 (R42). -/
theorem Port.taken_wf (p : Port) (h : p.wf) : p.taken.wf := by
  obtain ⟨h1, h2, h3, h4, h5⟩ := h
  unfold Port.taken
  split
  · exact ⟨h1, h2, h3, h4, h5⟩
  case h_2 rest ha =>
    rw [ha] at h3 h4 h5
    have hn := List.nodup_cons.1 h3
    refine ⟨h1, h2, hn.2, fun id => ?_, ?_⟩
    · rw [← h4 id]; simp
    · simp [hn.1]
  case h_3 id rest ha =>
    rw [ha] at h3 h4 h5
    have hn := List.nodup_cons.1 h3
    refine ⟨le_trans (List.length_filter_le _ _) h1, (List.filter_sublist.map _).nodup h2, hn.2, fun i => ?_, ?_⟩
    · constructor
      · intro hm
        obtain ⟨e, he, hi, hp⟩ := (h4 i).1 (List.mem_cons_of_mem _ hm)
        refine ⟨e, List.mem_filter.2 ⟨he, ?_⟩, hi, hp⟩
        simp only [bne_iff_ne, ne_eq]
        rintro hc
        apply hn.1
        rw [← hc, hi]
        exact hm
      · rintro ⟨e, he, hi, hp⟩
        obtain ⟨he, hne⟩ := List.mem_filter.1 he
        have := (h4 i).2 ⟨e, he, hi, hp⟩
        rcases List.mem_cons.1 this with hc | hc
        · injection hc with hc
          simp [hi, hc] at hne
        · exact hc
    · rw [← h5]; simp

theorem Keeps.responseTaken (h : Keeps s t) : Keeps s (t.setPort t.port.taken) := h.setPort (Port.taken_wf _)

/-! ## Link -/

theorem Keeps.inService {u} (h : Keeps s t) (k : Keeps s u) : Keeps s (t.inService u) := by
  unfold State.inService
  split
  · exact k
  · exact Keeps.reply h

theorem Keeps.readEvent (h : Keeps s t) : Keeps s t.readEvent := by
  unfold State.readEvent
  split
  · exact Keeps.reply h
  case h_2 r rest hq =>
    refine Keeps.reply (h.setEvents fun w => ?_)
    obtain ⟨h1, h2, h3⟩ := w
    rw [hq] at h1 h2
    refine ⟨?_, fun x hx => h2 x (List.mem_cons_of_mem _ hx), fun ha => ?_⟩
    · simp only [List.length_cons] at h1; dsimp only; omega
    · have := h3 ha; simp [hq] at this

theorem EventBlock.rearm_wf (e : EventBlock) (h : e.wf) : e.rearm.wf := by
  obtain ⟨h1, h2, h3⟩ := h
  refine ⟨h1, h2, fun ha => ?_⟩
  simp only [EventBlock.rearm] at ha
  split at ha
  case isTrue hq => simpa [EventBlock.rearm, List.isEmpty_iff] using hq
  case isFalse => cases ha

theorem Keeps.ackNotice (h : Keeps s t) : Keeps s t.ackNotice := by
  unfold State.ackNotice
  dsimp only
  refine Keeps.reply (h.setEvents fun w => ?_)
  split
  · exact EventBlock.rearm_wf _ w
  · exact w

theorem Keeps.takeRawErase {ps} (h : Keeps s t) : Keeps s (t.takeRawErase ps) := by
  unfold State.takeRawErase
  repeat' split
  · exact h.setLink
  · exact Keeps.reply h
  · exact h.setErase.setLink

theorem Keeps.readResult {n} (h : Keeps s t) : Keeps s (t.readResult n) := by
  unfold State.readResult State.deliver
  repeat' split
  · exact h.setErase.setLink.setLink
  · exact h.setLink
  · exact h.setLink

end Sys2Proof.Machine
end

