-- ==== Sys2Proof/Laws/Arbiter.lean ====
section
/-! SUPPORT. What a device takes and what a claim is, in the words of Safety.lean, and law 8 at a grant: a program or an erase
that stands on the bus after it found its device READY. -/

namespace Sys2Proof.Machine

/-! ## Devices -/

theorem State.devIs_iff (s : State) (cs : ChipSelect) (p : Device → Bool) :
    s.devIs cs p = true ↔ ∃ d, s.bus.dev cs = some d ∧ p d = true := by
  unfold State.devIs
  cases s.bus.dev cs <;> simp

theorem State.canRead_iff (s : State) (cs : ChipSelect) : s.devIs cs Device.takesRead = true ↔ s.canRead cs := by
  rw [State.devIs_iff]
  simp [State.canRead, Device.takesRead]

theorem State.canProgram_iff (s : State) (cs : ChipSelect) :
    s.devIs cs Device.takesProgram = true ↔ s.canProgram cs := by
  rw [State.devIs_iff]
  simp [State.canProgram, Device.takesProgram]

theorem State.maySuspend_iff (s : State) (d : Device) : s.suspendable d = true ↔ s.maySuspend d := by
  simp only [State.suspendable, State.maySuspend, Bool.and_eq_true, beq_iff_eq, Bool.not_eq_true', Bool.and_eq_false_iff,
    bne_iff_ne, beq_eq_false_iff_ne, and_assoc]
  by_cases hb : s.bridge.state = .quiesce <;> simp [hb]

/-! ## The first member of a list that passes a test -/

theorem find?_split {α : Type} {p : α → Bool} {older younger : List α} {x : α} (hx : p x = true)
    (ho : ∀ y ∈ older, p y = false) : (older ++ x :: younger).find? p = some x := by
  rw [List.find?_append, List.find?_eq_none.2 (by simpa using ho)]
  simp [hx]

theorem filter_split {α : Type} {p : α → Bool} {older younger : List α} {x : α} (hx : p x = true)
    (ho : ∀ y ∈ older, p y = false) : (older ++ x :: younger).filter p = x :: younger.filter p := by
  rw [List.filter_append, List.filter_eq_nil_iff.2 (by simpa using ho)]
  simp [hx]

/-! ## Operations that leave the bus alone -/

theorem State.answerInOrder_bus (s : State) (l : List Response) : (s.answerInOrder l).bus = s.bus := by
  induction l generalizing s with
  | nil => rfl
  | cons r l ih => exact ih (s.answer r.id r.status r.data)

theorem State.completeCommit_bus (s : State) (r : CommitResult) : (s.completeCommit r).1.bus = s.bus := by
  unfold State.completeCommit
  split
  · rfl
  · exact State.answerInOrder_bus _ _

theorem State.commitFailed_bus (s : State) (c : CommitRecord) : (s.commitFailed c).bus = s.bus := by
  have h : (((s.withdrawTake).releaseTarget).withdraw .commit).bus = s.bus := by
    unfold State.releaseTarget
    split <;> rfl
  unfold State.commitFailed
  dsimp only
  split <;> exact (State.completeCommit_bus _ _).trans h

theorem State.commitSwitch_bus (s : State) (c : CommitRecord) (r : Bool) : (s.commitSwitch c r).bus = s.bus := by
  refine (State.completeCommit_bus _ _).trans ?_
  cases r <;> rfl

theorem State.setFenced_bus (s : State) (code : DetailCode) : (s.setFenced code).bus = s.bus := by
  have h1 : ∀ s : State, s.withdrawHeldClaims.bus = s.bus := by
    intro s
    unfold State.withdrawHeldClaims
    repeat' split
    all_goals rfl
  have h2 : ∀ s : State, s.commitFenced.bus = s.bus := by
    intro s
    unfold State.commitFenced
    repeat' split
    all_goals first
      | rfl
      | exact State.commitFailed_bus _ _
      | exact State.commitSwitch_bus _ _ _
  unfold State.setFenced
  split
  · rfl
  · exact (h2 _).trans (h1 _)

/-! ## Law 8 at a grant (R113, R114) -/

/-- What stands on the bus after a grant is no program and no erase, or the one whose device left READY at this grant. -/
def State.exclusive (s t : State) : Prop :=
  ∀ tx, t.bus.tx = some tx → tx.use = .program ∨ tx.use = .erase →
    s.canProgram tx.cs ∧ ∃ d o, t.bus.dev tx.cs = some d ∧ d.op = some o ∧ d.opTimer = .stopped
      ∧ (tx.use = .program → d.state = .busyProgram ∧ o.kind = .program)
      ∧ (tx.use = .erase → d.state = .busyErase ∧ o.kind = .erase)

variable {s t : State}

theorem exclusive_congr {u : State} (h : u.bus = t.bus) (k : s.exclusive t) : s.exclusive u := by
  unfold State.exclusive
  rw [h]
  exact k

theorem exclusive_idle (h : t.bus.tx = none) : s.exclusive t := fun tx e => by rw [h] at e; cases e

theorem exclusive_begin {use : BusUse} {cs : ChipSelect} {addr : Option Nat} {frames : List (List Byte)} (hp : use ≠ .program)
    (he : use ≠ .erase) : s.exclusive (t.begin use cs addr frames) := by
  intro tx e h
  injection e with e
  subst e
  rcases h with h | h
  · exact absurd h hp
  · exact absurd h he

theorem exclusive_program {cs : ChipSelect} {addr : Nat} {bytes : List Byte} {o : Owner} (hb : t.bus = s.bus)
    (h : s.canProgram cs) : s.exclusive (t.beginProgram cs addr bytes o) := by
  obtain ⟨d, hd, hr⟩ := h
  rw [← hb] at hd
  intro tx e _
  have e' : some (⟨.program, cs, some (BitVec.ofNat 24 addr), programFrames t.settings.profile addr bytes⟩ : BusTx) = some tx := by
    rw [← e]; cases cs <;> rfl
  injection e' with e'
  subst e'
  refine ⟨⟨d, hb ▸ hd, hr⟩, d.startProgram addr o, _, ?_, rfl, rfl, fun _ => ⟨rfl, rfl⟩, fun e => by cases e⟩
  cases cs <;> simp [State.beginProgram, State.begin, State.mapDev, State.setDev, State.setBus, FlashBus.setDev,
    FlashBus.dev] at hd ⊢ <;> exact ⟨d, hd, rfl⟩

theorem exclusive_erase {cs : ChipSelect} {addr : Nat} {o : Owner} (hb : t.bus = s.bus)
    (h : s.canProgram cs) : s.exclusive (t.beginErase cs addr o) := by
  obtain ⟨d, hd, hr⟩ := h
  rw [← hb] at hd
  intro tx e _
  have e' : some (⟨.erase, cs, some (BitVec.ofNat 24 addr), eraseFrames t.settings.profile addr⟩ : BusTx) = some tx := by
    rw [← e]; cases cs <;> rfl
  injection e' with e'
  subst e'
  refine ⟨⟨d, hb ▸ hd, hr⟩, d.startErase addr o, _, ?_, rfl, rfl, (fun e => by cases e), fun _ => ⟨rfl, rfl⟩⟩
  cases cs <;> simp [State.beginErase, State.begin, State.mapDev, State.setDev, State.setBus, FlashBus.setDev,
    FlashBus.dev] at hd ⊢ <;> exact ⟨d, hd, rfl⟩

theorem grantCommit_exclusive {c : CommitRecord} (hi : s.bus.tx = none) (h : (Grant.commit c).backed s) :
    s.exclusive (s.grantCommit c) := by
  have hc : ∀ ps, c.claim = some (ps, true) → s.canProgram (deviceOf s.settings ps) :=
    fun ps e => (s.canProgram_iff _).1 (h.2 ps e)
  unfold State.grantCommit
  dsimp only
  split
  · exact exclusive_begin (by decide) (by decide)
  · exact exclusive_begin (by decide) (by decide)
  · exact exclusive_begin (by decide) (by decide)
  case h_4 hw => exact exclusive_program rfl (hc _ (by simp [CommitRecord.claim, h.1, hw]))
  case h_5 hw => exact exclusive_program rfl (hc _ (by simp [CommitRecord.claim, h.1, hw]))
  · exact exclusive_idle hi

theorem grantErase_exclusive {r : EraseRecord} (h : s.canProgram (deviceOf s.settings r.ps)) :
    s.exclusive (s.grantErase r) := by
  have k := exclusive_erase (s := s) (t := s.setErase { s.erase with record := some { r with erasing := true } })
    (addr := deviceAddr s.settings r.ps 0) (o := .erase) rfl h
  generalize hu : (s.setErase { s.erase with record := some { r with erasing := true } }).beginErase
    (deviceOf s.settings r.ps) (deviceAddr s.settings r.ps 0) .erase = u at k
  unfold State.grantErase
  dsimp only
  rw [hu]
  split
  · exact exclusive_congr (State.setReads_bus u _) k
  · exact k

/-- A grant of a claim that its device backs, on an idle bus. -/
theorem grant_exclusive {g : Grant} (hi : s.bus.tx = none) (h : g.backed s) : s.exclusive (s.grant g) := by
  cases g with
  | append q =>
    unfold State.grant State.grantAppend
    dsimp only
    repeat' split
    · exact exclusive_idle ((congrArg FlashBus.tx (s.setFenced_bus _)).trans hi)
    · exact exclusive_idle hi
    · exact exclusive_program rfl ((s.canProgram_iff _).1 h)
  | bankProgram r =>
    unfold State.grant State.grantBankProgram
    dsimp only
    split
    · exact exclusive_idle ((congrArg FlashBus.tx (s.setFenced_bus _)).trans hi)
    · exact exclusive_program rfl ((s.canProgram_iff _).1 h)
  | commit c => exact grantCommit_exclusive hi h
  | erase r => exact grantErase_exclusive ((s.canProgram_iff _).1 h)
  | _ => exact exclusive_begin (by decide) (by decide)

end Sys2Proof.Machine
end

