-- ==== Sys2Proof/Laws/Commit.lean ====
section
/-! SUPPORT. What the stages of a commit do, in the words of Safety.lean. -/

namespace Sys2Proof.Machine

/-- The test of a line as a proposition (R94). -/
theorem State.lineTest_iff (s : State) (c : CommitRecord) (line : Nat) (flash : Line) :
    s.lineTest c line flash = true ↔ s.needsErase c.sector line flash := by
  simp [State.lineTest, lineNeedsSet, State.needsErase, Mask.has, needsSet]

/-- The probe passes over lines that the cache holds (R86, R94). -/
theorem State.probeFrom_known (s : State) (c : CommitRecord) (known rest : List Nat) (found : Bool)
    (hk : ∀ k ∈ known, ∃ x, s.reads.lookup ⟨c.sector, k⟩ = some x) :
    ∃ found' : Bool, s.probeFrom c (known ++ rest) found = s.probeFrom c rest found'
      ∧ (found' = true ↔ found = true
          ∨ ∃ k ∈ known, ∃ x, s.reads.lookup ⟨c.sector, k⟩ = some x ∧ s.needsErase c.sector k x.data) := by
  induction known generalizing found with
  | nil => exact ⟨found, rfl, by simp⟩
  | cons k known ih =>
    obtain ⟨x, hx⟩ := hk k (by simp)
    obtain ⟨f, h1, h2⟩ := ih (found || s.lineTest c k x.data) fun j hj => hk j (List.mem_cons_of_mem _ hj)
    refine ⟨f, ?_, ?_⟩
    · rw [List.cons_append, State.probeFrom, hx]
      exact h1
    · rw [h2, Bool.or_eq_true, State.lineTest_iff]
      constructor
      · rintro ((h | h) | ⟨j, hj, y, hy, n⟩)
        · exact Or.inl h
        · exact Or.inr ⟨k, by simp, x, hx, h⟩
        · exact Or.inr ⟨j, List.mem_cons_of_mem _ hj, y, hy, n⟩
      · rintro (h | ⟨j, hj, y, hy, n⟩)
        · exact Or.inl (Or.inl h)
        · rcases List.mem_cons.1 hj with rfl | hj
          · rw [hx] at hy
            cases hy
            exact Or.inl (Or.inr n)
          · exact Or.inr ⟨j, hj, y, hy, n⟩

/-- The probe with a line to read after the cached ones (R94). -/
theorem State.probeFrom_read {s : State} {c : CommitRecord} {known rest : List Nat} {l : Nat} {found found' : Bool}
    (hk : ∀ k ∈ known, ∃ x, s.reads.lookup ⟨c.sector, k⟩ = some x) (hl : s.reads.lookup ⟨c.sector, l⟩ = none)
    (hf : found' = true ↔ found = true
        ∨ ∃ k ∈ known, ∃ x, s.reads.lookup ⟨c.sector, k⟩ = some x ∧ s.needsErase c.sector k x.data) :
    s.probeFrom c (known ++ l :: rest) found = s.setCommit (some (c.at (.probeRead l rest found'))) := by
  obtain ⟨f, h1, h2⟩ := s.probeFrom_known c known (l :: rest) found hk
  have : f = found' := by
    rw [Bool.eq_iff_iff, h2, hf]
  rw [h1, State.probeFrom, hl, this]

/-- The probe whose lines are all in the cache (R94). -/
theorem State.probeFrom_all {s : State} {c : CommitRecord} {known : List Nat} {found found' : Bool}
    (hk : ∀ k ∈ known, ∃ x, s.reads.lookup ⟨c.sector, k⟩ = some x)
    (hf : found' = true ↔ found = true
        ∨ ∃ k ∈ known, ∃ x, s.reads.lookup ⟨c.sector, k⟩ = some x ∧ s.needsErase c.sector k x.data) :
    s.probeFrom c known found = s.probeEnd c found' := by
  obtain ⟨f, h1, h2⟩ := s.probeFrom_known c known [] found hk
  have : f = found' := by
    rw [Bool.eq_iff_iff, h2, hf]
  rw [List.append_nil] at h1
  rw [h1, State.probeFrom, this]

/-- A byte of a window as built (R98). -/
theorem State.buildWindow_eq (s : State) (c : CommitRecord) (w : Nat) (old : Nat → Byte) :
    s.buildWindow c w old = (List.range 256).map fun pos => s.newByte c w pos (old pos) := by
  unfold State.buildWindow
  refine List.map_congr_left fun pos _ => ?_
  simp [State.newByte, State.marked, State.imageByte, Mask.has]

/-- A window built: programmed, or passed over when it is all FFh (R98). -/
theorem State.copyBuilt_some {s : State} {c : CommitRecord} {w : Nat} {bytes : List Byte} (h : ∃ b ∈ bytes, b ≠ 0xFF) :
    s.copyBuilt c w bytes = s.setCommit (some (c.at (.copyProgram w bytes))) := by
  unfold State.copyBuilt
  have : (bytes.all fun b => b == 0xFF) = false := by
    simpa using h
  rw [this]
  rfl

theorem State.copyBuilt_none {s : State} {c : CommitRecord} {w : Nat} {bytes : List Byte} (h : ∀ b ∈ bytes, b = 0xFF) :
    s.copyBuilt c w bytes = s.copyFrom c (15 - w) := by
  unfold State.copyBuilt
  have : (bytes.all fun b => b == 0xFF) = true := by
    simpa using h
  rw [this]
  rfl

/-- A record asked for under FENCED is refused at once (R140). -/
theorem State.commitAsk_fenced {s : State} (c : CommitRecord) (w : Work) (r : Delta) (refused : State)
    (h : s.journal.fenced = true) : s.commitAsk c w r refused = refused := by
  unfold State.commitAsk
  rw [h]
  rfl

/-- A record asked for joins the queue, and under a full journal is answered so at once (R101, R133). -/
theorem State.commitAsk_eq {s : State} (c : CommitRecord) (w : Work) (r : Delta) (refused : State)
    (h : s.journal.fenced = false) :
    s.commitAsk c w r refused =
      if s.journalFull = true then ((s.enqueue .commit r).setCommit (some (c.at w))).commitFull
      else (s.enqueue .commit r).setCommit (some (c.at w)) := by
  unfold State.commitAsk
  rw [h]
  rfl

/-- The copy at window w: what is planned for it (R98). -/
theorem State.copyFrom_at (s : State) (c : CommitRecord) {w : Nat} (h : w ≤ 15) :
    s.copyFrom c (16 - w) =
      match s.copyPlan c w with
      | .inl work => s.setCommit (some (c.at work))
      | .inr bytes => s.copyBuilt c w bytes := by
  obtain ⟨n, hn⟩ : ∃ n, 16 - w = n + 1 ∧ 15 - n = w ∧ 15 - w = n := ⟨15 - w, by omega, by omega, rfl⟩
  obtain ⟨h1, h2, h3⟩ := hn
  rw [h1, State.copyFrom, h2]
  cases s.copyPlan c w with
  | inl work => rfl
  | inr bytes => simp only [State.copyBuilt, h3]

/-- What a failing commit gives up (R104). -/
theorem State.givenUp_eq (s : State) : ((s.withdrawTake).releaseTarget).withdraw .commit = s.givenUp := by
  unfold State.withdrawTake State.releaseTarget State.withdraw State.givenUp SectorMap.released State.setMap
    State.setJournal
  have hq : ∀ q : QueueItem, (q.begun || q.claimant != .commit) = decide (q.begun = true ∨ q.claimant ≠ .commit) := by
    intro q
    rw [Bool.eq_iff_iff]
    simp
  simp only [hq]
  cases s.map.target <;> simp

/-- A commit that ends FAILED, in the words of the released map (R104, R108). -/
theorem State.commitFailed_eq (s : State) (c : CommitRecord) :
    s.commitFailed c =
      if s.bridge.expired = true then { (s.givenUp.completeCommit .failed).1 with commit := none }
      else State.withEvent { (s.givenUp.completeCommit .failed).1 with commit := none }
        { kind := .commitFailed, value := some (s.givenUp.completeCommit .failed).2,
          location := some (if s.settings.raw = true then .ps c.sector else .ls c.sector) } := by
  unfold State.commitFailed
  rw [State.givenUp_eq]
  rfl

/-! ## The full journal (R101) -/

/-- A release in the words of the released map (R14). -/
theorem State.releaseTarget_eq (s : State) : s.releaseTarget = { s with map := s.map.released } := by
  unfold State.releaseTarget SectorMap.released State.setMap
  cases h : s.map.target with
  | none =>
    rcases s with ⟨_, _, _, _, _, _, _, _, m, _, _, _, _, _, _, _⟩
    rcases m
    cases h
    simp
  | some ps => rfl

/-- A record asked for and given up at once leaves the queue without those of its claimant that wait (R101). -/
theorem State.dropRecords_asked (s : State) (r : Delta) (c : CommitRecord) :
    ((s.enqueue .commit r).setCommit (some c)).dropRecords .commit = { s with
      commit := some c
      journal := { s.journal with queue :=
        (s.journal.queue.filter fun q => decide (q.inProgress = true ∨ q.claimant ≠ .commit)) } } := by
  have hq : ∀ q : QueueItem,
      (q.inProgress || q.claimant != .commit) = decide (q.inProgress = true ∨ q.claimant ≠ .commit) := by
    intro q
    rw [Bool.eq_iff_iff]
    simp
  simp [State.enqueue, State.dropRecords, State.setCommit, State.setJournal, hq, List.filter_append]

/-- A MAP that waits under a full journal (R101). -/
theorem State.commitFull_appendMap {s : State} {c : CommitRecord} (hc : s.commit = some c) (hw : c.work = .appendMap) :
    s.commitFull = if s.bridge.expired = true then (s.dropRecords .commit).commitFailed c
      else ((s.dropRecords .commit).releaseTarget).setCommit
        (some { c.at .allocHeld with target := none, keepAttempts := true }) := by
  simp only [State.commitFull, hc, hw]

/-- A RETIRE(target) that waits under a full journal (R101). -/
theorem State.commitFull_appendRetireTarget {s : State} {c : CommitRecord} (hc : s.commit = some c)
    (hw : c.work = .appendRetireTarget) :
    s.commitFull = if s.bridge.expired = true ∨ 3 ≤ c.attempts then (s.dropRecords .commit).commitFailed c
      else ((s.dropRecords .commit).releaseTarget).setCommit (some { c.at .allocHeld with target := none }) := by
  simp only [State.commitFull, hc, hw, Bool.or_eq_true, decide_eq_true_eq]

/-- The commit record takes no part in a completion (R66). -/
theorem State.completeCommit_commit (s : State) (x : Option CommitRecord) (r : CommitResult) :
    ({ s with commit := x } : State).completeCommit r
      = ({ (s.completeCommit r).1 with commit := x }, (s.completeCommit r).2) := by
  have answered : ∀ (l : List Response) (t : State),
      ({ t with commit := x } : State).answerInOrder l = { t.answerInOrder l with commit := x } := by
    intro l
    induction l with
    | nil => intro t; rfl
    | cons a l ih => intro t; exact ih (t.answer a.id a.status a.data)
  unfold State.completeCommit
  by_cases h : s.wcb.committing.isEmpty = true
  · rw [if_pos h, if_pos (show _ = true from h)]
  · rw [if_neg h, if_neg (show ¬ _ = true from h)]
    refine Prod.ext ?_ rfl
    exact congrArg (fun t : State => t.setFree _) (answered _ (s.setWcb _))

/-- A commit that ends FAILED leaves the same state whatever the record of the state holds (R104). -/
theorem State.commitFailed_commit (s : State) {c d : CommitRecord} (x : Option CommitRecord) (h : d.sector = c.sector) :
    ({ s with commit := x } : State).commitFailed d = s.commitFailed c := by
  rw [State.commitFailed_eq, State.commitFailed_eq, h]
  have e : ({ s with commit := x } : State).givenUp.completeCommit .failed
      = ({ (s.givenUp.completeCommit .failed).1 with commit := x }, (s.givenUp.completeCommit .failed).2) :=
    State.completeCommit_commit s.givenUp x .failed
  rw [e]

end Sys2Proof.Machine
end

