-- ==== Sys2Proof/Laws/FlashLines.lean ====
section
/-! SUPPORT. The flash bus lines bit by bit: what a byte puts out and what the levels of FDI spell (R171). -/

namespace Sys2Proof.Machine

/-- Bit 7 of a byte travels first (R171). -/
theorem msbFirst_eq (b : Byte) : msbFirst b = ([7, 6, 5, 4, 3, 2, 1, 0] : List Nat).map b.getLsbD := rfl

/-- The j-th level of byte i is its bit 7 - j (R171). -/
theorem byteOfLevels_getLsbD (levels : List Bool) (i : Nat) {j : Nat} (h : j < 8) :
    (byteOfLevels levels i).getLsbD (7 - j) = levels.getD (8 * i + j) false := by
  have spell : ∀ (b : Fin 8 → Bool) (k : Fin 8), ((List.finRange 8).foldl
      (fun (x : Byte) m => x <<< 1 ||| (BitVec.ofBool (b m)).setWidth 8) 0).getLsbD (7 - k) = b k := by decide +kernel
  exact spell (fun m => levels.getD (8 * i + m) false) ⟨j, h⟩

/-- The bytes that the levels spell are told by their bits (R171). -/
theorem byteOfLevels_unique (levels : List Bool) (f : Nat → Byte)
    (h : ∀ i j, j < 8 → (f i).getLsbD (7 - j) = levels.getD (8 * i + j) false) : f = byteOfLevels levels := by
  funext i
  refine BitVec.eq_of_getLsbD_eq fun k hk => ?_
  obtain ⟨j, hj, rfl⟩ : ∃ j, j < 8 ∧ 7 - j = k := ⟨7 - k, by omega, by omega⟩
  rw [h i j hj, byteOfLevels_getLsbD levels i hj]

/-- A chip select with no device, its line held low, returns 00h for every byte (R171). -/
theorem byteOfLevels_low (n i : Nat) : byteOfLevels (List.replicate n false) i = 0 := by
  refine (congrFun (byteOfLevels_unique (List.replicate n false) (fun _ => 0) fun i j _ => ?_) i).symm
  rw [List.getD_eq_getElem?_getD, List.getElem?_replicate]
  split <;> simp

end Sys2Proof.Machine
end

