-- ==== Sys2Proof/Laws/LinkWires.lean ====
section
/-! SUPPORT. Transfers on the maintenance link's wires byte by byte: the address byte, a byte of a write, a byte of a read, and
the clocks of a transfer that does not concern the link (R160). -/

namespace Sys2Proof.Machine

variable {s : State} {auth : Bool}

/-! ## The place of a transfer -/

@[simp] theorem State.setFrame_frame (s : State) (f : LinkFrame) : (s.setFrame f).link.frame = f := rfl
@[simp] theorem State.setFrame_setFrame (s : State) (f g : LinkFrame) : (s.setFrame f).setFrame g = s.setFrame g := rfl
@[simp] theorem State.setFrame_storeBytes (s : State) (f : LinkFrame) : (s.setFrame f).storeBytes = s.storeBytes := rfl
@[simp] theorem State.setFrame_store (s : State) (f : LinkFrame) : (s.setFrame f).link.store = s.link.store := rfl
@[simp] theorem State.setFrame_sent (s : State) (f : LinkFrame) : (s.setFrame f).link.sent = s.link.sent := rfl
@[simp] theorem State.setFrame_after (s : State) (f : LinkFrame) (b : Byte) :
    (s.setFrame f).frameAfterAddress b = s.frameAfterAddress b := rfl

/-- Where a transfer stands takes no part in the delivery of a RAW erase's outcome (R165). -/
theorem State.deliver_setFrame (s : State) (f : LinkFrame) : (s.setFrame f).deliver = s.deliver.setFrame f := by
  have e : (s.setFrame f).stored = s.stored := rfl
  cases h : s.link.store <;> simp only [State.deliver, State.setFrame_store, h, e]
  split <;> rfl

theorem State.byteSent_setFrame (s : State) (f g : LinkFrame) (store : List Byte) (place : Nat) :
    ((s.setFrame f).byteSent store place).setFrame g = (s.byteSent store place).setFrame g := by
  simp only [State.byteSent]
  split
  · rw [State.deliver_setFrame]
    rfl
  · rfl

theorem State.setFrame_self (s : State) : s.setFrame s.link.frame = s := rfl

/-! ## The address -/

/-- The address byte names the link while PORST is deasserted and its upper seven bits are 2Ch plus the straps (R160). -/
theorem State.linkAnswers_iff (s : State) (b : Byte) :
    s.linkAnswers b = true ↔ s.pins.porst = false ∧ b.toNat / 2 = 0x2C + s.link.straps.toNat := by
  have upper : ∀ (b : Byte) (x : BitVec 2), ((b >>> 1).setWidth 7 == (0x2C + x.setWidth 7 : BitVec 7)) = true
      ↔ b.toNat / 2 = 0x2C + x.toNat := by decide +kernel
  unfold State.linkAnswers State.linkListens State.linkAddress
  rw [Bool.and_eq_true, upper]
  simp

/-- A START outside a write begins a transfer and does nothing else (R160). -/
theorem State.linkWire_start (h : ∀ bytes bits, s.link.frame ≠ .writing bytes bits)
    (k : ∀ bytes, s.link.frame ≠ .writeAck bytes) : s.linkWire auth .start = s.setFrame (.address []) := by
  simp only [State.linkWire, State.endTransfer]

/-! ## Runs -/

/-- A run over actions put end to end. -/
theorem State.linkRun_append (s : State) (ws vs : List LinkWire) :
    s.linkRun auth (ws ++ vs) = (((s.linkRun auth ws).1.linkRun auth vs).1,
      (s.linkRun auth ws).2 ++ ((s.linkRun auth ws).1.linkRun auth vs).2) := by
  induction ws generalizing s with
  | nil => rfl
  | cons w ws ih =>
    simp only [List.cons_append, State.linkRun, ih]
    cases w <;> rfl

/-- The bits of a byte spell it (R160, R171). -/
theorem byteOfLevels_msbFirst (b : Byte) :
    byteOfLevels [b[7], b[6], b[5], b[4], b[3], b[2], b[1], b[0]] 0 = b := by
  revert b
  decide +kernel

theorem sendClocks_eq (b : Byte) : sendClocks b = [.clock (b.getLsbD 7), .clock (b.getLsbD 6), .clock (b.getLsbD 5),
    .clock (b.getLsbD 4), .clock (b.getLsbD 3), .clock (b.getLsbD 2), .clock (b.getLsbD 1), .clock (b.getLsbD 0)] := rfl

/-- The address byte: nothing is put on SDA, and after it the link acknowledges its own address alone (R160). -/
theorem State.linkRun_address (h : s.link.frame = .address []) (b : Byte) :
    s.linkRun auth (sendClocks b) = (s.setFrame (s.frameAfterAddress b), List.replicate 8 true) := by
  simp [sendClocks_eq, State.linkRun, State.linkWire, State.linkClock, State.linkSda, h, byteOfLevels_msbFirst,
    List.replicate]

/-- A byte of a write with its acknowledge (R160). -/
theorem State.linkRun_byte {bytes : List Byte} (h : s.link.frame = .writing bytes []) (b : Byte) (x : Bool) :
    s.linkRun auth (sendClocks b ++ [.clock x])
      = (s.setFrame (.writing (bytes ++ [b]) []), List.replicate 8 true ++ [false]) := by
  simp [sendClocks_eq, State.linkRun, State.linkWire, State.linkClock, State.linkSda, h, byteOfLevels_msbFirst,
    List.replicate]

/-- The bytes of a write with their acknowledges (R160). -/
theorem State.linkRun_bytes {taken : List Byte} (h : s.link.frame = .writing taken []) (bytes : List Byte) :
    s.linkRun auth (bytes.flatMap fun b => sendClocks b ++ [.clock true])
      = (s.setFrame (.writing (taken ++ bytes) []), bytes.flatMap fun _ => List.replicate 8 true ++ [false]) := by
  induction bytes generalizing s taken with
  | nil =>
    simp only [List.flatMap_nil, List.append_nil, State.linkRun]
    rw [← h, State.setFrame_self]
  | cons b bytes ih =>
    rw [List.flatMap_cons, State.linkRun_append, State.linkRun_byte h, ih (State.setFrame_frame _ _)]
    simp

/-- A byte of a read with the bit in which the controller acknowledges it or not (R160). -/
theorem State.linkRun_sent {store : List Byte} {place : Nat} (h : s.link.frame = .reading store place 0) (x : Bool) :
    s.linkRun auth (List.replicate 8 (.clock true) ++ [.clock x])
      = ((s.byteSent store place).setFrame (if x then .idle else .reading store (place + 1) 0),
          msbFirst (store.getD place 0xFF) ++ [true]) := by
  simp [List.replicate, State.linkRun, State.linkWire, State.linkClock, State.linkSda, h, msbFirst_eq,
    State.byteSent_setFrame]

/-- Clocks of a transfer that does not concern the link are passed over (R160). -/
theorem State.linkRun_idle (h : s.link.frame = .idle) (levels : List Bool) :
    s.linkRun auth (levels.map LinkWire.clock) = (s, levels.map fun _ => true) := by
  induction levels with
  | nil => rfl
  | cons x levels ih =>
    simp only [List.map_cons, State.linkRun, State.linkWire, State.linkClock, State.linkSda, h, ih]

end Sys2Proof.Machine
end

