-- ==== Sys2Proof/Laws/PerInstr.lean ====
section
/-! SUPPORT. One lemma for each command of the family LinkFrame: the bytes of a well-formed command's link write are
malformed only for MALFORMED_WRITE (R160, R170). -/

namespace Sys2Proof.Laws.LinkFrame

/-- The command is MALFORMED_WRITE. -/
def isMalformed : Instr → Bool
  | .malformedWrite _ => true
  | _ => false

/-- The link write of a well-formed command names a command with its number of parameters, but for MALFORMED_WRITE. -/
def Statement (i : Instr) : Prop :=
  ∀ bytes, i.wellFormed = true → encodeLinkWrite i = some bytes → linkMalformed bytes = isMalformed i

/-- A command that is no link write. -/
theorem of_none {i : Instr} (h : encodeLinkWrite i = none) : Statement i := by
  intro bytes _ hb
  rw [h] at hb
  cases hb

/-- A link write of a named command. -/
theorem of_some {i : Instr} {b : List Byte} (h : encodeLinkWrite i = some b) (hm : linkMalformed b = isMalformed i) :
    Statement i := by
  intro bytes _ hb
  rw [h] at hb
  cases hb
  exact hm

/-- LinkFrame of the constructor porstAssert. -/
theorem porstAssert : Statement .porstAssert := of_none rfl

/-- LinkFrame of the constructor resetAssert. -/
theorem resetAssert : Statement .resetAssert := of_none rfl

/-- LinkFrame of the constructor resetRelease. -/
theorem resetRelease : Statement .resetRelease := of_none rfl

/-- LinkFrame of the constructor pfailAssert. -/
theorem pfailAssert : Statement .pfailAssert := of_none rfl

/-- LinkFrame of the constructor resetReqAssert. -/
theorem resetReqAssert : Statement .resetReqAssert := of_none rfl

/-- LinkFrame of the constructor stopAfterTransaction. -/
theorem stopAfterTransaction : Statement .stopAfterTransaction := of_none rfl

/-- LinkFrame of the constructor read. -/
theorem read (src : Source) (addr : BitVec 25) (len : BitVec 7) : Statement (.read src addr len) := of_none rfl

/-- LinkFrame of the constructor write. -/
theorem write (src : Source) (addr : BitVec 25) (len : BitVec 7) (data : Line) : Statement (.write src addr len data) := of_none rfl

/-- LinkFrame of the constructor durableWrite. -/
theorem durableWrite (src : Source) (addr : BitVec 25) (len : BitVec 7) (data : Line) : Statement (.durableWrite src addr len data) := of_none rfl

/-- LinkFrame of the constructor barrier. -/
theorem barrier (src : Source) : Statement (.barrier src) := of_none rfl

/-- LinkFrame of the constructor responseTaken. -/
theorem responseTaken : Statement .responseTaken := of_none rfl

/-- LinkFrame of the constructor lingerExpiry. -/
theorem lingerExpiry : Statement .lingerExpiry := of_none rfl

/-- LinkFrame of the constructor commitOffer. -/
theorem commitOffer : Statement .commitOffer := of_none rfl

/-- LinkFrame of the constructor compactionStart. -/
theorem compactionStart : Statement .compactionStart := of_none rfl

/-- LinkFrame of the constructor eraseClaim. -/
theorem eraseClaim : Statement .eraseClaim := of_none rfl

/-- LinkFrame of the constructor arbiterGrant. -/
theorem arbiterGrant (tie : Bool) : Statement (.arbiterGrant tie) := of_none rfl

/-- LinkFrame of the constructor fillComplete. -/
theorem fillComplete (bytes : Line) : Statement (.fillComplete bytes) := of_none rfl

/-- LinkFrame of the constructor commitReadEnd. -/
theorem commitReadEnd (bytes : List Byte) : Statement (.commitReadEnd bytes) := of_none rfl

/-- LinkFrame of the constructor descriptorReadEnd. -/
theorem descriptorReadEnd (bytes : Line) : Statement (.descriptorReadEnd bytes) := of_none rfl

/-- LinkFrame of the constructor journalReadEnd. -/
theorem journalReadEnd (bytes : Window) : Statement (.journalReadEnd bytes) := of_none rfl

/-- LinkFrame of the constructor commandFrameEnd. -/
theorem commandFrameEnd : Statement .commandFrameEnd := of_none rfl

/-- LinkFrame of the constructor pollDue. -/
theorem pollDue (cs : ChipSelect) : Statement (.pollDue cs) := of_none rfl

/-- LinkFrame of the constructor statusPoll. -/
theorem statusPoll (byte : Byte) : Statement (.statusPoll byte) := of_none rfl

/-- LinkFrame of the constructor operationTimeout. -/
theorem operationTimeout (cs : ChipSelect) : Statement (.operationTimeout cs) := of_none rfl

/-- LinkFrame of the constructor loadPollTimeout. -/
theorem loadPollTimeout (cs : ChipSelect) : Statement (.loadPollTimeout cs) := of_none rfl

/-- LinkFrame of the constructor drainComplete. -/
theorem drainComplete : Statement .drainComplete := of_none rfl

/-- LinkFrame of the constructor quiesceDeadlineExpiry. -/
theorem quiesceDeadlineExpiry : Statement .quiesceDeadlineExpiry := of_none rfl

/-- LinkFrame of the constructor quiesceExitAfterExpiry. -/
theorem quiesceExitAfterExpiry : Statement .quiesceExitAfterExpiry := of_none rfl

/-- LinkFrame of the constructor status. -/
theorem status : Statement .status := of_some rfl rfl

/-- LinkFrame of the constructor eventRead. -/
theorem eventRead : Statement .eventRead := of_some rfl rfl

/-- LinkFrame of the constructor noticeAck. -/
theorem noticeAck : Statement .noticeAck := of_some rfl rfl

/-- LinkFrame of the constructor guardSet. -/
theorem guardSet (slot : Byte) (first last : BitVec 16) (mode lock : Byte) : Statement (.guardSet slot first last mode lock) := of_some rfl rfl

/-- LinkFrame of the constructor guardRead. -/
theorem guardRead (slot : Byte) : Statement (.guardRead slot) := of_some rfl rfl

/-- LinkFrame of the constructor gateOpen. -/
theorem gateOpen (auth : Bool) : Statement (.gateOpen auth) := of_some rfl rfl

/-- LinkFrame of the constructor gateClose. -/
theorem gateClose : Statement .gateClose := of_some rfl rfl

/-- LinkFrame of the constructor gateLock. -/
theorem gateLock : Statement .gateLock := of_some rfl rfl

/-- LinkFrame of the constructor orderlyReset. -/
theorem orderlyReset : Statement .orderlyReset := of_some rfl rfl

/-- LinkFrame of the constructor warmReset. -/
theorem warmReset : Statement .warmReset := of_some rfl rfl

/-- LinkFrame of the constructor rawErase. -/
theorem rawErase (ps : BitVec 16) : Statement (.rawErase ps) := of_some rfl rfl

/-- LinkFrame of the constructor malformedWrite. -/
theorem malformedWrite (bytes : List Byte) : Statement (.malformedWrite bytes) := by
  intro b h hb
  cases hb
  exact h

/-- LinkFrame of the constructor resultRead. -/
theorem resultRead (count : Nat) : Statement (.resultRead count) := of_none rfl

/-- LinkFrame of the constructor pfailDeassert. -/
theorem pfailDeassert : Statement .pfailDeassert := of_none rfl

/-- LinkFrame of the constructor resetReqDeassert. -/
theorem resetReqDeassert : Statement .resetReqDeassert := of_none rfl

/-- LinkFrame of the constructor porstRelease. -/
theorem porstRelease (straps : BitVec 2) : Statement (.porstRelease straps) := of_none rfl

end Sys2Proof.Laws.LinkFrame
end

