-- ==== Sys2Proof/Laws/Rebuild.lean ====
section
/-! SUPPORT. The opening part of a bank as a scan reads it: when it is complete, and that a bad one stays bad (08 R131, R142);
what replay takes from its free list, and the retired set in ascending order (R13, R144, R147). -/

namespace Sys2Proof.Machine

/-! ## Windows that follow -/

/-- What has been read of a bank does not depend on the windows that follow. -/
theorem bytesAt_append (windows more : List Window) (k n : Nat) (h : k < 16 * windows.length) :
    bytesAt (windows ++ more) k n = bytesAt windows k n := by
  unfold bytesAt
  rw [List.getElem?_append_left (by omega)]

theorem scanImages_append (windows more : List Window) (n : Nat) : ∀ (k prev : Nat) (entries : List Nat),
    scanImages windows n k prev entries ≠ .more →
    scanImages (windows ++ more) n k prev entries = scanImages windows n k prev entries := by
  induction n with
  | zero => intro k prev entries _; rfl
  | succ n ih =>
    intro k prev entries h
    have hs : slotsRead windows ≤ slotsRead (windows ++ more) := by simp [slotsRead]
    simp only [scanImages] at h ⊢
    by_cases hl : slotsRead windows < 4 + 4 * k + 4
    · rw [if_pos hl] at h; exact absurd rfl h
    · rw [if_neg hl] at h ⊢
      rw [if_neg (by omega)]
      have : imageAt (windows ++ more) (4 + 4 * k) = imageAt windows (4 + 4 * k) := by
        unfold imageAt; rw [bytesAt_append]; unfold slotsRead at hl; omega
      rw [this]
      split
      · rename_i hv
        rw [hv] at h
        split
        · rename_i hc
          simp only [hc, and_self, if_true] at h
          exact ih _ _ _ h
        · rfl
      · rfl

theorem scanList_append (windows more : List Window) (images fuel : Nat) :
    ∀ (fuel' slot prev : Nat) (free : List Nat) (retired : List RetiredSector), fuel ≤ fuel' →
    scanList windows images fuel slot prev free retired ≠ .more →
    scanList (windows ++ more) images fuel' slot prev free retired
      = scanList windows images fuel slot prev free retired := by
  induction fuel with
  | zero => intro fuel' slot prev free retired _ h; exact absurd rfl h
  | succ fuel ih =>
    intro fuel' slot prev free retired hf h
    obtain ⟨f', rfl⟩ : ∃ f', fuel' = f' + 1 := ⟨fuel' - 1, by omega⟩
    have hs : slotsRead windows ≤ slotsRead (windows ++ more) := by simp [slotsRead]
    simp only [scanList] at h ⊢
    by_cases hl : slotsRead windows ≤ slot
    · rw [if_pos hl] at h; exact absurd rfl h
    · rw [if_neg hl] at h ⊢
      rw [if_neg (by omega)]
      have : slotAt (windows ++ more) slot = slotAt windows slot := by
        unfold slotAt; rw [bytesAt_append]; unfold slotsRead at hl; omega
      rw [this]
      split
      · rename_i hv
        rw [hv] at h
        split
        · rename_i hc
          simp only [hc, if_true] at h
          exact ih _ _ _ _ _ (by omega) h
        · rfl
      · rename_i hv
        rw [hv] at h
        split
        · rename_i hc
          simp only [hc, if_true] at h
          exact ih _ _ _ _ _ (by omega) h
        · rfl
      · rfl
      · rfl

/-- An opening part found bad stays bad with whatever windows follow (R142; log 14). -/
theorem scanOpening_bad_append (c : Settings) (opened : Nat) (windows more : List Window)
    (h : scanOpening c opened windows = .bad) : scanOpening c opened (windows ++ more) = .bad := by
  unfold scanOpening at h ⊢
  cases e : scanImages windows (imageCount c) 0 opened [] with
  | more => simp only [e] at h; cases h
  | bad => rw [scanImages_append _ _ _ _ _ _ (by rw [e]; simp), e]
  | done out =>
    rw [scanImages_append _ _ _ _ _ _ (by rw [e]; simp), e]
    simp only [e] at h ⊢
    have hb : scanList windows (imageCount c) (slotsRead windows) (4 + 4 * imageCount c) out.1 [] [] = .bad := by
      cases e2 : scanList windows (imageCount c) (slotsRead windows) (4 + 4 * imageCount c) out.1 [] [] <;> simp [e2] at h ⊢
    rw [scanList_append windows more _ (slotsRead windows) _ _ _ _ _ (by unfold slotsRead; simp), hb]
    rw [hb]; simp

/-! ## Complete opening parts -/

/-- The images are read to their end exactly where each stands in its place, their numbers rising (R142). -/
theorem scanImages_done_iff (windows : List Window) (n : Nat) :
    ∀ (k prev : Nat) (entries : List Nat) (out : Nat × List Nat),
    scanImages windows n k prev entries = .done out ↔ ∃ images : List (Nat × List Nat), images.length = n
      ∧ (∀ i seq es, images[i]? = some (seq, es) → imageAt windows (4 + 4 * (k + i)) = .valid seq (.image (24 * (k + i)) es))
      ∧ (n = 0 ∨ 4 + 4 * (k + n) ≤ slotsRead windows)
      ∧ List.IsChain (· < ·) (prev :: images.map Prod.fst)
      ∧ out = ((prev :: images.map Prod.fst).getLast (by simp), entries ++ images.flatMap Prod.snd) := by
  induction n with
  | zero =>
    intro k prev entries out
    simp only [scanImages, Scan.done.injEq, List.length_eq_zero_iff]
    constructor
    · rintro rfl; exact ⟨[], by simp⟩
    · rintro ⟨images, rfl, -, -, -, rfl⟩; simp
  | succ n ih =>
    intro k prev entries out
    simp only [scanImages]
    constructor
    · intro h
      split at h
      · cases h
      · rename_i hlen
        split at h
        · rename_i seq first es hv
          split at h
          · rename_i hc
            obtain ⟨images, h1, h2, h3, h4, h5⟩ := (ih _ _ _ _).1 h
            refine ⟨(seq, es) :: images, by simp [h1], fun i => ?_, Or.inr ?_, ?_, ?_⟩
            · cases i with
              | zero =>
                intro seq' es' he
                simp only [List.getElem?_cons_zero, Option.some.injEq, Prod.mk.injEq] at he
                rw [← he.1, ← he.2, Nat.add_zero, ← hc.1]; exact hv
              | succ i =>
                intro seq' es' he
                have := h2 i seq' es' (by simpa using he)
                rw [show k + (i + 1) = k + 1 + i by omega]; exact this
            · rcases h3 with h3 | h3
              · subst h3; omega
              · omega
            · exact List.IsChain.cons_cons hc.2 h4
            · rw [h5]; simp [List.getLast_cons]
          · cases h
        · cases h
    · rintro ⟨images, h1, h2, h3, h4, h5⟩
      cases images with
      | nil => simp at h1
      | cons x images =>
        obtain ⟨seq, es⟩ := x
        have h0 := h2 0 seq es rfl
        simp only [Nat.add_zero] at h0
        rw [if_neg (by omega), h0]
        simp only [List.map_cons, List.isChain_cons_cons] at h4
        simp only [h4.1, and_self, if_true]
        refine (ih _ _ _ _).2 ⟨images, by simpa using h1, fun i seq' es' he => ?_, ?_, h4.2, ?_⟩
        · have := h2 (i + 1) seq' es' (by simpa using he)
          rw [show k + 1 + i = k + (i + 1) by omega]; exact this
        · right; omega
        · rw [h5]; simp [List.getLast_cons]

/-- The list is read to its IMAGE_END exactly where the records of free sectors stand first, then those of retired sectors, then
the IMAGE_END that counts them, their numbers rising (R142). -/
theorem scanList_done_iff (windows : List Window) (n fuel : Nat) :
    ∀ (slot prev : Nat) (free : List Nat) (retired : List RetiredSector) (l : Listing),
    scanList windows n fuel slot prev free retired = .done l ↔ ∃ (listed : List (Nat × Delta)) (fs : List Nat)
        (rs : List RetiredSector), listed.length < fuel
      ∧ (∀ i seq d, listed[i]? = some (seq, d) → slotAt windows (slot + i) = .valid seq (.delta d))
      ∧ listed.map Prod.snd = fs.map Delta.erased ++ rs.map (fun r => Delta.retire r.ps r.cause)
      ∧ (retired ≠ [] → fs = []) ∧ l.free = free ++ fs ∧ l.retired = retired ++ rs
      ∧ l.closing = slot + listed.length ∧ l.closing < slotsRead windows
      ∧ slotAt windows l.closing = .valid l.seq (.imageEnd n (l.free.length + l.retired.length))
      ∧ List.IsChain (· < ·) (prev :: (listed.map Prod.fst ++ [l.seq])) := by
  induction fuel with
  | zero =>
    intro slot prev free retired l
    simp [scanList]
  | succ fuel ih =>
    intro slot prev free retired l
    simp only [scanList]
    constructor
    · intro h
      split at h
      · cases h
      rename_i hlen
      split at h
      · rename_i seq ps hv
        split at h
        · rename_i hc
          simp only [Bool.and_eq_true, decide_eq_true_eq, List.isEmpty_iff] at hc
          obtain ⟨listed, fs, rs, h1, h2, h3, h4, h5, h6, h7, h8, h9, h10⟩ := (ih _ _ _ _ _).1 h
          refine ⟨(seq, .erased ps) :: listed, ps :: fs, rs, by simp [h1], fun i => ?_, by simp [h3], by simp [hc.2], by simp [h5],
            by simp [h6], by simp [h7]; omega, h8, h9, ?_⟩
          · cases i with
            | zero =>
              intro a d he
              simp only [List.getElem?_cons_zero, Option.some.injEq, Prod.mk.injEq] at he
              rw [← he.1, ← he.2]
              exact hv
            | succ i => intro a d he; rw [show slot + (i + 1) = slot + 1 + i by omega]; exact h2 i a d (by simpa using he)
          · simp only [List.map_cons, List.cons_append]; exact List.IsChain.cons_cons hc.1 h10
        · cases h
      · rename_i seq ps cause hv
        split at h
        · rename_i hc
          obtain ⟨listed, fs, rs, h1, h2, h3, h4, h5, h6, h7, h8, h9, h10⟩ := (ih _ _ _ _ _).1 h
          have hf : fs = [] := h4 (by simp)
          subst hf
          refine ⟨(seq, .retire ps cause) :: listed, [], ⟨ps, cause⟩ :: rs, by simp [h1], fun i => ?_, by simpa using h3,
            by simp, by simp [h5], by simp [h6], by simp [h7]; omega, h8, h9, ?_⟩
          · cases i with
            | zero =>
              intro a d he
              simp only [List.getElem?_cons_zero, Option.some.injEq, Prod.mk.injEq] at he
              rw [← he.1, ← he.2]
              exact hv
            | succ i => intro a d he; rw [show slot + (i + 1) = slot + 1 + i by omega]; exact h2 i a d (by simpa using he)
          · simp only [List.map_cons, List.cons_append]; exact List.IsChain.cons_cons hc h10
        · cases h
      · rename_i seq n' listed hv
        split at h
        · rename_i hc
          simp only [Bool.and_eq_true, decide_eq_true_eq, beq_iff_eq] at hc
          obtain ⟨⟨c1, c2⟩, c3⟩ := hc
          cases h
          exact ⟨[], [], [], by simp, by simp, by simp, by simp, by simp, by simp, by simp, by simp; omega,
            by rw [hv, c2, c3], by simpa using c1⟩
        · cases h
      · cases h
    · rintro ⟨listed, fs, rs, h1, h2, h3, h4, h5, h6, h7, h8, h9, h10⟩
      rw [if_neg (by omega)]
      cases listed with
      | nil =>
        simp only [List.length_nil, Nat.add_zero] at h7
        rw [h7] at h9
        simp only [List.map_nil, List.nil_append, List.isChain_cons_cons] at h10
        have : fs = [] ∧ rs = [] := by simpa using h3.symm
        obtain ⟨rfl, rfl⟩ := this
        rw [h9]
        rw [List.append_nil] at h5 h6
        simp only [h5, h6, h10.1, beq_self_eq_true, decide_true, Bool.and_self, if_true]
        rw [← h5, ← h6, ← h7]
      | cons x listed =>
        obtain ⟨seq, d⟩ := x
        have h0 := h2 0 seq d rfl
        rw [Nat.add_zero] at h0
        rw [h0]
        simp only [List.map_cons, List.cons_append, List.isChain_cons_cons] at h10
        simp only [List.length_cons] at h1 h7
        have hs : ∀ i a b, listed[i]? = some (a, b) →
            slotAt windows (slot + 1 + i) = .valid a (.delta b) := fun i a b he => by
          have := h2 (i + 1) a b (by simpa using he)
          rw [show slot + 1 + i = slot + (i + 1) by omega]; exact this
        cases fs with
        | cons ps fs =>
          have hr : retired = [] := by exact Classical.byContradiction fun hr => by simp at h4; exact hr h4
          simp only [List.map_cons, List.cons_append, List.cons.injEq] at h3
          rw [h3.1]
          simp only [h10.1, hr, List.isEmpty_nil, decide_true, Bool.and_self, if_true]
          exact (ih _ _ _ _ _).2
            ⟨listed, fs, rs, by omega, hs, h3.2, by simp, by simp [h5], by rw [h6, hr], by omega, h8, h9, h10.2⟩
        | nil =>
          cases rs with
          | nil => simp at h3
          | cons r rs =>
            simp only [List.map_nil, List.nil_append, List.map_cons, List.cons.injEq] at h3
            rw [h3.1]
            simp only [h10.1, if_true]
            exact (ih _ _ _ _ _).2
              ⟨listed, [], rs, by omega, hs, by simpa using h3.2, by simp, h5, by simp [h6], by omega, h8, h9, h10.2⟩

/-- A scan of an opening part is done exactly where the opening part stands as R131 gives it, its numbers rising (R142). -/
theorem scanOpening_done_iff (c : Settings) (opened : Nat) (windows : List Window) (entries : List Nat) (l : Listing) :
    scanOpening c opened windows = .done (entries, l) ↔ ∃ (images : List (Nat × List Nat)) (listed : List (Nat × Delta)),
      images.length = imageCount c
      ∧ (∀ i seq es, images[i]? = some (seq, es) → imageAt windows (4 + 4 * i) = .valid seq (.image (24 * i) es))
      ∧ (∀ i seq d, listed[i]? = some (seq, d) → slotAt windows (4 + 4 * imageCount c + i) = .valid seq (.delta d))
      ∧ entries = images.flatMap Prod.snd
      ∧ listed.map Prod.snd = l.free.map Delta.erased ++ l.retired.map (fun r => Delta.retire r.ps r.cause)
      ∧ l.closing = 4 + 4 * imageCount c + listed.length ∧ l.closing < 16 * windows.length
      ∧ slotAt windows l.closing = .valid l.seq (.imageEnd (imageCount c) listed.length)
      ∧ (opened :: (images.map Prod.fst ++ listed.map Prod.fst ++ [l.seq])).Pairwise (· < ·) := by
  have chain : ∀ (images : List (Nat × List Nat)) (tail : List Nat),
      List.IsChain (· < ·) (opened :: images.map Prod.fst) →
      List.IsChain (· < ·) ((opened :: images.map Prod.fst).getLast (by simp) :: tail) →
      List.IsChain (· < ·) (opened :: (images.map Prod.fst ++ tail)) := by
    intro images tail a b
    rw [← List.cons_append]
    cases tail with
    | nil => simpa using a
    | cons x tail =>
      rw [List.isChain_cons_cons] at b
      refine a.append b.2 fun u hu v hv => ?_
      simp only [List.head?_cons, Option.mem_def, Option.some.injEq] at hv
      rw [List.getLast?_eq_getLast_of_ne_nil (by simp), Option.mem_def, Option.some.injEq] at hu
      rw [← hu, ← hv]; exact b.1
  unfold scanOpening
  constructor
  · intro h
    split at h
    · cases h
    · cases h
    · rename_i seq es he
      split at h
      · cases h
      · cases h
      · rename_i l' hl
        cases h
        obtain ⟨images, i1, i2, i3, i4, i5⟩ := (scanImages_done_iff _ _ _ _ _ _).1 he
        obtain ⟨listed, fs, rs, h1, h2, h3, h4, h5, h6, h7, h8, h9, h10⟩ := (scanList_done_iff _ _ _ _ _ _ _ _).1 hl
        simp only [List.nil_append, Prod.mk.injEq, Nat.zero_add] at i5 i2 h5 h6
        have hn : listed.length = l.free.length + l.retired.length := by
          have := congrArg List.length h3; rw [h5, h6]; simpa using this
        rw [i5.1] at h10
        refine ⟨images, listed, i1, i2, h2, i5.2, by rw [h3, h5, h6], h7, h8, by rw [h9, hn], ?_⟩
        rw [List.append_assoc, ← List.isChain_iff_pairwise]
        exact chain _ _ i4 h10
  · rintro ⟨images, listed, i1, i2, h2, i5, h3, h7, h8, h9, hp⟩
    rw [List.append_assoc, ← List.isChain_iff_pairwise] at hp
    have hn : listed.length = l.free.length + l.retired.length := by
      have := congrArg List.length h3; simpa using this
    have hi : List.IsChain (· < ·) (opened :: images.map Prod.fst) := by
      rw [← List.cons_append] at hp; exact (List.isChain_append.1 hp).1
    have hl : List.IsChain (· < ·)
        ((opened :: images.map Prod.fst).getLast (by simp) :: (listed.map Prod.fst ++ [l.seq])) := by
      rw [← List.cons_append] at hp
      obtain ⟨-, hb, hc⟩ := List.isChain_append.1 hp
      cases hh : listed.map Prod.fst ++ [l.seq] with
      | nil => simp at hh
      | cons x t =>
        rw [hh] at hb hc
        exact List.IsChain.cons_cons (hc _ (by rw [List.getLast?_eq_getLast_of_ne_nil (by simp)]; rfl) _ (by simp)) hb
    have e1 : scanImages windows (imageCount c) 0 opened []
        = .done ((opened :: images.map Prod.fst).getLast (by simp), entries) :=
      (scanImages_done_iff _ _ _ _ _ _).2
        ⟨images, i1, by simpa using i2, by right; unfold slotsRead; omega, hi, by rw [i5]; rfl⟩
    rw [e1]
    have e2 : scanList windows (imageCount c) (slotsRead windows) (4 + 4 * imageCount c)
        ((opened :: images.map Prod.fst).getLast (by simp)) [] [] = .done l :=
      (scanList_done_iff _ _ _ _ _ _ _ _).2
        ⟨listed, l.free, l.retired, by unfold slotsRead; omega, h2, h3, by simp, by simp, by simp, h7, h8,
          by rw [h9, hn], hl⟩
    simp only [e2]

/-! ## Replay -/

/-- What a record naming `ps` leaves of a free list: all of it where the list does not hold `ps`, else what stands behind
(R144). -/
theorem takenFrom_left (free : List Nat) (ps : Nat) (left : List Nat)
    (h : (ps ∉ free ∧ left = free) ∨ ∃ ahead, free = ahead ++ ps :: left ∧ ps ∉ ahead) :
    (if free.contains ps then takenFrom free ps else free) = left := by
  rcases h with ⟨a, rfl⟩ | ⟨ahead, rfl, b⟩
  · rw [if_neg (by simpa using a)]
  · rw [if_pos (by simp)]
    unfold takenFrom
    rw [List.dropWhile_append_of_pos]
    · simp
    · intro x hx
      simp only [bne_iff_ne, ne_eq]
      rintro rfl
      exact b hx

theorem Replay.isRetired_iff (r : Replay) (ps : Nat) : r.isRetired ps = true ↔ ∃ x ∈ r.retired, x.ps = ps := by
  simp [Replay.isRetired]

/-! ## The retired set -/

theorem insertRetired_perm (r : RetiredSector) (l : List RetiredSector) : (insertRetired r l).Perm (r :: l) := by
  induction l with
  | nil => exact List.Perm.refl _
  | cons x l ih =>
    unfold insertRetired
    split
    · exact List.Perm.refl _
    · exact (List.Perm.cons x ih).trans (List.Perm.swap _ _ _)

theorem insertRetired_sorted (r : RetiredSector) (l : List RetiredSector) (h : l.Pairwise fun x y => x.ps ≤ y.ps) :
    (insertRetired r l).Pairwise fun x y => x.ps ≤ y.ps := by
  induction l with
  | nil => simp [insertRetired]
  | cons x l ih =>
    unfold insertRetired
    rw [List.pairwise_cons] at h
    split
    · rename_i hlt
      rw [List.pairwise_cons, List.pairwise_cons]
      refine ⟨fun y hy => ?_, h⟩
      rcases List.mem_cons.1 hy with rfl | hy
      · omega
      · have := h.1 y hy
        omega
    · rename_i hlt
      rw [List.pairwise_cons]
      refine ⟨fun y hy => ?_, ih h.2⟩
      rcases List.mem_cons.1 ((insertRetired_perm r l).mem_iff.1 hy) with rfl | hy
      · omega
      · exact h.1 y hy

/-- The retired set that REBUILD gathers holds what replay found, in ascending order (R13, R147). -/
theorem insertRetired_foldl (l : List RetiredSector) : ∀ acc : List RetiredSector,
    (acc.Pairwise fun x y => x.ps ≤ y.ps) →
    (l.foldl (fun a x => insertRetired x a) acc).Perm (l ++ acc)
      ∧ (l.foldl (fun a x => insertRetired x a) acc).Pairwise fun x y => x.ps ≤ y.ps := by
  induction l with
  | nil => exact fun acc h => ⟨List.Perm.refl _, h⟩
  | cons x l ih =>
    intro acc h
    obtain ⟨p, q⟩ := ih _ (insertRetired_sorted x acc h)
    exact ⟨p.trans (((insertRetired_perm x acc).append_left l).trans List.perm_middle), q⟩

end Sys2Proof.Machine
end

