-- ==== Sys2Proof/Laws/Requests.lean ====
section
/-! SUPPORT. What the acceptance of a request does, check by check, in the words of Safety.lean. -/

namespace Sys2Proof.Machine

/-! ## Acceptance -/

/-- Request ready, from its conditions (R37). -/
theorem State.reqReady_of {s : State} (h1 : s.bridge.state.early = false) (h2 : s.port.pending.length < 32)
    (h3 : s.port.slot = none) : s.reqReady = true := by
  unfold State.reqReady
  cases h : s.bridge.state <;> simp_all [BridgeState.early, Config.pendingMax]

/-- Request ready is deasserted where a condition fails (R37). -/
theorem State.reqReady_not {s : State}
    (h : s.bridge.state.early = true ∨ 32 ≤ s.port.pending.length ∨ s.port.slot ≠ none) : s.reqReady = false := by
  rcases h with h | h | h
  · unfold State.reqReady
    cases hb : s.bridge.state <;> simp_all [BridgeState.early]
  · have : decide (s.port.pending.length < Config.pendingMax) = false := decide_eq_false (Nat.not_lt.2 h)
    unfold State.reqReady
    cases s.bridge.state <;> simp [this]
  · have : s.port.slot.isNone = false := by
      rcases hs : s.port.slot with _ | x
      · exact absurd hs h
      · rfl
    unfold State.reqReady
    cases s.bridge.state <;> simp [this]

/-- A free tag is held by no entry. -/
theorem Port.holds_false {p : Port} {id : Tag} (h : ∀ e ∈ p.pending, e.id ≠ id) : p.holds id = false := by
  simp only [Port.holds, List.any_eq_false, beq_iff_eq]
  exact h

/-- The Bool and the Prop of service. -/
theorem State.serving_of {s : State} (h : s.serves) : s.serving = true := by
  rcases h with h | h <;> simp [State.serving, h]

theorem State.serving_not {s : State} (h : ¬ s.serves) : s.serving = false := by
  simp only [State.serves, not_or] at h
  simp [State.serving, h.1, h.2]

/-- An answer of a new entry answers it alone. -/
theorem Port.answer_new {p : Port} {id : Tag} {e : PendEntry} {status : Status} {data : List Byte}
    (h : ∀ x ∈ p.pending, x.id ≠ id) (he : e.id = id) (hw : e.phase = .waiting) :
    ({ p with pending := p.pending ++ [e] } : Port).answer id status data =
      { p with
        pending := p.pending ++ [{ e with phase := .answered status data }], answers := p.answers ++ [.entry id] } := by
  have hany : (p.pending ++ [e]).any (fun x => x.id == id && x.isWaiting) = true := by
    simp [PendEntry.isWaiting, he, hw]
  have hm : p.pending.map (fun x => if x.id == id && x.isWaiting then { x with phase := .answered status data } else x)
      = p.pending := by
    conv_rhs => rw [← List.map_id p.pending]
    refine List.map_congr_left fun x hx => ?_
    simp [h x hx]
  have he' : (if e.id == id && e.isWaiting then { e with phase := .answered status data } else e)
      = { e with phase := .answered status data } := by
    simp [PendEntry.isWaiting, he, hw]
  unfold Port.answer
  rw [if_pos hany]
  simp only [List.map_append, hm, List.map_cons, List.map_nil, he']

/-- A request admitted and answered at its acceptance. -/
theorem State.admit_answer {s : State} {kind : ReqKind} {src : Source} {place : Option Place} {snap : Snapshot}
    {status : Status} {data : List Byte} (h : ∀ e ∈ s.port.pending, e.id ≠ tagOf src) :
    (s.listEntry kind src place snap).answer (tagOf src) status data = s.withAnswered kind src place snap status data := by
  unfold State.listEntry State.answer
  simp only [State.setPort]
  rw [Port.answer_new h rfl rfl]
  rfl

/-- A refusal without an event. -/
theorem State.refuse_none {s : State} {kind : ReqKind} {src : Source} {status : Status} {place : Option Place}
    (h : ∀ e ∈ s.port.pending, e.id ≠ tagOf src) :
    s.refuse kind src status none place = s.withRefused kind src status place := by
  unfold State.refuse
  rw [State.admit_answer h]
  rfl

/-- A refusal with an event. -/
theorem State.refuse_some {s : State} {kind : ReqKind} {src : Source} {status : Status} {place : Option Place}
    {b : EventBody} (h : ∀ e ∈ s.port.pending, e.id ≠ tagOf src) :
    s.refuse kind src status (some b) place = (s.withRefused kind src status place).withEvent b := by
  unfold State.refuse
  rw [State.admit_answer h]
  rfl

/-- An accepted request in SERVICE or RAW is judged by its checks. -/
theorem State.accept_serving {s : State} {kind : ReqKind} {src : Source} {addr : BitVec 25} {len : BitVec 7}
    {route : Place → State} (h : s.accepts src) (hs : s.serves) :
    s.accept kind src addr len route = match s.check kind src addr len with
      | .refuse status event place => s.refuse kind src status event place
      | .pass place => route place := by
  obtain ⟨h1, h2, h3, h4⟩ := h
  simp only [State.accept, State.reqReady_of h1 h2 h3, Port.holds_false h4, State.serving_of hs, Bool.not_true,
    Bool.false_eq_true, if_false]
  all_goals rfl

/-! ## The checks -/

/-- A legal length and range pass the protocol check. -/
theorem State.check_span {s : State} {kind : ReqKind} {src : Source} {addr : BitVec 25} {len : BitVec 7}
    (h : spanLegal addr len) : s.check kind src addr len =
      if !(s.settings.requesters[src.requester]).enabled then
        .refuse .denied (some (portEvent .accessDenied src addr (some .requester))) none
      else s.checkPlace kind src addr len := by
  obtain ⟨a, b, c⟩ := h
  have h1 : ¬ (len.toNat = 0 ∨ 64 < len.toNat) := by omega
  have h2 : ¬ (64 < addr.toNat % 64 + len.toNat) := by omega
  simp only [State.check, h1, h2, if_false, Settings.rights]
  rfl

/-- A request past the window check is judged by the region, guard, READ_ONLY and gate checks. -/
theorem State.check_inWindow {s : State} {kind : ReqKind} {src : Source} {addr : BitVec 25} {len : BitVec 7}
    (h : s.inWindow src addr len) : s.check kind src addr len =
      if !s.regionAllows kind src (sectorOf addr) then
        .refuse .denied (some (portEvent .accessDenied src addr (some .region))) (some (placeOf addr len))
      else
        match s.access.guardHit kind (sectorOf addr) with
        | some slot => .refuse .guarded (some (s.guardEvent src (sectorOf addr) slot)) (some (placeOf addr len))
        | none =>
          if kind.isWrite && (s.map.worn || s.journal.fenced) then .refuse .readOnly none (some (placeOf addr len))
          else if kind.isWrite && !s.gateAdmits src then
            .refuse .gated (some (portEvent .writeGated src addr none)) (some (placeOf addr len))
          else .pass (placeOf addr len) := by
  have hw : ¬ (s.settings.windowSectors * Config.sectorBytes ≤ addr.toNat) := by
    have := h.2.2.2.2
    unfold Config.sectorBytes
    omega
  rw [State.check_span h.2.2.1, h.2.2.2.1]
  simp only [Bool.not_true, Bool.false_eq_true, if_false, State.checkPlace, hw]
  rfl

/-- The region check passes. -/
theorem State.regionAllows_of {s : State} {kind : ReqKind} {src : Source} {sector : Nat} (hk : kind ≠ .barrier)
    (h : s.regionPasses kind src sector) : s.regionAllows kind src sector = true := by
  unfold State.regionAllows
  rcases h with h | ⟨⟨r, hr, hh⟩, h⟩
  · simp [h]
  · rw [Bool.or_eq_true]
    right
    cases hf : s.settings.regions.find? fun r => decide (r.first ≤ sector) && decide (sector ≤ r.last) with
    | none =>
      have := List.find?_eq_none.1 hf r hr
      simp [hh.1, hh.2] at this
    | some x =>
      have h1 := List.find?_some hf
      have h2 := List.mem_of_find?_eq_some hf
      simp at h1
      have := h x h2 h1
      simp only
      cases kind <;> simp_all [Region.names, ReqKind.isWrite]

/-- The region check refuses. -/
theorem State.regionAllows_not {s : State} {kind : ReqKind} {src : Source} {sector : Nat} (hk : kind ≠ .barrier)
    (h : s.regionRefuses kind src sector) : s.regionAllows kind src sector = false := by
  unfold State.regionAllows
  obtain ⟨h, k⟩ := h
  rw [h, Bool.false_or]
  cases hf : s.settings.regions.find? fun r => decide (r.first ≤ sector) && decide (sector ≤ r.last) with
  | none => rfl
  | some x =>
    have h1 := List.find?_some hf
    have h2 := List.mem_of_find?_eq_some hf
    simp at h1
    have := k x h2 h1
    simp only
    cases kind <;> simp_all [Region.names, ReqKind.isWrite]

/-- The Bool and the Prop of a guard slot's refusal. -/
theorem GuardSlot.refuses_iff {g : GuardSlot} {kind : ReqKind} {sector : Nat} (hk : kind ≠ .barrier) :
    g.refuses kind sector = true ↔ g.stops kind sector := by
  unfold GuardSlot.refuses GuardSlot.stops
  cases g.mode <;> cases kind <;> simp_all [ReqKind.isWrite]

/-- A slot of the guard table by its number. -/
theorem Access.guards_getD {a : Access} (i : Fin 4) : a.guards.toList.getD i.val GuardSlot.powerOn = a.guards[i] := by
  simp

/-- The lowest slot that refuses. -/
theorem Access.guardHit_some {a : Access} {kind : ReqKind} {sector : Nat} (hk : kind ≠ .barrier) {i : Fin 4}
    (h : (a.guards[i]).stops kind sector) (hl : ∀ j : Fin 4, j < i → ¬ (a.guards[j]).stops kind sector) :
    a.guardHit kind sector = some i.val := by
  unfold Access.guardHit
  rw [List.find?_range_eq_some]
  refine ⟨?_, ?_, ?_⟩
  · rw [Access.guards_getD i, GuardSlot.refuses_iff hk]; exact h
  · exact List.mem_range.2 i.isLt
  · intro j hj
    have := hl ⟨j, by omega⟩ hj
    rw [Access.guards_getD ⟨j, by omega⟩]
    rw [← GuardSlot.refuses_iff hk] at this
    simpa using this

/-- No slot refuses. -/
theorem Access.guardHit_none {a : Access} {kind : ReqKind} {sector : Nat} (hk : kind ≠ .barrier)
    (h : ∀ i : Fin 4, ¬ (a.guards[i]).stops kind sector) : a.guardHit kind sector = none := by
  unfold Access.guardHit
  rw [List.find?_eq_none]
  intro j hj
  have hj : j < 4 := List.mem_range.1 hj
  rw [Access.guards_getD ⟨j, hj⟩, GuardSlot.refuses_iff hk]
  exact h ⟨j, hj⟩

/-- A READ past its checks is routed. -/
theorem State.check_read {s : State} {src : Source} {addr : BitVec 25} {len : BitVec 7}
    (h : s.unrefused .read src addr len) : s.check .read src addr len = .pass (placeOf addr len) := by
  rw [State.check_inWindow h.1, State.regionAllows_of (by simp) h.2.1, Access.guardHit_none (by simp) h.2.2]
  rfl

/-- A write past its checks is routed. -/
theorem State.check_write {s : State} {kind : ReqKind} {src : Source} {addr : BitVec 25} {len : BitVec 7}
    (hk : kind ≠ .barrier) (h : s.writable kind src addr len) : s.check kind src addr len = .pass (placeOf addr len) := by
  obtain ⟨h1, hw, hf, hg⟩ := h
  have hga : s.gateAdmits src = true := by
    unfold State.gateAdmits Settings.rights
    rcases hg with hg | hg
    · simp [hg]
    · simp [hg.1]
      exact .inr hg.2
  rw [State.check_inWindow h1.1, State.regionAllows_of hk h1.2.1, Access.guardHit_none hk h1.2.2]
  simp [hw, hf, hga]

end Sys2Proof.Machine
end

