-- ==== Sys2Proof/Laws/Steps.lean ====
section
/-! SUPPORT. What each command keeps, gathered for the whole of exec: outside the pins, the locks and the resets every command
keeps what Keeps names; the commands of the reset lines and the ends of a quiesce, by themselves. -/

namespace Sys2Proof.Machine

variable {s t : State}

/-- The commands that move a reset or request line, set a guard or the gate, or can end in a reset. -/
def movesLines : Instr → Bool
  | .porstAssert => true
  | .resetAssert => true
  | .resetRelease => true
  | .porstRelease _ => true
  | .pfailAssert => true
  | .pfailDeassert => true
  | .resetReqAssert => true
  | .resetReqDeassert => true
  | .stopAfterTransaction => true
  | .drainComplete => true
  | .quiesceExitAfterExpiry => true
  | .warmReset => true
  | .guardSet _ _ _ _ _ => true
  | .gateOpen _ => true
  | .gateClose => true
  | .gateLock => true
  | _ => false

/-- The outcome is a next state that keeps what Keeps names. -/
def Kept (s : State) (o : Host.Outcome State Fault Refusal) : Prop := ∃ t, o = .next t ∧ Keeps s t

theorem Kept.next (h : Keeps s t) : Kept s (.next t) := ⟨t, rfl, h⟩

theorem Kept.noted (h : Keeps s t) : Kept s t.noted := ⟨_, rfl, h.noteResumes⟩

theorem Kept.onLink {u} (h : Keeps s t) (k : Keeps s u) : Kept s (t.onLink u) := by
  refine ⟨_, rfl, ?_⟩
  split <;> assumption

theorem arbiterGrant_keeps (s : State) (tie : Bool) : Keeps s (s.arbiterGrant tie) := by
  unfold State.arbiterGrant
  split
  · exact State.arbitrate_keeps s tie
  · exact Keeps.refl s

theorem deadline_kept (s : State) : Kept s (execQuiesceDeadlineExpiry s) := by
  unfold execQuiesceDeadlineExpiry
  refine Kept.noted ?_
  split
  case isTrue hd =>
    simp only [State.deadlineRuns, Bool.and_eq_true, beq_iff_eq] at hd
    exact Keeps.expire (Keeps.refl s) (by rw [hd.1]; simp)
  case isFalse => exact Keeps.refl s

theorem guardRead_kept (slot : Byte) (s : State) : Kept s (execGuardRead slot s) := by
  refine Kept.onLink (Keeps.refl s) (Keeps.inService (Keeps.refl s) ?_)
  split <;> exact Keeps.reply (Keeps.refl s)

theorem orderlyReset_kept (s : State) : Kept s (execOrderlyReset s) := by
  unfold execOrderlyReset
  split
  · exact Kept.noted (Keeps.orderlyRequest (Keeps.reply (Keeps.refl s)))
  · exact Kept.next (Keeps.refl s)

theorem rawErase_kept (ps : BitVec 16) (s : State) : Kept s (execRawErase ps s) := by
  refine Kept.onLink (Keeps.refl s) ?_
  split
  · exact Keeps.takeRawErase (Keeps.refl s)
  · exact Keeps.reply (Keeps.refl s)

/-- Every other command keeps what Keeps names. -/
theorem exec_kept (c : Instr) (s : State) (hc : movesLines c = false) : Kept s (exec c s) := by
  have r := Keeps.refl s
  cases c with
  | read src addr len => exact Kept.next (Keeps.accept (fun _ hf hl _ => Keeps.routeRead r hf hl) r)
  | write src addr len data => exact Kept.next (Keeps.accept (fun hs hf hl _ => Keeps.routeWrite r hs hf hl) r)
  | durableWrite src addr len data => exact Kept.next (Keeps.accept (fun hs hf hl _ => Keeps.routeDurable r hs hf hl) r)
  | barrier src => exact Kept.next (Keeps.acceptBarrier r)
  | responseTaken => exact Kept.next (Keeps.responseTaken r)
  | lingerExpiry => exact Kept.next (Keeps.lingers r)
  | commitOffer => exact Kept.noted (Keeps.commitOffer r)
  | compactionStart => exact Kept.next (Keeps.compactionStart r)
  | eraseClaim => exact Kept.next (Keeps.eraseNext r)
  | arbiterGrant tie => exact Kept.noted (arbiterGrant_keeps s tie)
  | fillComplete _ => exact Kept.noted (Keeps.takeFill r)
  | commitReadEnd _ => exact Kept.noted (Keeps.takeCommitRead r)
  | descriptorReadEnd _ => exact Kept.noted (Keeps.takeDescriptorLine r)
  | journalReadEnd _ => exact Kept.noted (Keeps.takeBankWindow r)
  | commandFrameEnd => exact Kept.noted (Keeps.frameEnd r)
  | pollDue _ => exact Kept.next (Keeps.pollExpires r)
  | statusPoll _ => exact Kept.noted (State.takePoll_keeps s _)
  | operationTimeout _ => exact Kept.noted (State.operationTimeout_keeps s _)
  | loadPollTimeout _ => exact Kept.noted (State.loadPollTimeout_keeps s _)
  | quiesceDeadlineExpiry => exact deadline_kept s
  | status => exact Kept.onLink r (Keeps.reply r)
  | eventRead => exact Kept.onLink r (Keeps.readEvent r)
  | noticeAck => exact Kept.onLink r (Keeps.ackNotice r)
  | guardRead slot => exact guardRead_kept slot s
  | orderlyReset => exact orderlyReset_kept s
  | rawErase ps => exact rawErase_kept ps s
  | malformedWrite _ => exact Kept.onLink r (Keeps.reply r)
  | resultRead _ => exact Kept.onLink r (Keeps.readResult r)
  | _ => exact Bool.noConfusion (show true = false from hc)

/-! ## The commands apart -/

/-- Entry to RESET touches neither the pins nor the queue; at kind warm it keeps guards and gate lock. -/
theorem State.enterReset_frame (s : State) (k : ResetKind) :
    (s.enterReset k).pins = s.pins ∧ (s.enterReset k).pending = s.pending
      ∧ (k = .warm → (s.enterReset k).access.guards = s.access.guards
          ∧ (s.enterReset k).access.gateLock = s.access.gateLock) := by
  refine ⟨rfl, rfl, ?_⟩
  rintro rfl
  exact ⟨rfl, rfl⟩

/-- Leaving RESET touches neither the pins, the queue nor the Access Checker. -/
theorem State.leaveReset_frame (s : State) :
    s.leaveReset.pins = s.pins ∧ s.leaveReset.pending = s.pending ∧ s.leaveReset.access = s.access := by
  unfold State.leaveReset State.enterLoad
  split <;> exact ⟨rfl, rfl, rfl⟩

theorem State.warmReset_frame (s : State) :
    s.warmReset.pins = s.pins ∧ s.warmReset.pending = s.pending ∧ s.warmReset.access.guards = s.access.guards
      ∧ s.warmReset.access.gateLock = s.access.gateLock := by
  obtain ⟨h1, h2, h3⟩ := State.leaveReset_frame (s.enterReset .warm)
  unfold State.warmReset
  rw [h3]
  exact ⟨h1, h2, rfl, rfl⟩

/-- The end of a quiesce leaves the pins, the queue, the guards and the gate lock. -/
theorem State.endQuiesce_frame (s : State) :
    s.endQuiesce.pins = s.pins ∧ s.endQuiesce.pending = s.pending ∧ s.endQuiesce.access.guards = s.access.guards
      ∧ s.endQuiesce.access.gateLock = s.access.gateLock := by
  unfold State.endQuiesce
  split
  · exact State.warmReset_frame s
  · exact ⟨rfl, rfl, rfl, rfl⟩

/-- The device records at entry to LOAD keep the laws of the bus. -/
theorem State.enterLoad_bus_wf (s : State) : s.enterLoad.bus.wf := by
  refine ⟨Nat.zero_le _, fun cs d hd => ?_⟩
  have hd' : d = Device.idle .unknown := by cases cs <;> exact (Option.some.inj hd).symm
  subst hd'
  exact ⟨⟨rfl, fun e => (by cases e), Nat.zero_le _, Nat.zero_le _⟩, fun tx e => by cases (show none = some tx from e)⟩

/-- The laws that hold of every state entered as RESET. -/
theorem State.enterReset_laws (s : State) (k : ResetKind) (he : s.events.wf) :
    (s.enterReset k).events.wf ∧ (s.enterReset k).port.wf ∧ (s.enterReset k).reads.wf ∧ (s.enterReset k).bus.wf
      ∧ (s.enterReset k).wcbWf ∧ (s.enterReset k).resetWf := by
  refine ⟨?_, ⟨by simp [State.enterReset], by simp [State.enterReset], by simp [State.enterReset],
    by simp [State.enterReset], by simp [State.enterReset]⟩, ⟨by simp [State.enterReset], by simp [State.enterReset],
    by simp [State.enterReset]⟩, ⟨by simp [State.enterReset, FlashBus.empty], ?_⟩, ⟨⟨?_, ?_, ?_, ?_⟩, ?_, ?_⟩, ?_, ?_⟩
  · cases k
    · exact ⟨by simp [State.enterReset, EventBlock.enterReset], by simp [State.enterReset, EventBlock.enterReset],
        by simp [State.enterReset, EventBlock.enterReset]⟩
    · exact EventBlock.rearm_wf _ he
  · intro cs d; cases cs <;> simp [State.enterReset, FlashBus.empty, FlashBus.dev]
  · simp [State.enterReset, Wcb.empty]
  · simp [State.enterReset, Wcb.empty, Wcb.occupancy]
  · simp [State.enterReset, Wcb.empty, Wcb.occupancy]
  · simp [State.enterReset, Wcb.empty, Wcb.occupancy]
  · simp [State.enterReset, Wcb.empty]
  · simp [State.enterReset, Bridge.inReset, Bridge.hasSettings]
  · intro _; rfl
  · intro _
    refine ⟨rfl, rfl, rfl, rfl, rfl, rfl, rfl, rfl, rfl, rfl, ?_⟩
    cases k <;> rfl

/-! ## The gate at entry to QUIESCE -/

theorem State.answerTogether_access (s : State) (l : List Response) : (s.answerTogether l).access = s.access := by
  have h : ∀ (l : List Response) (s : State), (s.answerInOrder l).access = s.access := by
    intro l
    induction l with
    | nil => intro s; rfl
    | cons r l ih => intro s; exact ih (s.answer r.id r.status r.data)
  exact h (freely s.free l) s

theorem State.completeCommit_access (s : State) (r : CommitResult) : (s.completeCommit r).1.access = s.access := by
  unfold State.completeCommit
  split
  · rfl
  · exact State.answerTogether_access _ _

theorem State.commitFailed_access (s : State) (c : CommitRecord) : (s.commitFailed c).access = s.access := by
  have h : (((s.withdrawTake).releaseTarget).withdraw .commit).access = s.access := by
    unfold State.releaseTarget
    split <;> rfl
  unfold State.commitFailed
  dsimp only
  split <;> exact (State.completeCommit_access _ _).trans h

theorem State.take_access (s : State) : s.take.1.access = s.access := by
  unfold State.take State.setWorn
  repeat' split
  all_goals rfl

theorem State.commitSwitch_access (s : State) (c : CommitRecord) : (s.commitSwitch c false).access = s.access :=
  State.completeCommit_access _ _

theorem State.commitFull_access (s : State) : s.commitFull.access = s.access := by
  unfold State.commitFull State.releaseTarget
  repeat' split
  all_goals first
    | rfl
    | exact State.commitFailed_access _ _
    | exact State.commitSwitch_access _ _

theorem State.commitAsk_access {c w r refused} (s : State) (h : refused.access = s.access) :
    (s.commitAsk c w r refused).access = s.access := by
  unfold State.commitAsk
  dsimp only
  repeat' split
  all_goals first
    | exact h
    | rfl
    | exact State.commitFull_access _

theorem State.copyFrom_access (s : State) (c : CommitRecord) (n : Nat) : (s.copyFrom c n).access = s.access := by
  induction n with
  | zero => exact State.commitAsk_access s (State.commitFailed_access s c)
  | succ n ih =>
    unfold State.copyFrom
    repeat' split
    all_goals first
      | exact ih
      | rfl

/-- A commit that waits under a hold does not touch the Access Checker when the hold ends. -/
theorem State.commitHoldEnd_access (s : State) : s.commitHoldEnd.access = s.access := by
  unfold State.commitHoldEnd
  repeat' split
  · rfl
  · rfl
  · unfold State.commitAllocate
    dsimp only
    repeat' split
    · exact State.commitFailed_access _ _
    · rfl
    · exact (State.copyFrom_access _ _ _).trans (State.take_access s)
    · exact State.take_access s
    · exact (State.commitFailed_access _ _).trans (State.take_access s)
  · rfl

theorem State.enterQuiesce_access (s : State) (c : Cause) : (s.enterQuiesce c).access = s.access := by
  refine (State.commitHoldEnd_access _).trans ?_
  have h1 : ∀ s : State, s.abandonCompaction.access = s.access := by
    intro s
    unfold State.abandonCompaction
    dsimp only
    repeat' split
    all_goals rfl
  have h2 : ∀ s : State, s.withdrawHeldClaims.access = s.access := by
    intro s
    unfold State.withdrawHeldClaims
    repeat' split
    all_goals rfl
  have h3 : ∀ s : State, s.withdrawRawErase.access = s.access := by
    intro s
    unfold State.withdrawRawErase
    split <;> rfl
  exact (h3 _).trans ((h2 _).trans (h1 _))

/-- Entry to QUIESCE with no commit in progress raises no event and leaves the Sector Map. -/
theorem State.enterQuiesce_uncommitted (s : State) (c : Cause) (h : s.commit = none) :
    (s.enterQuiesce c).map = s.map ∧ (s.enterQuiesce c).events = s.events := by
  have h1 : ∀ s : State, s.abandonCompaction.map = s.map ∧ s.abandonCompaction.events = s.events
      ∧ s.abandonCompaction.commit = s.commit := by
    intro s
    unfold State.abandonCompaction
    dsimp only
    repeat' split
    all_goals exact ⟨rfl, rfl, rfl⟩
  have h2 : ∀ s : State, s.withdrawHeldClaims.map = s.map ∧ s.withdrawHeldClaims.events = s.events
      ∧ s.withdrawHeldClaims.commit = s.commit := by
    intro s
    unfold State.withdrawHeldClaims
    repeat' split
    all_goals exact ⟨rfl, rfl, rfl⟩
  have h3 : ∀ s : State, s.withdrawRawErase.map = s.map ∧ s.withdrawRawErase.events = s.events
      ∧ s.withdrawRawErase.commit = s.commit := by
    intro s
    unfold State.withdrawRawErase
    split <;> exact ⟨rfl, rfl, rfl⟩
  unfold State.enterQuiesce State.commitHoldEnd
  rw [(h3 _).2.2, (h2 _).2.2, (h1 _).2.2]
  simp only [State.setBridge, h]
  exact ⟨(h3 _).1.trans ((h2 _).1.trans (h1 _).1), (h3 _).2.1.trans ((h2 _).2.1.trans (h1 _).2.1)⟩

end Sys2Proof.Machine
end

