-- ==== Sys2Proof/Tests/Slice0.lean ====
section
/-! SUPPORT. Small tests: ill-formed commands refused, the link's frames and the request kinds decoded, the worked figures of the
spec, and for every statement with hypotheses a state and operands that meet them. -/

namespace Sys2Proof.Tests

open Sys2Proof Sys2Proof.Machine

set_option Elab.async false

/-! ## Well-formedness: one ill-formed command for each check -/

theorem test_illFormed_commitRead : (Instr.commitReadEnd (List.replicate 63 0)).wellFormed = false := by decide +kernel
theorem test_illFormed_malformedWrite : (Instr.malformedWrite [0x10]).wellFormed = false := by decide
theorem test_illFormed_resultRead : (Instr.resultRead 0).wellFormed = false := by decide
theorem test_wellFormed_both_reads :
    (Instr.commitReadEnd (List.replicate 64 0)).wellFormed = true
      ∧ (Instr.commitReadEnd (List.replicate 256 0)).wellFormed = true := by decide +kernel

/-! ## Frames of the link and request kinds, from the tables of R170 and R171 -/

theorem test_decode_link_queries :
    decodeLinkWrite false [0x10] = .status ∧ decodeLinkWrite false [0x11] = .eventRead
      ∧ decodeLinkWrite false [0x12] = .noticeAck ∧ decodeLinkWrite false [0x21, 0x03] = .guardRead 3 := by decide
theorem test_decode_link_guardSet :
    decodeLinkWrite false [0x20, 0x01, 0xAC, 0x0D, 0x1E, 0x0F, 0x01, 0x00] = .guardSet 1 3500 3870 1 0 := by decide
theorem test_decode_link_gate :
    decodeLinkWrite true [0x30] = .gateOpen true ∧ decodeLinkWrite false [0x30] = .gateOpen false
      ∧ decodeLinkWrite false [0x31] = .gateClose ∧ decodeLinkWrite false [0x32] = .gateLock := by decide
theorem test_decode_link_resets :
    decodeLinkWrite false [0x40] = .orderlyReset ∧ decodeLinkWrite false [0x41] = .warmReset
      ∧ decodeLinkWrite false [0x50, 0xFF, 0x0F] = .rawErase 4095 := by decide
theorem test_decode_link_malformed :
    decodeLinkWrite false [] = .malformedWrite [] ∧ decodeLinkWrite false [0x99] = .malformedWrite [0x99]
      ∧ decodeLinkWrite false [0x21] = .malformedWrite [0x21]
      ∧ decodeLinkWrite false [0x10, 0x00] = .malformedWrite [0x10, 0x00] := by decide
/-- Request signals of requester 6, tag 9, address 40h, 2 bytes on the lanes. -/
def requestSignals (kind : BitVec 2) : RequestSignals := ⟨6, 9, true, kind, 0x40, 2, 0xBBAA⟩

theorem test_decode_request :
    decodeRequest (requestSignals 0) = .read ⟨6, 9, true⟩ 0x40 2
      ∧ decodeRequest (requestSignals 1) = .write ⟨6, 9, true⟩ 0x40 2 (lineOfLanes 0xBBAA)
      ∧ decodeRequest (requestSignals 2) = .durableWrite ⟨6, 9, true⟩ 0x40 2 (lineOfLanes 0xBBAA)
      ∧ decodeRequest (requestSignals 3) = .barrier ⟨6, 9, true⟩ :=
  ⟨rfl, rfl, rfl, rfl⟩
theorem test_lanes_in : (lineOfLanes 0xBBAA).bytes.take 3 = [0xAA, 0xBB, 0x00] := by decide +kernel

/-! ## The worked board of spec 02 -/

/-- The 124 bytes before the check of a descriptor of the worked validation's fields, with S, P, M, the error bit and the
regions open. -/
def boardBody (count size j s p m errorBit : Nat) (regions : List (Nat × Nat × Byte × Byte × Byte)) : List Byte :=
  [0x56, 0x52, 0x43, 0x4C, 0x01, BitVec.ofNat 8 count, BitVec.ofNat 8 size, BitVec.ofNat 8 j]
    ++ le2 s ++ [BitVec.ofNat 8 p, 12, BitVec.ofNat 8 m, 0] ++ le2 200 ++ [20, 0] ++ le2 500
    ++ [0x0B, 1, 0x06, 0x02, 0x20, 0x05, 0x75, 0x7A, 1, 0, BitVec.ofNat 8 errorBit, 5] ++ le2 50 ++ le2 400
    ++ [1, 1, 3, 5, 0, 0, 0, 0, 3, 0, 0, 0]
    ++ regions.flatMap (fun r => le2 r.1 ++ le2 r.2.1 ++ [r.2.2.1, r.2.2.2.1, r.2.2.2.2, 0])
    ++ List.replicate 52 0

/-- The regions of the worked validation, with the two limits that its alterations change. -/
def boardRegions (first1 last2 : Nat) : List (Nat × Nat × Byte × Byte × Byte) :=
  [(0, 999, 0x0F, 0x0B, 0), (first1, 3499, 0x0F, 0x0C, 0), (3500, last2, 0x08, 0x08, 1)]

/-- The worked descriptor, its check written out. -/
def board : List Byte := boardBody 2 8 12 200 24 4 5 (boardRegions 1000 3870) ++ [0x89, 0xD6, 0xF0, 0x64]

/-- The first of the checks 4 to 11 that fails. -/
def firstFailing (body : List Byte) : Option Nat :=
  (List.range' 4 8).find? fun i => !checkPasses (body ++ [0, 0, 0, 0]) i

set_option maxRecDepth 100000 in
theorem test_board_passes : descriptorIndex board = 0 := by decide +kernel
theorem test_board_length : board.length = 128 := by decide +kernel
theorem test_board_geometry :
    (adopted board).totalSectors = 4096 ∧ (adopted board).dataBase = 25 ∧ (adopted board).dataSectors = 4071
      ∧ (adopted board).windowSectors = 3871 := by decide +kernel
theorem test_board_alterations :
    [boardBody 2 8 12 1100 24 4 5 (boardRegions 1000 3870), boardBody 2 8 12 200 200 4 5 (boardRegions 1000 3870),
      boardBody 2 8 12 200 24 13 5 (boardRegions 1000 3870), boardBody 2 8 12 200 24 4 0 (boardRegions 1000 3870),
      boardBody 2 8 12 200 24 4 5 (boardRegions 1000 3871), boardBody 2 8 12 200 24 4 5 (boardRegions 999 3870),
      boardBody 2 8 12 1100 24 4 5 (boardRegions 1000 3871), boardBody 2 16 8 16 4 4 5 (boardRegions 1000 3870)].map
        firstFailing = [some 6, some 7, some 8, some 9, some 10, some 10, some 6, some 11] := by decide +kernel
theorem test_place : placeOf 0x25178 8 = ⟨⟨37, 5⟩, 56, 8⟩ := by decide
theorem test_device_address :
    deviceAddr (adopted board) 1210 376 = 0x4BA178 ∧ deviceOf (adopted board) 1210 = .cs0
      ∧ deviceAddr (adopted board) 4022 376 = 0x7B6178 ∧ deviceOf (adopted board) 4022 = .cs1 := by decide +kernel
theorem test_firstBoot_closing :
    closingSlot (adopted board) ⟨identityTable (adopted board), [], []⟩ = 652
      ∧ lastWindow (adopted board) ⟨identityTable (adopted board), [], []⟩ = 40 := by decide +kernel

/-! ## Small states -/

/-- Settings small enough to compute with: two devices, a window of 8 sectors in two regions, H 8, M 4. -/
def small : Settings where
  raw := false
  deviceCount := 2
  deviceSectors := 1024
  totalSectors := 2048
  bankSectors := 8
  dataBase := 17
  dataSectors := 2031
  spares := 16
  windowSectors := 8
  lowMark := 4
  highMark := 8
  drainMark := 4
  linger := 200
  powerDeadline := 20
  resetDeadline := 500
  profile := { Profile.boot with suspendSupported := true, suspendOp := 0x75, resumeOp := 0x7A, errorBit := some 5 }
  requesters := ⟨([⟨true, 0, false⟩, ⟨true, 1, false⟩, ⟨true, 0, true⟩, ⟨false, 0, false⟩, ⟨true, 0, false⟩,
    ⟨true, 0, false⟩, ⟨true, 0, false⟩, ⟨true, 0, false⟩] : List Rights).toArray, by simp⟩
  regions := [⟨0, 3, 0x07, 0x05, .inPlaceAllowed⟩, ⟨4, 6, 0x04, 0x04, .alwaysRelocate⟩]

/-- A bridge in a state, nothing else going on. -/
def at_ (b : BridgeState) : Bridge := ⟨b, none, .stopped, false, false, false, 0, .idle⟩

/-- SERVICE over the small settings, gate OPEN, bank A ACTIVE, both devices READY. -/
def svc : State :=
  { State.reset with
    pins := ⟨false, false, false, false⟩
    bridge := at_ .service
    settings := small
    access := { State.reset.access with gateOpen := true }
    map := { SectorMap.empty with
      valid := true, remap := [17, 18, 19, 20, 21, 22, 23, 24], pool := [30, 31, 32, 33, 34], queue := [⟨40, false⟩] }
    bus := { FlashBus.empty with dev0 := some (Device.idle .ready), dev1 := some (Device.idle .ready) }
    journal := { MapJournal.empty with
      bankA := some ⟨.active, some 7⟩, bankB := some ⟨.erased, none⟩, pointer := 100, nextSeq := 500 } }

/-- SERVICE with the port, access or journal changed is written from svc; RAW likewise. -/
def rawState : State :=
  { svc with
    bridge := at_ .raw, settings := Settings.inRaw, map := SectorMap.empty, journal := MapJournal.empty
    bus := { svc.bus with dev1 := none } }

/-- A state of the bridge over svc's blocks. -/
def inState (b : BridgeState) : State := { svc with bridge := at_ b }

/-- LOAD or REBUILD with a request waiting. -/
def stopping (b : BridgeState) (power orderly : Bool) : State :=
  { svc with bridge := { at_ b with stopPower := power, stopOrderly := orderly } }

/-- QUIESCE with a cause, the timer running or the expiry past. -/
def quiescing (c : Cause) (expired : Bool) : State :=
  { svc with bridge := { at_ .quiesce with
    cause := some c, expired := expired, deadline := if expired then .stopped else .running 500 } }

/-- RESET with the two lines as told. -/
def inReset (porst reset : Bool) : State := { State.reset with pins := ⟨porst, reset, false, false⟩ }

/-- Requesters of the small settings: 0 in group 0, 1 in group 1, 2 with gate_bypass, 3 not enabled. -/
def req (r : Fin 8) (privileged : Bool) : Source := ⟨r, 5, privileged⟩

/-- A line whose byte i is i. -/
def ramp : Line := Line.ofFn fun i => BitVec.ofNat 8 i

/-- An OPEN entry of a line with bytes 0 to 7 dirty. -/
def entry (sector line : Nat) : Entry := ⟨⟨sector, line⟩, ramp, 0xFF, .opened, false⟩

/-- A COMMITTING entry of a line, its image bytes 0 to 7, with the dirty bytes told. -/
def committed (sector line : Nat) (dirty : Mask) : Entry := ⟨⟨sector, line⟩, ramp, dirty, .committing ramp 0xFF, false⟩

/-- A buffer of the entries told. -/
def buffer (l : List Entry) (hold grace : Bool) : Wcb := ⟨l, hold, grace, true, false, []⟩

/-- SERVICE with entries in the buffer. -/
def holding (l : List Entry) (hold grace : Bool) : State := { svc with wcb := buffer l hold grace }

/-- A transaction on the bus of a state. -/
def withTx (s : State) (use : BusUse) (cs : ChipSelect) : State :=
  { s with bus := { s.bus with tx := some ⟨use, cs, none, []⟩ } }

/-- A commit record of sector 2 with one line. -/
def commitOf (w : Work) (granted : Bool) : CommitRecord :=
  ⟨2, [1], 19, some .inPlaceAllowed, none, 0, false, false, w, granted⟩

/-- The next state a command answers from a state. -/
def after (c : Instr) (s : State) : Option State := nextOf (exec c s)

/-! ## A few commands on the small states -/

theorem test_read_from_buffer_and_cache :
    (after (.read (req 0 false) 0x2000 2) { svc with wcb := buffer [entry 2 0] false false }).bind (fun t => t.response)
      = some ⟨⟨0, 5⟩, .ok, [0, 1]⟩ := by decide +kernel
theorem test_write_then_buffered :
    (after (.write (req 0 false) 0x2038 8 ramp) svc).map (fun t => t.wcb.entries.map fun e => (e.key, e.dirty))
      = some [(⟨2, 0⟩, 0xFF00000000000000)] := by decide +kernel
theorem test_status_block : svc.statusBlock
    = [3, 8, 0, 5, 0, 1, 0, 0, 0, 1, 7, 0, 0, 0, 0x9C, 0x07, 0, 0] := by decide
theorem test_guardSet_then_read :
    (after (.guardSet 1 2 3 1 0) svc).map (fun t => t.storeBytes) = some [0, 1, 2, 0, 3, 0, 1, 0] := by decide +kernel
theorem test_erase_claim :
    (after .eraseClaim svc).map (fun t => t.erase.record) = some (some ⟨.data, 40, false⟩) := by decide +kernel

/-! ## Witnesses: for each statement with hypotheses, states and operands that meet them, clause by clause -/

theorem test_witness_EveryCommandGoesOn : State.reset.pending = [] := by decide

theorem test_witness_WarmResetsRestartTheBridge :
    (inReset false true).bridge.state = .reset ∧ svc.bridge.state ≠ .reset ∧ (inReset false true).pins.porst = false
      ∧ svc.pins.porst = false := by decide

theorem test_witness_ReleaseOfTheLinesEntersLoad :
    ((inReset false true).bridge.state = .reset ∧ (inReset false true).pins.porst = false)
      ∧ svc.bridge.state ≠ .reset ∧ (inReset true true).pins.porst = true
      ∧ ((inReset true false).bridge.state = .reset ∧ (inReset true false).pins.reset = false)
      ∧ (inReset true true).pins.reset = true := by decide

theorem test_witness_GateAtResetAdoptionAndRaw :
    State.reset.bridge.state = .reset ∧ (inState .load).bridge.state = .load
      ∧ (inState .rebuild).bridge.state = .rebuild := by decide

/-- SERVICE with both request lines asserted. -/
def asserted (b : BridgeState) : State := { inState b with pins := ⟨false, false, true, true⟩ }

theorem test_witness_StopRequestsActByState :
    (asserted .service).pins.pfail = true ∧ (asserted .service).pins.resetReq = true
      ∧ (∀ b ∈ [BridgeState.load, .rebuild, .reset, .halted, .service, .raw],
          (inState b).bridge.state = b ∧ (inState b).pins.pfail = false ∧ (inState b).pins.resetReq = false
            ∧ (inState b).pins.porst = false)
      ∧ svc.serves ∧ rawState.serves := by
  refine ⟨by decide, by decide, by decide, Or.inl (by decide), Or.inr (by decide)⟩

/-- A compaction's run into bank B. -/
def runOf (window : Nat) (inProgress abandoned : Bool) : BankRun :=
  ⟨.b, 8, ⟨svc.map.remap, svc.map.pool, []⟩, window, inProgress, abandoned⟩

/-- SERVICE with a bank being written. -/
def writing (r : BankRun) : State :=
  { svc with journal := { svc.journal with compaction := .running, bankB := some ⟨.compacting, some 8⟩, run := some r } }

/-- SERVICE with an erase record. -/
def erasing (kind : EraseKind) (ps : Nat) (granted : Bool) : State :=
  { svc with erase := { svc.erase with record := some ⟨kind, ps, granted⟩ } }

/-- RAW with a RAW erase held, its record granted or not. -/
def rawErasing (granted : Bool) : State :=
  { rawState with
    erase := ⟨some ⟨.raw, 9, granted⟩, none, none, some ⟨9, none⟩⟩, link := { rawState.link with store := .followsRaw } }

theorem test_witness_EntryToQuiesce :
    svc.commit = none ∧ svc.journal.run = none ∧ svc.erase.record = none
      ∧ ((writing (runOf 0 true false)).journal.run = some (runOf 0 true false) ∧ (runOf 0 true false).inProgress = true)
      ∧ ((writing (runOf 0 false false)).journal.run = some (runOf 0 false false)
          ∧ (runOf 0 false false).inProgress = false)
      ∧ (erasing .data 40 true).erase.record = some ⟨.data, 40, true⟩
      ∧ (erasing .data 40 false).erase.record = some ⟨.data, 40, false⟩
      ∧ (rawErasing false).erase.raw = some ⟨9, none⟩ ∧ (rawErasing false).erase.record = some ⟨.raw, 9, false⟩
      ∧ (∀ ps, svc.erase.raw ≠ some ⟨ps, none⟩) := by
  refine ⟨by decide, by decide, by decide, by decide, by decide, by decide, by decide, by decide, by decide, fun ps => by simp [svc, State.reset, EraseEngine.empty]⟩

theorem test_witness_QuiesceHeedsPfailAlone :
    (quiescing .orderly false).bridge.state = .quiesce ∧ (quiescing .orderly false).bridge.cause = some .orderly
      ∧ (quiescing .power false).bridge.cause = some .power ∧ (quiescing .orderly true).bridge.deadline = .stopped
      ∧ (quiescing .orderly false).pins = ⟨false, false, false, false⟩ := by decide

theorem test_witness_StopAfterTransaction :
    (∀ b ∈ [BridgeState.load, .rebuild], ∀ power ∈ [true, false], ∀ orderly ∈ [true, false],
        (stopping b power orderly).bridge.state = b ∧ (stopping b power orderly).bus.tx = none
          ∧ (stopping b power orderly).bridge.stopPower = power ∧ (stopping b power orderly).bridge.stopOrderly = orderly)
      ∧ svc.bridge.state = .service ∧ (withTx (inState .load) .poll .cs0).bus.tx ≠ none := by decide

theorem test_witness_QuiesceEndsInHaltedOrWarmReset :
    (∀ c ∈ [Cause.power, .orderly], ∀ x ∈ [true, false],
        (quiescing c x).bridge.state = .quiesce ∧ (quiescing c x).bridge.expired = x
          ∧ (quiescing c x).bridge.cause = some c ∧ (quiescing c x).wcb.entries = [] ∧ (quiescing c x).commit = none
          ∧ (quiescing c x).reads.fills = [] ∧ (quiescing c x).bus.tx = none
          ∧ (quiescing c x).journalProgramInProgress = false)
      ∧ svc.bridge.state ≠ .quiesce := by decide

theorem test_witness_DeadlineExpiryAbandonsTheBuffer :
    (quiescing .orderly false).bridge.deadline ≠ .stopped ∧ (quiescing .orderly false).commit = none
      ∧ (commitOf (.probeRead 1 [] false) true).granted = true ∧ (commitOf (.probeRead 1 [] false) false).granted = false
      ∧ (quiescing .orderly false).journal.queue = [] ∧ svc.bridge.state ≠ .quiesce
      ∧ (quiescing .orderly true).bridge.deadline = .stopped := by decide

/-- A WAITING read of the port. -/
def waiting (t : Tag) : PendEntry := ⟨t, .read, false, none, [], .waiting⟩

/-- SERVICE with a request of requester 0 and tag 5 in the table. -/
def tagHeld (b : BridgeState) : State := { inState b with port := ⟨[waiting ⟨0, 5⟩], none, []⟩ }

theorem test_witness_RequestsAreHeldOrAnsweredHalted :
    (inState .load).bridge.state.early = true
      ∧ 32 ≤ ({ svc with port := ⟨List.replicate 32 (waiting ⟨1, 0⟩), none, []⟩ } : State).port.pending.length
      ∧ ({ svc with port := ⟨[], some ⟨⟨0, 5⟩, .protocol⟩, [.slot]⟩ } : State).port.slot ≠ none
      ∧ (inState .halted).accepts (req 0 false) ∧ (inState .halted).bridge.state = .halted
      ∧ (quiescing .power false).accepts (req 0 false) := by
  unfold State.accepts
  and_intros
  all_goals decide +kernel

theorem test_witness_DuplicateTagGoesToTheSlot :
    (tagHeld .halted).bridge.state.early = false ∧ (tagHeld .halted).port.slot = none
      ∧ (∃ e ∈ (tagHeld .halted).port.pending, e.id = tagOf (req 0 false)) ∧ ¬ (tagHeld .halted).serves
      ∧ (tagHeld .service).serves := by
  unfold State.serves
  and_intros
  all_goals decide +kernel

theorem test_witness_ProtocolRequesterAndWindowChecks :
    svc.accepts (req 0 false) ∧ svc.serves ∧ (0 : BitVec 7).toNat = 0 ∧ 64 < (65 : BitVec 7).toNat
      ∧ (1 ≤ (2 : BitVec 7).toNat ∧ 64 < (63 : BitVec 25).toNat % 64 + (2 : BitVec 7).toNat)
      ∧ (spanLegal 0 64 ∧ spanLegal 63 1) ∧ (svc.settings.requesters[(3 : Fin 8)]).enabled = false
      ∧ ((svc.settings.requesters[(0 : Fin 8)]).enabled = true ∧ svc.settings.windowSectors * 4096 ≤ (0x8000 : BitVec 25).toNat
          ∧ spanLegal 0x8000 1) := by
  unfold State.accepts State.serves spanLegal
  and_intros
  all_goals decide +kernel

/-- SERVICE with guard slots 1 and 3 over sectors 2 to 3, of the modes told. -/
def guarded (x y : GuardMode) : State :=
  { svc with access := { svc.access with
    guards := ⟨([GuardSlot.powerOn, ⟨2, 3, x, false⟩, GuardSlot.powerOn, ⟨2, 3, y, true⟩] : List GuardSlot).toArray, by simp⟩ } }

theorem test_witness_RegionAndGuardChecks :
    (svc.inWindow (req 0 false) 0x7FFF 1 ∧ svc.regionRefuses .read (req 0 false) 7)
      ∧ (svc.inWindow (req 0 false) 0x4000 8 ∧ svc.regionRefuses .read (req 0 false) 4)
      ∧ ((guarded .writeDeny .allDeny).inWindow (req 0 false) 0x3FC0 64
        ∧ (guarded .writeDeny .allDeny).regionPasses .write (req 0 false) 3
        ∧ ((guarded .writeDeny .allDeny).access.guards[(1 : Fin 4)]).stops .write 3
        ∧ (∀ j : Fin 4, j < 1 → ¬ ((guarded .writeDeny .allDeny).access.guards[j]).stops .write 3)
        ∧ ((guarded .writeDeny .allDeny).access.guards[(3 : Fin 4)]).stops .read 3
        ∧ (∀ j : Fin 4, j < 3 → ¬ ((guarded .writeDeny .allDeny).access.guards[j]).stops .read 3)) := by
  unfold State.inWindow State.accepts State.serves spanLegal State.regionRefuses State.regionPasses Region.holds
    Region.names GuardSlot.stops
  and_intros
  all_goals decide +kernel

theorem test_witness_ReadOnlyAndGateChecks :
    ({ svc with map := { svc.map with worn := true } } : State).unrefused .write (req 0 false) 0x2000 8
      ∧ ({ svc with access := { svc.access with gateOpen := false } } : State).unrefused .durableWrite (req 2 false) 0x2000 8
      ∧ ({ svc with access := { svc.access with gateOpen := false } } : State).unrefused .write (req 0 true) 0 64
      ∧ (svc.settings.requesters[(0 : Fin 8)]).gateBypass = false := by
  unfold State.unrefused State.unguarded State.inWindow State.accepts State.serves spanLegal State.regionPasses
    Region.holds Region.names GuardSlot.stops
  and_intros
  all_goals decide +kernel

/-- SERVICE with a line of sector 2 in the buffer and in the cache. -/
def cached (group : Fin 2) : State :=
  { holding [entry 2 0] false false with reads := ⟨[⟨⟨2, 1⟩, group, ramp⟩], [⟨⟨2, 2⟩, 0, .queued, false, []⟩]⟩ }

theorem test_witness_ReadIsAnsweredFromTheBufferOrTheCache :
    (cached 0).unrefused .read (req 0 false) 0x2000 8
      ∧ (∀ v ∈ (cached 0).wcb.snapshot (placeOf 0x2000 8), v ≠ none)
      ∧ (cached 0).unrefused .read (req 0 false) 0x2040 8 ∧ none ∈ (cached 0).wcb.snapshot (placeOf 0x2040 8)
      ∧ (cached 0).reads.lookup (placeOf 0x2040 8).key = some ⟨⟨2, 1⟩, 0, ramp⟩
      ∧ (cached 0).wcb.find (placeOf 0x2000 8).key = some (entry 2 0)
      ∧ (cached 0).wcb.find (placeOf 0x2040 8).key = none := by
  unfold State.unrefused State.unguarded State.inWindow State.accepts State.serves spanLegal State.regionPasses
    Region.holds Region.names GuardSlot.stops
  and_intros
  all_goals decide +kernel

theorem test_witness_ReadThatMissesWaitsForAFill :
    (cached 1).unrefused .read (req 0 false) 0x2040 8 ∧ none ∈ (cached 1).wcb.snapshot (placeOf 0x2040 8)
      ∧ (svc.settings.requesters[(0 : Fin 8)]).group ≠ 1
      ∧ (∀ f ∈ (cached 1).reads.fills, f.key = (placeOf 0x2040 8).key → f.superseded = true)
      ∧ (cached 1).unrefused .read (req 0 false) 0x2080 8 ∧ none ∈ (cached 1).wcb.snapshot (placeOf 0x2080 8)
      ∧ (cached 1).reads.lookup (placeOf 0x2080 8).key = none
      ∧ (∃ f ∈ (cached 1).reads.fills, f.key = (placeOf 0x2080 8).key ∧ f.superseded = false) := by
  unfold State.unrefused State.unguarded State.inWindow State.accepts State.serves spanLegal State.regionPasses
    Region.holds Region.names GuardSlot.stops
  and_intros
  all_goals decide +kernel

theorem test_witness_BufferTakesAWrite :
    (∃ e ∈ (buffer [entry 2 0] false false).entries, e.key = (placeOf 0x2000 8).key)
      ∧ (∀ e ∈ (buffer [entry 2 0] true true).entries, e.key ≠ (placeOf 0x2040 8).key)
      ∧ (56 + 8 ≤ 64 ∧ 63 < 64) ∧ (0 + 64 ≤ 64) := by decide +kernel

theorem test_witness_WriteIsPostedOrOverrun :
    svc.writable .write (req 0 false) 0x2000 8 ∧ svc.settings.raw = false
      ∧ (svc.wcb.takeWrite svc.settings (placeOf 0x2000 8) ramp).isSome = true
      ∧ (holding [entry 2 0] true false).writable .durableWrite (req 0 false) 0x2040 8
      ∧ (holding [entry 2 0] true false).wcb.takeWrite small (placeOf 0x2040 8) ramp = none := by
  unfold State.writable State.unrefused State.unguarded State.inWindow State.accepts State.serves spanLegal
    State.regionPasses Region.holds Region.names GuardSlot.stops
  and_intros
  all_goals decide +kernel

theorem test_witness_DurableWriteWaitsForItsCommits :
    svc.writable .durableWrite (req 0 false) 0x2000 64
      ∧ (svc.wcb.takeWrite svc.settings (placeOf 0x2000 64) ramp).isSome = true
      ∧ rawState.writable .write (req 3 false) 0xFFFFC0 64 ∧ rawState.settings.raw = true
      ∧ (rawState.wcb.takeWrite rawState.settings (placeOf 0xFFFFC0 64) ramp).isSome = true := by
  unfold State.writable State.unrefused State.unguarded State.inWindow State.accepts State.serves spanLegal
    State.regionPasses Region.holds Region.names GuardSlot.stops
  and_intros
  all_goals decide +kernel

theorem test_witness_BarrierWaitsForEveryEntry :
    svc.accepts (req 0 false) ∧ svc.serves ∧ svc.wcb.entries = []
      ∧ (holding [entry 2 0, committed 2 1 1] false false).accepts (req 0 false)
      ∧ (holding [entry 2 0, committed 2 1 1] false false).wcb.entries ≠ [] := by
  unfold State.accepts State.serves
  and_intros
  all_goals decide +kernel

/-- A port with an answered entry, or the slot, at the head of its queue. -/
def answering (slot : Bool) : Port :=
  if slot then ⟨[], some ⟨⟨0, 5⟩, .halted⟩, [.slot]⟩
  else ⟨[{ waiting ⟨0, 5⟩ with phase := .answered .ok [1] }, waiting ⟨1, 5⟩], none, [.entry ⟨0, 5⟩]⟩

theorem test_witness_ResponseTakenFreesItsTag :
    svc.port.answers = [] ∧ (answering true).answers = [.slot] ∧ (answering true).slot = some ⟨⟨0, 5⟩, .halted⟩
      ∧ (answering false).answers = [.entry ⟨0, 5⟩]
      ∧ (answering false).find ⟨0, 5⟩ = some { waiting ⟨0, 5⟩ with phase := .answered .ok [1] }
      ∧ (∃ e ∈ (answering false).pending, e.id = ⟨1, 5⟩ ∧ e.phase = .waiting)
      ∧ (∀ e ∈ (answering false).pending, e.id = ⟨0, 5⟩ → e.phase ≠ .waiting) := by decide

theorem test_witness_LingerExpirySetsTheFlag :
    (holding [entry 2 0] false false).wcb.lingerRunning = true ∧ (holding [entry 2 0] false false).wcb.entries ≠ []
      ∧ svc.wcb.lingerRunning = false := by decide

theorem test_witness_CommitOfferCapturesTheSector :
    (let s := holding [entry 2 1, entry 4 0, entry 2 3, entry 0 0] false false
     s.bridge.state = .service ∧ s.commit = none ∧ s.settings.drainMark ≤ s.wcb.entries.length
      ∧ s.wcb.entries = [] ++ entry 2 1 :: [entry 4 0, entry 2 3, entry 0 0] ∧ (entry 2 1).state = .opened
      ∧ s.reads.pinned 2 = false
      ∧ (List.range 64).filter (fun i => (s.wcb.entries.map (fun x =>
          if x.key.sector = 2 ∧ x.state = .opened then { x with dirty := 0, state := .committing x.data x.dirty }
          else x)).any fun x => x.key = ⟨2, i⟩ ∧ x.state ≠ .opened) = [1, 3]
      ∧ (∀ r ∈ s.settings.regions, r.first ≤ 2 ∧ 2 ≤ r.last → r.policy = .inPlaceAllowed) ∧ s.reads.cache = [])
    ∧ (let s := { holding [entry 4 0, entry 4 1, entry 4 2, entry 4 3] false false with
          journal := { svc.journal with compaction := .pending } }
       (∃ r ∈ s.settings.regions, r.first ≤ 4 ∧ 4 ≤ r.last)
        ∧ (∀ r ∈ s.settings.regions, r.first ≤ 4 ∧ 4 ≤ r.last → r.policy = .alwaysRelocate) ∧ s.journal.fenced = false
        ∧ s.journal.compaction ≠ .idle ∧ s.reads.pinned 4 = false)
    ∧ svc.drainMode = false ∧ (∀ x ∈ svc.wcb.entries, x.state ≠ .opened) := by decide +kernel

theorem test_witness_CommitReportFreesOrReopensEntries :
    (∀ e ∈ (holding [entry 0 0, committed 2 1 0, committed 2 2 1] false false).wcb.entries, e.failNote = false)
      ∧ (holding [entry 0 0, committed 2 1 0, committed 2 2 1] false false).wcb.entries.filter
          (fun e => decide (e.state ≠ .opened)) = [committed 2 1 0, committed 2 2 1]
      ∧ (∀ e ∈ (holding [entry 0 0] false false).wcb.entries, e.state = .opened) := by decide +kernel

/-- A commit with its read on the bus. -/
def reading (s : State) (w : Work) : State := { withTx s .commitRead .cs0 with commit := some (commitOf w true) }

/-- Buffer contents for that commit. -/
def imaged (s : State) : State := { s with wcb := buffer [committed 2 1 0] false false }

theorem test_witness_CommitReadEndGoesOn :
    (reading (imaged svc) (.probeRead 1 [] false)).busHolds .commitRead = true
      ∧ (reading (imaged svc) (.probeRead 1 [] false)).bridge.expired = false
      ∧ (commitOf (.probeRead 1 [] false) true).windows = [0]
      ∧ (∀ i < 64, ((imaged svc).image 2 1).2.getLsbD i = true →
          ((imaged svc).image 2 1).1.byte i &&& ~~~ ((List.replicate 64 (0xFF : Byte)).getD i 0) = 0)
      ∧ (reading (imaged rawState) (.probeRead 1 [] false)).settings.raw = true
      ∧ (((imaged rawState).image 2 1).2.getLsbD 7 = true
          ∧ ((imaged rawState).image 2 1).1.byte 7 &&& ~~~ ((List.replicate 64 (0x00 : Byte)).getD 7 0) ≠ 0)
      ∧ (reading (imaged svc) (.copyWindow 0)).busHolds .commitRead = true
      ∧ svc.busHolds .commitRead = false := by decide +kernel
theorem test_witness_CommitReadEndGoesOn_copy :
    ∃ b ∈ (List.range 256).map (fun pos =>
        if (4 * 0 + pos / 64) ∈ (commitOf (.copyWindow 0) true).lines
            ∧ ((imaged svc).image 2 (4 * 0 + pos / 64)).2.getLsbD (pos % 64) = true then
          ((imaged svc).image 2 (4 * 0 + pos / 64)).1.byte (pos % 64)
        else (List.replicate 256 (0xFF : Byte)).getD pos 0), b ≠ 0xFF :=
  ⟨_, List.mem_map.mpr ⟨65, by decide, rfl⟩, by decide +kernel⟩

/-- A fill of line 1 of sector 2, ISSUED. -/
def issued : Fill := ⟨⟨2, 1⟩, 0, .issued 19, false, [⟨0, 5⟩]⟩

theorem test_witness_FillCompleteInstallsAndAnswers :
    ({ withTx svc .fillRead .cs0 with reads := ⟨[], [issued]⟩ } : State).busHolds .fillRead = true
      ∧ ({ withTx svc .fillRead .cs0 with reads := ⟨[], [issued]⟩ } : State).reads.fills.find?
          (fun x => decide (x.phase ≠ .queued)) = some issued
      ∧ svc.busHolds .fillRead = false := by decide

/-- Device 0 in the state told, with an operation. -/
def dev0In (s : State) (d : Device) : State := { s with bus := { s.bus with dev0 := some d } }

/-- A device that erases PS 40 for an owner. -/
def erasingDevice (o : Owner) : Device :=
  { Device.idle .busyErase with op := some ⟨.erase, some 163840, o⟩, opTimer := .running }

theorem test_witness_ArbiterGrantsTheChosenClaim :
    (withTx svc .poll .cs0).bus.tx ≠ none ∧ svc.noteResumes.chosen false = none
      ∧ (let s := { svc with reads := ⟨[], [⟨⟨2, 1⟩, 0, .queued, false, []⟩]⟩ }
         s.bus.tx = none ∧ s.bridge.state ≠ .reset ∧ s.bridge.stopPower = false ∧ s.bridge.stopOrderly = false
          ∧ s.noteResumes.chosen false = some (.fill ⟨⟨2, 1⟩, 0, .queued, false, []⟩, 0)
          ∧ (s.noteResumes.grant (.fill ⟨⟨2, 1⟩, 0, .queued, false, []⟩)).bus.tx ≠ none) := by decide +kernel

/-- SERVICE with a record waiting to be appended, a fill queued and the burst count told. -/
def busy (burst : Nat) (records fills : Bool) : State :=
  { svc with
    bus := { svc.bus with burst := burst }
    reads := ⟨[], if fills then [⟨⟨2, 1⟩, 0, .queued, false, []⟩] else []⟩
    journal := { svc.journal with queue := if records then [⟨.erase, .erased 40, false, false⟩] else [] } }

theorem test_witness_ArbiterOrderAndBurstLimit :
    ((busy 8 true true).bus.burst = 8
        ∧ (busy 8 true true).journalClaim = some (.append ⟨.erase, .erased 40, false, false⟩))
      ∧ (let s := { busy 8 false true with commit := some (commitOf (.probeRead 1 [] false) false) }
         s.bus.burst = 8 ∧ s.journalClaim = none ∧ s.commitClaim.isSome = true)
      ∧ ((busy 7 true true).bus.burst ≠ 8 ∧ (busy 7 true true).fillClaim.isSome = true)
      ∧ ((busy 8 false true).journalClaim = none ∧ (busy 8 false true).commitClaim = none)
      ∧ (let s := { svc with bus := { svc.bus with dev0 := some (erasingDevice .erase), pollsDue := [.cs0] } }
         s.bus.burst ≠ 8 ∧ s.fillClaim = none ∧ s.pollClaim false = some (.poll .cs0))
      ∧ ((busy 0 true false).fillClaim = none ∧ (busy 0 true false).pollClaim false = none
          ∧ (busy 0 true false).journalClaim.isSome = true)
      ∧ (svc.fillClaim = none ∧ svc.pollClaim false = none ∧ svc.journalClaim = none ∧ svc.commitClaim = none) := by
  decide +kernel

theorem test_witness_GrantsBeginTheirTransactions :
    (svc.resolve 2 = 19 ∧ deviceOf svc.settings 19 = .cs0 ∧ svc.bus.dev .cs0 = some (Device.idle .ready)
        ∧ (Device.idle .ready).state = .ready)
      ∧ ((busy 0 true false).journal.queue = [⟨.erase, .erased 40, false, false⟩]
          ∧ (busy 0 true false).journal.active = some .a ∧ (busy 0 true false).journal.nextSeq ≤ 0xFFFFFFFF
          ∧ (busy 0 true false).bus.dev0 = some (Device.idle .ready))
      ∧ (EraseKind.data ≠ .raw ∧ deviceOf svc.settings 1024 = .cs1 ∧ svc.bus.dev .cs1 = some (Device.idle .ready)) := by
  decide +kernel

/-- A status poll of chip select 1 on the lines: opcode 05h, then eight clocks of FDI that spell 82h. -/
theorem test_flashLines_poll :
    (let s : State := { svc with bus := { svc.bus with tx := some ⟨.poll, .cs1, none, [[0x05]]⟩ } }
     s.flashLevels = FlashLines.idle ::
        (([some false, some false, some false, some false, some false, some true, some false, some true]
            ++ List.replicate 8 none).flatMap fun b => [⟨true, false, false, b⟩, ⟨true, false, true, b⟩])
          ++ [FlashLines.idle]
      ∧ s.flashEnd [true, false, false, false, false, false, true, false] = some (.statusPoll 0x82)
      ∧ s.flashEnd [] = some (.statusPoll 0x00)) := by decide +kernel

theorem test_witness_GrantsBeginTheirTransactions_lines :
    svc.bus.tx = none ∧ (withTx svc .program .cs0).bus.tx = some ⟨.program, .cs0, none, []⟩
      ∧ (reading svc (.copyWindow 0)).bytesTaken ⟨.commitRead, .cs0, none, []⟩ = 256
      ∧ (reading svc (.probeRead 1 [] false)).bytesTaken ⟨.commitRead, .cs0, none, []⟩ = 64
      ∧ ∀ i j, j < 8 → ((0 : Byte).getLsbD (7 - j)) = ([] : List Bool).getD (8 * i + j) false :=
  ⟨rfl, rfl, rfl, rfl, fun i j _ => by simp⟩

theorem test_witness_CommandFrameEndStartsTheTimers :
    ((withTx svc .program .cs0).bus.tx = some ⟨.program, .cs0, none, []⟩
        ∧ (withTx svc .program .cs0).bus.dev .cs0 = some (Device.idle .ready))
      ∧ (withTx svc .suspend .cs1).bus.tx = some ⟨.suspend, .cs1, none, []⟩
      ∧ ((withTx svc .resume .cs0).bus.tx = some ⟨.resume, .cs0, none, []⟩
          ∧ (Device.idle .ready).resumeStep ≠ .pollWaits)
      ∧ svc.bus.tx = none ∧ (withTx svc .poll .cs0).bus.tx = some ⟨.poll, .cs0, none, []⟩
      ∧ (dev0In svc { Device.idle .ready with pollTimer := true }).bus.dev .cs0
          = some { Device.idle .ready with pollTimer := true }
      ∧ (Device.idle .ready).pollTimer = false := by decide

theorem test_witness_StatusPollActsOnTheByte :
    (∀ d ∈ [Device.idle .stuck, { erasingDevice .erase with suspendRequested := true }, erasingDevice .erase],
        (withTx (dev0In svc d) .poll .cs0).bus.tx = some ⟨.poll, .cs0, none, []⟩
          ∧ (withTx (dev0In svc d) .poll .cs0).bus.dev .cs0 = some d ∧ d.resumeStep ≠ .pollWaits)
      ∧ (0x01 : Byte).getLsbD svc.settings.profile.busyBit = true
      ∧ (0x20 : Byte).getLsbD svc.settings.profile.busyBit = false
      ∧ (erasingDevice .erase).op = some ⟨.erase, some 163840, .erase⟩ ∧ svc.busHolds .poll = false := by decide

theorem test_witness_OperationTimeoutMakesTheDeviceStuck :
    svc.bus.dev .cs0 = some (Device.idle .ready) ∧ (Device.idle .ready).opTimer ≠ .running
      ∧ (∀ o ∈ [Owner.nobody, .erase], (dev0In svc (erasingDevice o)).bus.dev .cs0 = some (erasingDevice o)
          ∧ (erasingDevice o).opTimer = .running ∧ (erasingDevice o).op = some ⟨.erase, some 163840, o⟩)
      ∧ (dev0In (erasing .data 40 true) (erasingDevice .erase)).erase.record = some ⟨.data, 40, true⟩
      ∧ (dev0In (erasing .data 40 true) (erasingDevice .erase)).map.queue = [⟨40, false⟩] := by decide

/-- LOAD polling, with the two devices told. -/
def polling (x y : DeviceState) : State :=
  { svc with
    bridge := { at_ .load with load := .polling }
    bus := { FlashBus.empty with dev0 := some (Device.idle x), dev1 := some (Device.idle y) } }

theorem test_witness_LoadPollTimeoutSettlesTheChipSelect :
    svc.bridge.state ≠ .load
      ∧ (∀ x ∈ [DeviceState.unknown, .ready, .stuck], ∀ y ∈ [DeviceState.unknown, .ready, .stuck],
          (polling x y).bridge.state = .load ∧ (polling x y).bridge.load = .polling
            ∧ (polling x y).bridge.stopPower = false ∧ (polling x y).bridge.stopOrderly = false
            ∧ (polling x y).bus.dev .cs0 = some (Device.idle x) ∧ (polling x y).bus.dev .cs1 = some (Device.idle y)) := by
  decide

theorem test_witness_EraseClaimChoosesTheNextWork :
    svc.erase.record = none ∧ svc.bridge.stopPower = false ∧ svc.bridge.stopOrderly = false
      ∧ (let s := { rawState with erase := { rawState.erase with raw := some ⟨9, none⟩ } }
         s.erase.record = none ∧ s.bridge.state = .raw ∧ s.erase.raw = some ⟨9, none⟩)
      ∧ rawState.erase.raw = none
      ∧ (let s := { svc with journal := { svc.journal with bankA := some ⟨.stale, none⟩ } }
         s.bridge.state = .service ∧ s.journal.fenced = false ∧ s.erase.bankWork = none
          ∧ s.journal.bankA = some ⟨.stale, none⟩
          ∧ ({ s with erase := { s.erase with bankWork := some ⟨.a, 7, 2⟩ } } : State).journal.isIn .a .stale = true)
      ∧ (svc.journal.isIn .a .stale = false ∧ svc.journal.isIn .b .stale = false ∧ svc.map.queue = [⟨40, false⟩]
          ∧ svc.erase.wait = none ∧ svc.journal.compaction = .idle ∧ svc.journalFull = false)
      ∧ ({ svc with journal := { svc.journal with pointer := 2048 } } : State).journalFull = true
      ∧ (quiescing .power false).erase.record = none ∧ (erasing .data 40 true).erase.record ≠ none := by decide +kernel

/-- SERVICE with a compaction PENDING. -/
def pendingCompaction : State := { svc with journal := { svc.journal with compaction := .pending } }

theorem test_witness_CompactionStartsWhenAllHolds :
    pendingCompaction.journal.bankA = some ⟨.active, some 7⟩ ∧ (7 : BitVec 32) ≠ 0xFFFFFFFF
      ∧ pendingCompaction.journal.bankB = some ⟨.erased, none⟩ ∧ pendingCompaction.bridge.state = .service
      ∧ pendingCompaction.journal.compaction = .pending ∧ pendingCompaction.journal.fenced = false
      ∧ pendingCompaction.map.target = none ∧ pendingCompaction.dataEraseInProgress = false
      ∧ svc.journal.compaction ≠ .pending ∧ State.reset.journal.active = none := by decide

/-- SERVICE with an ERASED record in flight and the pointer told. -/
def appending (pointer : Nat) : State :=
  { svc with
    journal := { svc.journal with pointer := pointer, queue := [⟨.erase, .erased 40, true, true⟩] }
    erase := { svc.erase with wait := some ⟨40, false⟩ } }

theorem test_witness_AppendEndsMoveThePointer :
    (appending 1791).journal.fenced = false ∧ (appending 1791).journal.run = none
      ∧ (appending 1791).journal.queue = [⟨.erase, .erased 40, true, true⟩]
      ∧ (appending 1791).journal.pointer + 1 + 256 ≤ (appending 1791).settings.bankSectors * 256
      ∧ (appending 1791).map.taking = false
      ∧ ((appending 1791).journal.pointer / 256 + 1) * 256 + 256 ≤ (appending 1791).settings.bankSectors * 256 := by
  decide

theorem test_witness_CompactionWindowsEnd :
    (let r := runOf (lastWindow small (runOf 0 true false).copy) true false
     (writing r).bridge.state = .service ∧ (writing r).journal.run = some r ∧ r.inProgress = true ∧ r.abandoned = false
      ∧ (writing r).commit = none ∧ r.window = lastWindow (writing r).settings r.copy ∧ (writing r).journal.fenced = false
      ∧ closingSlot (writing r).settings r.copy + 1 + 256 ≤ (writing r).settings.bankSectors * 256
      ∧ (writing r).journal.attempt = 1)
    ∧ (let r := runOf 9 true false
       (writing r).journal.run = some r ∧ r.window ≠ lastWindow (writing r).settings r.copy) := by decide +kernel

theorem test_witness_FencedStopsTheJournal :
    ({ svc with journal := { svc.journal with fenced := true } } : State).journal.fenced = true
      ∧ svc.journal.fenced = false ∧ svc.commit = none ∧ svc.erase.record = none ∧ svc.journal.run = none
      ∧ (writing (runOf 0 true false)).journal.run = some (runOf 0 true false) := by decide

theorem test_witness_PoolLowMark :
    svc.map.pool = [30, 31, 32, 33, 34]
      ∧ (let s := { svc with map := { svc.map with pool := [30, 31, 32, 33], lowArmed := true } }
         s.map.pool = 30 :: [31, 32, 33] ∧ s.map.lowArmed = true ∧ [31, 32, 33].length + 1 = s.settings.lowMark)
      ∧ [31, 32, 33, 34].length + 1 ≠ svc.settings.lowMark ∧ svc.map.taking = false
      ∧ ({ svc.map with taking := true } : SectorMap).taking = true ∧ svc.pins.pfail = false
      ∧ (asserted .rebuild).pins.pfail = true ∧ (asserted .rebuild).commit = none
      ∧ 1 ≤ svc.settings.lowMark := by decide

theorem test_witness_PoolEmptyEpisode :
    (let s := { svc with map := { svc.map with pool := [] } }
     s.map.pool = [] ∧ s.map.queue ≠ [] ∧ s.map.emptyRaised = false)
    ∧ ({ svc.map with pool := [], emptyRaised := true } : SectorMap).emptyRaised = true
    ∧ ({ svc.map with pool := [], queue := [] } : SectorMap).queue = []
    ∧ ({ svc.map with taking := true } : SectorMap).taking = true := by decide

theorem test_witness_SectorsMoveBetweenClasses :
    ({ svc.map with target := some 30 } : SectorMap).target = some 30 ∧ svc.map.target = none
      ∧ ([3, 9].Pairwise (· < ·) ∧ ∀ x ∈ ([⟨3, .program⟩, ⟨9, .erase⟩] : List RetiredSector), x.ps ≠ 5) := by decide

theorem test_witness_DescriptorIdentification :
    (board.set 0 0).length = 128 ∧ (board.set 0 0).take 4 ≠ [0x56, 0x52, 0x43, 0x4C]
      ∧ board.take 4 = [0x56, 0x52, 0x43, 0x4C] ∧ (board.set 4 2).getD 4 0 ≠ 1 ∧ board.getD 4 0 = 1 := by decide +kernel
set_option maxRecDepth 100000 in
theorem test_witness_DescriptorIdentification_check :
    (crc32 (board.take 124)).toNat = fromLE (board.drop 124)
      ∧ (crc32 (board.take 124)).toNat ≠ fromLE ((board.set 124 1).drop 124) := by decide +kernel

/-- The line of the board's descriptor told. -/
def boardLine (k : Nat) : Line := Line.ofFn fun i => board.getD (64 * k + i) 0

/-- LOAD reading the descriptor. -/
def loading (p : LoadPhase) : State := withTx { svc with bridge := { at_ .load with load := p } } .descriptorRead .cs0

theorem test_board_lines : (boardLine 0).bytes ++ (boardLine 1).bytes = board := by decide +kernel
theorem test_board_lines_exchanged : descriptorIndex ((boardLine 1).bytes ++ (boardLine 0).bytes) = 1 := by decide +kernel

theorem test_witness_DescriptorReadEnd :
    ((loading .readLine0).busHolds .descriptorRead = true ∧ (loading .readLine0).bridge.state = .load
        ∧ (loading .readLine0).bridge.stopPower = false ∧ (loading .readLine0).bridge.stopOrderly = false
        ∧ (loading .readLine0).bridge.load = .readLine0)
      ∧ (loading (.readLine1 (boardLine 0))).bridge.load = .readLine1 (boardLine 0)
      ∧ descriptorIndex ((boardLine 0).bytes ++ (boardLine 1).bytes) = 0
      ∧ descriptorIndex ((boardLine 1).bytes ++ (boardLine 0).bytes) ≠ 0
      ∧ (withTx svc .descriptorRead .cs0).bridge.state ≠ .load ∧ svc.busHolds .descriptorRead = false := by
  rw [test_board_lines, test_board_lines_exchanged, test_board_passes]
  decide

theorem test_witness_DescriptorAdoption : descriptorIndex board = 0 ∧ checkPasses (board.set 0 0) 1 = false :=
  ⟨test_board_passes, by decide +kernel⟩

theorem test_witness_EntryToRawPutsItsSettingsInForce : (polling .stuck .ready).pins.pfail = false := by decide

/-- A window of 96 sectors, whose image needs four records. -/
def wide : Settings := { small with windowSectors := 96 }

/-- A BANK_OPEN record of generation 7 and number 1, with its check. -/
def openRecord : List Byte :=
  [0x04, 0x00, 0x01, 0x00, 0x00, 0x00, 0x07, 0x00, 0x00, 0x00, 0x00, 0x00, 0x00, 0x00, 0xA2, 0x90]

/-- Image record 0 of the identity map behind it. -/
def imageRecord0 : List Byte :=
  [0x06, 0x00, 0x02, 0x00, 0x00, 0x00, 0x00, 0x00, 0x11, 0x00, 0x12, 0x00, 0x13, 0x00, 0x14, 0x00, 0x15, 0x00, 0x16, 0x00,
    0x17, 0x00, 0x18, 0x00, 0x19, 0x00, 0x1A, 0x00, 0x1B, 0x00, 0x1C, 0x00, 0x1D, 0x00, 0x1E, 0x00, 0x1F, 0x00, 0x20, 0x00,
    0x21, 0x00, 0x22, 0x00, 0x23, 0x00, 0x24, 0x00, 0x25, 0x00, 0x26, 0x00, 0x27, 0x00, 0x28, 0x00, 0x00, 0x00, 0x00, 0x00,
    0x00, 0x00, 0x8D, 0x3F]

/-- Image record 1 of the identity map behind it. -/
def imageRecord1 : List Byte :=
  [0x06, 0x00, 0x03, 0x00, 0x00, 0x00, 0x18, 0x00, 0x29, 0x00, 0x2A, 0x00, 0x2B, 0x00, 0x2C, 0x00, 0x2D, 0x00, 0x2E, 0x00,
    0x2F, 0x00, 0x30, 0x00, 0x31, 0x00, 0x32, 0x00, 0x33, 0x00, 0x34, 0x00, 0x35, 0x00, 0x36, 0x00, 0x37, 0x00, 0x38, 0x00,
    0x39, 0x00, 0x3A, 0x00, 0x3B, 0x00, 0x3C, 0x00, 0x3D, 0x00, 0x3E, 0x00, 0x3F, 0x00, 0x40, 0x00, 0x00, 0x00, 0x00, 0x00,
    0x00, 0x00, 0xCE, 0x3C]

/-- Image record 2 of the identity map behind it. -/
def imageRecord2 : List Byte :=
  [0x06, 0x00, 0x04, 0x00, 0x00, 0x00, 0x30, 0x00, 0x41, 0x00, 0x42, 0x00, 0x43, 0x00, 0x44, 0x00, 0x45, 0x00, 0x46, 0x00,
    0x47, 0x00, 0x48, 0x00, 0x49, 0x00, 0x4A, 0x00, 0x4B, 0x00, 0x4C, 0x00, 0x4D, 0x00, 0x4E, 0x00, 0x4F, 0x00, 0x50, 0x00,
    0x51, 0x00, 0x52, 0x00, 0x53, 0x00, 0x54, 0x00, 0x55, 0x00, 0x56, 0x00, 0x57, 0x00, 0x58, 0x00, 0x00, 0x00, 0x00, 0x00,
    0x00, 0x00, 0x92, 0x56]

/-- The bytes of window 0 of a bank that opens with them. -/
def openBytes : List Byte := openRecord ++ List.replicate 48 0xFF ++ imageRecord0 ++ imageRecord1 ++ imageRecord2

theorem test_openBytes : windowBytes wide ⟨identityTable wide, [], []⟩ 7 0 1 = openBytes := by decide +kernel

/-- That window. -/
def openWindow : Window := ⟨openBytes.toArray, by decide +kernel⟩

/-- An empty window. -/
def emptyWindow : Window := ⟨(List.replicate 256 0xFF).toArray, by decide +kernel⟩

/-- REBUILD reading a bank. -/
def rebuilding (r : Rebuild) : State :=
  withTx { svc with bridge := at_ .rebuild, settings := wide, journal := { MapJournal.empty with rebuild := r } }
    .journalRead .cs0

theorem test_openWindow_slot : slotAt [openWindow] 0 = .valid 1 (.bankOpen 7) := by decide +kernel
theorem test_openWindow_contender : contenderOf .a openWindow = some ⟨.a, 7, 1, openWindow⟩ := by
  unfold contenderOf
  rw [test_openWindow_slot]

theorem test_witness_JournalReadEnd :
    ((rebuilding .readA).busHolds .journalRead = true ∧ (rebuilding .readA).bridge.state = .rebuild
        ∧ (rebuilding .readA).bridge.stopPower = false ∧ (rebuilding .readA).bridge.stopOrderly = false)
      ∧ contenderOf .a emptyWindow = none ∧ contenderOf .b emptyWindow = none
      ∧ (contenderOf .a openWindow = some ⟨.a, 7, 1, openWindow⟩
          ∧ scanOpening (rebuilding (.readB openWindow)).settings 1 [openWindow] = .more)
      ∧ (withTx svc .journalRead .cs0).bridge.state ≠ .rebuild ∧ svc.busHolds .journalRead = false := by
  refine ⟨by decide +kernel, by decide +kernel, by decide +kernel, ⟨test_openWindow_contender, by decide +kernel⟩,
    by decide +kernel, by decide +kernel⟩

theorem test_witness_StatusEventReadAndNotice :
    svc.pins.porst = false ∧ svc.events.queue = [] ∧ svc.events.notice = .armed
      ∧ (svc.raise { kind := .poolLow }).events.queue = [⟨{ kind := .poolLow }, 1, 0⟩]
      ∧ (svc.raise { kind := .poolLow }).events.notice = .notified := by decide

theorem test_witness_EventsAreKeptOrCounted :
    (⟨List.replicate 15 ⟨{ kind := .worn }, 9, 0⟩, 9, .notified⟩ : EventBlock).queue.length < 16
      ∧ 16 ≤ (⟨List.replicate 15 ⟨{ kind := .worn }, 9, 0⟩ ++ [⟨{ kind := .worn }, 10, 255⟩], 9, .notified⟩
          : EventBlock).queue.length := by decide

/-- SERVICE with guard slot 2 locked. -/
def locked : State := { svc with access := svc.access.setGuard 2 ⟨1, 2, .allDeny, true⟩ }

theorem test_witness_GuardSetAndRead :
    locked.pins.porst = false ∧ locked.serves ∧ 3 < (4 : Byte).toNat ∧ 2 < (3 : Byte).toNat
      ∧ (3 : Byte).toNat = (3 : Fin 4).val ∧ GuardMode.allDeny.byte = 2 ∧ (locked.access.guards[(2 : Fin 4)]).lock = true
      ∧ (locked.access.guards[(3 : Fin 4)]).lock = false ∧ (4 : BitVec 16).toNat < (5 : BitVec 16).toNat
      ∧ locked.settings.windowSectors ≤ (8 : BitVec 16).toNat ∧ (7 : BitVec 16).toNat < locked.settings.windowSectors := by
  refine ⟨by decide, Or.inl (by decide), by decide⟩

theorem test_witness_GateCommandsAndResetAnswers :
    svc.pins.porst = false ∧ svc.serves ∧ svc.access.gateLock = false
      ∧ ({ svc with access := { svc.access with gateLock := true } } : State).access.gateLock = true := by
  refine ⟨by decide, Or.inl (by decide), by decide⟩

theorem test_witness_RawEraseAndTheResultStore :
    rawState.pins.porst = false ∧ rawState.bridge.state = .raw ∧ rawState.erase.raw = none
      ∧ (4095 : BitVec 16).toNat ≤ 4095 ∧ 4095 < (4096 : BitVec 16).toNat ∧ (rawErasing true).erase.raw ≠ none
      ∧ State.reset.link.store = .empty ∧ (svc.reply .done [1]).link.store = .stored .done [1]
      ∧ ((rawErasing true).link.store = .followsRaw ∧ (rawErasing true).erase.raw = some ⟨9, none⟩)
      ∧ ({ rawErasing true with erase := { svc.erase with raw := some ⟨9, some .erased⟩ } } : State).erase.raw
          = some ⟨9, some .erased⟩ := by decide

theorem test_witness_LinkCommandsAreRefusedByState :
    (inState .load).pins.porst = false ∧ ¬ (inState .load).serves ∧ svc.bridge.state ≠ .raw
      ∧ State.reset.pins.porst = true ∧ encodeLinkWrite .gateLock = some [0x32] := by
  unfold State.serves
  and_intros
  all_goals decide +kernel

/-- The address byte 58h, a write to 2Ch, and the command GATE_LOCK, each acknowledged; then the read of its answer. -/
theorem test_link_wires :
    (let s := { svc with access := { svc.access with gateLock := false } }
     let w := s.linkRun false (.start :: (sendClocks 0x58 ++ [.clock true] ++ sendClocks 0x32 ++ [.clock true, .stop]))
     let r := w.1.linkRun false (.start :: (sendClocks 0x59 ++ [.clock true] ++ List.replicate 8 (.clock true) ++ [.clock true]))
     w.1.access.gateLock = true ∧ w.1.link.store = .stored .done [if s.access.gateOpen then 3 else 2]
      ∧ w.2 = List.replicate 8 true ++ [false] ++ List.replicate 8 true ++ [false]
      ∧ r.1.link.sent = [0x00] ∧ r.1.link.frame = .idle
      ∧ r.2 = List.replicate 8 true ++ [false] ++ List.replicate 8 false ++ [true]) := by decide +kernel

theorem test_witness_LinkWritesDecodeToTheirCommand_wires :
    svc.link.frame = .idle ∧ svc.pins.porst = false ∧ (0x58 : Byte).toNat = 2 * (0x2C + svc.link.straps.toNat)
      ∧ (0x5A : Byte).toNat / 2 ≠ 0x2C + svc.link.straps.toNat ∧ State.reset.pins.porst = true
      ∧ (svc.setFrame (.addressAck true)).linkMayHoldScl = true ∧ (svc.setFrame (.writeAck [0x10])).linkMayHoldScl = true
      ∧ svc.linkMayHoldScl = false := by decide

theorem test_witness_LinkWritesDecodeToTheirCommand :
    (Instr.malformedWrite [0x21]).wellFormed = true ∧ encodeLinkWrite (.malformedWrite [0x21]) = some [0x21]
      ∧ encodeLinkWrite (.gateOpen true) = some [0x30]
      ∧ encodeLinkWrite (.guardSet 3 0 0xFFFF 2 1) = some [0x20, 3, 0, 0, 0xFF, 0xFF, 2, 1] := by decide

theorem test_witness_LocksHoldUntilPowerOnReset :
    Instr.warmReset ≠ .porstAssert ∧ (locked.access.guards[(2 : Fin 4)]).lock = true ∧ locked.pins.porst = false
      ∧ locked.serves ∧ (locked.access.guards[(1 : Fin 4)]).lock = false
      ∧ (0 : BitVec 16).toNat ≤ (7 : BitVec 16).toNat ∧ (7 : BitVec 16).toNat < locked.settings.windowSectors
      ∧ (1 : Byte).getLsbD 0 = true := by
  refine ⟨by decide, by decide, by decide, Or.inl (by decide), by decide⟩

theorem test_witness_EveryStepKeepsTheLaws : State.reset.lawful ∧ ∃ t, step State.reset = .next t := by
  refine ⟨⟨⟨by decide, by decide, by decide⟩, ⟨by decide, by decide, by decide, ?_, by decide⟩,
    ⟨by decide, by decide, by decide⟩, ⟨by decide, ?_⟩, ⟨⟨by decide, by decide, by decide, by decide⟩, by decide, by decide⟩,
    by decide, by decide⟩, _, rfl⟩
  · intro id; simp [State.reset]
  · intro cs d; cases cs <;> simp [State.reset, FlashBus.empty, FlashBus.dev]

/-! ## Witnesses of the further clauses -/

/-- A state with a commit and an append queue. -/
def committing (s : State) (c : CommitRecord) (queue : List QueueItem) : State :=
  { s with commit := some c, journal := { s.journal with queue := queue } }

/-- A record of the Commit Engine, its program begun or not. -/
def asked (d : Delta) (begun : Bool) : QueueItem := ⟨.commit, d, begun, begun⟩

/-- A commit with its target PS 30. -/
def relocating (w : Work) (attempts : Nat) : CommitRecord :=
  { commitOf w false with target := some 30, attempts := attempts }

/-- The state in which a Sector Map and a journal are changed. -/
def remapped (s : State) (m : SectorMap) (j : MapJournal) : State := { s with map := m, journal := j }

theorem test_witness_DeadlineExpiryAbandonsTheBuffer_commit :
    (let s := committing (quiescing .orderly false) (relocating .appendRetireOld 1) [asked (.retire 19 .program) true]
     s.bridge.cause = some .orderly ∧ ∃ q ∈ s.journal.queue, q.claimant = .commit ∧ q.begun = true)
    ∧ (let s := committing (quiescing .power false) (relocating .appendRetireOld 1) [asked (.retire 19 .program) false]
       (relocating .appendRetireOld 1).granted = false ∧ (∀ q ∈ s.journal.queue, q.claimant = .commit → q.begun = false)
        ∧ (relocating .appendRetireOld 1).target = some 30)
    ∧ (commitOf .takeWaits false).work ≠ .appendRetireOld := by decide

theorem test_witness_ResponseTakenFreesItsTag_signals :
    ({ svc with port := answering false } : State).response = some ⟨⟨0, 5⟩, .ok, [1]⟩ ∧ ([1] : List Byte)[0]? = some 1
      ∧ (List.replicate 64 (9 : Byte))[63]? = some 9 ∧ (List.replicate 64 (9 : Byte)).length ≤ 64
      ∧ svc.response = none := by decide

/-- SERVICE in drain mode with two lines of sector 2, some of them in the cache. -/
def drained (cache : List CacheLine) : State :=
  { holding [entry 2 1, entry 2 3, entry 4 0, entry 0 0] false false with reads := ⟨cache, []⟩ }

theorem test_witness_CommitOfferCapturesTheSector_cache :
    (let s := drained [⟨⟨2, 1⟩, 0, ramp⟩]
     [1, 3] = [1] ++ 3 :: ([] : List Nat) ∧ (∀ k ∈ [1], (s.reads.lookup ⟨2, k⟩).isSome = true)
      ∧ s.reads.lookup ⟨2, 3⟩ = none)
    ∧ (∀ k ∈ [1, 3], ((drained [⟨⟨2, 1⟩, 0, ramp⟩, ⟨⟨2, 3⟩, 0, ramp⟩]).reads.lookup ⟨2, k⟩).isSome = true)
    ∧ ({ commitOf .allocHeld false with lines := [1, 3] } : CommitRecord).windows = [0] := by decide +kernel
theorem test_witness_CommitOfferCapturesTheSector_change :
    ¬ (imaged svc).needsErase 2 1 ramp ∧ (imaged svc).needsErase 2 1 Line.zero := by
  unfold State.needsErase
  exact ⟨by decide +kernel, 1, by decide +kernel⟩
theorem test_witness_CommitOfferCapturesTheSector_alloc :
    ({ svc with journal := { svc.journal with fenced := true } } : State).journal.fenced = true
      ∧ (svc.journal.fenced = false ∧ svc.journal.compaction = .idle ∧ svc.journalFull = false)
      ∧ pendingCompaction.journal.compaction ≠ .idle
      ∧ ({ svc with journal := { svc.journal with pointer := 2048 } } : State).journalFull = true
      ∧ svc.take.2 = .granted 30 ∧ (remapped svc { svc.map with pool := [] } svc.journal).take.2 = .waits
      ∧ (remapped svc { svc.map with pool := [], queue := [] } svc.journal).take.2 = .refused
      ∧ (commitOf .allocHeld false).work = .allocHeld ∧ svc.bridge.expired = false
      ∧ (commitOf .takeWaits false).work ≠ .allocHeld := by decide +kernel

theorem test_witness_CommitReportFreesOrReopensEntries_failed :
    (holding [entry 0 0, committed 2 1 0] false false).wcb.entries.filter (fun e => decide (e.state ≠ .opened)) ≠ []
      ∧ (quiescing .orderly true).bridge.expired = true ∧ svc.bridge.expired = false := by decide +kernel

theorem test_witness_CommitReadEndGoesOn_probe :
    (reading (imaged svc) (.probeRead 1 [2, 3] false)).busHolds .commitRead = true
      ∧ (∀ k ∈ [2], ((drained [⟨⟨2, 2⟩, 0, ramp⟩]).reads.lookup ⟨2, k⟩).isSome = true)
      ∧ (drained [⟨⟨2, 2⟩, 0, ramp⟩]).reads.lookup ⟨2, 3⟩ = none
      ∧ (let s := { reading svc (.probeRead 1 [] false) with bridge := (quiescing .power true).bridge }
         s.busHolds .commitRead = true ∧ s.bridge.expired = true)
      ∧ (∀ b ∈ (List.range 256).map (fun pos => (imaged svc).newByte (commitOf (.copyWindow 1) true) 1 pos
          ((List.replicate 256 (0xFF : Byte)).getD pos 0)), b = 0xFF)
      ∧ (∃ b ∈ (List.range 256).map (fun pos => (imaged svc).newByte (commitOf (.copyLine 0 2 [] [(0, ramp)]) true) 0 pos
          (match ((2, ramp) :: [(0, ramp)]).find? fun g => decide (g.1 = 4 * 0 + pos / 64) with
            | none => 0
            | some g => g.2.byte (pos % 64))), b ≠ 0xFF) := by
  unfold State.newByte State.imaged
  decide +kernel
theorem test_witness_CommitReadEndGoesOn_programs :
    ((commitOf (.programSpan 0 [15]) true).work = .programSpan 0 [15] ∧ ([15] : List Nat) ≠ []
        ∧ (quiescing .power true).bridge.expired = true ∧ svc.bridge.expired = false ∧ svc.settings.raw = false
        ∧ rawState.settings.raw = true)
      ∧ ((relocating (.copyProgram 15 [0]) 1).work = .copyProgram 15 [0] ∧ svc.journal.fenced = false
        ∧ svc.journalFull = false) := by decide
theorem test_witness_CommitReadEndGoesOn_full :
    (let s := committing (remapped svc { svc.map with target := some 30 }
        { svc.journal with pointer := svc.settings.bankSectors * 256 }) (relocating (.copyProgram 15 [0]) 1) []
     s.journalFull = true ∧ s.journal.fenced = false ∧ s.bridge.expired = false
      ∧ (relocating (.copyProgram 15 [0]) 1).attempts < 3 ∧ 3 ≤ (relocating (.copyProgram 15 [0]) 3).attempts
      ∧ (s.tellOwner .commit true).map.target = none ∧ (s.tellOwner .commit true).journal.queue = []
      ∧ (s.tellOwner .commit true).commit = some
          { relocating .allocHeld 1 with target := none, keepAttempts := true })
    ∧ (quiescing .power true).bridge.expired = true := by decide +kernel
theorem test_witness_CommitReadEndGoesOn_copies :
    ((∀ i < 4, svc.reads.lookup ⟨2, 4 * 15 + i⟩ = none)
        ∧ ([60, 61, 62, 63] : List Nat).filter (fun l => decide ¬(l ∈ [1] ∧ (svc.image 2 l).2 = BitVec.allOnes 64)) ≠ [])
      ∧ (let s := drained [⟨⟨2, 0⟩, 0, ramp⟩]
         (∃ i < 4, s.reads.lookup ⟨2, 4 * 0 + i⟩ ≠ none)
          ∧ ([0, 1, 2, 3] : List Nat).filter (fun l => (s.reads.lookup ⟨2, l⟩).isNone) = 1 :: [2, 3])
      ∧ (let s := drained ([0, 1, 2, 3].map fun l => ⟨⟨2, l⟩, 0, ramp⟩)
         ∀ l ∈ ([0, 1, 2, 3] : List Nat), s.reads.lookup ⟨2, l⟩ ≠ none) := by decide +kernel

theorem test_witness_GrantsBeginTheirTransactions_commit :
    (commitOf (.probeRead 1 [] false) false).work = .probeRead 1 [] false
      ∧ ((deviceOf svc.settings 19 = .cs0 ∧ svc.bus.dev .cs0 = some (Device.idle .ready))
        ∧ (imaged svc).imaged (commitOf (.programSpan 0 []) false) 0 64
        ∧ (imaged svc).imaged (commitOf (.programSpan 0 []) false) 0 71
        ∧ ∀ pos, pos < 256 → (imaged svc).imaged (commitOf (.programSpan 0 []) false) 0 pos → 64 ≤ pos ∧ pos ≤ 71)
      ∧ ((relocating (.copyProgram 15 [0]) 1).target = some 30 ∧ deviceOf svc.settings 30 = .cs0) := by
  unfold State.imaged
  decide +kernel
theorem test_witness_GrantsBeginTheirTransactions_bank :
    (let s := writing (runOf 0 false false)
     s.bus.dev0 = some (Device.idle .ready)
      ∧ s.journal.nextSeq + windowNumbers s.settings (runOf 0 false false).copy 0 - 1 ≤ 0xFFFFFFFF)
    ∧ (let s := remapped svc svc.map { svc.journal with nextSeq := 0x100000000 }
       0xFFFFFFFF < s.journal.nextSeq
        ∧ 0xFFFFFFFF < s.journal.nextSeq + windowNumbers s.settings (runOf 0 false false).copy 0 - 1) := by decide +kernel

theorem test_witness_CommandFrameEndStartsTheTimers_load :
    ((withTx (dev0In svc { Device.idle .ready with resumeStep := .pollWaits }) .resume .cs0).bus.dev .cs0
        = some { Device.idle .ready with resumeStep := .pollWaits }) ∧ (∀ d, svc.bus.dev .cs0 = some d → d.pollTimer = false) := by
  refine ⟨by decide, fun d h => ?_⟩
  cases h
  rfl

/-- LOAD with a poll on the bus, of the chip select told. -/
def polled (x y : DeviceState) (cs : ChipSelect) : State :=
  { svc with
    bridge := { at_ .load with load := .polling }
    bus := { FlashBus.empty with
      tx := some ⟨.poll, cs, none, []⟩, dev0 := some (Device.idle x), dev1 := some (Device.idle y) } }

/-- LOAD with the one poll after the RESUME of device 0 on the bus. -/
def resuming (y : ResumeStep) : State :=
  { svc with
    bridge := { at_ .load with load := .resuming }
    bus := { FlashBus.empty with
      tx := some ⟨.poll, .cs0, none, []⟩
      dev0 := some { Device.idle .ready with resumeStep := .pollWaits }
      dev1 := some { Device.idle .ready with resumeStep := y } } }

theorem test_witness_StatusPollActsOnTheByte_load :
    (∀ cs ∈ [ChipSelect.cs0, .cs1], ∀ y ∈ [DeviceState.unknown, .ready, .stuck],
      (let s := if cs = .cs0 then polled .unknown y .cs0 else polled y .unknown .cs1
       s.bus.tx = some ⟨.poll, cs, none, []⟩ ∧ s.bridge.state = .load ∧ s.bridge.load = .polling
        ∧ s.bus.dev cs = some (Device.idle .unknown) ∧ s.bridge.stopPower = false ∧ s.bridge.stopOrderly = false
        ∧ s.bus.dev (if cs = .cs0 then .cs1 else .cs0) = some (Device.idle y)))
    ∧ (∀ y ∈ [ResumeStep.none, .pollWaits],
        (resuming y).bridge.load = .resuming
          ∧ (resuming y).bus.dev .cs0 = some { Device.idle .ready with resumeStep := .pollWaits }
          ∧ (resuming y).bus.dev .cs1 = some { Device.idle .ready with resumeStep := y }) := by decide

theorem test_witness_OperationTimeoutMakesTheDeviceStuck_owners :
    ∀ o ∈ [Owner.commit, .journal], (dev0In svc { Device.idle .busyProgram with
        op := some ⟨.program, some 102400, o⟩, opTimer := .running }).bus.dev .cs0
      = some { Device.idle .busyProgram with op := some ⟨.program, some 102400, o⟩, opTimer := .running } := by decide

theorem test_witness_EraseClaimChoosesTheNextWork_ends :
    ((erasing .data 40 true).erase.record = some ⟨.data, 40, true⟩ ∧ (erasing .data 40 true).map.queue = [⟨40, false⟩]
        ∧ (erasing .data 40 true).bridge.state ≠ .halted)
      ∧ (∀ w ∈ [(⟨.b, 6, 1⟩ : BankWork), ⟨.b, 7, 2⟩], (erasing (.bank w) 9 true).erase.record = some ⟨.bank w, 9, true⟩)
      ∧ (6 + 1 < svc.settings.bankSectors ∧ svc.settings.bankSectors ≤ 7 + 1)
      ∧ (let s := { inState .rebuild with journal := { svc.journal with rebuild := .firstErase } }
         s.bridge.state = .rebuild ∧ s.journal.rebuild = .firstErase ∧ s.bridge.stopPower = false)
      ∧ (rawErasing true).erase.record = some ⟨.raw, 9, true⟩
      ∧ (let s := remapped svc svc.map { svc.journal with bankA := some ⟨.erased, none⟩, bankB := some ⟨.stale, none⟩ }
         s.journal.isIn .b .stale = true ∧ s.journal.isIn .a .stale = false) := by decide +kernel

theorem test_witness_CompactionStartsWhenAllHolds_bankB :
    (let j : MapJournal := { pendingCompaction.journal with
      bankA := some ⟨.erased, none⟩, bankB := some ⟨.active, some 0xFFFFFFFF⟩ }
     j.active = some .b ∧ j.row .b = some ⟨.active, some 0xFFFFFFFF⟩ ∧ j.row Bank.b.other = some ⟨.erased, none⟩)
    ∧ pendingCompaction.journal.active = some .a
    ∧ pendingCompaction.journal.row .a = some ⟨.active, some 7⟩
    ∧ pendingCompaction.journal.row Bank.a.other = some ⟨.erased, none⟩ := by decide

theorem test_witness_AppendEndsMoveThePointer_claimants :
    (∀ w ∈ [Work.appendMap, .appendRetireOld, .appendRetireTarget],
      (let s := committing svc (relocating w 2) [asked (.map 2 30 19) true]
       s.journal.run = none ∧ s.commit = some (relocating w 2) ∧ (relocating w 2).target = some 30
        ∧ (relocating w 2).attempts < 3 ∧ s.bridge.expired = false ∧ s.journal.fenced = false))
    ∧ ({ svc.map with target := some 30 } : SectorMap).target = some 30
    ∧ (relocating .appendRetireTarget 3).attempts = 3
    ∧ ({ svc.map with taking := true, target := none, pool := [] } : SectorMap).taking = true := by decide
theorem test_witness_AppendEndsMoveThePointer_trigger :
    (let s := remapped svc svc.map { svc.journal with pointer := 1793 }
     s.bridge.state = .service ∧ s.journal.compaction = .idle ∧ s.journal.fenced = false ∧ s.journal.active ≠ none
      ∧ s.settings.bankSectors * 256 - s.journal.pointer < 256)
    ∧ (let s := remapped svc svc.map { svc.journal with pointer := 1792 }
       256 ≤ s.settings.bankSectors * 256 - s.journal.pointer)
    ∧ (let s := committing (remapped svc svc.map { svc.journal with pointer := 2048 }) (relocating .appendMap 1)
          [asked (.map 2 30 19) false]
       s.journalFull = true ∧ ∃ q ∈ s.journal.queue, q.claimant = .commit ∧ q.inProgress = false) := by decide +kernel

theorem test_witness_CompactionWindowsEnd_others :
    ((writing (runOf 9 true true)).journal.run = some (runOf 9 true true) ∧ (runOf 9 true true).abandoned = true)
      ∧ (let s := remapped (writing (runOf 9 true false)) svc.map
            { (writing (runOf 9 true false)).journal with attempt := 2 }
         s.journal.attempt ≠ 1 ∧ s.bridge.state ≠ .rebuild)
      ∧ (let s := { writing (runOf 0 true false) with
            bridge := at_ .rebuild, journal := { (writing (runOf 0 true false)).journal with rebuild := .firstWrite } }
         s.bridge.state = .rebuild ∧ s.journal.rebuild = .firstWrite ∧ s.bridge.stopPower = false
          ∧ s.bridge.stopOrderly = false)
      ∧ ([3, 4] : List Nat)[1]? = some 4 ∧ ([⟨3, .erase⟩] : List RetiredSector)[0]? = some ⟨3, .erase⟩
      ∧ 0 < (small.windowSectors + 23) / 24 := by decide

theorem test_witness_FencedStopsTheJournal_commit :
    (∃ q ∈ (committing svc (relocating .appendMap 1) [asked (.map 2 30 19) true]).journal.queue,
        q.claimant = .commit ∧ q.begun = true)
      ∧ (∀ q ∈ (committing svc (relocating .appendMap 1) [asked (.map 2 30 19) false]).journal.queue,
          q.claimant = .commit → q.begun = false)
      ∧ (commitOf (.probeRead 1 [] false) true).stage = .probe ∧ (commitOf (.programSpan 0 []) true).stage = .inPlace
      ∧ ((commitOf (.copyWindow 0) true).stage = .copy ∧ (commitOf (.copyWindow 0) true).work ≠ .appendRetireTarget) := by
  decide

/-- Settings of a data area of six sectors, PS 17 to PS 22: two logical sectors and four spares. -/
def tiny : Settings :=
  { small with totalSectors := 23, dataSectors := 6, windowSectors := 2, spares := 4, bankSectors := 1 }

/-- A replay over them. -/
def replayed : Replay := ⟨[17, 18], [19, 20], [⟨21, .erase⟩], false, none, 9, some 50⟩

theorem test_witness_SectorsMoveBetweenClasses_partition :
    (let m : SectorMap := { SectorMap.empty with
      remap := [17, 18], target := some 19, pool := [20], queue := [⟨22, false⟩], retired := [⟨21, .erase⟩] }
     m.remap.length = tiny.windowSectors ∧ m.named.Perm tiny.dataArea ∧ m.remap[1]? = some 18)
    ∧ tiny.dataSectors = tiny.windowSectors + tiny.spares
    ∧ tiny.totalSectors = tiny.dataBase + tiny.dataSectors
    ∧ replayed.finish.passes tiny = true
    ∧ ((⟨40, false⟩ : QueuedSector) ∈ svc.map.queue ∧ (svc.map.queue.map QueuedSector.ps).Nodup) := by decide +kernel

theorem test_witness_DescriptorAdoption_first :
    descriptorIndex (board.set 0 0) = 1 ∧ (1 ≤ 1 ∧ checkPasses (board.set 0 0) 1 = false) := by decide +kernel

theorem test_witness_JournalReadEnd_contenders :
    contenderOf .b openWindow = some ⟨.b, 7, 1, openWindow⟩
      ∧ (rebuilding (.readB openWindow)).journal.rebuild = .readB openWindow
      ∧ (rebuilding (.examine ⟨.a, 7, 1, openWindow⟩ [openWindow] [] false)).journal.rebuild
          = .examine ⟨.a, 7, 1, openWindow⟩ [openWindow] [] false
      ∧ scanOpening wide 1 [emptyWindow] = .bad := by
  refine ⟨?_, rfl, rfl, by decide +kernel⟩
  unfold contenderOf
  rw [test_openWindow_slot]
theorem test_witness_JournalReadEnd_replay :
    ((19 ∉ [20] ∧ [20] = [20]) ∧ ∃ ahead : List Nat, replayed.free = ahead ++ 20 :: [] ∧ 20 ∉ ahead)
      ∧ (22 ∉ replayed.table ∧ ∀ x ∈ replayed.retired, x.ps ≠ 22) ∧ 17 ∈ replayed.table
      ∧ (∃ x ∈ replayed.retired, x.ps = 21) ∧ replayed.last ≠ some (.erased 22)
      ∧ ({ replayed with last := some (.erased 22) } : Replay).last = some (.erased 22)
      ∧ (∀ k, 3 < k → k < 16 → slotAt [emptyWindow] k = .empty) ∧ slotAt [openWindow] 0 ≠ .empty
      ∧ ([openWindow][0 / 16]? = some openWindow ∧ (∃ x ∈ (openWindow.bytes.drop 0).take 16, x ≠ 0xFF)
          ∧ fromLE (((openWindow.bytes.take 16).drop 0).take 1) = 4) := by
  refine ⟨⟨by decide, [19], by decide⟩, by decide, by decide, by decide, by decide, by decide, ?_, by decide +kernel,
    by decide +kernel⟩
  have h16 : ∀ k < 16, slotAt [emptyWindow] k = .empty := by decide +kernel
  exact fun k _ h => h16 k h

/-- The bytes of window 0 of a bank over them: BANK_OPEN, one image, three list records, IMAGE_END. -/
def closedBytes : List Byte :=
  openRecord ++ List.replicate 48 0xFF
    ++ [0x06, 0x00, 0x02, 0x00, 0x00, 0x00, 0x00, 0x00, 0x11, 0x00, 0x12, 0x00] ++ List.replicate 44 0xFF
    ++ [0x00, 0x00, 0x00, 0x00, 0x00, 0x00, 0xDA, 0x0A]
    ++ [0x02, 0x00, 0x03, 0x00, 0x00, 0x00, 0x13, 0x00, 0x00, 0x00, 0x00, 0x00, 0x00, 0x00, 0xF6, 0xAF]
    ++ [0x02, 0x00, 0x04, 0x00, 0x00, 0x00, 0x14, 0x00, 0x00, 0x00, 0x00, 0x00, 0x00, 0x00, 0xA5, 0x60]
    ++ [0x03, 0x02, 0x05, 0x00, 0x00, 0x00, 0x15, 0x00, 0x00, 0x00, 0x00, 0x00, 0x00, 0x00, 0xA4, 0xD5]
    ++ [0x05, 0x00, 0x06, 0x00, 0x00, 0x00, 0x01, 0x00, 0x03, 0x00, 0x00, 0x00, 0x00, 0x00, 0xA3, 0xAD]

theorem test_closedBytes : windowBytes tiny ⟨[17, 18], [19, 20], [⟨21, .erase⟩]⟩ 7 0 1 = closedBytes := by decide +kernel

/-- The windows of that bank, read to the end. -/
def closedBank : List Window :=
  ⟨(closedBytes ++ List.replicate 64 0xFF).toArray, by decide +kernel⟩ :: List.replicate 15 emptyWindow

theorem test_closedBank_opening :
    scanOpening tiny 1 closedBank
      = .done ([17, 18] ++ List.replicate 22 0xFFFF, ⟨11, 6, [19, 20], [⟨21, .erase⟩]⟩) := by decide +kernel
theorem test_witness_JournalReadEnd_chosen :
    16 * tiny.bankSectors ≤ closedBank.length
      ∧ (let r := replayDeltas tiny closedBank 11 (Replay.start tiny ([17, 18] ++ List.replicate 22 0xFFFF)
            ⟨11, 6, [19, 20], [⟨21, .erase⟩]⟩)
         r.finish.passes tiny = true ∧ r.finish.free = [20]
          ∧ pointerAfter tiny closedBank 11 r = 12 ∧ nextSeqAfter tiny closedBank ⟨11, 6, [19, 20], [⟨21, .erase⟩]⟩ = 7) := by
  decide +kernel

/-- SERVICE with a compaction PENDING under which a commit waits in ALLOCATE; the pool, the erase queue and the pointer told. -/
def heldBack (pool : List Nat) (queue : List QueuedSector) (pointer : Nat) : State :=
  committing (remapped svc { svc.map with pool := pool, queue := queue }
    { svc.journal with compaction := .pending, pointer := pointer }) (relocating .allocHeld 1) []

theorem test_witness_EntryToQuiesce_held :
    (∀ s ∈ [heldBack [30] [] 100, heldBack [] [⟨40, false⟩] 100, heldBack [] [] 100, heldBack [30] [] 2048],
      s.commit = some (relocating .allocHeld 1) ∧ (relocating .allocHeld 1).work = .allocHeld ∧ s.journal.fenced = false)
    ∧ ((heldBack [30] [] 100).take.2 = .granted 30 ∧ (heldBack [] [⟨40, false⟩] 100).take.2 = .waits
        ∧ (heldBack [] [] 100).take.2 = .refused ∧ (heldBack [30] [] 100).journalFull = false
        ∧ (heldBack [30] [] 2048).journalFull = true)
    ∧ ((heldBack [30] [] 100).enterQuiesce .power).map.target = some 30
    ∧ ((heldBack [30] [] 2048).enterQuiesce .power).map.target = none := by decide +kernel

theorem test_witness_ResumesBecomeDue :
    (let d := { erasingDevice .erase with state := .eraseSuspended, opTimer := .paused }
     let s := { svc with bus := { svc.bus with dev0 := some d, dev1 := some d } }
     s.noteResumes.bus.resumesDue = [.cs0, .cs1]
      ∧ ({ s with bus := { s.bus with resumesDue := [.cs1] } } : State).noteResumes.bus.resumesDue = [.cs1, .cs0]) := by
  decide +kernel

theorem test_witness_ArbiterGrantsTheChosenClaim_noTransaction :
    (let s := remapped svc svc.map
      { svc.journal with nextSeq := 0x100000000, queue := [⟨.erase, .erased 40, false, false⟩] }
     s.bus.tx = none ∧ s.bridge.state ≠ .reset ∧ s.bridge.stopPower = false ∧ s.bridge.stopOrderly = false
      ∧ s.noteResumes.chosen false = some (.append ⟨.erase, .erased 40, false, false⟩, 0)
      ∧ (s.noteResumes.grant (.append ⟨.erase, .erased 40, false, false⟩)).bus.tx = none) := by decide +kernel
theorem test_witness_ArbiterGrantsTheChosenClaim_exclusive :
    ((after (.arbiterGrant false) (busy 0 true false)).bind fun t => t.bus.tx.map BusTx.use) = some .program
      ∧ ((after (.arbiterGrant false) (erasing .data 40 false)).bind fun t => t.bus.tx.map BusTx.use) = some .erase := by
  decide +kernel

/-- A state whose device 0 is as told, with fills of sector 2 queued, one for each number told. -/
def fillsFor (b : BridgeState) (d : Device) (lines : List Nat) : State :=
  { dev0In (inState b) d with reads := ⟨[], lines.map fun l => ⟨⟨2, l⟩, 0, .queued, false, []⟩⟩ }

/-- A device whose erase is suspended, with the fills of this suspension told. -/
def suspendedDevice (fills : Nat) : Device :=
  { erasingDevice .erase with state := .eraseSuspended, opTimer := .paused, fillsTaken := fills }

theorem test_witness_ArbiterOrderAndBurstLimit_fills :
    ((fillsFor .service (suspendedDevice 3) [1, 2]).fillClaim = some (.fill ⟨⟨2, 1⟩, 0, .queued, false, []⟩)
      ∧ (fillsFor .service (suspendedDevice 4) [1, 2]).fillClaim = none
      ∧ (fillsFor .quiesce (suspendedDevice 4) [1]).fillClaim = some (.fill ⟨⟨2, 1⟩, 0, .queued, false, []⟩))
    ∧ ((fillsFor .service (erasingDevice .erase) [1, 2]).fillClaim = some (.fillSuspend .cs0)
      ∧ (fillsFor .service { erasingDevice .erase with suspensions := 8 } [1]).fillClaim = none
      ∧ (fillsFor .halted (erasingDevice .erase) [1]).fillClaim = none
      ∧ (fillsFor .quiesce { erasingDevice .erase with resumedInQuiesce := true } [1]).fillClaim = none) := by decide +kernel
theorem test_witness_ArbiterOrderAndBurstLimit_polls :
    (let s := polling .unknown .unknown
     let t (due : List ChipSelect) (tied : Bool) : State :=
       { s with bus := { s.bus with pollsDue := due, pollsTied := tied } }
     (t [.cs0, .cs1] true).pollClaim false = some (.poll .cs0) ∧ (t [.cs0, .cs1] true).pollClaim true = some (.poll .cs1)
      ∧ (t [.cs1, .cs0] false).pollClaim false = some (.poll .cs1)
      ∧ (t [.cs1, .cs0] false).pollClaim true = some (.poll .cs1))
    ∧ (let d := erasingDevice .erase
       ({ svc with bus := { svc.bus with dev0 := some d, dev1 := some d, pollsDue := [.cs1, .cs0] } } : State).pollClaim true
        = some (.poll .cs1)) := by decide +kernel
theorem test_witness_ArbiterOrderAndBurstLimit_journal :
    (∀ p ∈ [LoadPhase.readLine0, .readLine1 ramp, .resuming],
      (loading p).journalClaim
        = (if p = .readLine0 then some (.descriptor 0) else if p = .resuming then none else some (.descriptor 1)))
    ∧ (dev0In (loading .readLine0) (erasingDevice .nobody)).journalClaim = none
    ∧ (writing (runOf 3 false false)).journalClaim = some (.bankProgram (runOf 3 false false))
    ∧ (writing (runOf 3 true false)).journalClaim = none
    ∧ (dev0In (busy 0 true false) (suspendedDevice 0)).journalClaim = none := by decide +kernel
theorem test_witness_ArbiterOrderAndBurstLimit_rebuild :
    (rebuilding .readA).journalClaim = some (.bankRead .a 0)
      ∧ (dev0In (rebuilding .readA) (erasingDevice .nobody)).journalClaim = none
      ∧ (rebuilding .firstErase).journalClaim = none := by decide +kernel
theorem test_witness_ArbiterOrderAndBurstLimit_commit :
    (let c := commitOf (.probeRead 1 [] false) false
     (committing (dev0In svc (suspendedDevice 4)) c []).commitClaim = some (.commit c)
      ∧ (committing (dev0In svc (erasingDevice .erase)) c []).commitClaim = none
      ∧ (committing (dev0In (quiescing .power false) (erasingDevice .erase)) c []).commitClaim = some (.commitSuspend .cs0)
      ∧ (committing (dev0In (quiescing .power false) { erasingDevice .erase with resumedInQuiesce := true }) c []).commitClaim
          = none)
    ∧ (let c := commitOf (.programSpan 0 []) false
       (committing svc c []).commitClaim = some (.commit c)
        ∧ (committing (dev0In svc (suspendedDevice 0)) c []).commitClaim = none)
    ∧ (let c := relocating (.copyProgram 0 [1]) 1
       (committing svc c []).commitClaim = some (.commit c)
        ∧ (committing (dev0In svc (erasingDevice .erase)) c []).commitClaim = none)
    ∧ (committing svc (commitOf .allocHeld false) []).commitClaim = none := by decide +kernel
theorem test_witness_ArbiterOrderAndBurstLimit_erases :
    (let d := { Device.idle .ready with resumeStep := .resumeDue }
     let s := { inState .load with bus := { svc.bus with dev0 := some d, dev1 := some d } }
     s.eraseClass = some (.loadResume .cs0)
      ∧ (dev0In s { d with resumeStep := .pollWaits }).eraseClass = some (.loadResume .cs1))
    ∧ (dev0In (erasing .data 1030 false) (suspendedDevice 0)).noteResumes.eraseClass = some (.resume .cs0)
    ∧ (erasing .data 1030 false).noteResumes.eraseClass = some (.erase ⟨.data, 1030, false⟩)
    ∧ (dev0In (erasing .data 40 false) (erasingDevice .nobody)).noteResumes.eraseClass = none := by decide +kernel

theorem test_witness_EraseClaimChoosesTheNextWork_held :
    (let s := { svc with erase := { svc.erase with wait := some ⟨40, true⟩ } }
     s.erase.record = none ∧ s.erase.wait ≠ none ∧ s.map.queue ≠ [] ∧ nextOf (exec .eraseClaim s) = some s)
    ∧ (let s := { rawState with erase := { rawState.erase with raw := some ⟨9, some .erased⟩ } }
       (∀ ps ∈ List.range 16, s.erase.raw ≠ some ⟨ps, none⟩) ∧ nextOf (exec .eraseClaim s) = some s)
    ∧ (let s := remapped svc svc.map { svc.journal with fenced := true, bankB := some ⟨.stale, none⟩ }
       s.journal.isIn .b .stale = true ∧ nextOf (exec .eraseClaim s) = some s)
    ∧ (let s := remapped svc svc.map { svc.journal with bankA := some ⟨.stale, none⟩ }
       let t : State := { s with erase := { s.erase with bankWork := some ⟨.b, 3, 2⟩ } }
       t.journal.isIn .b .stale = false ∧ t.journal.isIn .a .stale = true)
    ∧ (inState .rebuild).journal.rebuild ≠ .firstErase := by decide +kernel

theorem test_witness_EntryToRawPutsItsSettingsInForce_pfail :
    (let s := { polling .stuck .ready with pins := ⟨false, false, false, true⟩ }
     s.pins.pfail = true ∧ s.commit = none ∧ s.enterRaw.bridge.state = .quiesce
      ∧ s.enterRaw.bridge.deadline = .running 5) := by decide +kernel

theorem test_witness_StatusEventReadAndNotice_record :
    (let b : EventBody :=
      { kind := .accessDenied, requester := some 3, location := some (.address 0x12345), code := some .region }
     nextOf (exec .eventRead (svc.raise b)) = some (svc.raise b |>.setEvents ⟨[], 1, .notified⟩ |>.withResult .done
      [0, 0x01, 1, 0, 3, 0x01, 0x45, 0x23, 0x01, 0, 0x05, 0, 0, 0, 0, 0]))
    ∧ (svc.raise { kind := .gateOpenRefused }).events.queue = [⟨{ kind := .gateOpenRefused }, 1, 0⟩]
    ∧ ((svc.raise { kind := .commitFailed, location := some (.ls 2), value := some 1 }).events.queue.map fun r =>
        r.body.location) = [some (.ls 2)] := by decide +kernel

theorem test_witness_EveryStepKeepsTheLaws_bus :
    (withTx (dev0In svc { erasingDevice .erase with opTimer := .stopped }) .erase .cs0).bus.wf
      ∧ (withTx (dev0In svc (suspendedDevice 4)) .resume .cs0).bus.wf
      ∧ ¬ (withTx svc .erase .cs0).bus.wf := by
  refine ⟨⟨by decide, fun cs d hd => ?_⟩, ⟨by decide, fun cs d hd => ?_⟩, fun w => ?_⟩
  · cases cs <;> cases hd
    · exact ⟨⟨rfl, by decide, by decide, by decide⟩, fun tx e _ => by cases e; exact ⟨rfl, rfl⟩⟩
    · exact ⟨⟨rfl, by decide, by decide, by decide⟩, fun tx e c => by cases e; cases c⟩
  · cases cs <;> cases hd
    · exact ⟨⟨rfl, by decide, by decide, by decide⟩, fun tx e _ => by cases e; exact Or.inl rfl⟩
    · exact ⟨⟨rfl, by decide, by decide, by decide⟩, fun tx e c => by cases e; cases c⟩
  · exact absurd ((w.2 .cs0 _ rfl).2 _ rfl rfl).1 (by decide)

end Sys2Proof.Tests
end

section
/-! The pool low mark (R15): the take and the join as their cases, the end of REBUILD seen through entry to SERVICE. -/

namespace Sys2Proof.Machine

/-! ## The take and the join by their cases (R9, R10, R15) -/

/-- The take that reaches the low mark while the mark is ARMED raises POOL_LOW and disarms it (R15). -/
theorem State.take_at_lowMark (s : State) {ps : Nat} {rest : List Nat} (hpool : s.map.pool = ps :: rest)
    (harmed : s.map.lowArmed = true) (hmark : rest.length + 1 = s.settings.lowMark) :
    s.take = ((s.setMap { s.map with pool := rest, target := some ps, lowArmed := false }).raise
      { kind := .poolLow, location := some (.ps ps), value := some rest.length }, .granted ps) := by
  simp [State.take, hpool, harmed, hmark]

/-- Every other take of a pooled sector grants its head and raises nothing (R10, R15). -/
theorem State.take_off_lowMark (s : State) {ps : Nat} {rest : List Nat} (hpool : s.map.pool = ps :: rest)
    (hoff : s.map.lowArmed = false ∨ rest.length + 1 ≠ s.settings.lowMark) :
    s.take = (s.setMap { s.map with pool := rest, target := some ps }, .granted ps) := by
  have hguard : ¬(s.map.lowArmed && rest.length + 1 == s.settings.lowMark) = true := by
    rcases hoff with h | h <;> simp [h]
  simp only [State.take, hpool]
  exact if_neg hguard

/-- A sector that a waiting take receives passes the pool by (R10). -/
theorem SectorMap.join_of_taking (m : SectorMap) (lowMark ps : Nat) (h : m.taking = true) :
    m.join lowMark ps = ({ m with target := some ps, taking := false, emptyRaised := false }, true) := by
  simp [SectorMap.join, h]

/-- With no take waiting the sector joins the pool's tail, and the low mark is armed at P+4 (R9, R15). -/
theorem SectorMap.join_of_not_taking (m : SectorMap) (lowMark ps : Nat) (h : m.taking = false) :
    m.join lowMark ps = ({ m with
      pool := m.pool ++ [ps]
      lowArmed := m.lowArmed || decide (lowMark + 4 ≤ m.pool.length + 1)
      emptyRaised := false }, false) := by
  simp [SectorMap.join, h]

/-! ## The end of REBUILD (R147, R154) -/

/-- Entry to SERVICE leaves the Sector Map and the events; where a PFAIL then asserted leads on to QUIESCE, no commit in
progress is what keeps it from a take or an event there (R154). -/
theorem State.enterService_frame (s : State) (h : s.pins.pfail = false ∨ s.commit = none) :
    s.enterService.map = s.map ∧ s.enterService.events = s.events := by
  unfold State.enterService State.heedPfail
  split
  case isTrue hp =>
    have hc : s.commit = none := h.resolve_left (by simpa using hp)
    exact State.enterQuiesce_uncommitted _ .power hc
  case isFalse => exact ⟨rfl, rfl⟩

/-- WORN as the end of REBUILD finds it: every spare is retired (R147). -/
def State.wornAtRebuild (s : State) : Bool :=
  s.map.pool.isEmpty && s.map.queue.isEmpty && s.map.retired.length == s.settings.spares

/-- What WORN makes the end of REBUILD raise before SERVICE_READY (R147). -/
def State.rebuildEvents (s : State) : List EventBody :=
  if s.wornAtRebuild then [{ kind := .worn, value := some s.map.retired.length }] else []

theorem State.rebuildEvents_worn (s : State) : ∀ b ∈ s.rebuildEvents, b.kind = .worn := by
  unfold State.rebuildEvents
  split <;> simp

/-- The end of REBUILD: the map made valid, the low mark set by the pool's length, and the events raised (R15, R147). -/
theorem State.rebuildDone_frame (s : State) (h : s.pins.pfail = false ∨ s.commit = none) :
    s.rebuildDone.map = { s.map with
        valid := true, worn := s.wornAtRebuild, lowArmed := decide (s.settings.lowMark ≤ s.map.pool.length) }
      ∧ s.rebuildDone.events = (s.rebuildEvents.foldl EventBlock.receive s.events).receive
          { kind := .serviceReady, value := some s.journal.generation.toNat } := by
  unfold State.rebuildDone State.rebuildEvents State.wornAtRebuild
  dsimp only
  split <;> exact State.enterService_frame _ h

/-- A REBUILD that ends with an empty pool leaves the low mark DISARMED, P being at least 1 (R15). -/
theorem State.rebuildDone_of_pool_nil (s : State) (h : s.pins.pfail = false ∨ s.commit = none)
    (hpool : s.map.pool = []) (hmark : 1 ≤ s.settings.lowMark) :
    s.rebuildDone.map.pool = [] ∧ s.rebuildDone.map.lowArmed = false := by
  have hbelow : ¬ s.settings.lowMark ≤ 0 := by omega
  rw [(s.rebuildDone_frame h).1]
  simp [hpool, hbelow]

/-- A first boot starts with an empty pool (R148). -/
theorem State.firstBootDone_pool (s : State) (r : BankRun) (h : s.pins.pfail = false ∨ s.commit = none)
    (hmark : 1 ≤ s.settings.lowMark) :
    (s.firstBootDone r).map.pool = [] ∧ (s.firstBootDone r).map.lowArmed = false :=
  State.rebuildDone_of_pool_nil _ h rfl hmark

/-! ## The statement -/

/-- Settles O43: each clause is the rule of its operation; REBUILD's existential is met by what WORN raises. -/
theorem poolLowMark : Obligations.PoolLowMark := by
  refine ⟨?takes, ?joins, ?passes, ?rebuild, State.firstBootDone_pool, fun _ _ => rfl⟩
  case takes => exact fun s _ _ hpool => ⟨s.take_at_lowMark hpool, s.take_off_lowMark hpool⟩
  case joins =>
    intro m lowMark ps h
    simp [SectorMap.join_of_not_taking m lowMark ps h]
  case passes =>
    intro m lowMark ps h
    simp [SectorMap.join_of_taking m lowMark ps h]
  case rebuild =>
    intro s h
    obtain ⟨hmap, hevents⟩ := State.rebuildDone_frame s h
    exact ⟨by simp [hmap], s.rebuildEvents, _, hevents, s.rebuildEvents_worn⟩

end Sys2Proof.Machine
end

section
/-! The write gate at the resets, at adoption and at entry to RAW (R26), each with what it leaves of the Access Checker. -/

namespace Sys2Proof.Machine

/-! ## The gate at each entry (R26, R33, R151) -/

/-- Every reset closes the gate (R26). -/
theorem State.enterReset_gateOpen (s : State) (kind : ResetKind) : (s.enterReset kind).access.gateOpen = false := by
  cases kind <;> rfl

/-- A warm reset keeps the guards and the lock (R54, R55). -/
theorem State.enterReset_warm_access (s : State) :
    (s.enterReset .warm).access = { s.access with gateOpen := false } := rfl

/-- Adoption sets the gate to the descriptor's default, bit 0 of byte 45 (R26, R169). -/
theorem State.adopt_access (s : State) (d : List Byte) :
    (s.adopt d).access = { s.access with gateOpen := (d.getD 45 0xFF).getLsbD 0 } := rfl

/-- A PFAIL that leads on from SERVICE or RAW to QUIESCE leaves the Access Checker (R154). -/
theorem State.heedPfail_access (s : State) : s.heedPfail.access = s.access := by
  unfold State.heedPfail
  split
  case isTrue => exact s.enterQuiesce_access .power
  case isFalse => rfl

/-- Entry to RAW closes the gate, also where PFAIL takes the bridge on to QUIESCE (R26, R33). -/
theorem State.enterRaw_access (s : State) : s.enterRaw.access = { s.access with gateOpen := false } :=
  State.heedPfail_access _

/-! ## Requests before adoption (R37) -/

theorem BridgeState.early_iff (b : BridgeState) : b.early = true ↔ b = .reset ∨ b = .load ∨ b = .rebuild := by
  cases b <;> decide

/-! ## The statement -/

/-- Settles O6: the gate at each entry is the rule of that entry, and request ready needs a bridge past REBUILD. -/
theorem gateAtResetAdoptionAndRaw : Obligations.GateAtResetAdoptionAndRaw :=
  ⟨State.enterReset_gateOpen, State.enterReset_warm_access, State.adopt_access, State.enterRaw_access,
    fun s hb => State.reqReady_not (.inl ((BridgeState.early_iff s.bridge.state).2 hb))⟩

end Sys2Proof.Machine
end

section
/-! The identification checks of the descriptor (R20): the check index as the first check that fails (R27), and what the
checks 1 to 3 ask of the bytes. -/

namespace Sys2Proof.Machine

/-! ## The check index (R27) -/

/-- The index is the number of a check that fails with all before it passed (R27). -/
theorem descriptorIndex_of_first_failure {d : List Byte} {k : Nat} (hlo : 1 ≤ k) (hhi : k ≤ 11)
    (hpass : ∀ i, 1 ≤ i → i < k → checkPasses d i = true) (hfail : ¬ checkPasses d k = true) :
    descriptorIndex d = k := by
  have hsplit : ([1, 2, 3, 4, 5, 6, 7, 8, 9, 10, 11] : List Nat)
      = List.range' 1 (k - 1) ++ k :: List.range' (k + 1) (11 - k) := by
    interval_cases k <;> rfl
  have hearlier : ∀ i ∈ List.range' 1 (k - 1), (!checkPasses d i) = false := by
    intro i hi
    rw [List.mem_range'_1] at hi
    simp [hpass i hi.1 (by omega)]
  unfold descriptorIndex
  rw [hsplit, find?_split (by simpa using hfail) hearlier, Option.getD_some]

/-- An index other than 0 is the number of a check that fails (R27). -/
theorem descriptorIndex_eq_zero_or_fails (d : List Byte) :
    descriptorIndex d = 0 ∨ ¬ checkPasses d (descriptorIndex d) = true := by
  unfold descriptorIndex
  cases hfound : ([1, 2, 3, 4, 5, 6, 7, 8, 9, 10, 11] : List Nat).find? fun i => !checkPasses d i with
  | none => exact .inl rfl
  | some k => exact .inr (by simpa using List.find?_some hfound)

/-- With the checks 1 to k passed, the index is 0 or the number of a later check. -/
theorem descriptorIndex_of_passed {d : List Byte} {k : Nat} (hpass : ∀ i, 1 ≤ i → i ≤ k → checkPasses d i = true) :
    descriptorIndex d = 0 ∨ k < descriptorIndex d := by
  rcases descriptorIndex_eq_zero_or_fails d with hzero | hfail
  · exact .inl hzero
  · by_contra hcon
    exact hfail (hpass _ (by omega) (by omega))

/-! ## What the checks 1 to 3 ask of the bytes (R20) -/

theorem at1_add (bytes : List Byte) (i j : Nat) : at1 bytes (i + j) = at1 (bytes.drop i) j := by
  simp [at1, List.getD_eq_getElem?_getD, List.getElem?_drop]

/-- A byte that stands in the list is read whatever the default. -/
theorem at1_eq_getD {bytes : List Byte} {i : Nat} (hi : i < bytes.length) (other : Byte) :
    at1 bytes i = bytes.getD i other := by
  rw [at1, List.getD_eq_getElem _ _ hi, List.getD_eq_getElem _ _ hi]

/-- The number of the last four bytes. -/
theorem at4_eq_fromLE_drop {bytes : List Byte} {i : Nat} (hlen : bytes.length = i + 4) :
    at4 bytes i = fromLE (bytes.drop i) := by
  have htail : (bytes.drop i).length = 4 := by simp [hlen]
  obtain ⟨b0, b1, b2, b3, hbytes⟩ := List.length_eq_four.1 htail
  have hat0 : at1 bytes i = at1 (bytes.drop i) 0 := at1_add bytes i 0
  rw [at4, hat0, at1_add, at1_add, at1_add, hbytes]
  rfl

/-- Check 1, the signature (R20). -/
theorem checkPasses_one_iff (d : List Byte) : checkPasses d 1 = true ↔ d.take 4 = [0x56, 0x52, 0x43, 0x4C] :=
  beq_iff_eq

/-- Check 2, the format version (R20). -/
theorem checkPasses_two_iff {d : List Byte} (hlen : d.length = 128) : checkPasses d 2 = true ↔ d.getD 4 0 = 1 := by
  rw [← at1_eq_getD (by omega) 0]
  exact beq_iff_eq

/-- Check 3, the CRC-32 of bytes 0 to 123 against bytes 124 to 127 (R20). -/
theorem checkPasses_three_iff {d : List Byte} (hlen : d.length = 128) :
    checkPasses d 3 = true ↔ (crc32 (d.take 124)).toNat = fromLE (d.drop 124) := by
  rw [← at4_eq_fromLE_drop hlen]
  exact (beq_iff_eq (α := Nat)).trans eq_comm

/-! ## The index by the identification checks (R20, R27) -/

theorem descriptorIndex_of_bad_signature {d : List Byte} (hsig : d.take 4 ≠ [0x56, 0x52, 0x43, 0x4C]) :
    descriptorIndex d = 1 :=
  descriptorIndex_of_first_failure (by decide) (by decide) (by omega) (by rwa [checkPasses_one_iff])

theorem descriptorIndex_of_bad_version {d : List Byte} (hlen : d.length = 128)
    (hsig : d.take 4 = [0x56, 0x52, 0x43, 0x4C]) (hver : d.getD 4 0 ≠ 1) : descriptorIndex d = 2 := by
  refine descriptorIndex_of_first_failure (by decide) (by decide) (fun i hlo hhi => ?_)
    (by rwa [checkPasses_two_iff hlen])
  obtain rfl : i = 1 := by omega
  exact (checkPasses_one_iff d).2 hsig

/-- Signature and version as R20 gives them pass the checks 1 and 2. -/
theorem checkPasses_of_signature_version {d : List Byte} (hlen : d.length = 128)
    (hsig : d.take 4 = [0x56, 0x52, 0x43, 0x4C]) (hver : d.getD 4 0 = 1) (i : Nat) (hlo : 1 ≤ i) (hhi : i < 3) :
    checkPasses d i = true := by
  obtain rfl | rfl : i = 1 ∨ i = 2 := by omega
  · exact (checkPasses_one_iff d).2 hsig
  · exact (checkPasses_two_iff hlen).2 hver

theorem descriptorIndex_of_bad_crc {d : List Byte} (hlen : d.length = 128)
    (hsig : d.take 4 = [0x56, 0x52, 0x43, 0x4C]) (hver : d.getD 4 0 = 1)
    (hcrc : (crc32 (d.take 124)).toNat ≠ fromLE (d.drop 124)) : descriptorIndex d = 3 :=
  descriptorIndex_of_first_failure (by decide) (by decide) (checkPasses_of_signature_version hlen hsig hver)
    (by rwa [checkPasses_three_iff hlen])

theorem descriptorIndex_of_identified {d : List Byte} (hlen : d.length = 128)
    (hsig : d.take 4 = [0x56, 0x52, 0x43, 0x4C]) (hver : d.getD 4 0 = 1)
    (hcrc : (crc32 (d.take 124)).toNat = fromLE (d.drop 124)) : descriptorIndex d = 0 ∨ 4 ≤ descriptorIndex d := by
  refine descriptorIndex_of_passed (k := 3) fun i hlo hhi => ?_
  obtain hlt | rfl : i < 3 ∨ i = 3 := by omega
  · exact checkPasses_of_signature_version hlen hsig hver i hlo hlt
  · exact (checkPasses_three_iff hlen).2 hcrc

/-! ## The statement -/

/-- Settles O46: the index by the first identification check that fails; an erased sector has no signature. -/
theorem descriptorIdentification : Obligations.DescriptorIdentification := by
  refine ⟨fun d hlen => ⟨?signature, ?version, ?crc, ?identified⟩, ?erased, fun _ => rfl⟩
  case signature => exact descriptorIndex_of_bad_signature
  case version => exact descriptorIndex_of_bad_version hlen
  case crc => exact descriptorIndex_of_bad_crc hlen
  case identified => exact descriptorIndex_of_identified hlen
  case erased => exact descriptorIndex_of_bad_signature (by simp [List.replicate])

end Sys2Proof.Machine
end

section
/-! Law 12 (R56): the guard slots and the gate lock, once locked, hold under every command but PORST_ASSERT. The four link
commands that write the Access Checker and the commands that can end in a warm reset are taken one by one; the others leave
guards and lock as exec_kept says. -/

namespace Sys2Proof.Machine

variable {s t u : State}

/-! ## Locks held from one Access Checker to a later one -/

/-- What is locked keeps its setting: each locked guard slot whole, and the gate lock (R56). -/
structure Access.LocksHeld (a b : Access) : Prop where
  guard : ∀ i : Fin 4, (a.guards[i]).lock = true → b.guards[i] = a.guards[i]
  gate : a.gateLock = true → b.gateLock = true

theorem Access.LocksHeld.of_eq {a b : Access} (hguards : b.guards = a.guards) (hlock : b.gateLock = a.gateLock) :
    a.LocksHeld b :=
  ⟨fun _ _ => by rw [hguards], fun h => hlock.trans h⟩

theorem Access.LocksHeld.refl (a : Access) : a.LocksHeld a := .of_eq rfl rfl

theorem Keeps.locksHeld (h : Keeps s t) : s.access.LocksHeld t.access := .of_eq h.guards h.lock

/-- The gate locked on top keeps every lock. -/
theorem Access.locksHeld_gateLock (a : Access) : a.LocksHeld { a with gateLock := true } := ⟨fun _ _ => rfl, fun _ => rfl⟩

/-! ## Slots of the guard table (R54, R163) -/

theorem Access.guard_val (a : Access) (i : Fin 4) : a.guard i.val = a.guards[i] := Access.guards_getD i

/-- A slot written reads as written, and the other slots as before (R54). -/
theorem Access.setGuard_guards (a : Access) (i j : Fin 4) (g : GuardSlot) :
    (a.setGuard i.val g).guards[j] = if i = j then g else a.guards[j] := by
  simp [Access.setGuard, Vector.getElem_setIfInBounds, Fin.ext_iff]

/-- A write to an unlocked slot keeps every lock (R56). -/
theorem Access.locksHeld_setGuard {a : Access} {i : Fin 4} (g : GuardSlot) (hfree : (a.guards[i]).lock = false) :
    a.LocksHeld (a.setGuard i.val g) := by
  refine ⟨fun j hj => ?_, id⟩
  have hne : i ≠ j := by
    rintro rfl
    exact Bool.noConfusion (hfree.symm.trans hj)
  rw [Access.setGuard_guards, if_neg hne]

/-- At power-on every slot stands at its power-on value (R54). -/
theorem Access.enterReset_powerOn_guards (a : Access) (i : Fin 4) :
    (a.enterReset .powerOn).guards[i] = GuardSlot.powerOn := by
  simp only [Access.enterReset, Fin.getElem_fin, Vector.getElem_mk, List.getElem_toArray, List.getElem_replicate]

theorem guardModeOf_byte (m : GuardMode) : guardModeOf m.byte = some m := by
  cases m <;> rfl

/-! ## GUARD_SET in its order (R163) -/

/-- What GUARD_SET can do: a refusal that leaves the guards, or a write to a slot that stands unlocked (R56, R163). -/
theorem State.setGuard_cases (s : State) (slot : Byte) (first last : BitVec 16) (mode lock : Byte) :
    (s.setGuard slot first last mode lock).access = s.access
      ∨ ∃ (i : Fin 4) (g : GuardSlot), (s.access.guards[i]).lock = false
        ∧ (s.setGuard slot first last mode lock).access = s.access.setGuard i.val g := by
  unfold State.setGuard
  split
  case h_1 => exact .inl rfl
  case h_2 m _ =>
    split
    case isTrue => exact .inl rfl
    case isFalse hslot =>
      split
      case isTrue => exact .inl rfl
      case isFalse hfree =>
        split
        case isTrue => exact .inl rfl
        case isFalse =>
          refine .inr ⟨⟨slot.toNat, by omega⟩, _, ?_, rfl⟩
          rw [← Access.guard_val]
          exact Bool.eq_false_of_not_eq_true hfree

/-- A GUARD_SET on a locked slot is refused (R56, R163). -/
theorem State.setGuard_of_locked {slot : Byte} {i : Fin 4} (hslot : slot.toNat = i.val)
    (hlocked : (s.access.guards[i]).lock = true) (first last : BitVec 16) (m : GuardMode) (lock : Byte) :
    s.setGuard slot first last m.byte lock = s.reply .refusedLocked [] := by
  have hnot : ¬ 3 < i.val := by omega
  simp only [State.setGuard, guardModeOf_byte, hslot, hnot, Access.guard_val, hlocked, if_true, if_false]

/-- A GUARD_SET with a legal range writes an unlocked slot whole (R54, R163). -/
theorem State.setGuard_of_unlocked {slot : Byte} {i : Fin 4} (hslot : slot.toNat = i.val)
    (hfree : (s.access.guards[i]).lock = false) {first last : BitVec 16} (hrange : s.guardRange first last = true)
    (m : GuardMode) (lock : Byte) :
    (s.setGuard slot first last m.byte lock).access
      = s.access.setGuard i.val ⟨first.toNat, last.toNat, m, lock.getLsbD 0⟩ := by
  have hnot : ¬ 3 < i.val := by omega
  simp only [State.setGuard, guardModeOf_byte, hslot, hnot, Access.guard_val, hfree, hrange, Bool.not_true,
    Bool.false_eq_true, if_false]
  rfl

/-! ## The link's state check (R160, R161) -/

/-- In SERVICE and RAW, with PORST deasserted, a guard or gate command is carried out (R161). -/
theorem State.onLink_inService (hporst : s.pins.porst = false) (hserves : s.serves) :
    s.onLink (s.inService t) = .next t := by
  have hlistens : s.linkListens = true := by simp [State.linkListens, hporst]
  rw [State.onLink, if_pos hlistens]
  exact congrArg Host.Outcome.next (if_pos (State.serving_of hserves))

/-! ## Commands that keep the locks -/

/-- A command answers a next state that holds the locks. -/
def KeepsLocks (s : State) (o : Host.Outcome State Fault Refusal) : Prop :=
  ∃ t, o = .next t ∧ s.access.LocksHeld t.access

theorem KeepsLocks.next (h : s.access.LocksHeld t.access) : KeepsLocks s (.next t) := ⟨t, rfl, h⟩

theorem Kept.keepsLocks {o : Host.Outcome State Fault Refusal} (h : Kept s o) : KeepsLocks s o := by
  obtain ⟨t, ho, hkeeps⟩ := h
  exact ⟨t, ho, hkeeps.locksHeld⟩

/-- A choice between two states that hold the locks. -/
theorem Access.LocksHeld.ite {p : Prop} [Decidable p] {a : Access} (ht : a.LocksHeld t.access) (hu : a.LocksHeld u.access) :
    a.LocksHeld (if p then t else u).access := by
  split <;> assumption

theorem KeepsLocks.onLink (h : s.access.LocksHeld t.access) : KeepsLocks s (s.onLink t) :=
  .next (.ite h (.refl _))

/-- A command refused by the state check leaves the Access Checker. -/
theorem KeepsLocks.onLink_inService (h : s.access.LocksHeld t.access) : KeepsLocks s (s.onLink (s.inService t)) :=
  .onLink (.ite h (.refl _))

/-! ## The commands that write the Access Checker (R55, R163, R164) -/

theorem execGuardSet_keepsLocks (slot : Byte) (first last : BitVec 16) (mode lock : Byte) (s : State) :
    KeepsLocks s (execGuardSet slot first last mode lock s) := by
  refine .onLink_inService ?_
  obtain hsame | ⟨i, g, hfree, hset⟩ := s.setGuard_cases slot first last mode lock
  · rw [hsame]; exact .refl _
  · rw [hset]; exact Access.locksHeld_setGuard g hfree

theorem execGateOpen_keepsLocks (auth : Bool) (s : State) : KeepsLocks s (execGateOpen auth s) :=
  .onLink_inService (.ite (.refl _) (.of_eq rfl rfl))

/-! ## The commands that can end in a warm reset (R151, R153, R156, R157) -/

theorem State.warmReset_locksHeld (s : State) : s.access.LocksHeld s.warmReset.access := by
  obtain ⟨-, -, hguards, hlock⟩ := s.warmReset_frame
  exact .of_eq hguards hlock

theorem State.endQuiesce_locksHeld (s : State) : s.access.LocksHeld s.endQuiesce.access := by
  obtain ⟨-, -, hguards, hlock⟩ := s.endQuiesce_frame
  exact .of_eq hguards hlock

/-- The end of a drain leaves the Access Checker to the end of the quiesce (R156). -/
theorem State.drainDone_locksHeld (s : State) : s.access.LocksHeld s.drainDone.access :=
  State.endQuiesce_locksHeld ((s.setBridge { s.bridge with deadline := .stopped }).raise _)

theorem State.leaveReset_locksHeld (s : State) : s.access.LocksHeld s.leaveReset.access := by
  obtain ⟨-, -, haccess⟩ := s.leaveReset_frame
  rw [haccess]
  exact .refl _

theorem State.stopNow_locksHeld (s : State) : s.access.LocksHeld s.stopNow.access :=
  .ite (.ite (Keeps.haltStart (Keeps.refl s)).locksHeld (.ite s.warmReset_locksHeld (.refl _))) (.refl _)

/-- RESET_ASSERT enters RESET of kind warm (R54, R55). -/
theorem execResetAssert_keepsLocks (s : State) : KeepsLocks s (execResetAssert s) :=
  .next (.ite (t := s) (u := s.enterReset .warm) (.refl _) (.of_eq rfl rfl))

/-! ## Every command but PORST_ASSERT -/

/-- Every command but PORST_ASSERT holds the locks (R56). -/
theorem exec_keepsLocks (c : Instr) (s : State) (hc : c ≠ .porstAssert) : KeepsLocks s (exec c s) := by
  cases hmoves : movesLines c with
  | false => exact (exec_kept c s hmoves).keepsLocks
  | true =>
    cases c with
    | porstAssert => exact absurd rfl hc
    | resetAssert => exact execResetAssert_keepsLocks s
    | resetRelease => exact .next (s.setPins { s.pins with reset := false }).leaveReset_locksHeld
    | porstRelease straps =>
      exact .next (.ite (State.leaveReset_locksHeld
        ((s.setPins { s.pins with porst := false }).setLink { s.link with straps := straps })) (.refl _))
    | pfailAssert =>
      exact .next (.ite (.refl _) (Keeps.pfailAsserted (Keeps.refl (s.setPins { s.pins with pfail := true }))).locksHeld)
    | resetReqAssert =>
      exact .next (.ite (.refl _) (Keeps.orderlyRequest (Keeps.refl (s.setPins { s.pins with resetReq := true }))).locksHeld)
    | pfailDeassert => exact .next (.refl _)
    | resetReqDeassert => exact .next (.refl _)
    | stopAfterTransaction => exact .next s.stopNow_locksHeld
    | drainComplete => exact .next (.ite s.drainDone_locksHeld (.refl _))
    | quiesceExitAfterExpiry => exact .next (.ite s.endQuiesce_locksHeld (.refl _))
    | warmReset => exact .onLink (.ite (.refl _) (s.reply .done []).warmReset_locksHeld)
    | guardSet slot first last mode lock => exact execGuardSet_keepsLocks slot first last mode lock s
    | gateOpen auth => exact execGateOpen_keepsLocks auth s
    | gateClose => exact .onLink_inService (.of_eq rfl rfl)
    | gateLock => exact .onLink_inService s.access.locksHeld_gateLock
    | _ => exact Bool.noConfusion (show false = true from hmoves)

/-! ## The statement -/

/-- Settles O58: every command but PORST_ASSERT holds the locks; the other clauses are the rules of GUARD_SET, of the gate
commands and of entry to RESET. -/
theorem locksHoldUntilPowerOnReset : Obligations.LocksHoldUntilPowerOnReset := by
  refine ⟨?held, ?cleared, ?guardSet, ?gate, State.enterReset_gateOpen⟩
  case held =>
    intro c s t i hc hexec
    obtain ⟨u, hu, hheld⟩ := exec_keepsLocks c s hc
    obtain rfl : u = t := Host.Outcome.next.inj (hu.symm.trans hexec)
    exact ⟨hheld.guard i, hheld.gate⟩
  case cleared =>
    intro s i
    exact ⟨_, rfl, congrArg GuardSlot.lock (Access.enterReset_powerOn_guards s.access i), rfl⟩
  case guardSet =>
    intro s slot first last m lock i hporst hserves hslot
    refine ⟨fun hlocked => ?_, fun hfree hle hlt hlock => ⟨_, State.onLink_inService hporst hserves, ?_⟩⟩
    · have hrefused := State.setGuard_of_locked hslot hlocked first last m lock
      exact (State.onLink_inService hporst hserves).trans (congrArg Host.Outcome.next hrefused)
    · have hrange : s.guardRange first last = true := by
        simpa [State.guardRange, Config.rawSectors] using And.intro hle hlt
      rw [State.setGuard_of_unlocked hslot hfree hrange, Access.setGuard_guards, if_pos rfl, hlock]
  case gate =>
    intro s hporst hserves
    have hexec {t : State} : s.onLink (s.inService t) = .next t := State.onLink_inService hporst hserves
    refine ⟨⟨_, hexec, rfl, rfl⟩, ⟨_, hexec, rfl, rfl⟩, _, hexec, ?_⟩
    simp [State.openGate, State.gateTo, State.reply]

end Sys2Proof.Machine
end

section
/-! QUIESCE and what still acts on it (R155): a PFAIL turns ORDERLY to POWER and brings the deadline forward, every other
stop request is answered and no more, and the resets end it with the buffer emptied. -/

namespace Sys2Proof.Machine

/-! ## PFAIL against the deadline timer (R155) -/

/-- The timer after the PFAIL that turned the cause to POWER: the earlier deadline, where it still runs (R155). -/
def Deadline.afterPfail (powerMs : Nat) : Deadline → Deadline
  | .stopped => .stopped
  | .running ms => .earlier ms powerMs
  | .earlier ms p => .earlier ms p

/-- In an ORDERLY quiesce a PFAIL changes the cause and the timer, and nothing else (R155). -/
theorem State.pfailAsserted_of_orderly {s : State} (hquiesce : s.bridge.state = .quiesce)
    (hcause : s.bridge.cause = some .orderly) :
    s.pfailAsserted = s.setBridge { s.bridge with
      cause := some .power
      deadline := s.bridge.deadline.afterPfail s.settings.powerDeadline } := by
  simp only [State.pfailAsserted, hquiesce, hcause, beq_self_eq_true, if_true]
  cases s.bridge.deadline <;> rfl

/-- In a POWER quiesce a further PFAIL does nothing (R155). -/
theorem State.pfailAsserted_of_power {s : State} (hquiesce : s.bridge.state = .quiesce)
    (hcause : s.bridge.cause = some .power) : s.pfailAsserted = s := by
  simp [State.pfailAsserted, hquiesce, hcause]

/-- In QUIESCE an orderly request does nothing, whatever the cause (R155). -/
theorem State.orderlyRequest_of_quiesce {s : State} (hquiesce : s.bridge.state = .quiesce) : s.orderlyRequest = s := by
  simp only [State.orderlyRequest, hquiesce]

/-- A quiesce of cause POWER ends in HALTED (R156, R157). -/
theorem State.endQuiesce_of_power {s : State} (hcause : s.bridge.cause = some .power) : s.endQuiesce = s.enterHalted := by
  simp only [State.endQuiesce, hcause]

/-! ## The stop requests at their lines and at the link (R153 to R155, R164) -/

/-- A rising PFAIL sets its pin and is acted on. -/
theorem exec_pfailAssert_of_deasserted {s : State} (hpin : s.pins.pfail = false) :
    exec .pfailAssert s = .next (s.setPins { s.pins with pfail := true }).pfailAsserted.noteResumes := by
  have hrises : s.pfailRises = (s.setPins { s.pins with pfail := true }).pfailAsserted := by simp [State.pfailRises, hpin]
  exact congrArg State.noted hrises

/-- A rising RESET_REQ sets its pin and is an orderly request. -/
theorem exec_resetReqAssert_of_deasserted {s : State} (hpin : s.pins.resetReq = false) :
    exec .resetReqAssert s = .next (s.setPins { s.pins with resetReq := true }).orderlyRequest.noteResumes := by
  have hrises : s.resetReqRises = (s.setPins { s.pins with resetReq := true }).orderlyRequest := by
    simp [State.resetReqRises, hpin]
  exact congrArg State.noted hrises

/-- The link listens while PORST is deasserted (R160). -/
theorem State.linkListens_of {s : State} (hporst : s.pins.porst = false) : s.linkListens = true := by
  simp [State.linkListens, hporst]

/-- ORDERLY_RESET on a link that listens is answered DONE and is an orderly request (R164). -/
theorem exec_orderlyReset_of_listening {s : State} (hporst : s.pins.porst = false) :
    exec .orderlyReset s = .next (s.reply .done []).orderlyRequest.noteResumes :=
  if_pos (State.linkListens_of hporst)

/-- WARM_RESET outside RESET is answered DONE and the reset acts (R152, R164). -/
theorem exec_warmReset_of_listening {s : State} (hporst : s.pins.porst = false) (hstate : s.bridge.state ≠ .reset) :
    exec .warmReset s = .next (s.reply .done []).warmReset := by
  have hlistens : exec .warmReset s = .next _ := congrArg Host.Outcome.next (if_pos (State.linkListens_of hporst))
  rw [hlistens, if_neg (by simpa using hstate)]

/-- RESET_ASSERT outside RESET enters RESET of kind warm (R151). -/
theorem exec_resetAssert_of_not_reset {s : State} (hstate : s.bridge.state ≠ .reset) :
    exec .resetAssert s = .next ((s.enterReset .warm).setPins { s.pins with reset := true }) := by
  have hentered : (if s.bridge.state == .reset then s else s.enterReset .warm) = s.enterReset .warm :=
    if_neg (by simpa using hstate)
  exact congrArg (fun t : State => Host.Outcome.next (t.setPins { s.pins with reset := true })) hentered

/-! ## What a reset leaves of the buffer and where it goes (R74, R151, R152) -/

@[simp] theorem State.enterReset_wcb (s : State) (kind : ResetKind) : (s.enterReset kind).wcb = Wcb.empty := rfl
@[simp] theorem State.enterReset_state (s : State) (kind : ResetKind) :
    (s.enterReset kind).bridge.state = .reset := rfl

/-- Leaving RESET leaves the buffer. -/
@[simp] theorem State.leaveReset_wcb (s : State) : s.leaveReset.wcb = s.wcb := by
  unfold State.leaveReset State.enterLoad
  split <;> rfl

/-- RESET is left for LOAD at once unless the RESET line holds the bridge there (R151). -/
theorem State.leaveReset_state {s : State} (hstate : s.bridge.state = .reset) (hporst : s.pins.porst = false) :
    s.leaveReset.bridge.state = if s.pins.reset = true then .reset else .load := by
  cases hreset : s.pins.reset
  case false => simp [State.leaveReset, State.enterLoad, hstate, hporst, hreset]
  case true => simp [State.leaveReset, hstate, hreset]

/-- A warm reset loses the buffered writes (R74). -/
theorem State.warmReset_wcb (s : State) : s.warmReset.wcb = Wcb.empty :=
  (s.enterReset .warm).leaveReset_wcb.trans (s.enterReset_wcb .warm)

/-- A warm reset goes on to LOAD unless RESET is asserted (R152). -/
theorem State.warmReset_state {s : State} (hporst : s.pins.porst = false) :
    s.warmReset.bridge.state = if s.pins.reset = true then .reset else .load :=
  State.leaveReset_state (s.enterReset_state .warm) hporst

/-! ## The statement -/

/-- Settles O9: the stop requests by their rules in QUIESCE; the resets by what entry to RESET leaves. -/
theorem quiesceHeedsPfailAlone : Obligations.QuiesceHeedsPfailAlone := by
  intro s hquiesce
  have hstate : s.bridge.state ≠ .reset := by simp [hquiesce]
  refine ⟨?orderlyPfail, ?endsHalted, ?powerPfail, rfl, ?resetReq, ?orderlyReset, ?porst, ?reset, ?warmReset⟩
  case orderlyPfail =>
    intro hcause hpin
    have hturned := State.pfailAsserted_of_orderly (s := s.setPins { s.pins with pfail := true }) hquiesce hcause
    rw [exec_pfailAssert_of_deasserted hpin, hturned]
    rfl
  case endsHalted =>
    intro hcause
    rw [State.endQuiesce_of_power hcause]
    rfl
  case powerPfail =>
    intro hcause hpin
    have hkept := State.pfailAsserted_of_power (s := s.setPins { s.pins with pfail := true }) hquiesce hcause
    rw [exec_pfailAssert_of_deasserted hpin, hkept]
    rfl
  case resetReq =>
    intro hpin
    have hkept := State.orderlyRequest_of_quiesce (s := s.setPins { s.pins with resetReq := true }) hquiesce
    rw [exec_resetReqAssert_of_deasserted hpin, hkept]
    rfl
  case orderlyReset =>
    intro hporst
    have hkept := State.orderlyRequest_of_quiesce (s := s.reply .done []) hquiesce
    rw [exec_orderlyReset_of_listening hporst, hkept]
    rfl
  case porst => exact ⟨_, rfl, s.enterReset_state .powerOn, s.enterReset_wcb .powerOn⟩
  case reset => exact ⟨_, exec_resetAssert_of_not_reset hstate, s.enterReset_state .warm, s.enterReset_wcb .warm⟩
  case warmReset =>
    intro hporst
    exact ⟨_, exec_warmReset_of_listening hporst hstate, State.warmReset_wcb _, State.warmReset_state hporst⟩

end Sys2Proof.Machine
end

section
/-! Every command answers a next state, and every step keeps the laws of State.lawful. A command that moves no line keeps
what Keeps names, and in RESET it moves none of the blocks that RESET empties; the commands of the lines, of the gate and
the guards, and those that can end in a warm reset are taken one by one. -/

namespace Sys2Proof.Machine

variable {s t u : State}

/-! ## RESET as a state (R151) -/

/-- A state in RESET, by what RESET leaves to it: its pins, guards, gate lock, link, events and the model's own fields. -/
def State.still (s : State) : State :=
  { State.reset with
    pins := s.pins, access := { s.access with gateOpen := false }, link := s.link, events := s.events, free := s.free
    pending := s.pending }

/-- In RESET a lawful state is what RESET leaves of it. -/
theorem State.eq_still (h : s.resetWf) (hr : s.bridge.state = .reset) : s = s.still := by
  obtain ⟨hbridge, hsettings, hport, hwcb, hreads, hcommit, hmap, hbus, herase, hjournal, hgate⟩ := h.2 hr
  obtain ⟨pins, bridge, settings, port, ⟨guards, gateOpen, gateLock⟩, wcb, reads, commit, map, bus, erase, journal, link,
    events, free, pending⟩ := s
  dsimp only at *
  subst hbridge hsettings hport hwcb hreads hcommit hmap hbus herase hjournal hgate
  rfl

/-- What RESET leaves meets the law of RESET. -/
theorem State.still_resetWf (s : State) : s.still.resetWf :=
  ⟨fun _ => rfl, fun _ => ⟨rfl, rfl, rfl, rfl, rfl, rfl, rfl, rfl, rfl, rfl, rfl⟩⟩

/-- An outcome that is a state in RESET. -/
def StaysStill (o : Host.Outcome State Fault Refusal) : Prop := ∃ t : State, o = .next t.still

theorem StaysStill.same (s : State) : StaysStill (.next s.still) := ⟨s, rfl⟩

/-- A link command stays in RESET when what it does there does. -/
theorem StaysStill.onLink (h : ∃ t : State, u = t.still) : StaysStill (s.still.onLink u) := by
  obtain ⟨t, rfl⟩ := h
  unfold State.onLink
  split
  · exact .same t
  · exact .same s

theorem State.still_reply (s : State) (code : ResultCode) (data : List Byte) :
    ∃ t : State, s.still.reply code data = t.still := ⟨s.reply code data, rfl⟩

theorem State.still_readEvent (s : State) : ∃ t : State, s.still.readEvent = t.still := by
  unfold State.readEvent
  split
  · exact s.still_reply _ _
  next rest _ => exact ⟨(s.setEvents { s.events with queue := rest }).reply .done _, rfl⟩

/-- In RESET no RAW erase is held, so a read of the store delivers none. -/
theorem State.still_readResult (s : State) (count : Nat) : ∃ t : State, s.still.readResult count = t.still := by
  have hdeliver : s.still.deliver = s.still := by
    unfold State.deliver
    split
    next hstore =>
      have hbad : s.still.stored = (.badParam, []) := by
        have herase : s.still.erase.raw = none := rfl
        simp only [State.stored, hstore, herase]
      simp [hbad]
    next => rfl
  unfold State.readResult
  rw [hdeliver]
  exact ⟨s.setLink { s.link with sent := readOut s.still.storeBytes count }, rfl⟩

/-- In RESET no command but those of the lines, the guards and the gate moves a block that RESET empties. -/
theorem exec_still (c : Instr) (s : State) (hc : movesLines c = false) : StaysStill (exec c s.still) := by
  cases c with
  | status => exact StaysStill.onLink (s.still_reply _ _)
  | eventRead => exact StaysStill.onLink s.still_readEvent
  | noticeAck =>
    exact StaysStill.onLink ⟨(s.setEvents (if s.events.notice == .notified then s.events.rearm else s.events)).reply _ _, rfl⟩
  | guardRead slot => exact StaysStill.onLink (s.still_reply .refusedState [])
  | malformedWrite _ => exact StaysStill.onLink (s.still_reply _ _)
  | rawErase _ => exact StaysStill.onLink (s.still_reply .refusedState [])
  | resultRead n => exact StaysStill.onLink (s.still_readResult n)
  | orderlyReset =>
    cases hporst : s.pins.porst
    · exact ⟨s.reply .done [], exec_orderlyReset_of_listening hporst⟩
    · have hdeaf : s.still.linkListens = false := by simp [State.linkListens, State.still, hporst]
      exact ⟨s, if_neg (by simp [hdeaf])⟩
  | pollDue cs => cases cs <;> exact .same s
  | operationTimeout cs => cases cs <;> exact .same s
  | loadPollTimeout cs => cases cs <;> exact .same s
  | porstAssert | resetAssert | resetRelease | porstRelease | pfailAssert | pfailDeassert | resetReqAssert | resetReqDeassert
  | stopAfterTransaction | drainComplete | quiesceExitAfterExpiry | warmReset | guardSet | gateOpen | gateClose
  | gateLock => cases hc
  | _ => exact .same s

/-! ## The laws from what is kept -/

/-- A later state that keeps what Keeps names keeps the laws, where it keeps the law of RESET. -/
theorem Keeps.lawful (h : Keeps s t) (hs : s.lawful) (hr : t.resetWf) : t.lawful := by
  obtain ⟨hevents, hport, hreads, hbus, hwcb, -⟩ := hs
  exact ⟨h.events hevents, h.port hport, h.reads hreads, h.bus hbus, h.wcb hwcb, hr⟩

/-- Outside RESET both reset lines are deasserted (R151). -/
theorem State.lines_of_not_reset (h : s.resetWf) (hr : s.bridge.state ≠ .reset) :
    ¬ (s.pins.porst = true ∨ s.pins.reset = true) := fun hpin => hr (h.1 hpin)

theorem State.lawful.reset (hs : s.lawful) : s.resetWf := by
  obtain ⟨-, -, -, -, -, hreset⟩ := hs
  exact hreset

/-- What is kept outside RESET keeps the laws. -/
theorem Keeps.lawful_of_not_reset (h : Keeps s t) (hs : s.lawful) (hr : s.bridge.state ≠ .reset) : t.lawful :=
  h.lawful hs ⟨fun hpin => absurd (h.pins ▸ hpin) (State.lines_of_not_reset hs.reset hr),
    fun hreset => absurd hreset (h.on hr)⟩

/-- A step that keeps what Keeps names, and moves nothing in RESET, keeps the laws. -/
theorem Kept.lawful {o : Host.Outcome State Fault Refusal} (h : Kept s o)
    (hstill : s.bridge.state = .reset → StaysStill o) (hs : s.lawful) (ho : o = .next t) : t.lawful := by
  subst ho
  obtain ⟨u, hu, hkeeps⟩ := h
  cases hu
  by_cases hr : s.bridge.state = .reset
  · obtain ⟨v, hv⟩ := hstill hr
    cases hv
    exact hkeeps.lawful hs v.still_resetWf
  · exact hkeeps.lawful_of_not_reset hs hr

/-- Pins moved keep the laws where RESET is what the reset lines say. -/
theorem State.setPins_lawful {x : Pins} (hs : s.lawful)
    (hlines : x.porst = true ∨ x.reset = true → s.bridge.state = .reset) : (s.setPins x).lawful := by
  obtain ⟨hevents, hport, hreads, hbus, hwcb, hreset⟩ := hs
  exact ⟨hevents, hport, hreads, hbus, hwcb, hlines, hreset.2⟩

/-- Outside RESET the laws ask nothing of the Access Checker. -/
theorem State.setAccess_lawful (a : Access) (hs : s.lawful) (hr : s.bridge.state ≠ .reset) : (s.setAccess a).lawful := by
  obtain ⟨hevents, hport, hreads, hbus, hwcb, hreset⟩ := hs
  exact ⟨hevents, hport, hreads, hbus, hwcb, hreset.1, fun hreset => absurd hreset hr⟩

theorem State.reply_lawful (code : ResultCode) (data : List Byte) (hs : s.lawful) : (s.reply code data).lawful := hs

theorem State.raise_lawful (b : EventBody) (hs : s.lawful) : (s.raise b).lawful :=
  (Keeps.raise (.refl s)).lawful hs hs.reset

/-! ## The resets and the ends that lead to them (R151 to R153, R156, R157) -/

theorem State.enterReset_lawful (kind : ResetKind) (hs : s.lawful) : (s.enterReset kind).lawful := by
  obtain ⟨hevents, -⟩ := hs
  exact s.enterReset_laws kind hevents

/-- LOAD, entered from RESET with both lines deasserted, begins with the laws. -/
theorem State.leaveReset_lawful (hs : s.lawful) : s.leaveReset.lawful := by
  unfold State.leaveReset
  split
  next hleave =>
    obtain ⟨⟨hstate, hporst⟩, hreset⟩ : (s.bridge.state = .reset ∧ s.pins.porst = false) ∧ s.pins.reset = false := by
      simpa using hleave
    obtain ⟨-, -, -, hwcb, -⟩ := hs.reset.2 hstate
    obtain ⟨hevents, hport, hreads, -, hlaw, -⟩ := hs
    refine ⟨hevents, hport, hreads, s.enterLoad_bus_wf, ⟨hlaw.1, fun _ => ?_, fun hset => ?_⟩, fun hpin => ?_, fun hr => ?_⟩
    · exact ⟨congrArg Wcb.entries hwcb, congrArg Wcb.hold hwcb⟩
    · cases hset
    · simp [State.enterLoad, hporst, hreset] at hpin
    · cases hr
  next => exact hs

theorem State.warmReset_lawful (hs : s.lawful) : s.warmReset.lawful :=
  State.leaveReset_lawful (State.enterReset_lawful .warm hs)

theorem State.endQuiesce_lawful (hs : s.lawful) (hr : s.bridge.state ≠ .reset) : s.endQuiesce.lawful := by
  unfold State.endQuiesce
  split
  · exact State.warmReset_lawful hs
  · exact (Keeps.enterHalted (.refl s)).lawful_of_not_reset hs hr

theorem State.drainDone_lawful (hs : s.lawful) (hq : s.bridge.state = .quiesce) : s.drainDone.lawful := by
  have hstate : s.bridge.state ≠ .reset := by simp [hq]
  have hstopped : Keeps s (s.setBridge { s.bridge with deadline := .stopped }) :=
    Keeps.setBridge (.refl s) hstate id id
  exact State.endQuiesce_lawful ((Keeps.raise hstopped).lawful_of_not_reset hs hstate) hstate

theorem State.stopNow_lawful (hs : s.lawful) : s.stopNow.lawful := by
  unfold State.stopNow
  split
  next hstart =>
    have hstate : s.bridge.state ≠ .reset := by
      intro hr
      simp [hr] at hstart
    split
    · exact (Keeps.haltStart (.refl s)).lawful_of_not_reset hs hstate
    · split
      · exact State.warmReset_lawful hs
      · exact hs
  next => exact hs

/-! ## The commands of the lines (R151 to R155) -/

theorem execPorstAssert_lawful (hs : s.lawful) (h : execPorstAssert s = .next t) : t.lawful := by
  cases h
  exact State.setPins_lawful (State.enterReset_lawful .powerOn hs) fun _ => rfl

theorem execResetAssert_lawful (hs : s.lawful) (h : execResetAssert s = .next t) : t.lawful := by
  cases h
  split
  next hstate => exact State.setPins_lawful hs fun _ => by simpa using hstate
  next => exact State.setPins_lawful (State.enterReset_lawful .warm hs) fun _ => rfl

theorem execResetRelease_lawful (hs : s.lawful) (h : execResetRelease s = .next t) : t.lawful := by
  cases h
  refine State.leaveReset_lawful (State.setPins_lawful hs ?_)
  rintro (hporst | hreset)
  · exact hs.reset.1 (.inl hporst)
  · cases hreset

theorem execPorstRelease_lawful {straps : BitVec 2} (hs : s.lawful) (h : execPorstRelease straps s = .next t) :
    t.lawful := by
  cases h
  split
  · have hpins : (s.setPins { s.pins with porst := false }).lawful := ?_
    · exact State.leaveReset_lawful (s := State.setLink _ _) hpins
    refine State.setPins_lawful hs ?_
    rintro (hporst | hreset)
    · cases hporst
    · exact hs.reset.1 (.inr hreset)
  · exact hs

/-- Outside the reset lines the pins bear on no law. -/
theorem State.setPins_lawful_of_lines {x : Pins} (hs : s.lawful) (hporst : x.porst = s.pins.porst)
    (hreset : x.reset = s.pins.reset) : (s.setPins x).lawful :=
  State.setPins_lawful hs (by rw [hporst, hreset]; exact hs.reset.1)

theorem State.noteResumes_lawful (hs : s.lawful) : s.noteResumes.lawful :=
  (Kept.noted (.refl s)).lawful (fun hr => by rw [State.eq_still hs.reset hr]; exact .same s) hs rfl

theorem execPfailAssert_lawful (hs : s.lawful) (h : execPfailAssert s = .next t) : t.lawful := by
  cases h
  unfold State.pfailRises
  split
  · exact State.noteResumes_lawful hs
  · have hpins : (s.setPins { s.pins with pfail := true }).lawful := State.setPins_lawful_of_lines hs rfl rfl
    refine (Kept.noted (Keeps.pfailAsserted (.refl _))).lawful (fun hr => ?_) hpins rfl
    rw [State.eq_still hpins.reset hr]
    exact .same _

theorem execResetReqAssert_lawful (hs : s.lawful) (h : execResetReqAssert s = .next t) : t.lawful := by
  cases h
  unfold State.resetReqRises
  split
  · exact State.noteResumes_lawful hs
  · have hpins : (s.setPins { s.pins with resetReq := true }).lawful := State.setPins_lawful_of_lines hs rfl rfl
    refine (Kept.noted (Keeps.orderlyRequest (.refl _))).lawful (fun hr => ?_) hpins rfl
    rw [State.eq_still hpins.reset hr]
    exact .same _

/-! ## The commands of the guards and the gate, and the resets at the link (R161, R163, R164) -/

theorem lawful_of_onLink (hs : s.lawful) (hu : u.lawful) (h : s.onLink u = .next t) : t.lawful := by
  cases h
  split
  · exact hu
  · exact hs

theorem State.inService_lawful (hs : s.lawful) (hu : s.bridge.state ≠ .reset → u.lawful) : (s.inService u).lawful := by
  unfold State.inService
  split
  next hstate => exact hu fun hr => by simp [hr] at hstate
  next => exact hs

theorem State.setGuard_lawful (slot : Byte) (first last : BitVec 16) (mode lock : Byte) (hs : s.lawful)
    (hr : s.bridge.state ≠ .reset) : (s.setGuard slot first last mode lock).lawful := by
  unfold State.setGuard
  split
  next => exact hs
  next =>
    split
    next => exact hs
    next =>
      split
      next => exact hs
      next =>
        split
        next => exact hs
        next => exact State.setAccess_lawful _ hs hr

theorem State.gateTo_lawful (a : Access) (hs : s.lawful) (hr : s.bridge.state ≠ .reset) : (s.gateTo a).lawful :=
  State.reply_lawful _ _ (State.setAccess_lawful a hs hr)

theorem State.openGate_lawful (auth : Bool) (hs : s.lawful) (hr : s.bridge.state ≠ .reset) :
    (s.openGate auth).lawful := by
  unfold State.openGate
  split
  · exact State.raise_lawful _ (State.reply_lawful _ _ hs)
  · exact State.gateTo_lawful _ hs hr

theorem execWarmReset_lawful (hs : s.lawful) (h : execWarmReset s = .next t) : t.lawful := by
  refine lawful_of_onLink hs ?_ h
  split
  · exact hs
  · exact State.warmReset_lawful (State.reply_lawful _ _ hs)

/-! ## Every command -/

/-- A command that moves no line keeps the laws. -/
theorem exec_lawful_of_not_movesLines {c : Instr} (hc : movesLines c = false) (hs : s.lawful)
    (h : exec c s = .next t) : t.lawful := by
  refine (exec_kept c s hc).lawful (fun hr => ?_) hs h
  rw [State.eq_still hs.reset hr]
  exact exec_still c s hc

theorem exec_lawful {c : Instr} (hs : s.lawful) (h : exec c s = .next t) : t.lawful := by
  cases c with
  | porstAssert => exact execPorstAssert_lawful hs h
  | resetAssert => exact execResetAssert_lawful hs h
  | resetRelease => exact execResetRelease_lawful hs h
  | porstRelease _ => exact execPorstRelease_lawful hs h
  | pfailAssert => exact execPfailAssert_lawful hs h
  | pfailDeassert => cases h; exact State.setPins_lawful_of_lines hs rfl rfl
  | resetReqAssert => exact execResetReqAssert_lawful hs h
  | resetReqDeassert => cases h; exact State.setPins_lawful_of_lines hs rfl rfl
  | stopAfterTransaction => cases h; exact State.stopNow_lawful hs
  | drainComplete =>
    cases h
    split
    next hdrained => exact State.drainDone_lawful hs (by simp_all [State.drained])
    next => exact hs
  | quiesceExitAfterExpiry =>
    cases h
    split
    next hover => exact State.endQuiesce_lawful hs fun hr => by simp [State.expiryOver, hr] at hover
    next => exact hs
  | warmReset => exact execWarmReset_lawful hs h
  | guardSet slot first last mode lock =>
    exact lawful_of_onLink hs (State.inService_lawful hs (State.setGuard_lawful slot first last mode lock hs)) h
  | gateOpen auth => exact lawful_of_onLink hs (State.inService_lawful hs (State.openGate_lawful auth hs)) h
  | gateClose => exact lawful_of_onLink hs (State.inService_lawful hs (State.gateTo_lawful _ hs)) h
  | gateLock => exact lawful_of_onLink hs (State.inService_lawful hs (State.gateTo_lawful _ hs)) h
  | _ => exact exec_lawful_of_not_movesLines rfl hs h

/-! ## The queue -/

/-- An outcome that is a next state with the queue as it was. -/
def GoesOn (s : State) (o : Host.Outcome State Fault Refusal) : Prop := ∃ t, o = .next t ∧ t.pending = s.pending

theorem GoesOn.next (h : t.pending = s.pending) : GoesOn s (.next t) := ⟨t, rfl, h⟩

theorem Kept.goesOn {o : Host.Outcome State Fault Refusal} (h : Kept s o) : GoesOn s o := by
  obtain ⟨t, ho, hkeeps⟩ := h
  exact ⟨t, ho, hkeeps.pending⟩

theorem GoesOn.onLink (h : u.pending = s.pending) : GoesOn s (s.onLink u) := by
  refine .next ?_
  split
  · exact h
  · rfl

theorem State.inService_pending (h : u.pending = s.pending) : (s.inService u).pending = s.pending := by
  unfold State.inService
  split
  · exact h
  · rfl

theorem State.setGuard_pending (slot : Byte) (first last : BitVec 16) (mode lock : Byte) (s : State) :
    (s.setGuard slot first last mode lock).pending = s.pending := by
  unfold State.setGuard
  repeat' split
  all_goals rfl

theorem State.openGate_pending (auth : Bool) (s : State) : (s.openGate auth).pending = s.pending := by
  unfold State.openGate
  split <;> rfl

theorem State.leaveReset_pending (s : State) : s.leaveReset.pending = s.pending := by
  obtain ⟨-, hpending, -⟩ := s.leaveReset_frame
  exact hpending

theorem State.warmReset_pending (s : State) : s.warmReset.pending = s.pending := by
  obtain ⟨-, hpending, -⟩ := s.warmReset_frame
  exact hpending

theorem State.endQuiesce_pending (s : State) : s.endQuiesce.pending = s.pending := by
  obtain ⟨-, hpending, -⟩ := s.endQuiesce_frame
  exact hpending

theorem State.stopNow_pending (s : State) : s.stopNow.pending = s.pending := by
  unfold State.stopNow
  split
  · split
    · rfl
    · split
      · exact s.warmReset_pending
      · rfl
  · rfl

/-- Every command answers a next state and leaves the queue. -/
theorem exec_goesOn (c : Instr) (s : State) : GoesOn s (exec c s) := by
  cases c with
  | porstAssert => exact .next rfl
  | resetAssert =>
    refine .next ?_
    split <;> rfl
  | resetRelease => exact .next (State.leaveReset_pending _)
  | porstRelease _ =>
    refine .next ?_
    split
    · exact State.leaveReset_pending _
    · rfl
  | pfailAssert =>
    show GoesOn s s.pfailRises.noted
    unfold State.pfailRises
    split
    · exact (Kept.noted (.refl s)).goesOn
    · exact (Kept.noted (Keeps.pfailAsserted (.refl (s.setPins _)))).goesOn
  | resetReqAssert =>
    show GoesOn s s.resetReqRises.noted
    unfold State.resetReqRises
    split
    · exact (Kept.noted (.refl s)).goesOn
    · exact (Kept.noted (Keeps.orderlyRequest (.refl (s.setPins _)))).goesOn
  | pfailDeassert => exact .next rfl
  | resetReqDeassert => exact .next rfl
  | stopAfterTransaction => exact .next s.stopNow_pending
  | drainComplete =>
    refine .next ?_
    split
    · exact State.endQuiesce_pending _
    · rfl
  | quiesceExitAfterExpiry =>
    refine .next ?_
    split
    · exact s.endQuiesce_pending
    · rfl
  | warmReset =>
    refine .onLink ?_
    split
    · rfl
    · exact State.warmReset_pending _
  | guardSet slot first last mode lock =>
    exact .onLink (State.inService_pending (State.setGuard_pending slot first last mode lock s))
  | gateOpen auth => exact .onLink (State.inService_pending (State.openGate_pending auth s))
  | gateClose => exact GoesOn.onLink (u := s.inService (s.gateTo _)) (State.inService_pending rfl)
  | gateLock => exact GoesOn.onLink (u := s.inService (s.gateTo _)) (State.inService_pending rfl)
  | _ => exact (exec_kept _ s rfl).goesOn

/-! ## The statements -/

/-- Settles O1: by the step function's two cases. -/
theorem stepRunsTheFrontCommand : Obligations.StepRunsTheFrontCommand := fun _ _ _ => rfl

/-- Settles O2: every command goes on with the queue as it was; an empty queue is step's first case. -/
theorem everyCommandGoesOn : Obligations.EveryCommandGoesOn := by
  refine ⟨exec_goesOn, fun s hempty => ?_⟩
  simp only [step, hempty]

/-- Settles O59: the state after reset is what entry to RESET makes of it. -/
theorem resetStateIsLawful : Obligations.ResetStateIsLawful :=
  State.reset.enterReset_laws .powerOn ⟨by decide, by simp [State.reset], fun _ => rfl⟩

/-- Settles O60: a step is a command of the queue, and every command keeps the laws. -/
theorem everyStepKeepsTheLaws : Obligations.EveryStepKeepsTheLaws := by
  intro s t hs hstep
  unfold step at hstep
  split at hstep
  next => cases hstep; exact hs
  next c rest _ => exact exec_lawful (s := s.setPending rest) hs hstep

end Sys2Proof.Machine
end

section
/-! The resets and the stop requests by their rules (R151 to R158): what entry to RESET and to LOAD leave, written as the
states of Safety.lean, the stop requests by the bridge's state, and the ends of LOAD, REBUILD and QUIESCE. -/

namespace Sys2Proof.Machine

variable {s : State}

/-! ## RESET and LOAD in the words of the statements (R28, R151, R152) -/

theorem State.enterLoad_eq_atLoad (s : State) : s.enterLoad = s.atLoad := rfl

/-- The link of a warm reset: a store that follows the RAW erase is settled (R165). -/
theorem Link.enterReset_warm (l : Link) :
    l.enterReset .warm = { l with store := if l.store = .followsRaw then .stored .refusedState [] else l.store } := by
  obtain ⟨store, straps, sent, frame⟩ := l
  cases store <;> rfl

theorem EventBlock.rearm_eq (e : EventBlock) :
    e.rearm = { e with notice := if e.queue = [] then .armed else .notified } := by
  simp [EventBlock.rearm]

/-- Entry to RESET of kind warm, block by block. -/
theorem State.enterReset_warm (s : State) : s.enterReset .warm = s.atWarmReset := by
  have hlink := s.link.enterReset_warm
  have hevents : s.events.enterReset .warm = _ := s.events.rearm_eq
  simp only [State.enterReset, hlink, hevents]
  rfl

/-- RESET is left for LOAD with both lines deasserted (R151). -/
theorem State.leaveReset_of_deasserted (hstate : s.bridge.state = .reset) (hporst : s.pins.porst = false)
    (hreset : s.pins.reset = false) : s.leaveReset = s.atLoad := by
  simp [State.leaveReset, hstate, hporst, hreset, State.enterLoad_eq_atLoad]

/-- Otherwise nothing is left (R151). -/
theorem State.leaveReset_of_held (h : s.bridge.state ≠ .reset ∨ s.pins.porst = true ∨ s.pins.reset = true) :
    s.leaveReset = s := by
  rcases h with h | h | h <;> simp [State.leaveReset, h]

theorem State.warmReset_eq_warmStart (s : State) : s.warmReset = s.warmStart := by
  unfold State.warmReset State.warmStart
  rw [s.enterReset_warm]
  split
  next hheld => exact State.leaveReset_of_held (.inr hheld)
  next hfree =>
    obtain ⟨hporst, hreset⟩ : s.pins.porst = false ∧ s.pins.reset = false := by simpa using hfree
    exact State.leaveReset_of_deasserted rfl hporst hreset

/-! ## Stop requests by the bridge's state (R153, R154, R158) -/

theorem State.pfailAsserted_of_starting (h : s.bridge.state = .load ∨ s.bridge.state = .rebuild) :
    s.pfailAsserted = s.setBridge { s.bridge with stopPower := true } := by
  rcases h with h | h <;> simp only [State.pfailAsserted, h]

theorem State.orderlyRequest_of_starting (h : s.bridge.state = .load ∨ s.bridge.state = .rebuild) :
    s.orderlyRequest = s.setBridge { s.bridge with stopOrderly := true } := by
  rcases h with h | h <;> simp only [State.orderlyRequest, h]

theorem State.pfailAsserted_of_stopped (h : s.bridge.state = .reset ∨ s.bridge.state = .halted) :
    s.pfailAsserted = s := by
  rcases h with h | h <;> simp only [State.pfailAsserted, h]

theorem State.orderlyRequest_of_stopped (h : s.bridge.state = .reset ∨ s.bridge.state = .halted) :
    s.orderlyRequest = s := by
  rcases h with h | h <;> simp only [State.orderlyRequest, h]

theorem State.pfailAsserted_of_serves (h : s.serves) : s.pfailAsserted = s.enterQuiesce .power := by
  rcases h with h | h <;> simp only [State.pfailAsserted, h]

theorem State.orderlyRequest_of_serves (h : s.serves) : s.orderlyRequest = s.enterQuiesce .orderly := by
  rcases h with h | h <;> simp only [State.orderlyRequest, h]

/-- A PFAIL asserted already is not acted on again (log 3). -/
theorem exec_pfailAssert_of_asserted (hpin : s.pins.pfail = true) : exec .pfailAssert s = .next s.noteResumes :=
  congrArg State.noted (if_pos hpin)

/-- A RESET_REQ asserted already is not acted on again (log 3). -/
theorem exec_resetReqAssert_of_asserted (hpin : s.pins.resetReq = true) :
    exec .resetReqAssert s = .next s.noteResumes := congrArg State.noted (if_pos hpin)

/-! ## The end of a stop noted in LOAD or REBUILD (R153) -/

theorem State.stopNow_of_starting (hstate : s.bridge.state = .load ∨ s.bridge.state = .rebuild) (htx : s.bus.tx = none) :
    s.stopNow = if s.bridge.stopPower = true then s.haltStart
      else if s.bridge.stopOrderly = true then s.warmStart else s := by
  have hidle : ((s.bridge.state == .load || s.bridge.state == .rebuild) && s.bus.tx.isNone) = true := by
    simpa [htx] using hstate
  rw [← s.warmReset_eq_warmStart]
  exact if_pos hidle

theorem State.stopNow_of_not_starting
    (h : ¬(s.bridge.state = .load ∨ s.bridge.state = .rebuild) ∨ s.bus.tx ≠ none) : s.stopNow = s := by
  refine if_neg fun hidle => ?_
  obtain ⟨hstate, htx⟩ : (s.bridge.state = .load ∨ s.bridge.state = .rebuild) ∧ s.bus.tx = none := by simpa using hidle
  exact h.elim (· hstate) (· htx)

/-! ## The ends of QUIESCE (R156, R157) -/

theorem State.endQuiesce_of_orderly (hcause : s.bridge.cause = some .orderly) : s.endQuiesce = s.warmStart := by
  simp only [State.endQuiesce, hcause, s.warmReset_eq_warmStart]

/-- What the drain is judged by (R156). -/
theorem State.drained_iff (s : State) : s.drained = true ↔ s.bridge.state = .quiesce ∧ s.bridge.expired = false
    ∧ s.wcb.entries = [] ∧ s.commit = none ∧ s.reads.fills = [] ∧ s.bus.tx = none
    ∧ s.journalProgramInProgress = false := by
  simp [State.drained, State.flashQuiet, and_assoc]

/-- What the end after the expiry is judged by (R157). -/
theorem State.expiryOver_iff (s : State) : s.expiryOver = true ↔ s.bridge.state = .quiesce ∧ s.bridge.expired = true
    ∧ s.commit = none ∧ s.bus.tx = none ∧ s.journalProgramInProgress = false := by
  simp [State.expiryOver, State.flashQuiet, and_assoc]

theorem exec_drainComplete (s : State) : exec .drainComplete s = .next (if s.drained = true then s.drainDone else s) := rfl

theorem exec_quiesceExitAfterExpiry (s : State) :
    exec .quiesceExitAfterExpiry s = .next (if s.expiryOver = true then s.endQuiesce else s) := rfl

/-- The drain done in a POWER quiesce: HALTED, after its event. -/
theorem State.drainDone_of_power (hcause : s.bridge.cause = some .power) : s.drainDone =
    ({ s with bridge := { s.bridge with state := .halted, deadline := .stopped, expired := false } }.withEvent
      { kind := .quiesceDone, code := some .power }) := by
  unfold State.drainDone
  rw [State.endQuiesce_of_power, hcause]
  exacts [rfl, hcause]

/-- The drain done in an ORDERLY quiesce: a warm reset, after its event. -/
theorem State.drainDone_of_orderly (hcause : s.bridge.cause = some .orderly) : s.drainDone =
    (s.withEvent { kind := .quiesceDone, code := some .orderly }).warmStart := by
  unfold State.drainDone
  rw [State.endQuiesce_of_orderly, hcause]
  exacts [rfl, hcause]

/-! ## The statements -/

/-- Settles O3: entry to RESET of kind power-on, written out. -/
theorem porstAssertEmptiesEveryBlock : Obligations.PorstAssertEmptiesEveryBlock := fun _ => rfl

/-- Settles O4: RESET_ASSERT and WARM_RESET outside RESET are entry to RESET of kind warm, the second left at once. -/
theorem warmResetsRestartTheBridge : Obligations.WarmResetsRestartTheBridge := by
  refine ⟨fun s => ⟨fun hstate => ?_, fun hstate => ?_⟩, fun s hporst => ⟨fun hstate => ?_, fun hstate => ?_⟩⟩
  · have hstays : (if s.bridge.state == .reset then s else s.enterReset .warm) = s := if_pos (by simp [hstate])
    exact congrArg (fun t : State => Host.Outcome.next (t.setPins { s.pins with reset := true })) hstays
  · rw [exec_resetAssert_of_not_reset hstate, s.enterReset_warm]
    rfl
  · have hlistens : exec .warmReset s = .next _ := congrArg Host.Outcome.next (if_pos (State.linkListens_of hporst))
    rw [hlistens, if_pos (by simp [hstate])]
    rfl
  · rw [exec_warmReset_of_listening hporst hstate, State.warmReset_eq_warmStart]
    rfl

/-- Settles O5: a line's release sets its pin, and RESET is left where both are then deasserted. -/
theorem releaseOfTheLinesEntersLoad : Obligations.ReleaseOfTheLinesEntersLoad := by
  refine ⟨fun s hstate hporst => ?_, fun s hheld => ?_, fun s straps hpin hstate hreset => ?_, fun s straps hpin hheld => ?_⟩
  · exact congrArg Host.Outcome.next (State.leaveReset_of_deasserted (s := s.setPins _) hstate hporst rfl)
  · exact congrArg Host.Outcome.next (State.leaveReset_of_held (s := s.setPins _) (hheld.imp_right .inl))
  · refine congrArg Host.Outcome.next ((if_pos hpin).trans ?_)
    exact State.leaveReset_of_deasserted (s := (s.setPins _).setLink _) hstate rfl hreset
  · refine congrArg Host.Outcome.next ((if_pos hpin).trans ?_)
    exact State.leaveReset_of_held (s := (s.setPins _).setLink _) (hheld.imp_right .inr)

/-- Settles O7: the rises at the lines and the link, by what PFAIL and an orderly request do in each state. -/
theorem stopRequestsActByState : Obligations.StopRequestsActByState := by
  refine ⟨⟨fun _ => rfl, fun _ => rfl, fun _ => exec_pfailAssert_of_asserted, fun _ => exec_resetReqAssert_of_asserted,
    fun s hstate => ⟨fun hpin => ?_, fun hpin => ?_, fun hporst => ?_⟩,
    fun s hstate => ⟨fun hpin => ?_, fun hpin => ?_, fun hporst => ?_⟩⟩,
    fun s hserves => ⟨fun hpin => ?_, fun hpin => ?_, fun hporst => ?_⟩⟩
  · rw [exec_pfailAssert_of_deasserted hpin, State.pfailAsserted_of_starting]
    exacts [rfl, hstate]
  · rw [exec_resetReqAssert_of_deasserted hpin, State.orderlyRequest_of_starting]
    exacts [rfl, hstate]
  · rw [exec_orderlyReset_of_listening hporst, State.orderlyRequest_of_starting]
    exacts [rfl, hstate]
  · rw [exec_pfailAssert_of_deasserted hpin, State.pfailAsserted_of_stopped]
    exacts [rfl, hstate]
  · rw [exec_resetReqAssert_of_deasserted hpin, State.orderlyRequest_of_stopped]
    exacts [rfl, hstate]
  · rw [exec_orderlyReset_of_listening hporst, State.orderlyRequest_of_stopped]
    exacts [rfl, hstate]
  · rw [exec_pfailAssert_of_deasserted hpin, State.pfailAsserted_of_serves]
    exacts [rfl, hserves]
  · rw [exec_resetReqAssert_of_deasserted hpin, State.orderlyRequest_of_serves]
    exacts [rfl, hserves]
  · rw [exec_orderlyReset_of_listening hporst, State.orderlyRequest_of_serves]
    exacts [rfl, hserves]

/-- Settles O10: the stop noted is carried out by its kind, PFAIL first. -/
theorem stopAfterTransaction : Obligations.StopAfterTransaction := by
  refine ⟨fun s hstate htx => ?_, fun s h => congrArg Host.Outcome.next (State.stopNow_of_not_starting h)⟩
  have hstops : exec .stopAfterTransaction s = .next _ := congrArg Host.Outcome.next (State.stopNow_of_starting hstate htx)
  rw [hstops]
  refine ⟨fun hpower => ?_, fun hpower horderly => ?_, fun hpower horderly => ?_⟩
  · rw [if_pos hpower]
    rfl
  · rw [if_neg (by simp [hpower]), if_pos horderly]
  · rw [if_neg (by simp [hpower]), if_neg (by simp [horderly])]

/-- Settles O11: both ends are judged by their conditions together, and end by the cause. -/
theorem quiesceEndsInHaltedOrWarmReset : Obligations.QuiesceEndsInHaltedOrWarmReset := by
  refine ⟨⟨?drained, ?notDrained⟩, ?pastDeadline, ?notPast⟩
  case drained =>
    intro s hstate hexpired hentries hcommit hfills htx hprogram
    rw [exec_drainComplete, if_pos (s.drained_iff.mpr ⟨hstate, hexpired, hentries, hcommit, hfills, htx, hprogram⟩)]
    exact ⟨fun hcause => by rw [State.drainDone_of_power hcause], fun hcause => by rw [State.drainDone_of_orderly hcause]⟩
  case notDrained =>
    intro s h
    rw [exec_drainComplete, if_neg]
    rw [s.drained_iff]
    rintro ⟨hstate, hexpired, hentries, hcommit, hfills, htx, hprogram⟩
    simp [hstate, hexpired, hentries, hcommit, hfills, htx, hprogram] at h
  case pastDeadline =>
    intro s hstate hexpired hcommit htx hprogram
    rw [exec_quiesceExitAfterExpiry, if_pos (s.expiryOver_iff.mpr ⟨hstate, hexpired, hcommit, htx, hprogram⟩)]
    refine ⟨fun hcause => ?_, fun hcause => by rw [State.endQuiesce_of_orderly hcause]⟩
    rw [State.endQuiesce_of_power hcause]
    rfl
  case notPast =>
    intro s h
    rw [exec_quiesceExitAfterExpiry, if_neg]
    rw [s.expiryOver_iff]
    rintro ⟨hstate, hexpired, hcommit, htx, hprogram⟩
    simp [hstate, hexpired, hcommit, htx, hprogram] at h

end Sys2Proof.Machine
end

section
/-! Entry to QUIESCE (R154) by its four effects: compaction abandoned, claims of held kinds withdrawn, a RAW erase not
granted withdrawn, and the commit that a hold kept in ALLOCATE let go on; with ALLOCATE by its cases (R97) and the entry to
RAW that a PFAIL turns into entry to QUIESCE (R33). -/

namespace Sys2Proof.Machine

variable {s : State}

/-! ## ALLOCATE by its cases (R10, R97) -/

theorem State.commitAllocate_of_fenced (c : CommitRecord) (h : s.journal.fenced = true) :
    s.commitAllocate c = s.commitFailed c := if_pos h

/-- Allocations are held by a compaction that is not IDLE or by a full journal. -/
theorem State.allocationsHeld_iff (s : State) :
    s.allocationsHeld = true ↔ s.journal.compaction ≠ .idle ∨ s.journalFull = true := by
  simp [State.allocationsHeld]

theorem State.commitAllocate_of_held (c : CommitRecord) (hfenced : s.journal.fenced = false)
    (hheld : s.allocationsHeld = true) : s.commitAllocate c =
      { s with commit := some { c with target := none, work := .allocHeld, granted := false } } := by
  simp [State.commitAllocate, hfenced, hheld, CommitRecord.at, State.setCommit]

/-- With nothing that holds it, ALLOCATE presents the take and goes on as it is answered. -/
theorem State.commitAllocate_of_free (c : CommitRecord) (hfenced : s.journal.fenced = false)
    (hfree : s.allocationsHeld = false) :
    (∀ ps, s.take.2 = .granted ps → s.commitAllocate c = s.take.1.commitGranted c ps)
    ∧ (s.take.2 = .waits → s.commitAllocate c
        = { s.take.1 with commit := some { c with target := none, work := .takeWaits, granted := false } })
    ∧ (s.take.2 = .refused → s.commitAllocate c = s.take.1.commitFailed c) := by
  refine ⟨fun ps htake => ?_, fun htake => ?_, fun htake => ?_⟩ <;>
    simp only [State.commitAllocate, hfenced, hfree, htake, Bool.false_eq_true, if_false]
  rfl

/-- A commit that holds in ALLOCATE is judged again before the deadline expiry (R97, R107). -/
theorem State.commitHoldEnd_of_held {c : CommitRecord} (hcommit : s.commit = some c) (hwork : c.work = .allocHeld)
    (hexpired : s.bridge.expired = false) : s.commitHoldEnd = s.commitAllocate c := by
  simp [State.commitHoldEnd, hcommit, hwork, hexpired]

/-- Any other commit, and any after the expiry, is left by the end of a hold. -/
theorem State.commitHoldEnd_of_other (h : ∀ c, s.commit = some c → c.work ≠ .allocHeld ∨ s.bridge.expired = true) :
    s.commitHoldEnd = s := by
  unfold State.commitHoldEnd
  split
  next => rfl
  next c hcommit =>
    split
    next hwork => exact if_pos ((h c hcommit).resolve_left (not_not_intro hwork))
    next => rfl

/-! ## Compaction abandoned (R141) -/

/-- The Map Journal after compaction is abandoned. -/
def MapJournal.abandoned (j : MapJournal) : MapJournal :=
  match j.run with
  | none => { j with compaction := .idle, attempt := 1 }
  | some r =>
    if r.inProgress then { j with compaction := .idle, attempt := 1, run := some { r with abandoned := true } }
    else ({ j with compaction := .idle, attempt := 1, run := none } : MapJournal).setRow r.bank (some ⟨.stale, none⟩)

theorem State.abandonCompaction_eq (s : State) : s.abandonCompaction = s.setJournal s.journal.abandoned := by
  cases hrun : s.journal.run with
  | none => simp only [State.abandonCompaction, MapJournal.abandoned, hrun]
  | some r =>
    simp only [State.abandonCompaction, MapJournal.abandoned, hrun]
    split <;> rfl

@[simp] theorem Bank.other_ne (bank : Bank) : bank.other ≠ bank := by cases bank <;> simp [Bank.other]

@[simp] theorem MapJournal.row_setRow (j : MapJournal) (bank : Bank) (r : Option BankRow) :
    (j.setRow bank r).row bank = r := by
  cases bank <;> rfl

@[simp] theorem MapJournal.row_other_setRow (j : MapJournal) (bank : Bank) (r : Option BankRow) :
    (j.setRow bank r).row bank.other = j.row bank.other := by
  cases bank <;> rfl

/-- A bank's row is written and the rest of the journal stands. -/
theorem MapJournal.setRow_frame (j : MapJournal) (bank : Bank) (r : Option BankRow) :
    (j.setRow bank r).pointer = j.pointer ∧ (j.setRow bank r).nextSeq = j.nextSeq
      ∧ (j.setRow bank r).compaction = j.compaction
      ∧ (j.setRow bank r).attempt = j.attempt ∧ (j.setRow bank r).fenced = j.fenced ∧ (j.setRow bank r).queue = j.queue
      ∧ (j.setRow bank r).run = j.run ∧ (j.setRow bank r).rebuild = j.rebuild := by
  cases bank <;> exact ⟨rfl, rfl, rfl, rfl, rfl, rfl, rfl, rfl⟩

/-- What abandoning leaves of the journal. -/
theorem MapJournal.abandoned_frame (j : MapJournal) :
    j.abandoned.compaction = .idle ∧ j.abandoned.attempt = 1 ∧ j.abandoned.pointer = j.pointer
      ∧ j.abandoned.nextSeq = j.nextSeq ∧ j.abandoned.queue = j.queue ∧ j.abandoned.fenced = j.fenced
      ∧ j.abandoned.rebuild = j.rebuild := by
  unfold MapJournal.abandoned
  split
  · exact ⟨rfl, rfl, rfl, rfl, rfl, rfl, rfl⟩
  · split
    · exact ⟨rfl, rfl, rfl, rfl, rfl, rfl, rfl⟩
    next r _ _ =>
      obtain ⟨hpointer, hseq, hcompaction, hattempt, hfenced, hqueue, -, hrebuild⟩ :=
        MapJournal.setRow_frame { j with compaction := .idle, attempt := 1, run := none } r.bank (some ⟨.stale, none⟩)
      exact ⟨hcompaction, hattempt, hpointer, hseq, hqueue, hfenced, hrebuild⟩

theorem MapJournal.abandoned_of_no_run {j : MapJournal} (h : j.run = none) :
    j.abandoned = { j with compaction := .idle, attempt := 1 } := by
  simp only [MapJournal.abandoned, h]

/-- A window in flight is waited for. -/
theorem MapJournal.abandoned_of_inProgress {j : MapJournal} {r : BankRun} (h : j.run = some r)
    (hp : r.inProgress = true) :
    j.abandoned = { j with compaction := .idle, attempt := 1, run := some { r with abandoned := true } } := by
  simp only [MapJournal.abandoned, h, hp, if_true]

/-- With no window in flight the bank is STALE at once. -/
theorem MapJournal.abandoned_of_waiting {j : MapJournal} {r : BankRun} (h : j.run = some r)
    (hp : r.inProgress = false) : j.abandoned =
      ({ j with compaction := .idle, attempt := 1, run := none } : MapJournal).setRow r.bank (some ⟨.stale, none⟩) := by
  simp [MapJournal.abandoned, h, hp]

/-! ## Claims of held kinds withdrawn (R123) -/

/-- An erase record that stands when held claims are withdrawn: one being erased, or of a kind not held. -/
def State.keepsClaim (s : State) (r : EraseRecord) : Bool :=
  r.erasing || (match r.kind with
    | .data => !s.dataEraseHeld
    | .bank _ => !s.bankEraseHeld
    | .raw => true)

/-- A claim that is not held, or that has been granted, stands. -/
theorem State.withdrawHeldClaims_of_kept (h : ∀ r, s.erase.record = some r → s.keepsClaim r = true) :
    s.withdrawHeldClaims = s := by
  unfold State.withdrawHeldClaims
  split
  next => rfl
  next r hrecord =>
    have hkept := h r hrecord
    split
    next => rfl
    next herasing =>
      split
      next hkind => exact if_neg (by simpa [State.keepsClaim, herasing, hkind] using hkept)
      next hkind => exact if_neg (by simpa [State.keepsClaim, herasing, hkind] using hkept)
      next => rfl

/-- A claim of a held kind leaves the erase record. -/
theorem State.withdrawHeldClaims_of_held {r : EraseRecord} (hrecord : s.erase.record = some r)
    (h : s.keepsClaim r = false) : s.withdrawHeldClaims = s.setErase { s.erase with record := none } := by
  obtain ⟨kind, ps, erasing⟩ := r
  cases erasing with
  | true => simp [State.keepsClaim] at h
  | false => cases kind <;> simp_all [State.withdrawHeldClaims, State.keepsClaim]

/-- The erase record after held claims are withdrawn. -/
theorem State.withdrawHeldClaims_eq (s : State) :
    s.withdrawHeldClaims = s.setErase { s.erase with record := s.erase.record.filter s.keepsClaim } := by
  have hsame : ∀ r, s.erase.record = r → s = s.setErase { s.erase with record := r } := by
    rintro _ rfl
    rfl
  cases hrecord : s.erase.record with
  | none => exact (State.withdrawHeldClaims_of_kept (by simp [hrecord])).trans (hsame _ hrecord)
  | some r =>
    cases hkept : s.keepsClaim r with
    | true =>
      rw [Option.filter_some_pos hkept]
      exact (State.withdrawHeldClaims_of_kept (by simp [hrecord, hkept])).trans (hsame _ hrecord)
    | false =>
      rw [Option.filter_some_neg (by simp [hkept])]
      exact State.withdrawHeldClaims_of_held hrecord hkept

/-- In QUIESCE erases of data and of banks are held (R123). -/
theorem State.keepsClaim_of_quiesce (h : s.bridge.state = .quiesce) (r : EraseRecord) :
    s.keepsClaim r = true ↔ r.erasing = true ∨ r.kind = .raw := by
  obtain ⟨kind, ps, erasing⟩ := r
  cases kind <;> simp [State.keepsClaim, State.dataEraseHeld, State.bankEraseHeld, h]

/-! ## A RAW erase withdrawn (R127, R165) -/

/-- A RAW erase is not granted: held without an outcome, with nothing being erased. -/
theorem EraseEngine.rawNotGranted_iff (e : EraseEngine) : e.rawNotGranted = true ↔
    (∃ ps, e.raw = some ⟨ps, none⟩) ∧ ∀ r, e.record = some r → r.erasing = false := by
  obtain ⟨record, wait, bankWork, raw⟩ := e
  rcases raw with _ | ⟨ps, _ | o⟩ <;> cases record <;> simp [EraseEngine.rawNotGranted]

/-- A RAW erase not granted leaves the engine, and a store that follows it is settled. -/
theorem State.withdrawRawErase_of_notGranted (h : s.erase.rawNotGranted = true) : s.withdrawRawErase =
    (s.setErase { s.erase with record := none, raw := none }).setLink
      { s.link with store := if s.link.store = .followsRaw then .stored .refusedState [] else s.link.store } := by
  rw [← Link.enterReset_warm]
  exact if_pos h

theorem State.withdrawRawErase_of_granted (h : s.erase.rawNotGranted = false) : s.withdrawRawErase = s :=
  if_neg (by simp [h])

/-! ## Entry to QUIESCE, block by block (R154) -/

/-- The Erase Engine after entry to QUIESCE: a RAW erase not granted is gone with its claim, and otherwise the claims of data
and bank erases not granted. -/
def EraseEngine.quiesced (e : EraseEngine) : EraseEngine :=
  if e.rawNotGranted then { e with record := none, raw := none }
  else { e with record := e.record.filter fun r => r.erasing || r.kind == .raw }

/-- The link after entry to QUIESCE: a store that followed a RAW erase withdrawn is settled. -/
def Link.quiesced (l : Link) (e : EraseEngine) : Link :=
  if e.rawNotGranted then { l with store := if l.store = .followsRaw then .stored .refusedState [] else l.store } else l

/-- The bridge at entry to QUIESCE, before a commit that held in ALLOCATE goes on. -/
def State.quiesced (s : State) (cause : Cause) : State :=
  { s with
    bridge := { s.bridge with
      state := .quiesce, cause := some cause, expired := false,
      deadline := .running (if cause = .power then s.settings.powerDeadline else s.settings.resetDeadline) }
    journal := s.journal.abandoned, erase := s.erase.quiesced, link := s.link.quiesced s.erase }

/-- Withdrawing claims not granted does not change whether a RAW erase has been granted. -/
theorem EraseEngine.rawNotGranted_filter (e : EraseEngine) :
    ({ e with record := e.record.filter fun r => r.erasing || r.kind == .raw } : EraseEngine).rawNotGranted
      = e.rawNotGranted := by
  rw [Bool.eq_iff_iff, EraseEngine.rawNotGranted_iff, EraseEngine.rawNotGranted_iff]
  refine and_congr_right fun _ => ⟨fun h r hr => ?_, fun h r hr => h r (Option.filter_eq_some_iff.mp hr).1⟩
  cases herasing : r.erasing with
  | false => rfl
  | true => exact herasing ▸ h r (Option.filter_eq_some_iff.mpr ⟨hr, by simp [herasing]⟩)

theorem State.deadlineFor_eq (s : State) (cause : Cause) : s.deadlineFor cause =
    if cause = .power then s.settings.powerDeadline else s.settings.resetDeadline := by
  cases cause <;> rfl

/-- The claims that stand in QUIESCE, whatever else the state is. -/
theorem State.withdrawHeldClaims_of_quiesce (h : s.bridge.state = .quiesce) : s.withdrawHeldClaims =
    s.setErase { s.erase with record := s.erase.record.filter fun r => r.erasing || r.kind == .raw } := by
  have hkeeps : s.keepsClaim = fun r => r.erasing || r.kind == .raw := by
    funext r
    rw [Bool.eq_iff_iff, State.keepsClaim_of_quiesce h]
    simp
  rw [s.withdrawHeldClaims_eq, hkeeps]

theorem State.enterQuiesce_eq (s : State) (cause : Cause) : s.enterQuiesce cause = (s.quiesced cause).commitHoldEnd := by
  unfold State.enterQuiesce
  rw [State.abandonCompaction_eq, State.withdrawHeldClaims_of_quiesce rfl, s.deadlineFor_eq]
  congr 1
  cases hraw : s.erase.rawNotGranted with
  | true =>
    rw [State.withdrawRawErase_of_notGranted]
    · simp only [State.quiesced, EraseEngine.quiesced, Link.quiesced, hraw, if_true]
      rfl
    · exact (EraseEngine.rawNotGranted_filter _).trans hraw
  | false =>
    rw [State.withdrawRawErase_of_granted]
    · simp [State.quiesced, EraseEngine.quiesced, Link.quiesced, hraw, State.setBridge, State.setJournal, State.setErase]
    · exact (EraseEngine.rawNotGranted_filter _).trans hraw

/-! ## What the Erase Engine and the link keep at entry to QUIESCE (R123, R127, R165) -/

section erase
variable {e : EraseEngine} {l : Link}

theorem EraseEngine.rawNotGranted_of_erasing {r : EraseRecord} (hr : e.record = some r) (herasing : r.erasing = true) :
    e.rawNotGranted = false := by
  rw [Bool.eq_false_iff, ne_eq, e.rawNotGranted_iff]
  rintro ⟨-, hnone⟩
  simp [hnone r hr] at herasing

theorem EraseEngine.rawNotGranted_of_no_raw (h : ∀ ps, e.raw ≠ some ⟨ps, none⟩) : e.rawNotGranted = false := by
  rw [Bool.eq_false_iff, ne_eq, e.rawNotGranted_iff]
  rintro ⟨⟨ps, hraw⟩, -⟩
  exact h ps hraw

/-- An erase being made is let end. -/
theorem EraseEngine.quiesced_of_erasing {r : EraseRecord} (hr : e.record = some r) (herasing : r.erasing = true) :
    e.quiesced = e ∧ l.quiesced e = l := by
  obtain ⟨record, wait, bankWork, raw⟩ := e
  have hraw := EraseEngine.rawNotGranted_of_erasing hr herasing
  dsimp only at hr
  subst hr
  simp [EraseEngine.quiesced, Link.quiesced, hraw, herasing]

/-- A claim of a data or bank erase not granted is withdrawn. -/
theorem EraseEngine.quiesced_record_of_claim {r : EraseRecord} (hr : e.record = some r) (herasing : r.erasing = false)
    (hkind : r.kind ≠ .raw) : e.quiesced.record = none := by
  unfold EraseEngine.quiesced
  split
  · rfl
  · simp [hr, herasing, hkind]

theorem EraseEngine.quiesced_record_of_none (hr : e.record = none) : e.quiesced.record = none := by
  unfold EraseEngine.quiesced
  split <;> simp [hr]

theorem EraseEngine.quiesced_frame (e : EraseEngine) : e.quiesced.wait = e.wait ∧ e.quiesced.bankWork = e.bankWork := by
  unfold EraseEngine.quiesced
  split <;> exact ⟨rfl, rfl⟩

end erase

/-! ## The statements -/

/-- Settles O8: the three blocks are those of State.quiesced; the commit goes on as ALLOCATE judges it there. -/
theorem entryToQuiesce : Obligations.EntryToQuiesce := by
  intro s cause
  refine ⟨s.journal.abandoned, s.erase.quiesced, s.link.quiesced s.erase, ?state, s.journal.abandoned_frame, ?noRun,
    ?inProgress, ?waiting, ?erasing, ?claim, ?noRecord, ?wait, ?bankWork, ?raw, ?noRaw⟩
  case state =>
    rintro t rfl
    rw [s.enterQuiesce_eq]
    have hidle : (s.quiesced cause).journal.compaction = .idle := s.journal.abandoned_frame.1
    have hfenced : (s.quiesced cause).journal.fenced = s.journal.fenced := by
      obtain ⟨-, -, -, -, -, hfenced, -⟩ := s.journal.abandoned_frame
      exact hfenced
    refine ⟨fun hother => State.commitHoldEnd_of_other fun c hc => .inl (hother c hc), fun c hcommit hwork => ?_⟩
    have hallocates : (s.quiesced cause).commitHoldEnd = (s.quiesced cause).commitAllocate c :=
      State.commitHoldEnd_of_held hcommit hwork rfl
    rw [hallocates, ← hfenced]
    refine ⟨State.commitAllocate_of_fenced c, fun hfree hfull => ?_, fun hfree hfull => ?_⟩
    · rw [State.commitAllocate_of_held c hfree ((State.allocationsHeld_iff _).mpr (.inr hfull)), ← hwork]
      rfl
    · refine State.commitAllocate_of_free c hfree (Bool.eq_false_iff.mpr fun hheld => ?_)
      rcases (State.allocationsHeld_iff (s.quiesced cause)).mp hheld with hbusy | hheldFull
      · exact hbusy hidle
      · cases hfull.symm.trans hheldFull
  case noRun =>
    intro hrun
    rw [MapJournal.abandoned_of_no_run hrun]
    exact ⟨hrun, rfl, rfl⟩
  case inProgress =>
    intro r hrun hp
    rw [MapJournal.abandoned_of_inProgress hrun hp]
    exact ⟨rfl, rfl, rfl⟩
  case waiting =>
    intro r hrun hp
    rw [MapJournal.abandoned_of_waiting hrun hp]
    obtain ⟨-, -, -, -, -, -, hnone, -⟩ :=
      MapJournal.setRow_frame { s.journal with compaction := .idle, attempt := 1, run := none } r.bank (some ⟨.stale, none⟩)
    refine ⟨hnone, MapJournal.row_setRow _ _ _, (MapJournal.row_other_setRow _ _ _).trans ?_⟩
    cases r.bank <;> rfl
  case erasing => exact fun r hr herasing => EraseEngine.quiesced_of_erasing hr herasing
  case claim => exact fun r hr herasing hkind => EraseEngine.quiesced_record_of_claim hr herasing hkind
  case noRecord => exact EraseEngine.quiesced_record_of_none
  case wait => exact s.erase.quiesced_frame.1
  case bankWork => exact s.erase.quiesced_frame.2
  case raw =>
    intro ps hraw hrecord
    have hnot : s.erase.rawNotGranted = true := s.erase.rawNotGranted_iff.mpr ⟨⟨ps, hraw⟩, hrecord⟩
    simp [EraseEngine.quiesced, Link.quiesced, hnot]
  case noRaw =>
    intro hraw
    have hnot := EraseEngine.rawNotGranted_of_no_raw hraw
    simp [EraseEngine.quiesced, Link.quiesced, hnot]

/-- Settles O49: entry to RAW is its settings put in force; with PFAIL it goes on to QUIESCE, where nothing is to
withdraw. -/
theorem entryToRawPutsItsSettingsInForce : Obligations.EntryToRawPutsItsSettingsInForce := by
  rintro s t rfl
  refine ⟨fun hpfail => ?_, fun hpfail => ?_⟩
  · exact if_neg (c := s.pins.pfail = true) (by simp [hpfail])
  · have hquiesce : s.enterRaw = _ := if_pos (c := s.pins.pfail = true) hpfail
    refine ⟨hquiesce, fun hcommit => ?_⟩
    rw [hquiesce, State.enterQuiesce_eq, State.commitHoldEnd_of_other]
    · rfl
    · intro c hc
      cases hcommit.symm.trans hc

end Sys2Proof.Machine
end

section
/-! The Sector Map's moves (R8 to R17): the empty episode of the pool, and every move of a sector from class to class as a
permutation of the sectors named, up to a completed REBUILD and a first boot, which name each sector of the data area
once. -/

namespace Sys2Proof.Machine

variable {s : State} {m : SectorMap}

/-! ## The take on an empty pool (R10, R16, R17) -/

/-- The take that begins the empty episode raises POOL_EMPTY and waits. -/
theorem State.take_of_pool_empty (hpool : s.map.pool = []) (hqueue : s.map.queue ≠ [])
    (hraised : s.map.emptyRaised = false) : s.take = (State.withEvent
      { s with map := { s.map with taking := true, emptyRaised := true } }
      { kind := .poolEmpty, value := some s.map.queue.length }, .waits) := by
  have hsome : s.map.queue.isEmpty = false := by simpa using hqueue
  simp only [State.take, hpool, hsome, hraised, Bool.false_eq_true, if_false]
  rfl

/-- Within the episode a take waits and raises nothing. -/
theorem State.take_of_pool_empty_again (hpool : s.map.pool = []) (hqueue : s.map.queue ≠ [])
    (hraised : s.map.emptyRaised = true) : s.take = ({ s with map := { s.map with taking := true } }, .waits) := by
  have hsome : s.map.queue.isEmpty = false := by simpa using hqueue
  simp only [State.take, hpool, hsome, hraised, Bool.false_eq_true, if_false, if_true]
  rfl

/-- With no sector left to come the take is refused and WORN is raised. -/
theorem State.take_of_none_left (hpool : s.map.pool = []) (hqueue : s.map.queue = []) : s.take = (State.withEvent
      { s with map := { s.map with worn := true, taking := false } }
      { kind := .worn, value := some s.map.retired.length }, .refused) := by
  have hrefused : s.take = (s.setWorn, .refused) := by
    simp only [State.take, hpool, hqueue, List.isEmpty_nil, if_true]
  exact hrefused

/-- Settles O44: the take by its cases on an empty pool, the join, and entry to RESET. -/
theorem poolEmptyEpisode : Obligations.PoolEmptyEpisode := by
  refine ⟨fun s hpool hqueue => ⟨State.take_of_pool_empty hpool hqueue, State.take_of_pool_empty_again hpool hqueue⟩,
    fun s => State.take_of_none_left, fun m lowMark ps => ?joins, fun _ _ => rfl⟩
  case joins =>
    cases htaking : m.taking with
    | true => simp [SectorMap.join_of_taking m lowMark ps htaking]
    | false => simp [SectorMap.join_of_not_taking m lowMark ps htaking]

/-! ## Moves as permutations of the sectors named (R8, R10 to R14) -/

/-- How often a sector is named, class by class. -/
theorem SectorMap.named_count (m : SectorMap) (x : Nat) : m.named.count x =
    m.remap.count x + m.target.toList.count x + m.pool.count x + (m.queue.map QueuedSector.ps).count x
      + (m.retired.map RetiredSector.ps).count x := by
  simp [SectorMap.named, Nat.add_assoc]

/-- An entry written over names the new sector for the old one. -/
theorem cons_set_perm {α : Type} {l : List α} {i : Nat} {old : α} (new : α) (h : l[i]? = some old) :
    (old :: l.set i new).Perm (new :: l) := by
  obtain ⟨hi, rfl⟩ := List.getElem?_eq_some_iff.mp h
  have hold : l = l.take i ++ l[i] :: l.drop (i + 1) := by simp
  calc List.Perm (l[i] :: l.set i new) (l[i] :: (l.take i ++ new :: l.drop (i + 1))) :=
        .of_eq (by rw [List.set_eq_take_append_cons_drop, if_pos hi])
    List.Perm _ (l[i] :: new :: (l.take i ++ l.drop (i + 1))) := List.perm_middle.cons _
    List.Perm _ (new :: l[i] :: (l.take i ++ l.drop (i + 1))) := .swap ..
    List.Perm _ (new :: (l.take i ++ l[i] :: l.drop (i + 1))) := List.perm_middle.symm.cons _
    List.Perm _ (new :: l) := .of_eq (by rw [← hold])

/-- A retirement counts its sector once more. -/
theorem insertRetired_count (r : RetiredSector) (l : List RetiredSector) (x : Nat) :
    ((insertRetired r l).map RetiredSector.ps).count x
      = (l.map RetiredSector.ps).count x + if r.ps = x then 1 else 0 := by
  rw [((insertRetired_perm r l).map RetiredSector.ps).count_eq]
  simp [List.count_cons]

/-- A sector taken out of a queue that names it once. -/
theorem queue_without_count {q : QueuedSector} {l : List QueuedSector} (hq : q ∈ l)
    (hnodup : (l.map QueuedSector.ps).Nodup) (x : Nat) :
    ((l.filter fun y => decide (y.ps ≠ q.ps)).map QueuedSector.ps).count x + (if q.ps = x then 1 else 0)
      = (l.map QueuedSector.ps).count x := by
  have herase : (l.filter fun y => decide (y.ps ≠ q.ps)).map QueuedSector.ps = (l.map QueuedSector.ps).erase q.ps := by
    rw [hnodup.erase_eq_filter, List.filter_map]
    congr 2
    funext y
    simp [bne, Bool.beq_eq_decide_eq]
  rw [herase, (List.perm_cons_erase (List.mem_map_of_mem hq)).count_eq x]
  simp [List.count_cons]

/-- A list of sectors changed without changing how often it names each is a permutation. -/
theorem SectorMap.named_perm {m' : SectorMap} (h : ∀ x, m'.named.count x = m.named.count x) : m'.named.Perm m.named :=
  List.perm_iff_count.mpr h

theorem State.take_named (htarget : s.map.target = none) : s.take.1.map.named.Perm s.map.named := by
  have hnone : s.map.target.toList = [] := by simp [htarget]
  cases hpool : s.map.pool with
  | nil =>
    have hsame : s.take.1.map.remap = s.map.remap ∧ s.take.1.map.target = s.map.target ∧ s.take.1.map.pool = s.map.pool
        ∧ s.take.1.map.queue = s.map.queue ∧ s.take.1.map.retired = s.map.retired := by
      simp only [State.take, hpool]
      split
      · exact ⟨rfl, rfl, hpool, rfl, rfl⟩
      · split <;> exact ⟨rfl, rfl, rfl, rfl, rfl⟩
    obtain ⟨hremap, htgt, hpl, hqueue, hretired⟩ := hsame
    simp [SectorMap.named, hremap, htgt, hpl, hqueue, hretired]
  | cons ps rest =>
    have hmoved : s.take.1.map.remap = s.map.remap ∧ s.take.1.map.target = some ps ∧ s.take.1.map.pool = rest
        ∧ s.take.1.map.queue = s.map.queue ∧ s.take.1.map.retired = s.map.retired := by
      simp only [State.take, hpool]
      split <;> exact ⟨rfl, rfl, rfl, rfl, rfl⟩
    obtain ⟨hremap, htgt, hpl, hqueue, hretired⟩ := hmoved
    refine SectorMap.named_perm fun x => ?_
    rw [SectorMap.named_count, SectorMap.named_count, hremap, htgt, hpl, hqueue, hretired, hnone, hpool]
    simp only [Option.toList_some, List.count_cons, List.count_nil]
    omega

theorem State.switchSector_named {ls target old : Nat} (retire : Bool) (hold : s.map.remap[ls]? = some old)
    (htarget : s.map.target = some target) : (s.switchSector ls target old retire).map.named.Perm s.map.named := by
  refine SectorMap.named_perm fun x => ?_
  have hset := (cons_set_perm target hold).count_eq x
  rw [List.count_cons, List.count_cons] at hset
  rw [SectorMap.named_count, SectorMap.named_count, htarget]
  cases retire with
  | true =>
    show (s.map.remap.set ls target).count x + [].count x + s.map.pool.count x + (s.map.queue.map QueuedSector.ps).count x
      + ((insertRetired ⟨old, .program⟩ s.map.retired).map RetiredSector.ps).count x = _
    rw [insertRetired_count]
    simp only [Option.toList_some, List.count_cons, List.count_nil, beq_iff_eq] at hset ⊢
    omega
  | false =>
    show (s.map.remap.set ls target).count x + [].count x + s.map.pool.count x
      + ((s.map.queue ++ [(⟨old, false⟩ : QueuedSector)]).map QueuedSector.ps).count x
      + (s.map.retired.map RetiredSector.ps).count x = _
    simp only [Option.toList_some, List.map_append, List.map_cons, List.map_nil, List.count_append, List.count_cons,
      List.count_nil, beq_iff_eq] at hset ⊢
    omega

theorem SectorMap.released_named (m : SectorMap) : m.released.named.Perm m.named := by
  refine SectorMap.named_perm fun x => ?_
  rw [SectorMap.named_count, SectorMap.named_count]
  cases htarget : m.target with
  | none => simp [SectorMap.released, htarget]
  | some ps =>
    simp only [SectorMap.released, htarget, Option.toList_some, Option.toList_none, List.map_append, List.map_cons,
      List.map_nil, List.count_append, List.count_nil]
    omega

theorem SectorMap.requeueHead_named (m : SectorMap) : m.requeueHead.named.Perm m.named := by
  refine SectorMap.named_perm fun x => ?_
  rw [SectorMap.named_count, SectorMap.named_count]
  cases hqueue : m.queue with
  | nil => simp [SectorMap.requeueHead, hqueue]
  | cons q rest =>
    simp only [SectorMap.requeueHead, hqueue, List.map_append, List.map_cons, List.map_nil, List.count_append,
      List.count_cons, List.count_nil]
    omega

/-- A join names its sector once more, in the pool or as the target of the take that waits. -/
theorem SectorMap.join_count (lowMark ps x : Nat) (hfree : m.taking = false ∨ m.target = none) :
    (m.join lowMark ps).1.named.count x = m.named.count x + if ps = x then 1 else 0 := by
  rw [SectorMap.named_count, SectorMap.named_count]
  cases htaking : m.taking with
  | true =>
    have hnone : m.target = none := hfree.resolve_left (by simp [htaking])
    rw [SectorMap.join_of_taking _ _ _ htaking]
    simp only [hnone, Option.toList_some, Option.toList_none, List.count_cons, List.count_nil, beq_iff_eq]
    omega
  | false =>
    rw [SectorMap.join_of_not_taking _ _ _ htaking]
    simp only [List.count_append, List.count_cons, List.count_nil, beq_iff_eq]
    omega

/-- The map with a sector taken out of its erase queue names it once less. -/
theorem SectorMap.without_count {q : QueuedSector} {out : SectorMap} (hq : q ∈ m.queue)
    (hnodup : (m.queue.map QueuedSector.ps).Nodup)
    (hout : out = { m with queue := m.queue.filter fun x => decide (x.ps ≠ q.ps) }) (x : Nat) :
    out.named.count x + (if q.ps = x then 1 else 0) = m.named.count x := by
  subst hout
  have hqueue := queue_without_count hq hnodup x
  rw [SectorMap.named_count, SectorMap.named_count]
  dsimp only
  omega

/-- A sector out of the erase queue joins the pool, or is the target of the take that waits. -/
theorem SectorMap.join_named {q : QueuedSector} {out : SectorMap} (lowMark : Nat) (hq : q ∈ m.queue)
    (hnodup : (m.queue.map QueuedSector.ps).Nodup)
    (hout : out = { m with queue := m.queue.filter fun x => decide (x.ps ≠ q.ps) })
    (hfree : m.taking = false ∨ m.target = none) : (out.join lowMark q.ps).1.named.Perm m.named := by
  refine SectorMap.named_perm fun x => ?_
  rw [← SectorMap.without_count hq hnodup hout x]
  subst hout
  exact SectorMap.join_count lowMark q.ps x hfree

/-- A retirement names its sector once more. -/
theorem State.retire_count (s : State) (ps : Nat) (cause : RetireCause) (x : Nat) :
    (s.retire ps cause).map.named.count x = s.map.named.count x + if ps = x then 1 else 0 := by
  rw [SectorMap.named_count, SectorMap.named_count]
  show s.map.remap.count x + s.map.target.toList.count x + s.map.pool.count x + (s.map.queue.map QueuedSector.ps).count x
      + ((insertRetired ⟨ps, cause⟩ s.map.retired).map RetiredSector.ps).count x = _
  rw [insertRetired_count]
  dsimp only
  omega

/-- A target is retired. -/
theorem State.retireTarget_named {ps : Nat} (htarget : s.map.target = some ps) :
    (State.retire { s with map := { s.map with target := none } } ps .program).map.named.Perm s.map.named := by
  refine SectorMap.named_perm fun x => ?_
  rw [State.retire_count, SectorMap.named_count, SectorMap.named_count, htarget]
  simp only [Option.toList_some, Option.toList_none, List.count_cons, List.count_nil, beq_iff_eq]
  omega

/-- A sector out of the erase queue is retired. -/
theorem State.retireErased_named {q : QueuedSector} {out : SectorMap} (hq : q ∈ s.map.queue)
    (hnodup : (s.map.queue.map QueuedSector.ps).Nodup)
    (hout : out = { s.map with queue := s.map.queue.filter fun x => decide (x.ps ≠ q.ps) }) :
    (State.retire { s with map := out } q.ps .erase).map.named.Perm s.map.named := by
  refine SectorMap.named_perm fun x => ?_
  rw [State.retire_count, ← SectorMap.without_count hq hnodup hout x]

/-! ## The whole data area (R3, R8, R146 to R148) -/

theorem Settings.mem_dataArea {c : Settings} (htotal : c.totalSectors = c.dataBase + c.dataSectors) (ps : Nat) :
    ps ∈ c.dataArea ↔ inDataArea c ps = true := by
  simp only [Settings.dataArea, inDataArea, List.mem_map, List.mem_range, Bool.and_eq_true, decide_eq_true_eq]
  exact ⟨fun ⟨n, hn, hps⟩ => by omega, fun h => ⟨ps - c.dataBase, by omega, by omega⟩⟩

theorem Settings.dataArea_nodup (c : Settings) : c.dataArea.Nodup :=
  List.nodup_range.map (add_right_injective c.dataBase)

theorem Settings.dataArea_length (c : Settings) : c.dataArea.length = c.dataSectors := by simp [Settings.dataArea]

/-- A map that names the data area names no sector twice, and leaves as many unmapped as there are spares. -/
theorem SectorMap.spares_unmapped {c : Settings} (hlen : m.remap.length = c.windowSectors)
    (hdata : c.dataSectors = c.windowSectors + c.spares) (hperm : m.named.Perm c.dataArea) :
    m.named.Nodup
      ∧ m.target.toList.length + m.pool.length + m.queue.length + m.retired.length = c.spares := by
  refine ⟨hperm.nodup_iff.mpr c.dataArea_nodup, ?_⟩
  have hlength := hperm.length_eq
  simp only [SectorMap.named, List.length_append, List.length_map, c.dataArea_length] at hlength
  omega

/-- What the check of a finished replay asks (R146). -/
theorem Replay.passes_iff (c : Settings) (r : Replay) : r.passes c = true ↔
    r.table.length = c.windowSectors
    ∧ (∀ ps ∈ r.table ++ r.free ++ r.retired.map RetiredSector.ps, inDataArea c ps = true)
    ∧ (r.table ++ r.free ++ r.retired.map RetiredSector.ps).Nodup
    ∧ r.free.length + r.retired.length ≤ c.spares ∧ r.failed = false := by
  simp only [Replay.passes, Bool.and_eq_true, beq_iff_eq, List.all_eq_true, decide_eq_true_eq, Bool.not_eq_true',
    and_assoc]

/-- The stale sectors are those of the data area that a replay names nowhere (R147). -/
theorem Replay.mem_stale (c : Settings) (r : Replay) (htotal : c.totalSectors = c.dataBase + c.dataSectors) (ps : Nat) :
    ps ∈ (r.stale c).map QueuedSector.ps ↔
      ps ∈ c.dataArea ∧ ps ∉ r.table ++ r.free ++ r.retired.map RetiredSector.ps := by
  have hretired : r.isRetired ps = false ↔ ps ∉ r.retired.map RetiredSector.ps := by
    rw [← not_iff_not, Bool.not_eq_false, r.isRetired_iff]
    simp
  simp only [Replay.stale, List.map_map, Function.comp_def, List.map_id', List.mem_filter, List.mem_range,
    Bool.and_eq_true, Bool.not_eq_true', hretired, List.mem_append, not_or, Settings.mem_dataArea htotal, inDataArea,
    decide_eq_true_eq, List.contains_eq_mem, decide_eq_false_iff_not]
  tauto

/-- A replay that passes its check, with the stale sectors, is the data area (R146, R147). -/
theorem Replay.named_perm {c : Settings} {r : Replay} (htotal : c.totalSectors = c.dataBase + c.dataSectors)
    (hpasses : r.passes c = true) :
    ((r.table ++ r.free ++ r.retired.map RetiredSector.ps) ++ (r.stale c).map QueuedSector.ps).Perm c.dataArea := by
  obtain ⟨-, hin, hnodup, -, -⟩ := (Replay.passes_iff c r).mp hpasses
  have hstale : ((r.stale c).map QueuedSector.ps).Nodup := by
    simp only [Replay.stale, List.map_map, Function.comp_def, List.map_id']
    exact List.nodup_range.filter _
  rw [List.perm_ext_iff_of_nodup (hnodup.append hstale ?_) c.dataArea_nodup]
  · intro ps
    rw [List.mem_append, r.mem_stale c htotal]
    refine ⟨fun h => h.elim (fun hps => (Settings.mem_dataArea htotal ps).mpr (hin ps hps)) And.left, fun h => ?_⟩
    exact or_iff_not_imp_left.mpr fun hps => ⟨h, hps⟩
  · intro ps hps hps'
    exact ((r.mem_stale c htotal ps).mp hps').2 hps

/-- REBUILD completed by a bank names each sector of the data area once (R8, R147). -/
theorem State.choose_named (h : s.pins.pfail = false ∨ s.commit = none)
    (htotal : s.settings.totalSectors = s.settings.dataBase + s.settings.dataSectors) (c : Contender)
    (windows : List Window) (l : Listing) (r : Replay) (hpasses : r.finish.passes s.settings = true) :
    (s.choose c windows l r).map.named.Perm s.settings.dataArea
      ∧ (s.choose c windows l r).map.remap.length = s.settings.windowSectors := by
  obtain ⟨hlen, -⟩ := (Replay.passes_iff _ _).mp hpasses
  obtain ⟨hretired, -⟩ := insertRetired_foldl r.retired [] List.Pairwise.nil
  rw [List.append_nil] at hretired
  have hmap := (State.rebuildDone_frame (s := { s with
    map := { SectorMap.empty with
      remap := r.table, pool := r.finish.free, queue := r.finish.stale s.settings
      retired := r.retired.foldl (fun acc x => insertRetired x acc) [] }
    journal := (({ s.journal with
      pointer := pointerAfter s.settings windows l.closing r
      nextSeq := nextSeqAfter s.settings windows l } : MapJournal).setRow c.bank
        (some ⟨.active, some (BitVec.ofNat 32 c.generation)⟩)).setRow c.bank.other (some ⟨.stale, none⟩) }) h).1
  refine ⟨?_, (congrArg (fun m : SectorMap => m.remap.length) hmap).trans hlen⟩
  refine List.Perm.trans ?_ (Replay.named_perm htotal hpasses)
  refine (List.Perm.of_eq (congrArg SectorMap.named hmap)).trans (List.perm_iff_count.mpr fun x => ?_)
  have hcount := (hretired.map RetiredSector.ps).count_eq x
  simp only [SectorMap.named_count, SectorMap.empty, Option.toList_none, List.count_nil, List.count_append, hcount,
    Replay.finish]
  omega

/-- A first boot maps the data area by the identity and queues its spares (R6, R148). -/
theorem State.firstBootDone_named (h : s.pins.pfail = false ∨ s.commit = none)
    (hdata : s.settings.dataSectors = s.settings.windowSectors + s.settings.spares) (r : BankRun) :
    (s.firstBootDone r).map.named.Perm s.settings.dataArea
      ∧ (s.firstBootDone r).map.remap.length = s.settings.windowSectors := by
  have hmap := (State.rebuildDone_frame (s := { s with
    map := { SectorMap.empty with remap := identityTable s.settings, queue := identityQueue s.settings }
    journal := { s.journal with
      bankA := some ⟨.active, some 1⟩
      bankB := some ⟨.stale, none⟩
      pointer := closingSlot s.settings r.copy + 1
      run := none } }) h).1
  refine ⟨(List.Perm.of_eq (congrArg SectorMap.named hmap)).trans (.of_eq ?_),
    (congrArg (fun m : SectorMap => m.remap.length) hmap).trans (by simp [identityTable])⟩
  simp [SectorMap.named, SectorMap.empty, identityTable, identityQueue, Settings.dataArea, hdata, List.range_add,
    Nat.add_assoc]

/-! ## The moves as states (R13, R14) -/

theorem State.retire_eq (s : State) (ps : Nat) (cause : RetireCause) : s.retire ps cause = State.withEvent
    { s with map := { s.map with retired := insertRetired ⟨ps, cause⟩ s.map.retired } }
    { kind := .sectorRetired, location := some (.ps ps),
      code := some (if cause = .program then DetailCode.program else .erase) } := by
  cases cause <;> rfl

/-- The retired set stays in strictly ascending order where its new member is not among it (R13). -/
theorem insertRetired_ascending {r : RetiredSector} {l : List RetiredSector}
    (hsorted : (l.map RetiredSector.ps).Pairwise (· < ·)) (hnew : ∀ x ∈ l, x.ps ≠ r.ps) :
    ((insertRetired r l).map RetiredSector.ps).Pairwise (· < ·) := by
  have hle : ((insertRetired r l).map RetiredSector.ps).Pairwise (· ≤ ·) :=
    List.pairwise_map.mpr (insertRetired_sorted r l ((List.pairwise_map.mp hsorted).imp Nat.le_of_lt))
  have hnodup : ((insertRetired r l).map RetiredSector.ps).Nodup := by
    rw [((insertRetired_perm r l).map RetiredSector.ps).nodup_iff, List.map_cons, List.nodup_cons]
    exact ⟨by simpa using hnew, hsorted.imp Nat.ne_of_lt⟩
  exact (hle.and hnodup).imp fun h => Nat.lt_of_le_of_ne h.1 h.2

/-- Settles O45: each move as its state, and as a permutation of the sectors named. -/
theorem sectorsMoveBetweenClasses : Obligations.SectorsMoveBetweenClasses := by
  refine ⟨fun _ _ _ _ => rfl, fun _ _ _ _ => rfl, State.releaseTarget_eq, State.retire_eq,
    fun r l => ⟨insertRetired_perm r l, insertRetired_ascending⟩, fun s => ?moves,
    fun _ _ => SectorMap.spares_unmapped, fun s h htotal => ?whole⟩
  case moves =>
    refine ⟨State.take_named, fun _ _ _ retire => State.switchSector_named retire, ?_, s.map.requeueHead_named,
      fun _ => State.retireTarget_named, fun q out hq hnodup hout => ?_⟩
    · rw [s.releaseTarget_eq]
      exact s.map.released_named
    · exact ⟨SectorMap.join_named _ hq hnodup hout, State.retireErased_named hq hnodup hout⟩
  case whole =>
    exact ⟨State.choose_named h htotal, fun r hdata => State.firstBootDone_named h hdata r⟩

end Sys2Proof.Machine
end

section
/-! The ends of a commit: what its report does to the buffer and the wait sets (R66, R67, R71), the end FAILED (R104), and
the quiesce deadline expiry, which abandons the buffer and ends a commit that waits (R73, R108, R157). -/

namespace Sys2Proof.Machine

variable {s : State}

/-! ## The failed-commit note (R67) -/

/-- An entry as a completion notes it: a COMMITTING one bears the note at FAILED. -/
def Entry.noted (result : CommitResult) (e : Entry) : Entry :=
  if !e.isOpen && result == .failed then { e with failNote := true } else e

theorem Entry.isOpen_iff (e : Entry) : e.isOpen = true ↔ e.state = .opened := by
  unfold Entry.isOpen
  split <;> simp [*]

theorem Entry.isOpen_eq (e : Entry) : e.isOpen = decide (e.state = .opened) := by
  rw [Bool.eq_iff_iff, e.isOpen_iff, decide_eq_true_iff]

/-- The note is all that it changes. -/
theorem Entry.noted_frame (result : CommitResult) (e : Entry) :
    (e.noted result).key = e.key ∧ (e.noted result).dirty = e.dirty ∧ (e.noted result).isOpen = e.isOpen
      ∧ (e.noted result).reopen = e.reopen := by
  unfold Entry.noted
  split <;> exact ⟨rfl, rfl, rfl, rfl⟩

theorem Entry.noted_of_isOpen (result : CommitResult) {e : Entry} (h : e.isOpen = true) : e.noted result = e := by
  simp [Entry.noted, h]

/-- The note stands after the completion of a COMMITTING entry exactly at FAILED. -/
theorem Entry.noted_failNote (result : CommitResult) {e : Entry} (h : e.failNote = false) :
    (e.noted result).failNote = (!e.isOpen && decide (result = .failed)) := by
  unfold Entry.noted
  split
  next hnotes => simpa using hnotes
  next hnotes => rw [h]; simpa using hnotes

/-- An entry without the note that is reopened changes its state alone. -/
theorem Entry.reopen_of_clear {e : Entry} (h : e.failNote = false) : e.reopen = { e with state := .opened } := by
  unfold Entry.reopen
  rw [← h]

theorem Wcb.committing_noteFailure (w : Wcb) (result : CommitResult) :
    (w.noteFailure result).committing = w.committing.map (Entry.noted result) := by
  show (w.entries.map (Entry.noted result)).filter _ = _
  rw [List.filter_map]
  refine congrArg _ (List.filter_congr fun e _ => ?_)
  obtain ⟨-, -, hopen, -⟩ := e.noted_frame result
  simp [hopen]

theorem Wcb.opened_noteFailure (w : Wcb) (result : CommitResult) :
    (w.noteFailure result).entries.filter Entry.isOpen = w.entries.filter Entry.isOpen := by
  show (w.entries.map (Entry.noted result)).filter _ = _
  rw [List.filter_map]
  have hsame : w.entries.filter (Entry.isOpen ∘ Entry.noted result) = w.entries.filter Entry.isOpen := by
    refine List.filter_congr fun e _ => ?_
    obtain ⟨-, -, hopen, -⟩ := e.noted_frame result
    exact hopen
  rw [hsame]
  refine (List.map_congr_left fun e he => ?_).trans (List.map_id _)
  exact Entry.noted_of_isOpen result (List.mem_filter.mp he).2

/-- The lines lost: at FAILED every COMMITTING entry, where no note stood before (R67). -/
theorem Wcb.noted_noteFailure (w : Wcb) (result : CommitResult) (h : ∀ e ∈ w.entries, e.failNote = false) :
    (w.noteFailure result).noted = if result = .failed then w.committing.length else 0 := by
  show ((w.entries.map (Entry.noted result)).filter _).length = _
  rw [List.filter_map, List.length_map]
  have hnotes : w.entries.filter ((fun e => e.failNote) ∘ Entry.noted result)
      = w.entries.filter fun e => !e.isOpen && decide (result = .failed) :=
    List.filter_congr fun e he => Entry.noted_failNote result (h e he)
  rw [hnotes]
  cases result <;> simp [Wcb.committing]

/-! ## The wait sets (R69, R71) -/

theorem WaitMember.complete_eq (m : WaitMember) (keys : List Key) (result : CommitResult) : m.complete keys result =
    if m.key ∈ keys ∧ 0 < m.count then
      { m with count := m.count - 1, result := if m.result = .ok then result else m.result }
    else m := by
  simp [WaitMember.complete]

theorem WaitSet.isComplete_eq (ws : WaitSet) : ws.isComplete = ws.members.all fun m => decide (m.count = 0) := rfl

theorem WaitSet.not_isComplete_eq (ws : WaitSet) :
    (!ws.isComplete) = ws.members.any fun m => decide (m.count ≠ 0) := by
  rw [ws.isComplete_eq, List.not_all_eq_any_not]
  simp

/-- The status of a wait set by its members' results, NEEDS_ERASE for a BARRIER too being FAILED (R71). -/
theorem WaitSet.status_eq (ws : WaitSet) : ws.status =
    match ws.members.find? fun m => decide (m.result ≠ .ok) with
    | none => .ok
    | some m => if ws.isBarrier = true then .failed else if m.result = .needsErase then .needsErase else .failed := by
  have hfind : (ws.members.find? fun m => m.result != .ok) = ws.members.find? fun m => decide (m.result ≠ .ok) := by
    congr 1
    funext m
    simp [bne, Bool.beq_eq_decide_eq]
  unfold WaitSet.status
  rw [hfind]
  cases ws.members.find? fun m => decide (m.result ≠ .ok) <;> simp

/-! ## The report (R66, R67) -/

theorem Wcb.committing_eq (w : Wcb) : w.committing = w.entries.filter fun e => decide (e.state ≠ .opened) := by
  refine List.filter_congr fun e _ => ?_
  rw [e.isOpen_eq, ← decide_not]

/-- The keys that a completion counts are those of the COMMITTING entries, noted or not. -/
theorem Wcb.committing_keys_noteFailure (w : Wcb) (result : CommitResult) :
    (w.noteFailure result).committing.map Entry.key = w.committing.map Entry.key := by
  rw [w.committing_noteFailure, List.map_map]
  refine List.map_congr_left fun e _ => ?_
  obtain ⟨hkey, -⟩ := e.noted_frame result
  exact hkey

/-- The COMMITTING entries with dirty bytes, as a completion reopens them. -/
theorem Wcb.reopened_noteFailure (w : Wcb) (result : CommitResult) (h : ∀ e ∈ w.entries, e.failNote = false) :
    (((w.noteFailure result).committing.filter fun e => e.dirty != 0).map Entry.reopen)
      = (w.committing.filter fun e => decide (e.dirty ≠ 0)).map fun e => { e with state := .opened } := by
  have hdirty : w.committing.filter ((fun e => e.dirty != 0) ∘ Entry.noted result)
      = w.committing.filter fun e => decide (e.dirty ≠ 0) := by
    refine List.filter_congr fun e _ => ?_
    obtain ⟨-, hdirty, -⟩ := e.noted_frame result
    simp [hdirty, bne, Bool.beq_eq_decide_eq]
  rw [w.committing_noteFailure, List.filter_map, hdirty, List.map_map]
  refine List.map_congr_left fun e he => ?_
  obtain ⟨-, -, -, hreopen⟩ := e.noted_frame result
  have hmem : e ∈ w.entries := List.mem_of_mem_filter (List.mem_of_mem_filter he)
  exact hreopen.trans (Entry.reopen_of_clear (h e hmem))

/-- The wait sets with each member's completion counted. -/
def Wcb.counted (w : Wcb) (result : CommitResult) : List WaitSet :=
  w.waits.map fun ws => { ws with members := ws.members.map fun m => m.complete (w.committing.map Entry.key) result }

/-- The buffer after a report, where no failed-commit note stood. -/
theorem Wcb.complete_noteFailure (w : Wcb) (highMark : Nat) (result : CommitResult)
    (h : ∀ e ∈ w.entries, e.failNote = false) {kept : List Entry}
    (hkept : kept = w.entries.filter Entry.isOpen
      ++ (w.committing.filter fun e => decide (e.dirty ≠ 0)).map fun e => { e with state := .opened }) :
    (w.noteFailure result).complete highMark result = { w with
      entries := kept
      waits := (w.counted result).filter fun ws => !ws.isComplete
      hold := w.hold && decide (highMark < kept.length + 2)
      lingerRunning := w.lingerRunning && !kept.isEmpty
      lingerFlag := w.lingerFlag && !kept.isEmpty } := by
  subst hkept
  unfold Wcb.complete Wcb.settle
  simp only [w.committing_keys_noteFailure, w.opened_noteFailure, w.reopened_noteFailure result h, Wcb.occupancy]
  rfl

theorem Wcb.completionAnswers_noteFailure (w : Wcb) (result : CommitResult) :
    (w.noteFailure result).completionAnswers result
      = ((w.counted result).filter WaitSet.isComplete).map fun ws => ⟨ws.id, ws.status, []⟩ := by
  unfold Wcb.completionAnswers
  simp only [w.committing_keys_noteFailure]
  rfl

/-- A report that finds COMMITTING entries, where no failed-commit note stood (R66, R67, R71). -/
theorem State.completeCommit_of_committing (result : CommitResult) (h : ∀ e ∈ s.wcb.entries, e.failNote = false)
    (hsome : s.wcb.committing ≠ []) : s.completeCommit result =
      ((s.setWcb ((s.wcb.noteFailure result).complete s.settings.highMark result)).answerTogether
        (((s.wcb.counted result).filter WaitSet.isComplete).map fun ws => ⟨ws.id, ws.status, []⟩),
        if result = .failed then s.wcb.committing.length else 0) := by
  have hsome' : ¬ s.wcb.committing.isEmpty = true := by simpa using hsome
  unfold State.completeCommit
  rw [if_neg hsome', ← s.wcb.completionAnswers_noteFailure, ← s.wcb.noted_noteFailure result h]

/-- A report that finds no COMMITTING entry changes nothing (R66). -/
theorem State.completeCommit_of_none (result : CommitResult) (h : s.wcb.committing = []) :
    s.completeCommit result = (s, 0) := if_pos (by simp [h])

/-- Settles O27: the report by its entries and wait sets, and the end FAILED as what it gives up and reports. -/
theorem commitReportFreesOrReopensEntries : Obligations.CommitReportFreesOrReopensEntries := by
  refine ⟨?report, ?nothing, fun s c => ⟨fun hexpired => ?_, fun hexpired => ?_⟩⟩
  case report =>
    rintro s result hclear committing rfl hsome kept hkept counted hcounted
    rw [← s.wcb.committing_eq] at hsome hkept hcounted ⊢
    have hopened : s.wcb.entries.filter (fun e => decide (e.state = .opened)) = s.wcb.entries.filter Entry.isOpen :=
      List.filter_congr fun e _ => e.isOpen_eq.symm
    have hcounted' : counted = s.wcb.counted result := by
      rw [hcounted, Wcb.counted]
      simp only [WaitMember.complete_eq]
    rw [hopened] at hkept
    rw [State.completeCommit_of_committing result hclear hsome, Wcb.complete_noteFailure _ _ _ hclear hkept, ← hcounted']
    simp only [WaitSet.not_isComplete_eq, WaitSet.status_eq]
    rfl
  case nothing =>
    intro s result hopened
    refine State.completeCommit_of_none result (List.filter_eq_nil_iff.mpr fun e he => ?_)
    simp [e.isOpen_iff.mpr (hopened e he)]
  · rw [s.commitFailed_eq, if_pos hexpired]
  · rw [s.commitFailed_eq, if_neg (by simp [hexpired])]

/-! ## Answers leave all but the port (R42) -/

/-- Answers in order change the port alone. -/
theorem State.answerInOrder_eq (s : State) (answers : List Response) : s.answerInOrder answers =
    s.setPort (answers.foldl (fun p r => p.answer r.id r.status r.data) s.port) := by
  unfold State.answerInOrder
  induction answers generalizing s with
  | nil => rfl
  | cons r rest ih => exact ih (s.answer r.id r.status r.data)

/-- Answers together change the port and the count of free choices alone. -/
theorem State.answerTogether_frame (s : State) (answers : List Response) :
    ∃ p, s.answerTogether answers = (s.setPort p).setFree (s.free + answers.length) := by
  unfold State.answerTogether
  rw [s.answerInOrder_eq]
  exact ⟨_, rfl⟩

/-! ## The switch and what is given up with it (R101, R102, R108) -/

theorem MapJournal.begun_iff (j : MapJournal) (c : Claimant) :
    j.begun c = true ↔ ∃ q ∈ j.queue, q.claimant = c ∧ q.begun = true := by
  simp [MapJournal.begun]

theorem MapJournal.begun_eq_false {j : MapJournal} {c : Claimant}
    (h : ∀ q ∈ j.queue, q.claimant = c → q.begun = false) : j.begun c = false := by
  rw [Bool.eq_false_iff, ne_eq, j.begun_iff]
  rintro ⟨q, hq, hclaimant, hbegun⟩
  cases (h q hq hclaimant).symm.trans hbegun

theorem State.withdraw_commit (s : State) : s.withdraw .commit = { s with journal := { s.journal with
    queue := (s.journal.queue.filter fun q => decide (q.begun = true ∨ q.claimant ≠ .commit)) } } := by
  have htest : ∀ q : QueueItem, (q.begun || q.claimant != .commit) = decide (q.begun = true ∨ q.claimant ≠ .commit) := by
    intro q
    rw [Bool.eq_iff_iff]
    simp
  simp only [State.withdraw, htest]
  rfl

/-- SWITCH and DONE: the map switched, the lines invalidated, OK reported (R102, R103). -/
theorem State.commitSwitch_eq {c : CommitRecord} {target : Nat} (retire : Bool) (htarget : c.target = some target) :
    s.commitSwitch c retire = { (State.completeCommit { s.switchSector c.sector target c.oldPs retire with
      reads := s.reads.withoutLines c.sector c.lines } .ok).1 with commit := none } := by
  have hreads : (s.switchSector c.sector target c.oldPs retire).reads = s.reads := by
    cases retire <;> rfl
  simp only [State.commitSwitch, State.commitDone, htarget, Option.getD_some, ReadUnit.invalidateLines_eq, hreads]
  rfl

/-! ## The expiry and the commit in progress (R108) -/

theorem State.commitExpire_of_none (hcommit : s.commit = none) : s.commitExpire = s := by
  simp only [State.commitExpire, hcommit]

section commit
variable {c : CommitRecord} (hcommit : s.commit = some c)
include hcommit

/-- What is granted, and a record whose program has begun, is let end. -/
theorem State.commitExpire_of_begun (h : c.granted = true ∨ s.journal.begun .commit = true) : s.commitExpire = s := by
  simp only [State.commitExpire, hcommit]
  exact if_pos (by simpa using h)

/-- A commit that waits ends FAILED, the one between MAP and RETIRE(old PS) apart. -/
theorem State.commitExpire_of_waiting (hgranted : c.granted = false) (hbegun : s.journal.begun .commit = false)
    (hwork : c.work ≠ .appendRetireOld) : s.commitExpire = s.commitFailed c := by
  simp only [State.commitExpire, hcommit, hgranted, hbegun, Bool.or_false, Bool.false_eq_true, if_false]

/-- Between MAP and RETIRE(old PS) the switch is made with disposition QUEUE. -/
theorem State.commitExpire_of_retireOld (hgranted : c.granted = false) (hbegun : s.journal.begun .commit = false)
    (hwork : c.work = .appendRetireOld) : s.commitExpire = (s.withdraw .commit).commitSwitch c false := by
  simp only [State.commitExpire, hcommit, hgranted, hbegun, hwork, Bool.or_false, Bool.false_eq_true, if_false]

end commit

/-! ## The deadline expiry (R73, R157) -/

theorem State.deadlineRuns_iff (s : State) :
    s.deadlineRuns = true ↔ s.bridge.state = .quiesce ∧ s.bridge.deadline ≠ .stopped := by
  simp [State.deadlineRuns]

/-- The bridge with the buffer abandoned at the expiry. -/
def State.abandoned (s : State) : State :=
  State.answerTogether
    { s with
      bridge := { s.bridge with expired := true, deadline := .stopped }
      wcb := ⟨[], false, s.wcb.grace, false, false, []⟩ }
    (s.wcb.waits.map fun w => ⟨w.id, .failed, []⟩)

/-- The abandoned bridge is the one before with another port, an empty buffer and the timer stopped. -/
theorem State.abandoned_frame (s : State) : ∃ (p : Port) (n : Nat), s.abandoned = { s with
    bridge := { s.bridge with expired := true, deadline := .stopped }
    wcb := ⟨[], false, s.wcb.grace, false, false, []⟩
    port := p, free := n } := by
  obtain ⟨p, hp⟩ := State.answerTogether_frame _ _
  exact ⟨p, _, hp⟩

theorem exec_quiesceDeadlineExpiry_of_running (hstate : s.bridge.state = .quiesce)
    (hdeadline : s.bridge.deadline ≠ .stopped) {cause : Cause} (hcause : s.bridge.cause = some cause) :
    exec .quiesceDeadlineExpiry s = .next (s.abandoned.commitExpire.withEvent
      { kind := .quiesceExpired, code := some (if cause = .power then DetailCode.power else .orderly),
        value := some s.wcb.entries.length }).noteResumes := by
  have hcode : s.bridge.cause.map Cause.code = some (if cause = .power then DetailCode.power else .orderly) := by
    rw [hcause]
    cases cause <;> rfl
  rw [← hcode]
  exact congrArg State.noted (if_pos (s.deadlineRuns_iff.mpr ⟨hstate, hdeadline⟩))

theorem exec_quiesceDeadlineExpiry_of_stopped (h : s.bridge.state ≠ .quiesce ∨ s.bridge.deadline = .stopped) :
    exec .quiesceDeadlineExpiry s = .next s.noteResumes := by
  refine congrArg State.noted (if_neg fun hruns => ?_)
  obtain ⟨hstate, hdeadline⟩ := s.deadlineRuns_iff.mp hruns
  exact h.elim (· hstate) hdeadline

/-- Settles O12: the expiry is the buffer abandoned and the commit ended by its stage. -/
theorem deadlineExpiryAbandonsTheBuffer : Obligations.DeadlineExpiryAbandonsTheBuffer := by
  refine ⟨?_, fun s => exec_quiesceDeadlineExpiry_of_stopped⟩
  intro s hstate hdeadline cause hcause t ht expired hexpired
  obtain rfl : t = s.abandoned := ht
  subst hexpired
  rw [exec_quiesceDeadlineExpiry_of_running hstate hdeadline hcause]
  obtain ⟨p, n, habandoned⟩ := s.abandoned_frame
  have hjournal : s.abandoned.journal = s.journal := by rw [habandoned]
  have hempty : s.abandoned.wcb.committing = [] := by rw [habandoned]; rfl
  have hsame : s.abandoned.commit = s.commit := by rw [habandoned]
  refine ⟨fun hcommit => by rw [State.commitExpire_of_none (hsame.trans hcommit)], fun c hcommit => ?_⟩
  have hcommit' := hsame.trans hcommit
  refine ⟨fun hbegun => ?_, fun hgranted hbegun => ?_⟩
  · rw [State.commitExpire_of_begun hcommit' (hbegun.imp_right fun h => ?_)]
    rw [hjournal]
    exact (s.journal.begun_iff .commit).mpr h
  · have hnone : s.abandoned.journal.begun .commit = false := by
      rw [hjournal]
      exact MapJournal.begun_eq_false hbegun
    refine ⟨fun hwork => ?_, fun target hwork htarget => ?_⟩
    · have hexpired : s.abandoned.bridge.expired = true := by rw [habandoned]
      have hgiven : s.abandoned.givenUp.completeCommit .failed = (s.abandoned.givenUp, 0) :=
        State.completeCommit_of_none .failed hempty
      rw [State.commitExpire_of_waiting hcommit' hgranted hnone hwork, State.commitFailed_eq, if_pos hexpired, hgiven]
    · rw [State.commitExpire_of_retireOld hcommit' hgranted hnone hwork, State.commitSwitch_eq false htarget,
        State.completeCommit_of_none]
      · rw [State.withdraw_commit, habandoned]
        rfl
      · exact hempty

/-! ## FENCED (R123, R140) -/

/-- Under FENCED only an erase under way and RAW's are kept. -/
theorem State.keepsClaim_of_fenced (h : s.journal.fenced = true) (r : EraseRecord) :
    s.keepsClaim r = true ↔ r.erasing = true ∨ r.kind = .raw := by
  obtain ⟨kind, ps, erasing⟩ := r
  cases kind <;> simp [State.keepsClaim, State.dataEraseHeld, State.bankEraseHeld, h]

theorem State.withdrawHeldClaims_of_fenced (h : s.journal.fenced = true) : s.withdrawHeldClaims =
    s.setErase { s.erase with record := s.erase.record.filter fun r => decide (r.erasing = true ∨ r.kind = .raw) } := by
  have hkeeps : s.keepsClaim = fun r => decide (r.erasing = true ∨ r.kind = .raw) := by
    funext r
    rw [Bool.eq_iff_iff, State.keepsClaim_of_fenced h, decide_eq_true_iff]
  rw [s.withdrawHeldClaims_eq, hkeeps]

section commit
variable {c : CommitRecord} (hcommit : s.commit = some c)
include hcommit

theorem State.commitFenced_of_begun (h : s.journal.begun .commit = true) : s.commitFenced = s := by
  simp only [State.commitFenced, hcommit, h, if_true]

theorem State.commitFenced_of_not_begun (h : s.journal.begun .commit = false) : s.commitFenced =
    match c.work with
    | .allocHeld | .takeWaits | .appendMap | .appendRetireTarget => s.commitFailed c
    | .appendRetireOld => s.commitSwitch c false
    | .probeRead _ _ _ | .programSpan _ _ | .copyWindow _ | .copyLine _ _ _ _ | .copyProgram _ _ => s := by
  simp only [State.commitFenced, hcommit, h, Bool.false_eq_true, if_false]
  cases c.work <;> rfl

end commit

/-- Settles O42: FENCED by its steps, and what the commit does by its stage. -/
theorem fencedStopsTheJournal : Obligations.FencedStopsTheJournal := by
  refine ⟨fun s code => ⟨fun hfenced => if_pos hfenced, fun hfenced => ?set⟩, ?idle, ?commit⟩
  case set =>
    rintro j rfl told rfl
    constructor
    · intro hrun
      simp only [State.setFenced, hfenced, hrun, Bool.false_eq_true, if_false]
      rw [State.withdrawHeldClaims_of_fenced rfl]
      rfl
    · intro r hrun
      simp only [State.setFenced, hfenced, hrun, Bool.false_eq_true, if_false]
      rw [State.withdrawHeldClaims_of_fenced]
      · rfl
      · cases hbank : r.bank <;> rfl
  case idle => exact fun s hcommit => by simp only [State.commitFenced, hcommit]
  case commit =>
    intro s c hcommit
    refine ⟨fun hbegun => State.commitFenced_of_begun hcommit ((s.journal.begun_iff .commit).mpr hbegun), fun hnone => ?_⟩
    rw [State.commitFenced_of_not_begun hcommit (MapJournal.begun_eq_false hnone)]
    obtain ⟨sector, lines, oldPs, policy, target, attempts, convert, keepAttempts, work, granted⟩ := c
    refine ⟨?_, ?_, ?_⟩
    · rintro (h | h | h | h) <;> rw [h]
    · intro h
      rw [h]
    · intro h
      cases work <;> simp_all [CommitRecord.stage]

end Sys2Proof.Machine
end

section
/-! The offer of a sector (R62 to R65), the record made of it and its first stage (R93, R94). -/

namespace Sys2Proof.Machine

variable {s : State}

/-! ## Whether an offer is made (R62, R64) -/

/-- With an entry held, drain mode is one of the causes of R62. -/
theorem State.drainMode_of_cause (hheld : s.wcb.entries ≠ [])
    (hcause : s.wcb.waits ≠ [] ∨ s.settings.drainMark ≤ s.wcb.entries.length ∨ s.wcb.lingerFlag = true
      ∨ s.settings.linger = 0 ∨ s.bridge.state = .quiesce) : s.drainMode = true := by
  rcases hcause with h | h | h | h | h <;> simp [State.drainMode, Wcb.occupancy, h, hheld]

/-- The entry offered is the oldest OPEN one of a sector not pinned. -/
theorem Wcb.offer_eq_some {w : Wcb} {r : ReadUnit} {older younger : List Entry} {e : Entry}
    (hentries : w.entries = older ++ e :: younger) (hopen : e.state = .opened) (hpin : r.pinned e.key.sector = false)
    (holder : ∀ x ∈ older, x.state ≠ .opened ∨ r.pinned x.key.sector = true) : w.offer r = some e.key.sector := by
  have hskip : older.find? (fun x => x.isOpen && !r.pinned x.key.sector) = none := by
    rw [List.find?_eq_none]
    intro x hx
    rcases holder x hx with h | h <;> simp [Entry.isOpen_eq, h]
  have htake : (e.isOpen && !r.pinned e.key.sector) = true := by simp [Entry.isOpen_eq, hopen, hpin]
  simp only [Wcb.offer, hentries, List.find?_append, hskip, Option.none_or]
  rw [List.find?_cons, htake]
  rfl

/-- Nothing is offered where no OPEN entry lies in a sector not pinned. -/
theorem Wcb.offer_eq_none {w : Wcb} {r : ReadUnit}
    (h : ∀ x ∈ w.entries, x.state ≠ .opened ∨ r.pinned x.key.sector = true) : w.offer r = none := by
  rw [Wcb.offer, Option.map_eq_none_iff, List.find?_eq_none]
  intro x hx
  rcases h x hx with h | h <;> simp [Entry.isOpen_eq, h]

/-- Where the bridge, the engine and drain mode allow an offer, it is the buffer's. -/
theorem State.offer_of_draining (hstate : s.bridge.state = .service ∨ s.bridge.state = .raw ∨ s.bridge.state = .quiesce)
    (hidle : s.commit = none) (hdrain : s.drainMode = true) : s.offer = s.wcb.offer s.reads := by
  rcases hstate with h | h | h <;> simp [State.offer, h, hidle, hdrain]

theorem State.offer_eq_none (h : s.commit ≠ none ∨ s.drainMode = false
    ∨ ∀ x ∈ s.wcb.entries, x.state ≠ .opened ∨ s.reads.pinned x.key.sector = true) : s.offer = none := by
  rcases h with h | h | h
  · simp [State.offer, h]
  · simp [State.offer, h]
  · rw [State.offer, Wcb.offer_eq_none h, ite_self]

theorem exec_commitOffer_of_offer {sector : Nat} (h : s.offer = some sector) :
    exec .commitOffer s = .next (s.takeOffer sector).noteResumes := by
  show State.noted s.commitOffer = _
  simp only [State.commitOffer, h]
  rfl

theorem exec_commitOffer_of_none (h : s.offer = none) : exec .commitOffer s = .next s.noteResumes := by
  show State.noted s.commitOffer = _
  simp only [State.commitOffer, h]
  rfl

/-! ## The capture and the record (R65, R93) -/

theorem Wcb.capture_eq (w : Wcb) (sector : Nat) : w.capture sector = { w with
    entries := w.entries.map fun x =>
      if x.key.sector = sector ∧ x.state = .opened then { x with dirty := 0, state := .committing x.data x.dirty }
      else x } := by
  have hentry : ∀ x : Entry, (if x.key.sector == sector && x.isOpen then x.capture else x)
      = if x.key.sector = sector ∧ x.state = .opened then { x with dirty := 0, state := .committing x.data x.dirty }
        else x := by
    intro x
    simp [Entry.isOpen_eq, Entry.capture]
  simp only [Wcb.capture, hentry]

theorem State.newRecord_lines (s : State) (sector : Nat) : (s.newRecord sector).lines = (List.range 64).filter fun i =>
    s.wcb.entries.any fun x => x.key = ⟨sector, i⟩ ∧ x.state ≠ .opened := by
  simp [State.newRecord, Entry.isOpen_eq, Bool.beq_eq_decide_eq]

/-- The policy of the regions that hold a sector, where they agree and one of them does or the policy is the default. -/
theorem State.policyOf_of_regions {sector : Nat} {p : Policy} (hraw : s.settings.raw = false)
    (hsome : (∃ r ∈ s.settings.regions, r.holds sector) ∨ p = .inPlaceAllowed)
    (hall : ∀ r ∈ s.settings.regions, r.holds sector → r.policy = p) : s.policyOf sector = some p := by
  simp only [State.policyOf, hraw, Bool.false_eq_true, if_false]
  split
  next hfind =>
    obtain ⟨r, hr, hrholds⟩ | hdefault := hsome
    · exact absurd hrholds (by simpa [Region.holds] using List.find?_eq_none.mp hfind r hr)
    · rw [hdefault]
  next r hfind =>
    have hrholds : r.holds sector := by simpa [Region.holds] using List.find?_some hfind
    exact congrArg some (hall r (List.mem_of_find?_eq_some hfind) hrholds)

theorem State.policyOf_of_raw (sector : Nat) (hraw : s.settings.raw = true) : s.policyOf sector = none := if_pos hraw

/-! ## The first stage (R93, R94) -/

theorem State.commitStart_of_relocate {c : CommitRecord} (h : c.policy = some .alwaysRelocate) :
    s.commitStart c = s.commitAllocate c := if_pos (by simp [h])

theorem State.commitStart_of_probe {c : CommitRecord} (h : c.policy ≠ some .alwaysRelocate) :
    s.commitStart c = s.probeFrom c c.lines false := if_neg (by simpa using h)

/-- The end of the probe with nothing to set is the first window's program. -/
theorem State.probeEnd_of_clear {c : CommitRecord} {w : Nat} {rest : List Nat} (h : c.windows = w :: rest) :
    s.probeEnd c false = s.setCommit (some (c.at (.programSpan w rest))) := by
  simp [State.probeEnd, h, State.programFrom]

theorem State.probeEnd_of_raw (c : CommitRecord) (hraw : s.settings.raw = true) :
    s.probeEnd c true = { (s.completeCommit .needsErase).1 with commit := none } := by
  simp only [State.probeEnd, if_true, hraw]
  rfl

theorem State.probeEnd_of_service (c : CommitRecord) (hraw : s.settings.raw = false) :
    s.probeEnd c true = s.commitAllocate c := by
  simp [State.probeEnd, hraw]

theorem CommitRecord.at_at (c : CommitRecord) (v w : Work) : (c.at v).at w = c.at w := rfl

theorem CommitRecord.at_self {c : CommitRecord} {w : Work} (hwork : c.work = w) (hgranted : c.granted = false) :
    c.at w = c := by
  rw [CommitRecord.at, ← hwork, ← hgranted]

/-- A record with the fields of a new one is the new one, up to its work and grant. -/
theorem State.newRecord_eq {c : CommitRecord} {sector : Nat} (hsector : c.sector = sector)
    (hlines : c.lines = (List.range 64).filter fun i =>
      s.wcb.entries.any fun x => x.key = ⟨sector, i⟩ ∧ x.state ≠ .opened)
    (holdPs : c.oldPs = s.resolve sector) (htarget : c.target = none) (hattempts : c.attempts = 0)
    (hconvert : c.convert = false) (hkeep : c.keepAttempts = false) (hpolicy : s.policyOf sector = c.policy) :
    s.newRecord sector = c.at .allocHeld := by
  have hnew := s.newRecord_lines sector
  rw [← hlines] at hnew
  simp only [State.newRecord, CommitRecord.at] at hnew ⊢
  simp only [hnew, hsector, holdPs, htarget, hattempts, hconvert, hkeep, hpolicy]

/-- Settles O26: the offer, the record and first stage it makes, ALLOCATE by its cases, the end of a hold. -/
theorem commitOfferCapturesTheSector : Obligations.CommitOfferCapturesTheSector := by
  refine ⟨?offer, fun s h => exec_commitOffer_of_none (State.offer_eq_none h), fun s c => ⟨s.commitAllocate_of_fenced c,
    fun hfenced hheld => s.commitAllocate_of_held c hfenced (s.allocationsHeld_iff.mpr hheld),
    fun hfenced hidle hroom => s.commitAllocate_of_free c hfenced ?free, fun ps => ?granted⟩,
    fun s => ⟨fun c => State.commitHoldEnd_of_held, State.commitHoldEnd_of_other⟩⟩
  case free => simp [State.allocationsHeld, hidle, hroom]
  case granted => simp [State.commitGranted, Bool.beq_eq_decide_eq]
  case offer =>
    rintro s older younger e hstate hidle hcause hentries hopen hpin holder captured hcaptured t ht c hsector hlines holdPs
      htarget hattempts hconvert hkeep hgranted
    have hheld : s.wcb.entries ≠ [] := by simp [hentries]
    have hoffer : s.offer = some e.key.sector := by
      rw [State.offer_of_draining hstate hidle (State.drainMode_of_cause hheld hcause)]
      exact Wcb.offer_eq_some hentries hopen hpin holder
    have htcap : s.setWcb (s.wcb.capture e.key.sector) = t := by rw [ht, hcaptured, Wcb.capture_eq]; rfl
    have hexec : exec .commitOffer s = .next (t.commitStart (t.newRecord e.key.sector)).noteResumes := by
      rw [exec_commitOffer_of_offer hoffer, State.takeOffer, htcap]
    have hreads : t.reads = s.reads := by rw [ht]
    have hsettings : t.settings = s.settings := by rw [ht]
    have hrecord : t.policyOf e.key.sector = c.policy → t.newRecord e.key.sector = c.at .allocHeld := by
      refine State.newRecord_eq hsector (by rw [hlines, ht]) ?_ htarget hattempts hconvert hkeep
      rw [holdPs, ht]
      rfl
    have hself : c.work = .allocHeld → c.at .allocHeld = c := fun hwork => CommitRecord.at_self hwork hgranted
    refine ⟨fun hpolicy hregions found => ?probe, fun hpolicy hwork hraw hsome hall => ?relocate⟩
    case relocate =>
      have hpolicy' : t.policyOf e.key.sector = c.policy := by
        rw [hpolicy]
        exact State.policyOf_of_regions (by rwa [hsettings]) (.inl (by rwa [hsettings])) (by rwa [hsettings])
      rw [hexec, hrecord hpolicy', hself hwork, State.commitStart_of_relocate hpolicy]
    case probe =>
      have hpolicy' : t.policyOf e.key.sector = c.policy := by
        rw [hpolicy]
        cases hraw : s.settings.raw with
        | true => exact State.policyOf_of_raw _ (by rw [hsettings, hraw])
        | false =>
          have hall := hregions.resolve_left (by simp [hraw])
          exact State.policyOf_of_regions (by rw [hsettings, hraw]) (.inr rfl) (by rwa [hsettings])
      have hprobe : exec .commitOffer s = .next (t.probeFrom (c.at .allocHeld) c.lines false).noteResumes := by
        rw [hexec, hrecord hpolicy', State.commitStart_of_probe]
        · rfl
        · show c.policy ≠ _
          rw [hpolicy]
          split <;> simp
      rw [hprobe]
      refine ⟨fun known rest l hsplit hknown hmiss hfound hwork => ?_, fun hknown hwork hfound => ?_⟩
      · rw [hsplit, State.probeFrom_read (by rwa [hreads]) (by rwa [hreads])
            (by simpa [hreads, CommitRecord.at] using hfound),
          CommitRecord.at_at, CommitRecord.at_self hwork hgranted]
        rfl
      · rw [State.probeFrom_all (found' := found) (by rwa [hreads]) (by simpa [hreads, CommitRecord.at] using hfound),
            hself hwork]
        refine ⟨fun hclear w rest hwindows => ?_, fun hset hraw => ?_, fun hset hraw => ?_⟩
        · rw [hclear, State.probeEnd_of_clear hwindows, CommitRecord.at, ← hgranted]
          rfl
        · rw [hset, State.probeEnd_of_raw _ (by rwa [hsettings])]
        · rw [hset, State.probeEnd_of_service _ (by rwa [hsettings])]

end Sys2Proof.Machine
end

section
/-! The ends of the Commit Engine's reads and programs (R94 to R99, R105, R106) and the copy with its records (R98 to
R101). -/

namespace Sys2Proof.Machine

variable {s : State}

/-! ## The read on the bus (R105) -/

theorem exec_commitReadEnd_of_holds (h : s.busHolds .commitRead = true) (bytes : List Byte) :
    exec (.commitReadEnd bytes) s = .next (s.busIdle.commitReadEnd bytes).noteResumes := congrArg State.noted (if_pos h)

theorem exec_commitReadEnd_of_not_holds (h : s.busHolds .commitRead = false) (bytes : List Byte) :
    exec (.commitReadEnd bytes) s = .next s.noteResumes := congrArg State.noted (if_neg (by simp [h]))

section commit
variable {c : CommitRecord} (hcommit : s.commit = some c)
include hcommit

theorem State.commitReadEnd_of_expired (hexpired : s.bridge.expired = true) (bytes : List Byte) :
    s.commitReadEnd bytes = s.commitFailed c := by
  simp only [State.commitReadEnd, hcommit, hexpired, if_true]

/-- The probe goes on with the lines left. -/
theorem State.commitReadEnd_of_probeRead (hexpired : s.bridge.expired = false) {l : Nat} {rest : List Nat} {found : Bool}
    (hwork : c.work = .probeRead l rest found) (bytes : List Byte) :
    s.commitReadEnd bytes = s.probeFrom c rest (found || s.lineTest c l (lineOfBytes bytes)) := by
  simp only [State.commitReadEnd, hcommit, hexpired, hwork, Bool.false_eq_true, if_false]

/-- A window read whole is built. -/
theorem State.commitReadEnd_of_copyWindow (hexpired : s.bridge.expired = false) {w : Nat} (hwork : c.work = .copyWindow w)
    (bytes : List Byte) :
    s.commitReadEnd bytes = s.copyBuilt c w (s.buildWindow c w fun pos => bytes.getD pos 0) := by
  simp only [State.commitReadEnd, hcommit, hexpired, hwork, Bool.false_eq_true, if_false]

/-- The last line read lets the window be built. -/
theorem State.commitReadEnd_of_lastLine (hexpired : s.bridge.expired = false) {w l : Nat} {got : List (Nat × Line)}
    (hwork : c.work = .copyLine w l [] got) (bytes : List Byte) :
    s.commitReadEnd bytes
      = s.copyBuilt c w (s.buildWindow c w (oldByteOf ((l, lineOfBytes bytes) :: got) w)) := by
  simp only [State.commitReadEnd, hcommit, hexpired, hwork, Bool.false_eq_true, if_false]

/-- A line read before the last leads to the next. -/
theorem State.commitReadEnd_of_line (hexpired : s.bridge.expired = false) {w l next : Nat} {rest : List Nat}
    {got : List (Nat × Line)} (hwork : c.work = .copyLine w l (next :: rest) got) (bytes : List Byte) :
    s.commitReadEnd bytes
      = s.setCommit (some (c.at (.copyLine w next rest ((l, lineOfBytes bytes) :: got)))) := by
  simp only [State.commitReadEnd, hcommit, hexpired, hwork, Bool.false_eq_true, if_false]

/-! ## The end of a program (R95, R96, R98, R99) -/

/-- A program in place invalidates its window's lines; the commit is done, ends, goes on or converts. -/
theorem State.commitProgramEnd_of_span {w : Nat} {rest : List Nat} (hwork : c.work = .programSpan w rest) (ok : Bool)
    {t : State} (ht : t = { s with reads := s.reads.withoutLines c.sector (c.lines.filter fun l => decide (l / 4 = w)) }) :
    s.commitProgramEnd ok =
      if ok = true ∧ rest = [] then { (t.completeCommit .ok).1 with commit := none }
      else if s.bridge.expired = true then t.commitFailed c
      else if ok = true then t.programFrom c rest
      else if s.settings.raw = true then t.commitFailed c
      else t.commitAllocate { c with convert := true } := by
  have hreads : s.setReads (s.reads.invalidateLines c.sector (c.linesIn w)) = t := by
    rw [ht, ReadUnit.invalidateLines_eq]
    rfl
  simp only [State.commitProgramEnd, hcommit, hwork, hreads, Bool.and_eq_true, List.isEmpty_iff]
  rfl

/-- A window's program leads to the next window, a failure to RETIRE(target); past the expiry the commit ends. -/
theorem State.commitProgramEnd_of_copy {w : Nat} {bytes : List Byte} (hwork : c.work = .copyProgram w bytes) (ok : Bool) :
    s.commitProgramEnd ok =
      if s.bridge.expired = true then s.commitFailed c
      else if ok = true then s.copyFrom c (15 - w)
      else s.commitAsk c .appendRetireTarget (.retire (c.target.getD 0) .program) (s.commitFailed c) := by
  simp only [State.commitProgramEnd, hcommit, hwork]

end commit

/-! ## Records asked for (R99 to R101, R133) -/

/-- The queue once the commit's records whose program is not in flight have been given up. -/
def State.withoutCommitRecords (s : State) : State :=
  { s with journal := { s.journal with queue :=
    (s.journal.queue.filter fun q => decide (q.inProgress = true ∨ q.claimant ≠ .commit)) } }

section ask
variable (c : CommitRecord) (r : Delta) (refused : State) (hfenced : s.journal.fenced = false)
include hfenced

/-- With room in the journal the record waits in the queue. -/
theorem State.commitAsk_of_room (work : Work) (hfull : s.journalFull = false) : s.commitAsk c work r refused = { s with
    journal := { s.journal with queue := s.journal.queue ++ [⟨.commit, r, false, false⟩] }
    commit := some { c with work := work, granted := false } } := by
  rw [State.commitAsk_eq c work r refused hfenced, if_neg (by simp [hfull])]
  rfl

/-- A RETIRE(target) under a full journal releases the target, for ALLOCATE or after the third attempt for FAILED. -/
theorem State.commitAsk_retireTarget_of_full (hfull : s.journalFull = true) :
    s.commitAsk c .appendRetireTarget r refused =
      if s.bridge.expired = true ∨ 3 ≤ c.attempts then s.withoutCommitRecords.commitFailed c
      else { s.withoutCommitRecords with
        map := s.map.released, commit := some { c with target := none, work := .allocHeld, granted := false } } := by
  rw [State.commitAsk_eq c _ r refused hfenced, if_pos hfull, State.commitFull_appendRetireTarget rfl rfl,
    State.dropRecords_asked, State.releaseTarget_eq]
  have hfail := s.withoutCommitRecords.commitFailed_commit (c := c) (some (c.at .appendRetireTarget))
    (d := c.at .appendRetireTarget) rfl
  exact if_congr Iff.rfl hfail rfl

/-- A MAP under a full journal releases the target for ALLOCATE, the attempts kept; past the expiry the commit fails. -/
theorem State.commitAsk_map_of_full (hfull : s.journalFull = true) :
    s.commitAsk c .appendMap r refused =
      if s.bridge.expired = true then s.withoutCommitRecords.commitFailed c
      else { s.withoutCommitRecords with
        map := s.map.released
        commit := some { c with target := none, keepAttempts := true, work := .allocHeld, granted := false } } := by
  rw [State.commitAsk_eq c _ r refused hfenced, if_pos hfull, State.commitFull_appendMap rfl rfl,
    State.dropRecords_asked, State.releaseTarget_eq]
  have hfail := s.withoutCommitRecords.commitFailed_commit (c := c) (some (c.at .appendMap)) (d := c.at .appendMap) rfl
  exact if_congr Iff.rfl hfail rfl

end ask

/-! ## The plan of a window (R98) -/

theorem State.linesNeeded_eq (s : State) (c : CommitRecord) (w : Nat) : s.linesNeeded c w =
    ([4 * w, 4 * w + 1, 4 * w + 2, 4 * w + 3] : List Nat).filter fun l =>
      decide ¬(l ∈ c.lines ∧ (s.image c.sector l).2 = BitVec.allOnes 64) := by
  have htest : ∀ l : Nat, (!(c.lines.contains l && (s.image c.sector l).2 == BitVec.allOnes 64))
      = decide ¬(l ∈ c.lines ∧ (s.image c.sector l).2 = BitVec.allOnes 64) := by
    intro l
    rw [Bool.eq_iff_iff]
    simp
  simp only [State.linesNeeded, htest]
  rfl

/-- A byte not under an image mask lies in a line that needs old bytes. -/
theorem State.mem_linesNeeded {c : CommitRecord} {w pos : Nat} (hpos : pos < 256) (h : ¬ s.imaged c w pos) :
    4 * w + pos / 64 ∈ s.linesNeeded c w := by
  have hline : 4 * w + pos / 64 ∈ (List.range 4).map fun i => 4 * w + i :=
    List.mem_map.mpr ⟨pos / 64, List.mem_range.mpr (by omega), rfl⟩
  refine List.mem_filter.mpr ⟨hline, ?_⟩
  rw [Bool.not_eq_true', Bool.eq_false_iff]
  intro hcovered
  simp only [Bool.and_eq_true, List.contains_iff_mem, beq_iff_eq] at hcovered
  obtain ⟨hmem, hmask⟩ := hcovered
  exact h ⟨hmem, by rw [hmask, BitVec.getLsbD_allOnes]; simp; omega⟩

/-- Some line of the window is in the cache. -/
theorem State.anyCached_iff (s : State) (sector w : Nat) :
    ((List.range 4).any fun i => (s.reads.lookup ⟨sector, 4 * w + i⟩).isSome) = true
      ↔ ∃ i < 4, s.reads.lookup ⟨sector, 4 * w + i⟩ ≠ none := by
  simp [Option.isSome_iff_ne_none]

section plan
variable {c : CommitRecord} {w : Nat}

/-- Nothing of the window is in the cache: it is read whole. -/
theorem State.copyPlan_of_uncached (hnone : ∀ i < 4, s.reads.lookup ⟨c.sector, 4 * w + i⟩ = none)
    (hneeded : s.linesNeeded c w ≠ []) : s.copyPlan c w = .inl (.copyWindow w) := by
  have hheld : ((List.range 4).any fun i => (s.reads.lookup ⟨c.sector, 4 * w + i⟩).isSome) = false := by
    rw [Bool.eq_false_iff, ne_eq, State.anyCached_iff]
    rintro ⟨i, hi, hsome⟩
    exact hsome (hnone i hi)
  simp [State.copyPlan, hheld, hneeded]

/-- Something of it is in the cache: the lines missing are read one by one. -/
theorem State.copyPlan_of_missing (hsome : ∃ i < 4, s.reads.lookup ⟨c.sector, 4 * w + i⟩ ≠ none) {l : Nat} {rest : List Nat}
    (hmissing : (s.linesNeeded c w).filter (fun l => (s.reads.lookup ⟨c.sector, l⟩).isNone) = l :: rest) :
    s.copyPlan c w = .inl (.copyLine w l rest
      ((s.linesNeeded c w).filterMap fun l => (s.reads.lookup ⟨c.sector, l⟩).map fun x => (l, x.data))) := by
  have hheld := (s.anyCached_iff c.sector w).mpr hsome
  simp [State.copyPlan, hheld, hmissing]

/-- The lines obtained hold that of each key found. -/
theorem find?_obtained {α : Type} (f : Nat → Option α) {l : Nat} {x : α} (hx : f l = some x) {ls : List Nat} (hl : l ∈ ls) :
    (ls.filterMap fun k => (f k).map fun y => (k, y)).find? (fun g => g.1 == l) = some (l, x) := by
  induction ls with
  | nil => exact absurd hl (by simp)
  | cons k ks ih =>
    by_cases hk : k = l
    · simp [hk, hx]
    · have htail := ih ((List.mem_cons.mp hl).resolve_left (Ne.symm hk))
      cases hfk : f k <;> simp [hfk, hk, htail]

theorem State.cached_of_needed {l : Nat} (hl : l ∈ s.linesNeeded c w) (hcached : s.reads.lookup ⟨c.sector, l⟩ ≠ none) :
    ∃ i < 4, s.reads.lookup ⟨c.sector, 4 * w + i⟩ ≠ none := by
  obtain ⟨i, hi, rfl⟩ := List.mem_map.mp (List.mem_of_mem_filter hl)
  exact ⟨i, List.mem_range.mp hi, hcached⟩

/-- The old byte of a position that no image covers is that of its line in the cache. -/
theorem State.newByte_obtained (hall : ∀ l ∈ s.linesNeeded c w, s.reads.lookup ⟨c.sector, l⟩ ≠ none) {pos : Nat}
    (hpos : pos < 256) :
    s.newByte c w pos (oldByteOf ((s.linesNeeded c w).filterMap fun l =>
        (s.reads.lookup ⟨c.sector, l⟩).map fun x => (l, x.data)) w pos)
      = s.newByte c w pos (match s.reads.lookup ⟨c.sector, 4 * w + pos / 64⟩ with
        | none => 0
        | some x => x.data.byte (pos % 64)) := by
  by_cases himaged : s.imaged c w pos
  · simp only [State.newByte, if_pos himaged]
  · have hneeded := State.mem_linesNeeded hpos himaged
    obtain ⟨x, hx⟩ := Option.ne_none_iff_exists'.mp (hall _ hneeded)
    have hmap : ∀ l, (s.reads.lookup ⟨c.sector, l⟩).map (fun x => (l, x.data))
        = ((s.reads.lookup ⟨c.sector, l⟩).map CacheLine.data).map fun y => (l, y) := fun l => by
      rw [Option.map_map]
      rfl
    have hdata : (s.reads.lookup ⟨c.sector, 4 * w + pos / 64⟩).map CacheLine.data = some x.data := by rw [hx]; rfl
    simp only [State.newByte, if_neg himaged, oldByteOf, hmap]
    rw [find?_obtained (fun l => (s.reads.lookup ⟨c.sector, l⟩).map CacheLine.data) hdata hneeded, hx]

/-- Every line needed is in the cache: the window is built at once. -/
theorem State.copyPlan_of_cached (hall : ∀ l ∈ s.linesNeeded c w, s.reads.lookup ⟨c.sector, l⟩ ≠ none) :
    s.copyPlan c w = .inr ((List.range 256).map fun pos => s.newByte c w pos
      (match s.reads.lookup ⟨c.sector, 4 * w + pos / 64⟩ with
        | none => 0
        | some x => x.data.byte (pos % 64))) := by
  have hwhole : ¬ (!((List.range 4).any fun i => (s.reads.lookup ⟨c.sector, 4 * w + i⟩).isSome)
      && !(s.linesNeeded c w).isEmpty) = true := by
    cases hneeded : s.linesNeeded c w with
    | nil => simp
    | cons l rest =>
      have hmem : l ∈ s.linesNeeded c w := by simp [hneeded]
      simp [(s.anyCached_iff c.sector w).mpr (State.cached_of_needed hmem (hall l hmem))]
  have hmissing : (s.linesNeeded c w).filter (fun l => (s.reads.lookup ⟨c.sector, l⟩).isNone) = [] :=
    List.filter_eq_nil_iff.mpr fun l hl => by simpa using hall l hl
  simp only [State.copyPlan, if_neg hwhole, hmissing, State.buildWindow_eq]
  refine congrArg Sum.inr (List.map_congr_left fun pos hpos => ?_)
  exact State.newByte_obtained hall (List.mem_range.mp hpos)

end plan

/-- Settles O28: the read by the work it served, the program by its owner's stage, the copy by its plan, and MAP. -/
theorem commitReadEndGoesOn : Obligations.CommitReadEndGoesOn := by
  refine ⟨?read, fun s bytes h => exec_commitReadEnd_of_not_holds h bytes, fun s c hcommit => ⟨?span, ?copy⟩,
    fun s c => ⟨?plan, fun hfenced => State.commitAsk_fenced _ _ _ _ hfenced, fun hfenced hfull => ?map,
      fun hfenced hfull u hu => ?full⟩⟩
  case read =>
    intro s c bytes hholds hcommit t ht
    obtain rfl : t = s.busIdle := ht
    rw [exec_commitReadEnd_of_holds hholds]
    have hcommit' : s.busIdle.commit = some c := hcommit
    refine ⟨fun hexpired => by rw [State.commitReadEnd_of_expired hcommit' hexpired], fun hexpired => ?_⟩
    have hexpired' : s.busIdle.bridge.expired = false := hexpired
    refine ⟨fun l rest found known hwork hknown found' hfound => ?_, fun w built hwork hbuilt => ?_,
      fun w l l' rest got hwork => ?_, fun w l got built hwork hbuilt => ?_⟩
    · rw [State.commitReadEnd_of_probeRead hcommit' hexpired' hwork]
      have hfound' : found' = true ↔ (found || s.busIdle.lineTest c l (lineOfBytes bytes)) = true
          ∨ ∃ k ∈ known, ∃ x, s.busIdle.reads.lookup ⟨c.sector, k⟩ = some x
            ∧ s.busIdle.needsErase c.sector k x.data := by
        rw [hfound, Bool.or_eq_true, State.lineTest_iff, or_assoc]
        rfl
      refine ⟨fun l' rest' hrest hmiss => ?_, fun hrest hclear w windows hwindows => ?_, fun hrest hset hraw => ?_,
        fun hrest hset hraw => ?_⟩
      · rw [hrest, State.probeFrom_read (s := s.busIdle) hknown hmiss hfound']
        rfl
      · rw [hrest, State.probeFrom_all (s := s.busIdle) hknown hfound', hclear, State.probeEnd_of_clear hwindows]
        rfl
      · rw [hrest, State.probeFrom_all (s := s.busIdle) hknown hfound', hset, State.probeEnd_of_raw (s := s.busIdle) c hraw]
      · rw [hrest, State.probeFrom_all (s := s.busIdle) hknown hfound', hset,
            State.probeEnd_of_service (s := s.busIdle) c hraw]
    · rw [State.commitReadEnd_of_copyWindow hcommit' hexpired' hwork, State.buildWindow_eq]
      have hbuilt' : built = (List.range 256).map fun pos => s.busIdle.newByte c w pos (bytes.getD pos 0) := hbuilt
      rw [← hbuilt']
      exact ⟨fun h => by rw [State.copyBuilt_some h]; rfl, fun h => by rw [State.copyBuilt_none h]⟩
    · rw [State.commitReadEnd_of_line hcommit' hexpired' hwork]
      rfl
    · rw [State.commitReadEnd_of_lastLine hcommit' hexpired' hwork, State.buildWindow_eq]
      have hbuilt' : built = (List.range 256).map fun pos =>
          s.busIdle.newByte c w pos (oldByteOf ((l, lineOfBytes bytes) :: got) w pos) := by
        rw [hbuilt]
        rfl
      rw [← hbuilt']
      exact ⟨fun h => by rw [State.copyBuilt_some h]; rfl, fun h => by rw [State.copyBuilt_none h]⟩
  case span =>
    rintro w rest hwork t ht
    have hend := fun ok => State.commitProgramEnd_of_span hcommit hwork ok ht
    refine ⟨fun hlast => (hend true).trans (if_pos ⟨rfl, hlast⟩), fun w' rest' hrest hexpired => (hend true).trans ?_,
      fun hrest hexpired => (hend true).trans ?_, fun hfail => (hend false).trans ?_,
      fun hexpired hraw => (hend false).trans ?_⟩
    · simp [hrest, hexpired, State.programFrom, CommitRecord.at, State.setCommit]
    · simp [hrest, hexpired]
    · rcases hfail with h | h <;> simp [h]
    · simp [hexpired, hraw]
  case copy =>
    rintro w bytes hwork
    have hend := fun ok => State.commitProgramEnd_of_copy hcommit hwork ok
    refine ⟨fun hexpired ok => (hend ok).trans (if_pos hexpired), fun hexpired => (hend true).trans
      ((if_neg (by simp [hexpired])).trans (if_pos rfl)),
      fun hexpired hfenced => (hend false).trans ?_, fun hexpired hfenced hfull => (hend false).trans ?_,
      fun hexpired hfenced hfull u hu => ?_⟩
    · rw [State.commitAsk_fenced _ _ _ _ hfenced]
      simp [hexpired]
    · rw [State.commitAsk_of_room c _ _ hfenced _ hfull]
      simp [hexpired]
    · obtain rfl : u = s.withoutCommitRecords := hu
      have hfailed := hend false
      rw [State.commitAsk_retireTarget_of_full c _ _ hfenced hfull] at hfailed
      refine ⟨fun hfew => hfailed.trans ?_, fun hmany => hfailed.trans ?_⟩
      · simp [hexpired, Nat.not_le.mpr hfew]
      · simp [hexpired, hmany]
  case plan =>
    rintro w hw needed hneeded
    rw [← s.linesNeeded_eq] at hneeded
    subst hneeded
    rw [s.copyFrom_at c hw]
    refine ⟨fun hnone hsome => ?_, fun l rest hsome hmissing => ?_, fun built hall hbuilt => ?_⟩
    · rw [State.copyPlan_of_uncached hnone hsome]
      rfl
    · rw [State.copyPlan_of_missing hsome hmissing]
      rfl
    · rw [State.copyPlan_of_cached hall, hbuilt]
      exact ⟨State.copyBuilt_some, State.copyBuilt_none⟩
  case map => exact State.commitAsk_of_room c _ _ hfenced _ hfull
  case full =>
    obtain rfl : u = s.withoutCommitRecords := hu
    have hask := State.commitAsk_map_of_full c (.map c.sector (c.target.getD 0) c.oldPs) (s.commitFailed c) hfenced hfull
    exact ⟨fun hexpired => hask.trans (if_neg (by simp [hexpired])), fun hexpired => hask.trans (if_pos hexpired)⟩

end Sys2Proof.Machine
end

section
/-! Requests at the port: held on the channel, refused by each check in its order, or routed (R37 to R53), and the
response channel (R41, R42, R171). -/

namespace Sys2Proof.Machine

variable {s : State}

/-! ## A request as it is accepted (R37, R44, R53) -/

/-- The block that serves a request which passed its checks. -/
def State.route (s : State) (kind : ReqKind) (src : Source) (addr : BitVec 25) (data : Line) (p : Place) : State :=
  match kind with
  | .read => s.routeRead src p
  | .write => s.routeWrite src addr data p
  | .durableWrite => s.routeDurable .durableWrite src addr data p
  | .barrier => s.routeBarrier src

theorem exec_command {kind : ReqKind} (hkind : kind ≠ .barrier) (src : Source) (addr : BitVec 25) (len : BitVec 7)
    (data : Line) (s : State) :
    exec (kind.command src addr len data) s = .next (s.accept kind src addr len (s.route kind src addr data)) := by
  cases kind
  case barrier => exact absurd rfl hkind
  all_goals rfl

theorem exec_barrier (src : Source) (s : State) : exec (.barrier src) s = .next (s.acceptBarrier src) := rfl

/-- Without request ready every request waits on the channel (R37). -/
theorem exec_request_of_held (h : s.reqReady = false) (kind : ReqKind) (src : Source) (addr : BitVec 25) (len : BitVec 7)
    (data : Line) : exec (kind.command src addr len data) s = .next s := by
  by_cases hkind : kind = .barrier
  · subst hkind
    show exec (.barrier src) s = _
    rw [exec_barrier, State.acceptBarrier, h]
    rfl
  · rw [exec_command hkind, State.accept, h]
    rfl

/-- The event of a TAG refusal, without an address for a BARRIER (R46). -/
def tagEvent (kind : ReqKind) (src : Source) (addr : BitVec 25) : EventBody where
  kind := .protocolError
  requester := some src.requester
  code := some .tag
  location := if kind = .barrier then none else some (.address addr.toNat)

/-- A request whose tag an entry holds is refused into the slot (R40, R46). -/
theorem exec_request_of_duplicate (hready : s.reqReady = true) {src : Source} (hholds : s.port.holds (tagOf src) = true)
    (kind : ReqKind) (addr : BitVec 25) (len : BitVec 7) (data : Line) :
    exec (kind.command src addr len data) s = .next
      (if s.serving then s.refuseDuplicate src .protocol (some (tagEvent kind src addr))
      else s.refuseDuplicate src .halted none) := by
  by_cases hkind : kind = .barrier
  · subst hkind
    show exec (.barrier src) s = _
    rw [exec_barrier, State.acceptBarrier, hready, hholds]
    rfl
  · have hevent : portEvent .protocolError src addr (some .tag) = tagEvent kind src addr := by
      simp [portEvent, tagEvent, hkind]
    rw [exec_command hkind, State.accept, hready, hholds, hevent]
    rfl

/-- Outside SERVICE and RAW an accepted request is refused HALTED by the state check (R45). -/
theorem exec_request_of_halted {src : Source} (haccepts : s.accepts src) (hserves : ¬ s.serves) (kind : ReqKind)
    (addr : BitVec 25) (len : BitVec 7) (data : Line) :
    exec (kind.command src addr len data) s = .next (s.withRefused kind src .halted none) := by
  obtain ⟨hpast, hroom, hslot, hfree⟩ := haccepts
  have hready := State.reqReady_of hpast hroom hslot
  have hserving := State.serving_not hserves
  by_cases hkind : kind = .barrier
  · subst hkind
    show exec (.barrier src) s = _
    rw [exec_barrier, State.acceptBarrier, hready, Port.holds_false hfree, hserving, ← State.refuse_none hfree]
    rfl
  · rw [exec_command hkind, State.accept, hready, Port.holds_false hfree, hserving, ← State.refuse_none hfree]
    rfl

section checked
variable {kind : ReqKind} {src : Source} {addr : BitVec 25} {len : BitVec 7} (hkind : kind ≠ .barrier)
  (haccepts : s.accepts src) (hserves : s.serves)
include hkind haccepts hserves

theorem exec_of_routed {p : Place} (hcheck : s.check kind src addr len = .pass p) (data : Line) :
    exec (kind.command src addr len data) s = .next (s.route kind src addr data p) := by
  rw [exec_command hkind, State.accept_serving haccepts hserves, hcheck]

/-- A request that a check refuses with an event. -/
theorem exec_of_refused {status : Status} {event : EventBody} {place : Option Place}
    (hcheck : s.check kind src addr len = .refuse status (some event) place) (data : Line) :
    exec (kind.command src addr len data) s = .next ((s.withRefused kind src status place).withEvent event) := by
  obtain ⟨-, -, -, hfree⟩ := id haccepts
  rw [exec_command hkind, State.accept_serving haccepts hserves, hcheck, ← State.refuse_some hfree]

/-- A request that a check refuses without one. -/
theorem exec_of_refused_silently {status : Status} {place : Option Place}
    (hcheck : s.check kind src addr len = .refuse status none place) (data : Line) :
    exec (kind.command src addr len data) s = .next (s.withRefused kind src status place) := by
  obtain ⟨-, -, -, hfree⟩ := id haccepts
  rw [exec_command hkind, State.accept_serving haccepts hserves, hcheck, ← State.refuse_none hfree]

end checked

/-- Settles O13: a request not let in, and the state check. -/
theorem requestsAreHeldOrAnsweredHalted : Obligations.RequestsAreHeldOrAnsweredHalted := by
  refine ⟨fun s hheld => exec_request_of_held (State.reqReady_not hheld), fun s src haccepts hstate => ?_⟩
  refine exec_request_of_halted haccepts fun hserves => ?_
  rcases hstate with h | h <;> simp [State.serves, h] at hserves

/-- Settles O14: a duplicate by the state check. -/
theorem duplicateTagGoesToTheSlot : Obligations.DuplicateTagGoesToTheSlot := by
  rintro s src hpast hroom hslot ⟨e, he, hid⟩ kind addr len data
  have hholds : s.port.holds (tagOf src) = true := List.any_eq_true.mpr ⟨e, he, by simpa using hid⟩
  rw [exec_request_of_duplicate (State.reqReady_of hpast hroom hslot) hholds]
  refine ⟨fun hserves => ?_, fun hserves => ?_⟩
  · rw [State.serving_not hserves]
    rfl
  · rw [State.serving_of hserves]
    rfl

/-- Settles O15: checks 2 to 4 in their order. -/
theorem protocolRequesterAndWindowChecks : Obligations.ProtocolRequesterAndWindowChecks := by
  refine ⟨fun s src haccepts hserves kind addr len data hkind => ⟨fun hlength => ?_, fun hlow hhigh hcross => ?_⟩,
    fun s src haccepts hserves kind addr len data hkind hspan => ⟨fun hdenied => ?_, fun henabled houtside => ?_⟩⟩
  · exact exec_of_refused hkind haccepts hserves (if_pos hlength) data
  · have hlength : ¬ (len.toNat = 0 ∨ 64 < len.toNat) := by omega
    exact exec_of_refused hkind haccepts hserves ((if_neg hlength).trans (if_pos hcross)) data
  · refine exec_of_refused hkind haccepts hserves ?_ data
    rw [State.check_span hspan, hdenied]
    rfl
  · refine exec_of_refused_silently hkind haccepts hserves ?_ data
    rw [State.check_span hspan, henabled]
    exact if_pos houtside

/-- Settles O16: the region check and the guard check. -/
theorem regionAndGuardChecks : Obligations.RegionAndGuardChecks := by
  refine ⟨fun s kind src addr len data hkind hwindow hregion => ?_,
    fun s kind src addr len data hkind hwindow hregion i hstops hlowest => ?_⟩
  all_goals
    obtain ⟨haccepts, hserves, -⟩ := id hwindow
    refine exec_of_refused hkind haccepts hserves ?_ data
    rw [State.check_inWindow hwindow]
  · rw [State.regionAllows_not hkind hregion]
    rfl
  · rw [State.regionAllows_of hkind hregion, Access.guardHit_some hkind hstops hlowest]
    rfl

theorem ReqKind.isWrite_of {kind : ReqKind} (h : kind = .write ∨ kind = .durableWrite) : kind.isWrite = true := by
  rcases h with rfl | rfl <;> rfl

theorem ReqKind.ne_barrier_of_write {kind : ReqKind} (h : kind = .write ∨ kind = .durableWrite) : kind ≠ .barrier := by
  rcases h with rfl | rfl <;> simp

/-- Settles O17: the READ_ONLY check and the gate check. -/
theorem readOnlyAndGateChecks : Obligations.ReadOnlyAndGateChecks := by
  intro s kind src addr len data hkind hunrefused
  obtain ⟨hwindow, hregion, hunguarded⟩ := hunrefused
  obtain ⟨haccepts, hserves, -⟩ := id hwindow
  have hbarrier := ReqKind.ne_barrier_of_write hkind
  have hcheck := State.check_inWindow (kind := kind) hwindow
  rw [State.regionAllows_of hbarrier hregion, Access.guardHit_none hbarrier hunguarded, ReqKind.isWrite_of hkind] at hcheck
  refine ⟨fun hreadOnly => ?_, fun hworn hfenced hclosed hplain => ?_⟩
  · refine exec_of_refused_silently hbarrier haccepts hserves (hcheck.trans ?_) data
    simp [hreadOnly]
  · have hgate : s.gateAdmits src = false := by
      rcases hplain with hsource | hrights
      · simp [State.gateAdmits, hclosed, hsource]
      · have hrights' : (s.settings.rights src.requester).gateBypass = false := hrights
        simp [State.gateAdmits, hclosed, hrights']
    refine exec_of_refused hbarrier haccepts hserves (hcheck.trans ?_) data
    simp [hworn, hfenced, hgate, portEvent]

end Sys2Proof.Machine
end

section
/-! Requests that passed their checks: a READ answered from the buffer or the cache or waiting for a fill (R68, R76 to R79),
a write taken by the buffer or overrun (R59 to R61, R70, R72), a BARRIER (R69). -/

namespace Sys2Proof.Machine

variable {s : State}

/-! ## Bytes of a line, of a span and of a snapshot -/

theorem Line.byte_ofFn (f : Nat → Byte) {i : Nat} (hi : i < 64) : (Line.ofFn f).byte i = f i := by
  simp [Line.byte, Line.ofFn, List.getD, hi]

theorem spanMask_getLsbD {offset length i : Nat} (hi : i < 64) :
    (spanMask offset length).getLsbD i = decide (offset ≤ i ∧ i < offset + length) := by
  rw [spanMask, BitVec.getLsbD_ofNat, Nat.mul_comm, Nat.testBit_two_pow_mul, Nat.testBit_two_pow_sub_one]
  rw [Bool.eq_iff_iff]
  simp only [Bool.and_eq_true, decide_eq_true_eq]
  omega

theorem Wcb.snapshot_length (w : Wcb) (p : Place) : (w.snapshot p).length = p.length := by
  simp [Wcb.snapshot]

theorem Wcb.snapshot_getElem? (w : Wcb) (p : Place) {i : Nat} (hi : i < p.length) : (w.snapshot p)[i]? = some
    (match w.find p.key with
      | none => none
      | some e =>
        if (e.dirty ||| e.imageMask).getLsbD (p.offset + i) = true then some (e.data.byte (p.offset + i)) else none) := by
  simp only [Wcb.snapshot, List.getElem?_map, List.getElem?_range hi]
  rfl

theorem readBytes_getElem? {snap : Snapshot} (offset : Nat) (l : Line) {i : Nat} {v : Option Byte} (h : snap[i]? = some v) :
    (readBytes snap offset l)[i]? = some (v.getD (l.byte (offset + i))) := by
  simp [readBytes, List.getElem?_zipIdx, h]

/-- A snapshot that covers the read gives the bytes alone. -/
theorem readBytes_of_covered {snap : Snapshot} (h : ∀ v ∈ snap, v ≠ none) (offset : Nat) (l : Line) :
    readBytes snap offset l = snap.map fun v => v.getD 0 := by
  refine List.ext_getElem? fun i => ?_
  cases hi : snap[i]? with
  | none => simp [readBytes, List.getElem?_zipIdx, hi]
  | some v =>
    obtain ⟨b, rfl⟩ := Option.ne_none_iff_exists'.mp (h v (List.mem_of_getElem? hi))
    simp [readBytes_getElem? offset l hi, hi]

/-! ## READ (R76 to R79) -/

theorem exec_read_of_unrefused {src : Source} {addr : BitVec 25} {len : BitVec 7} (h : s.unrefused .read src addr len) :
    exec (.read src addr len) s = .next (s.routeRead src (placeOf addr len)) := by
  obtain ⟨⟨haccepts, hserves, -⟩, -⟩ := id h
  exact exec_of_routed (by simp) haccepts hserves (State.check_read h) Line.zero

/-- A miss attaches to the fill of the key that is not superseded, or opens one (R79). -/
theorem ReadUnit.miss_of_new {r : ReadUnit} {k : Key} (h : ∀ f ∈ r.fills, f.key = k → f.superseded = true) (group : Fin 2)
    (id : Tag) : r.miss k group id = { r with fills := r.fills ++ [⟨k, group, .queued, false, [id]⟩] } := by
  refine if_neg ?_
  simpa using h

theorem ReadUnit.miss_of_open {r : ReadUnit} {k : Key} (h : ∃ f ∈ r.fills, f.key = k ∧ f.superseded = false) (group : Fin 2)
    (id : Tag) : r.miss k group id = { r with fills := r.fills.map fun f =>
      if f.key = k ∧ f.superseded = false then { f with reads := f.reads ++ [id] } else f } := by
  refine (if_pos (by simpa using h)).trans ?_
  simp

section read
variable {src : Source} {p : Place}

/-- A READ that its snapshot does not cover and no slot of its group serves waits for a fill. -/
theorem State.routeRead_of_miss (hgap : none ∈ s.wcb.snapshot p)
    (hgroup : ∀ x, s.reads.lookup p.key = some x → x.group ≠ (s.settings.requesters[src.requester]).group) :
    s.routeRead src p = (s.listEntry .read src (some p) (s.wcb.snapshot p)).setReads
      (s.reads.miss p.key (s.settings.requesters[src.requester]).group (tagOf src)) := by
  have hall : ¬ (s.wcb.snapshot p).all Option.isSome = true := by
    rw [List.all_eq_true]
    exact fun hcovered => by simpa using hcovered none hgap
  unfold State.routeRead
  simp only [if_neg hall]
  cases hx : s.reads.lookup p.key with
  | none => rfl
  | some x =>
    have hother : x.group ≠ (s.settings.rights src.requester).group := hgroup x hx
    exact if_neg (by simpa using hother)

variable (hfree : ∀ e ∈ s.port.pending, e.id ≠ tagOf src)
include hfree

theorem State.routeRead_of_covered (h : ∀ v ∈ s.wcb.snapshot p, v ≠ none) : s.routeRead src p =
    s.withAnswered .read src (some p) (s.wcb.snapshot p) .ok ((s.wcb.snapshot p).map fun v => v.getD 0) := by
  have hall : (s.wcb.snapshot p).all Option.isSome = true := by
    rw [List.all_eq_true]
    exact fun v hv => Option.isSome_iff_ne_none.mpr (h v hv)
  unfold State.routeRead
  simp only [if_pos hall]
  rw [State.admit_answer hfree, readBytes_of_covered h]

theorem State.routeRead_of_hit (hgap : none ∈ s.wcb.snapshot p) {x : CacheLine} (hx : s.reads.lookup p.key = some x)
    (hgroup : x.group = (s.settings.requesters[src.requester]).group) : s.routeRead src p =
      State.withAnswered { s with reads := { s.reads with cache := (s.reads.cache.filter fun y => y.key ≠ x.key) ++ [x] } }
        .read src (some p) (s.wcb.snapshot p) .ok (readBytes (s.wcb.snapshot p) p.offset x.data) := by
  have hall : ¬ (s.wcb.snapshot p).all Option.isSome = true := by
    rw [List.all_eq_true]
    exact fun hcovered => by simpa using hcovered none hgap
  have htouch : s.reads.touch x = { s.reads with cache := (s.reads.cache.filter fun y => y.key ≠ x.key) ++ [x] } := by
    simp [ReadUnit.touch, bne, Bool.beq_eq_decide_eq]
  unfold State.routeRead
  simp only [if_neg hall, hx, htouch]
  have hgroup' : x.group = (s.settings.rights src.requester).group := hgroup
  exact (if_pos (by simpa using hgroup')).trans (State.admit_answer
    (s := s.setReads { s.reads with cache := (s.reads.cache.filter fun y => y.key ≠ x.key) ++ [x] }) hfree)

end read

/-- Settles O18: the snapshot's and the read's bytes, and the two immediate answers. -/
theorem readIsAnsweredFromTheBufferOrTheCache : Obligations.ReadIsAnsweredFromTheBufferOrTheCache := by
  refine ⟨⟨Wcb.snapshot_length, fun w p i hi hnone => ?_, fun w p i e hi hentry => ?_,
    fun snap offset l i v => readBytes_getElem? offset l⟩, fun s src addr len hunrefused => ?_⟩
  · rw [w.snapshot_getElem? p hi, hnone]
  · rw [w.snapshot_getElem? p hi, hentry]
  · rw [exec_read_of_unrefused hunrefused]
    obtain ⟨⟨⟨-, -, -, hfree⟩, -⟩, -⟩ := hunrefused
    exact ⟨fun hcovered => by rw [State.routeRead_of_covered hfree hcovered],
      fun hgap x hx hgroup => by rw [State.routeRead_of_hit hfree hgap hx hgroup]⟩

/-- Settles O19: the two ways of a miss. -/
theorem readThatMissesWaitsForAFill : Obligations.ReadThatMissesWaitsForAFill := by
  intro s src addr len hunrefused hgap hgroup
  rw [exec_read_of_unrefused hunrefused, State.routeRead_of_miss hgap hgroup]
  refine ⟨fun hnew => ?_, fun hopen => ?_⟩
  · rw [ReadUnit.miss_of_new hnew]
    rfl
  · rw [ReadUnit.miss_of_open hopen]
    rfl

/-! ## The buffer takes a write (R59 to R63) -/

theorem Wcb.find_eq_none_iff (w : Wcb) (k : Key) : w.find k = none ↔ ∀ e ∈ w.entries, e.key ≠ k := by
  simp [Wcb.find]

theorem Wcb.takeWrite_of_held {w : Wcb} {p : Place} (h : ∃ e ∈ w.entries, e.key = p.key) (c : Settings) (data : Line) :
    w.takeWrite c p data = some { w with
      entries := w.entries.map fun x =>
        if x.key = p.key then
          { x with data := mergeLine x.data p.offset p.length data, dirty := x.dirty ||| spanMask p.offset p.length }
        else x
      lingerRunning := decide (c.linger ≠ 0) } := by
  cases hfind : w.find p.key with
  | none =>
    obtain ⟨e, he, hkey⟩ := h
    exact absurd hkey ((w.find_eq_none_iff p.key).mp hfind e he)
  | some e => simp [Wcb.takeWrite, hfind, Entry.merge, bne, Bool.beq_eq_decide_eq]

section fresh
variable {w : Wcb} {p : Place} (hnew : ∀ e ∈ w.entries, e.key ≠ p.key) (c : Settings) (data : Line)
include hnew

/-- A new entry without HOLD asserts it at H with the allowance. -/
theorem Wcb.takeWrite_of_room (hhold : w.hold = false) : w.takeWrite c p data = some { w with
    entries := w.entries ++ [Entry.fresh p.key p.offset p.length data]
    hold := decide (w.entries.length + 1 = c.highMark)
    grace := decide (w.entries.length + 1 = c.highMark)
    lingerRunning := decide (c.linger ≠ 0) } := by
  simp [Wcb.takeWrite, (w.find_eq_none_iff p.key).mpr hnew, hhold, Wcb.occupancy, bne, Bool.beq_eq_decide_eq]

/-- Under HOLD a new entry spends the allowance. -/
theorem Wcb.takeWrite_of_grace (hhold : w.hold = true) (hgrace : w.grace = true) : w.takeWrite c p data = some { w with
    entries := w.entries ++ [Entry.fresh p.key p.offset p.length data]
    hold := true
    grace := false
    lingerRunning := decide (c.linger ≠ 0) } := by
  simp [Wcb.takeWrite, (w.find_eq_none_iff p.key).mpr hnew, hhold, hgrace, bne, Bool.beq_eq_decide_eq]

theorem Wcb.takeWrite_of_spent (hhold : w.hold = true) (hgrace : w.grace = false) : w.takeWrite c p data = none := by
  simp [Wcb.takeWrite, (w.find_eq_none_iff p.key).mpr hnew, hhold, hgrace]

end fresh

/-- Settles O20: the merge and the three cases of a new entry, with the bytes and the mask they write. -/
theorem bufferTakesAWrite : Obligations.BufferTakesAWrite :=
  ⟨fun _ c _ data => ⟨fun hheld => Wcb.takeWrite_of_held hheld c data, fun hnew => Wcb.takeWrite_of_room hnew c data,
    fun hnew => Wcb.takeWrite_of_grace hnew c data, fun hnew => Wcb.takeWrite_of_spent hnew c data⟩,
  fun _ _ _ _ _ _ hi => ⟨Line.byte_ofFn _ hi, spanMask_getLsbD hi⟩⟩

/-! ## Writes at the port (R53, R70, R72) -/

theorem exec_of_writable {kind : ReqKind} (hkind : kind = .write ∨ kind = .durableWrite) {src : Source} {addr : BitVec 25}
    {len : BitVec 7} (h : s.writable kind src addr len) (data : Line) :
    exec (kind.command src addr len data) s = .next (s.route kind src addr data (placeOf addr len)) := by
  have hbarrier := ReqKind.ne_barrier_of_write hkind
  obtain ⟨⟨⟨haccepts, hserves, -⟩, -⟩, -⟩ := id h
  exact exec_of_routed hbarrier haccepts hserves (State.check_write hbarrier h) data

/-- A DURABLE_WRITE, and in RAW every WRITE, is routed as a DURABLE_WRITE of its kind. -/
theorem State.route_durable {kind : ReqKind} (hkind : kind = .durableWrite ∨ (kind = .write ∧ s.settings.raw = true))
    (src : Source) (addr : BitVec 25) (data : Line) (p : Place) :
    s.route kind src addr data p = s.routeDurable kind src addr data p := by
  rcases hkind with rfl | ⟨rfl, hraw⟩
  · rfl
  · exact if_pos hraw

/-- Outside RAW a WRITE that the buffer takes is posted. -/
theorem State.routeWrite_of_taken {src : Source} (hfree : ∀ e ∈ s.port.pending, e.id ≠ tagOf src)
    (hraw : s.settings.raw = false) {p : Place} {data : Line} {w : Wcb} (hw : s.wcb.takeWrite s.settings p data = some w)
    (addr : BitVec 25) :
    s.routeWrite src addr data p = State.withAnswered { s with wcb := w } .write src (some p) [] .ok [] := by
  simp only [State.routeWrite, hraw, hw, Bool.false_eq_true, if_false]
  exact State.admit_answer (s := s.setWcb w) hfree

/-- A write of any kind that the buffer refuses is overrun. -/
theorem State.route_of_overrun {kind : ReqKind} (hkind : kind = .write ∨ kind = .durableWrite) {p : Place} {data : Line}
    (hw : s.wcb.takeWrite s.settings p data = none) (src : Source) (addr : BitVec 25) :
    s.route kind src addr data p = s.overrun kind src addr p := by
  rcases hkind with rfl | rfl
  · simp only [State.route, State.routeWrite, State.routeDurable, hw, ite_self]
  · simp only [State.route, State.routeDurable, hw]

/-- Settles O21: the post and the overrun. -/
theorem writeIsPostedOrOverrun : Obligations.WriteIsPostedOrOverrun := by
  refine ⟨fun s src addr len data hraw hwritable w hw => ?_, fun s kind src addr len data hkind hwritable hw => ?_⟩
  · have hexec := exec_of_writable (.inl rfl) hwritable data
    obtain ⟨⟨⟨⟨-, -, -, hfree⟩, -⟩, -⟩, -⟩ := hwritable
    exact hexec.trans (congrArg Host.Outcome.next (State.routeWrite_of_taken hfree hraw hw addr))
  · rw [exec_of_writable hkind hwritable, State.route_of_overrun hkind hw]
    obtain ⟨⟨⟨⟨-, -, -, hfree⟩, -⟩, -⟩, -⟩ := hwritable
    rw [State.overrun, State.refuse_some hfree]
    rfl

/-- The entry of a write's line once the buffer has taken it. -/
theorem Wcb.find_of_taken {w w' : Wcb} {c : Settings} {p : Place} {data : Line} (h : w.takeWrite c p data = some w') :
    w'.find p.key = some (((w.find p.key).map fun e => e.merge p.offset p.length data).getD
      (Entry.fresh p.key p.offset p.length data)) := by
  cases hfind : w.find p.key with
  | none =>
    simp only [Wcb.takeWrite, hfind, Option.ite_none_left_eq_some, Option.some.injEq] at h
    obtain ⟨-, rfl⟩ := h
    have hnone : w.entries.find? (fun e => e.key == p.key) = none := hfind
    simp [Wcb.find, List.find?_append, hnone, Entry.fresh]
  | some e =>
    simp only [Wcb.takeWrite, hfind, Option.some.injEq] at h
    subst h
    have hsome : w.entries.find? (fun e => e.key == p.key) = some e := hfind
    have hkey : (e.key == p.key) = true := List.find?_some (p := fun x : Entry => x.key == p.key) hsome
    have hkeep : (fun x : Entry => x.key == p.key) ∘ (fun x => if x.key == p.key then x.merge p.offset p.length data else x)
        = fun x => x.key == p.key := by
      funext x
      simp only [Function.comp]
      split <;> rfl
    simp only [Wcb.find, List.find?_map, hkeep, hsome, Option.map_some, hkey, if_true, Option.getD_some]

/-- The wait of a write taken: the entry of its line as it stood before counts (R70). -/
theorem Wcb.durableSet_of_taken {w w' : Wcb} {c : Settings} {p : Place} {data : Line} (h : w.takeWrite c p data = some w')
    (id : Tag) : w'.durableSet id p.key = ⟨id, false, [⟨p.key, (match w.find p.key with
      | none => 1
      | some e => if e.isOpen then 1 else 2), .ok⟩]⟩ := by
  rw [Wcb.durableSet, Wcb.find_of_taken h]
  cases w.find p.key <;> rfl

/-- Settles O22: the durable write's wait set. -/
theorem durableWriteWaitsForItsCommits : Obligations.DurableWriteWaitsForItsCommits := by
  intro s kind src addr len data hkind hwritable w hw
  rw [exec_of_writable (hkind.symm.imp_left And.left) hwritable, State.route_durable hkind]
  simp only [State.routeDurable, hw]
  rw [State.takeDurable, Wcb.durableSet_of_taken hw]
  rfl

/-! ## BARRIER (R69) -/

theorem exec_barrier_of_serving {src : Source} (haccepts : s.accepts src) (hserves : s.serves) :
    exec (.barrier src) s = .next (s.routeBarrier src) := by
  obtain ⟨hpast, hroom, hslot, hfree⟩ := haccepts
  rw [exec_barrier, State.acceptBarrier, State.reqReady_of hpast hroom hslot, Port.holds_false hfree,
    State.serving_of hserves]
  rfl

theorem Entry.barrierCount_eq (e : Entry) :
    e.barrierCount = if e.state ≠ .opened ∧ e.dirty ≠ 0 then 2 else 1 := by
  unfold Entry.barrierCount
  by_cases hstate : e.state = .opened <;> by_cases hdirty : e.dirty = 0 <;> simp [Entry.isOpen_eq, hstate, hdirty]

/-- Settles O23: the barrier over an empty buffer and over its entries. -/
theorem barrierWaitsForEveryEntry : Obligations.BarrierWaitsForEveryEntry := by
  intro s src haccepts hserves
  rw [exec_barrier_of_serving haccepts hserves]
  obtain ⟨-, -, -, hfree⟩ := haccepts
  refine ⟨fun hempty => ?_, fun hheld => ?_⟩
  · rw [← State.admit_answer hfree]
    exact congrArg Host.Outcome.next (if_pos (by simp [hempty]))
  · simp only [← Entry.barrierCount_eq]
    exact congrArg Host.Outcome.next (if_neg (by simpa using hheld))

end Sys2Proof.Machine
end

section
/-! The response channel (R41, R42, R171), the linger timer (R63), and a fill's end (R81 to R83). -/

namespace Sys2Proof.Machine

variable {s : State}

/-! ## The lanes of a response (R171) -/

/-- Byte i of a response on the lanes from 8i, under the free lanes above its bytes. -/
def lanesBelow (bytes : List Byte) : BitVec 512 :=
  bytes.foldr (fun (b : Byte) (acc : BitVec 512) => b.setWidth 512 ||| acc <<< 8) 0

theorem lanesOf_eq (bytes : List Byte) : lanesOf bytes =
    Config.freeLanes bytes.length >>> (8 * bytes.length) <<< (8 * bytes.length) ||| lanesBelow bytes := rfl

theorem lanesBelow_getLsbD {bytes : List Byte} {i k : Nat} {b : Byte} (hb : bytes[i]? = some b) (hi : i < 64) (hk : k < 8) :
    (lanesBelow bytes).getLsbD (8 * i + k) = b.getLsbD k := by
  induction bytes generalizing i with
  | nil => simp at hb
  | cons c rest ih =>
    show (c.setWidth 512 ||| lanesBelow rest <<< 8).getLsbD (8 * i + k) = _
    cases i with
    | zero =>
      obtain rfl : c = b := by simpa using hb
      simp [hk]
      omega
    | succ i =>
      have hrest := ih (i := i) (by simpa using hb) (by omega)
      have hindex : 8 * (i + 1) + k - 8 = 8 * i + k := by omega
      have habove : c.getLsbD (8 * (i + 1) + k) = false := BitVec.getLsbD_of_ge _ _ (by omega)
      rw [BitVec.getLsbD_or, BitVec.getLsbD_setWidth, BitVec.getLsbD_shiftLeft, hindex, hrest, habove]
      simp
      omega

/-- The free lanes begin above the bytes. -/
theorem lanesOf_extract {bytes : List Byte} {i : Nat} {b : Byte} (hb : bytes[i]? = some b) (hi : i < 64) :
    (lanesOf bytes).extractLsb' (8 * i) 8 = b := by
  have hlen : i < bytes.length := (List.getElem?_eq_some_iff.mp hb).1
  refine BitVec.eq_of_getLsbD_eq fun k hk => ?_
  have hlow : 8 * i + k < 8 * bytes.length := by omega
  rw [BitVec.getLsbD_extractLsb', lanesOf_eq, BitVec.getLsbD_or, lanesBelow_getLsbD hb hi hk, BitVec.getLsbD_shiftLeft]
  simp [hk, hlow]

/-! ## Answers and their handshake (R42) -/

theorem Port.answer_of_waiting {p : Port} {id : Tag} (h : ∃ e ∈ p.pending, e.id = id ∧ e.phase = .waiting) (status : Status)
    (data : List Byte) : p.answer id status data = { p with
      pending := p.pending.map fun e =>
        if e.id = id ∧ e.phase = .waiting then { e with phase := .answered status data } else e
      answers := p.answers ++ [.entry id] } := by
  refine (if_pos ?_).trans ?_
  · simpa [PendEntry.isWaiting] using h
  · simp [PendEntry.isWaiting]

theorem Port.answer_of_none {p : Port} {id : Tag} (h : ∀ e ∈ p.pending, e.id = id → e.phase ≠ .waiting) (status : Status)
    (data : List Byte) : p.answer id status data = p := by
  refine if_neg ?_
  simpa [PendEntry.isWaiting] using h

theorem exec_responseTaken (s : State) : exec .responseTaken s = .next (s.setPort s.port.taken) := rfl

/-- Settles O24: the handshake by the head of the queue, the answer, and the signals of a response. -/
theorem responseTakenFreesItsTag : Obligations.ResponseTakenFreesItsTag := by
  refine ⟨⟨fun s hnone => ?none, fun s rest r hhead hslot => ?slot, fun s rest id hhead => ?entry,
      fun s rest e status data hhead hfind hphase => ?response⟩,
    fun p id status data => ⟨fun h => Port.answer_of_waiting h status data, fun h => Port.answer_of_none h status data⟩,
    fun s => ⟨Option.map_eq_none_iff, fun r hr => ?signals⟩, rfl⟩
  case none =>
    rw [exec_responseTaken, State.response, Port.taken, hnone]
    exact ⟨rfl, rfl⟩
  case slot =>
    rw [exec_responseTaken, State.response, Port.taken, hhead]
    refine ⟨?_, rfl⟩
    simp only [hslot]
    rfl
  case entry =>
    rw [exec_responseTaken, Port.taken, hhead]
    simp [State.setPort, bne, Bool.beq_eq_decide_eq]
  case response => simp only [State.response, hhead, hfind, hphase]
  case signals =>
    refine ⟨r.signals, by rw [State.responseSignals, hr]; rfl, rfl, rfl, rfl, fun i b hi _ hb => ?_⟩
    exact lanesOf_extract hb hi

/-! ## The linger timer (R63) -/

/-- Settles O25: the timer's expiry where it runs over entries, and elsewhere. -/
theorem lingerExpirySetsTheFlag : Obligations.LingerExpirySetsTheFlag := by
  intro s
  refine ⟨fun hruns hheld => ?_, fun hidle => ?_⟩
  · have hlingers : s.wcb.lingers = { s.wcb with lingerRunning := false, lingerFlag := true } :=
      if_pos (by simp [hruns, hheld])
    exact congrArg (fun w => Host.Outcome.next (s.setWcb w)) hlingers
  · have hlingers : s.wcb.lingers = s.wcb := if_neg (by rcases hidle with h | h <;> simp [h])
    exact congrArg (fun w => Host.Outcome.next (s.setWcb w)) hlingers

/-! ## A fill's end (R82, R83) -/

/-- The cache after a line is installed: in the slot of its key, an invalid slot, or the least recently used one. -/
theorem ReadUnit.install_eq (r : ReadUnit) (x : CacheLine) {others : List CacheLine}
    (hothers : others = r.cache.filter fun y => decide (y.key ≠ x.key)) :
    r.install x = { r with cache := (if others.length < 32 then others else others.drop 1) ++ [x] } := by
  have hfilter : (r.cache.filter fun y => y.key != x.key) = others := by
    rw [hothers]
    simp [bne, Bool.beq_eq_decide_eq]
  simp only [ReadUnit.install, hfilter]
  rfl

theorem exec_fillComplete_of_holds (h : s.busHolds .fillRead = true) {f : Fill} (hissued : s.reads.issued = some f)
    (bytes : Line) : exec (.fillComplete bytes) s = .next (s.busIdle.fillComplete f bytes).noteResumes := by
  refine congrArg State.noted ((if_pos h).trans ?_)
  rw [hissued]

theorem exec_fillComplete_of_not_holds (h : s.busHolds .fillRead = false) (bytes : Line) :
    exec (.fillComplete bytes) s = .next s.noteResumes := congrArg State.noted (if_neg (by simp [h]))

/-- The answers of a fill, by the entries of its reads. -/
theorem State.fillAnswers_eq (s : State) (f : Fill) (line : Line) : s.fillAnswers f line =
    f.reads.map fun id => ⟨id, .ok, (match s.port.find id with
      | none => []
      | some e => readBytes e.snapshot (match e.place with
        | none => 0
        | some p => p.offset) line)⟩ := by
  refine List.map_congr_left fun id _ => ?_
  cases s.port.find id <;> rfl

/-- Settles O29: the line installed unless superseded, the reads answered, the fill gone. -/
theorem fillCompleteInstallsAndAnswers : Obligations.FillCompleteInstallsAndAnswers := by
  refine ⟨fun s f bytes hholds hfind others hothers => ?_, fun s bytes h => exec_fillComplete_of_not_holds h bytes⟩
  have hissued : s.reads.issued = some f := by
    rw [← hfind, ReadUnit.issued]
    simp [bne, Bool.beq_eq_decide_eq]
  have hqueued : ∀ fills : List Fill, (fills.filter fun x => x.phase == .queued)
      = fills.filter fun x => decide (x.phase = .queued) := fun _ => by simp [Bool.beq_eq_decide_eq]
  have hinstall := s.reads.install_eq ⟨f.key, f.group, bytes⟩ hothers
  rw [exec_fillComplete_of_holds hholds hissued, State.fillComplete, State.fillAnswers_eq, hqueued]
  show Host.Outcome.next (State.noteResumes (State.answerInOrder (State.setReads _
    { (if f.superseded = true then s.reads else s.reads.install ⟨f.key, f.group, bytes⟩) with fills := _ }) _)) = _
  rw [hinstall]
  cases f.superseded <;> rfl

end Sys2Proof.Machine
end

section
/-! RESUMEs due (R121, R122) and the grant of the chosen claim (R118), with law 8 (R113). -/

namespace Sys2Proof.Machine

variable {s : State}

/-! ## RESUMEs due -/

theorem State.resumeDue_iff (s : State) (cs : ChipSelect) : s.resumeDue cs = true ↔
    ∃ d, s.bus.dev cs = some d ∧ d.state = .eraseSuspended ∧ s.bus.resuming cs = false
      ∧ ((s.bridge.state ≠ .quiesce ∧ s.bridge.state ≠ .halted ∧ s.fillOn cs true = false
            ∧ (s.fillOn cs false = false ∨ d.fillsTaken = 4))
        ∨ (s.bridge.state = .quiesce ∧ s.fillOn cs false = false ∧ s.commitClaimOn cs false = false
            ∧ (s.commitClaimOn cs true = true ∨ (cs = .cs0 ∧ s.journalProgramWaits = true)))) := by
  unfold State.resumeDue
  cases hdev : s.bus.dev cs with
  | none => simp
  | some d => cases hstate : s.bridge.state <;> simp [Config.fillsPerSuspension, and_assoc, and_comm, and_left_comm]

/-- The order in which RESUMEs are due: those due before keep their places, chip select 0 before 1 among the new ones. -/
theorem State.noteResumes_eq (s : State) : s.noteResumes = s.setBus { s.bus with
    resumesDue := s.bus.resumesDue.filter (fun cs => s.resumeDue cs)
      ++ [ChipSelect.cs0, .cs1].filter fun cs => s.resumeDue cs && decide (cs ∉ s.bus.resumesDue) } := by
  have hnew : ∀ cs, (s.resumeDue cs && !(s.bus.resumesDue.filter fun cs => s.resumeDue cs).contains cs)
      = (s.resumeDue cs && decide (cs ∉ s.bus.resumesDue)) := by
    intro cs
    rw [Bool.eq_iff_iff]
    simp +contextual
  simp only [State.noteResumes, hnew]

/-- Settles O30: the order of the RESUMEs, with the condition of one. -/
theorem resumesBecomeDue : Obligations.ResumesBecomeDue := by
  intro s due hdue
  have hsame : (fun cs => s.resumeDue cs) = due := by
    funext cs
    rw [Bool.eq_iff_iff, s.resumeDue_iff, hdue]
  rw [s.noteResumes_eq]
  simp only [congrFun hsame]
  rfl

/-- Noting them changes their list alone, on which no condition depends. -/
theorem State.resumeDue_noteResumes (s : State) (cs : ChipSelect) : s.noteResumes.resumeDue cs = s.resumeDue cs := rfl

/-- Once noted, the RESUMEs due are exactly those whose condition holds. -/
theorem State.mem_resumesDue_noteResumes (s : State) (cs : ChipSelect) :
    cs ∈ s.noteResumes.bus.resumesDue ↔ s.resumeDue cs = true := by
  rw [s.noteResumes_eq]
  by_cases hlisted : cs ∈ s.bus.resumesDue
  · simp [State.setBus, hlisted]
  · cases cs <;> simp [State.setBus, hlisted]

theorem State.filter_resumesDue_noteResumes (s : State) :
    s.noteResumes.bus.resumesDue.filter (fun cs => s.noteResumes.resumeDue cs) = s.noteResumes.bus.resumesDue :=
  List.filter_eq_self.mpr fun cs hcs => (s.mem_resumesDue_noteResumes cs).mp hcs

theorem State.noteResumes_noteResumes (s : State) : s.noteResumes.noteResumes = s.noteResumes := by
  have hnone : [ChipSelect.cs0, .cs1].filter
      (fun cs => s.noteResumes.resumeDue cs && decide (cs ∉ s.noteResumes.bus.resumesDue)) = [] := by
    refine List.filter_eq_nil_iff.mpr fun cs _ => ?_
    simp [s.mem_resumesDue_noteResumes, s.resumeDue_noteResumes]
  rw [s.noteResumes.noteResumes_eq, s.filter_resumesDue_noteResumes, hnone, List.append_nil]
  rfl

/-! ## The grant (R118) -/

theorem State.arbiterOpen_iff (s : State) : s.arbiterOpen = true ↔ s.bus.tx = none ∧ s.bridge.state ≠ .reset
    ∧ s.bridge.stopPower = false ∧ s.bridge.stopOrderly = false := by
  simp [State.arbiterOpen, State.stopWaits, and_assoc]

theorem exec_arbiterGrant_of_closed (h : ¬ s.arbiterOpen = true) (tie : Bool) :
    exec (.arbiterGrant tie) s = .next s.noteResumes := congrArg State.noted (if_neg h)

theorem State.arbiterGrant_of_open (h : s.arbiterOpen = true) (tie : Bool) : s.arbiterGrant tie = s.arbitrate tie := if_pos h

theorem State.arbitrate_of_none {tie : Bool} (h : s.noteResumes.chosen tie = none) : s.arbitrate tie = s.noteResumes := by
  simp only [State.arbitrate, h]

/-- A grant that begins a transaction sets the burst count. -/
theorem State.arbitrate_of_begun {tie : Bool} {g : Grant} {burst : Nat} (h : s.noteResumes.chosen tie = some (g, burst))
    (hbegun : (s.noteResumes.grant g).bus.tx ≠ none) : s.arbitrate tie =
      (s.noteResumes.grant g).setBus { (s.noteResumes.grant g).bus with burst := burst } := by
  simp only [State.arbitrate, h]
  exact if_pos (Option.isSome_iff_ne_none.mpr hbegun)

theorem State.arbitrate_of_not_begun {tie : Bool} {g : Grant} {burst : Nat}
    (h : s.noteResumes.chosen tie = some (g, burst)) (hbegun : (s.noteResumes.grant g).bus.tx = none) :
    s.arbitrate tie = s.noteResumes.grant g := by
  simp only [State.arbitrate, h]
  exact if_neg (by simp [hbegun])

theorem exec_arbiterGrant_of_none {tie : Bool} (h : s.noteResumes.chosen tie = none) :
    exec (.arbiterGrant tie) s = .next s.noteResumes := by
  by_cases hopen : s.arbiterOpen = true
  · show State.noted (s.arbiterGrant tie) = _
    rw [State.arbiterGrant_of_open hopen, State.arbitrate_of_none h, State.noted, State.noteResumes_noteResumes]
  · exact exec_arbiterGrant_of_closed hopen tie

/-- Law 8: what the arbiter leaves on an idle bus left READY at this grant, if it is a program or an erase. -/
theorem State.arbitrate_exclusive (hidle : s.bus.tx = none) (tie : Bool) : s.exclusive (s.arbitrate tie) := by
  cases hchosen : s.noteResumes.chosen tie with
  | none =>
    rw [State.arbitrate_of_none hchosen]
    exact exclusive_idle hidle
  | some choice =>
    obtain ⟨g, burst⟩ := choice
    obtain ⟨-, hbacked⟩ := chosen_backed _ _ _ _ hchosen
    have hgrant : s.exclusive (s.noteResumes.grant g) := grant_exclusive (s := s.noteResumes) hidle hbacked
    by_cases hbegun : (s.noteResumes.grant g).bus.tx = none
    · rw [State.arbitrate_of_not_begun hchosen hbegun]
      exact hgrant
    · rw [State.arbitrate_of_begun hchosen hbegun]
      exact hgrant

/-- Settles O31: the arbiter closed, without a claim, and at a grant, with law 8. -/
theorem arbiterGrantsTheChosenClaim : Obligations.ArbiterGrantsTheChosenClaim := by
  refine ⟨fun s tie hclosed => exec_arbiterGrant_of_closed (fun hopen => ?closed) tie,
    fun s tie => exec_arbiterGrant_of_none, fun s tie g burst htx hstate hpower horderly hchosen => ?grant,
    fun s t tie tx htx hexec htx' huse => ?law⟩
  case closed =>
    obtain ⟨htx, hstate, hpower, horderly⟩ := s.arbiterOpen_iff.mp hopen
    rcases hclosed with h | h | h | h
    · exact h htx
    · exact hstate h
    · simp [hpower] at h
    · simp [horderly] at h
  case grant =>
    have hopen := s.arbiterOpen_iff.mpr ⟨htx, hstate, hpower, horderly⟩
    have hexec : exec (.arbiterGrant tie) s = .next (s.arbitrate tie).noteResumes :=
      congrArg State.noted (State.arbiterGrant_of_open hopen tie)
    rw [hexec]
    exact ⟨fun hbegun => by rw [State.arbitrate_of_begun hchosen hbegun]; rfl,
      fun hbegun => by rw [State.arbitrate_of_not_begun hchosen hbegun]⟩
  case law =>
    have ht : t = (s.arbiterGrant tie).noteResumes := by
      injection hexec.symm
    subst ht
    have hexclusive : s.exclusive (s.arbiterGrant tie) := by
      by_cases hopen : s.arbiterOpen = true
      · rw [State.arbiterGrant_of_open hopen]
        exact State.arbitrate_exclusive htx tie
      · rw [State.arbiterGrant, if_neg hopen]
        exact exclusive_idle htx
    exact hexclusive tx htx' huse

end Sys2Proof.Machine
end

section
/-! The claims of the five classes and the choice among them (R113, R118 to R122, R133, R138). -/

namespace Sys2Proof.Machine

variable {s : State}

/-! ## The choice (R118, R119) -/

theorem State.othersWait_eq_false_iff (s : State) :
    s.othersWait = false ↔ s.journalClaim = none ∧ s.commitClaim = none := by
  simp [State.othersWait]

/-- At the burst limit a JOURNAL or COMMIT claim goes first. -/
theorem State.chosen_at_limit (hburst : s.bus.burst = 8) (hwait : s.othersWait = true) (tie : Bool) : s.chosen tie =
    match s.journalClaim with
    | some g => some (g, 0)
    | none => s.commitClaim.map fun g => (g, 0) := by
  refine (if_pos (by simp [hburst, hwait, Config.burstMax])).trans ?_
  cases s.journalClaim <;> rfl

/-- Below it, or with neither waiting, the classes go in their order. -/
theorem State.chosen_in_order (h : s.bus.burst ≠ 8 ∨ s.othersWait = false) (tie : Bool) : s.chosen tie = s.inOrder tie := by
  refine if_neg ?_
  rcases h with h | h <;> simp [h, Config.burstMax]

/-! ## Class FILL (R118, R120) -/

theorem State.fillDevice_of_queued {f : Fill} (h : f.phase = .queued) :
    s.fillDevice f = deviceOf s.settings (s.resolve f.key.sector) := by
  simp only [State.fillDevice, h]

/-- A QUEUED fill whose device passes a test. -/
def State.queuedOn (s : State) (p : Device → Bool) (f : Fill) : Bool := f.phase == .queued && s.devIs (s.fillDevice f) p

theorem State.queuedOn_iff (s : State) (p : Device → Bool) (f : Fill) : s.queuedOn p f = true ↔
    f.phase = .queued ∧ ∃ d, s.bus.dev (deviceOf s.settings (s.resolve f.key.sector)) = some d ∧ p d = true := by
  rw [State.queuedOn, Bool.and_eq_true, beq_iff_eq, s.devIs_iff]
  refine and_congr_right fun hqueued => ?_
  rw [s.fillDevice_of_queued hqueued]

theorem State.fillClaim_eq (s : State) : s.fillClaim =
    match s.reads.fills.find? (s.queuedOn fun d => d.takesFill s.fillsUnlimited) with
    | some f => some (.fill f)
    | none => (s.reads.fills.find? (s.queuedOn s.fillSuspendable)).map fun f => .fillSuspend (s.fillDevice f) := by
  have hfind : ∀ p : Device → Bool,
      (s.reads.fills.filter fun f => f.phase == .queued).find? (fun f => s.devIs (s.fillDevice f) p)
        = s.reads.fills.find? (s.queuedOn p) := by
    intro p
    rw [List.find?_filter]
    congr 1
    funext f
    simp [State.queuedOn, Bool.beq_eq_decide_eq]
  simp only [State.fillClaim, hfind] <;> rfl

/-- A device READY, or suspended with a fill of the suspension left, takes the read of a fill. -/
theorem Device.takesFill_iff (d : Device) (s : State) : d.takesFill s.fillsUnlimited = true ↔
    d.state = .ready ∨ d.state = .eraseSuspended
      ∧ (d.fillsTaken < 4 ∨ s.bridge.state = .quiesce ∨ s.bridge.state = .halted) := by
  simp only [Device.takesFill, State.fillsUnlimited, Bool.or_eq_true, Bool.and_eq_true, beq_iff_eq, decide_eq_true_eq]
  have hfills : Config.fillsPerSuspension = 4 := rfl
  rw [hfills]
  tauto

theorem State.fillSuspendable_iff (s : State) (d : Device) :
    s.fillSuspendable d = true ↔ s.maySuspend d ∧ d.suspensions < 8 ∧ d.polledBusy = true := by
  simp only [State.fillSuspendable, Bool.and_eq_true, s.maySuspend_iff, decide_eq_true_eq, and_assoc]
  rfl

/-- Class FILL by the tests of its two parts. -/
theorem State.fillClaim_cases {takes suspends : Fill → Prop}
    (htakes : ∀ f, s.queuedOn (fun d => d.takesFill s.fillsUnlimited) f = true ↔ takes f)
    (hsuspends : ∀ f, s.queuedOn s.fillSuspendable f = true ↔ suspends f) :
    (∀ older f younger, s.reads.fills = older ++ f :: younger → takes f → (∀ x ∈ older, ¬ takes x) →
      s.fillClaim = some (.fill f))
    ∧ ((∀ x ∈ s.reads.fills, ¬ takes x) →
      (∀ older f younger, s.reads.fills = older ++ f :: younger → suspends f → (∀ x ∈ older, ¬ suspends x) →
        s.fillClaim = some (.fillSuspend (s.fillDevice f)))
      ∧ ((∀ x ∈ s.reads.fills, ¬ suspends x) → s.fillClaim = none)) := by
  have hfalse : ∀ {p : Fill → Bool} {q : Fill → Prop}, (∀ f, p f = true ↔ q f) → ∀ {f}, ¬ q f → p f = false :=
    fun hpq _ hq => Bool.eq_false_iff.mpr fun hp => hq ((hpq _).mp hp)
  rw [s.fillClaim_eq]
  refine ⟨fun older f younger hfills hf holder => ?_, fun hnone => ?_⟩
  · rw [hfills, find?_split ((htakes f).mpr hf) fun x hx => hfalse htakes (holder x hx)]
  · have htaken : s.reads.fills.find? (s.queuedOn fun d => d.takesFill s.fillsUnlimited) = none :=
      List.find?_eq_none.mpr fun x hx hp => hnone x hx ((htakes x).mp hp)
    rw [htaken]
    refine ⟨fun older f younger hfills hf holder => ?_, fun hall => ?_⟩
    · rw [hfills, find?_split ((hsuspends f).mpr hf) fun x hx => hfalse hsuspends (holder x hx)]
      rfl
    · have hsuspended : s.reads.fills.find? (s.queuedOn s.fillSuspendable) = none :=
        List.find?_eq_none.mpr fun x hx hp => hall x hx ((hsuspends x).mp hp)
      rw [hsuspended]
      rfl

/-! ## Class POLL (R113, R118) -/

theorem Device.takesPoll_iff (d : Device) : d.takesPoll = true ↔ d.state = .unknown ∨ d.state = .busyProgram
    ∨ d.state = .busyErase ∨ d.state = .stuck ∨ (d.state = .ready ∧ d.resumeStep = .pollWaits) := by
  unfold Device.takesPoll
  split <;> simp [*]

theorem State.pollClaim_eq (s : State) (tie : Bool) : s.pollClaim tie =
    match s.bus.pollsDue.filter fun cs => s.devIs cs Device.takesPoll with
    | [] => none
    | [cs] => some (.poll cs)
    | cs :: other :: _ => some (.poll (if s.bus.pollsTied = true ∧ tie = true then other else cs)) := by
  unfold State.pollClaim
  rcases s.bus.pollsDue.filter fun cs => s.devIs cs Device.takesPoll with _ | ⟨cs, _ | ⟨other, rest⟩⟩
  · rfl
  · rfl
  · simp

/-! ## Class JOURNAL (R29, R133, R138, R142) -/

section load
variable (hload : s.bridge.state = .load)
include hload

theorem State.journalClaim_of_load (hread : s.canRead .cs0) : s.journalClaim =
    match s.bridge.load with
    | .readLine0 => some (.descriptor 0)
    | .readLine1 _ => some (.descriptor 1)
    | _ => none :=
  (if_pos (by simp [hload])).trans (if_pos ((s.canRead_iff .cs0).mpr hread))

theorem State.journalClaim_of_load_busy (hread : ¬ s.canRead .cs0) : s.journalClaim = none := by
  simp [State.journalClaim, hload, mt (s.canRead_iff .cs0).mp hread]

end load

section rebuild
variable (hstate : s.bridge.state = .rebuild) (hscan : s.journal.rebuild ≠ .firstWrite)
include hstate hscan

theorem State.journalClaim_of_rebuild (hread : s.canRead .cs0) : s.journalClaim =
    match s.journal.rebuild with
    | .readA => some (.bankRead .a 0)
    | .readB _ => some (.bankRead .b 0)
    | .examine c windows _ _ => some (.bankRead c.bank windows.length)
    | _ => none :=
  (if_neg (by simp [hstate])).trans ((if_pos (by simp [hstate, hscan])).trans (if_pos ((s.canRead_iff .cs0).mpr hread)))

theorem State.journalClaim_of_rebuild_busy (hread : ¬ s.canRead .cs0) : s.journalClaim = none := by
  simp [State.journalClaim, hstate, hscan, mt (s.canRead_iff .cs0).mp hread]

end rebuild

section programs
variable (hload : s.bridge.state ≠ .load) (hwrites : s.bridge.state ≠ .rebuild ∨ s.journal.rebuild = .firstWrite)
include hload hwrites

theorem State.journalClaim_of_program (hready : s.canProgram .cs0) : s.journalClaim =
    match s.journal.run with
    | some r => if r.inProgress = true ∨ r.abandoned = true then none else some (.bankProgram r)
    | none => s.appendClaim.map Grant.append := by
  have hscan : ¬ (s.bridge.state == .rebuild && s.journal.rebuild != .firstWrite) = true := by
    rcases hwrites with h | h <;> simp [h]
  unfold State.journalClaim
  rw [if_neg (by simpa using hload), if_neg hscan, if_pos ((s.canProgram_iff .cs0).mpr hready)]
  cases s.journal.run <;> simp

theorem State.journalClaim_of_program_busy (hready : ¬ s.canProgram .cs0) : s.journalClaim = none := by
  have hscan : ¬ (s.bridge.state == .rebuild && s.journal.rebuild != .firstWrite) = true := by
    rcases hwrites with h | h <;> simp [h]
  unfold State.journalClaim
  rw [if_neg (by simpa using hload), if_neg hscan, if_neg (mt (s.canProgram_iff .cs0).mp hready)]

end programs

theorem State.canAppend_iff (hrun : s.journal.run = none) : s.canAppend = true ↔
    s.journal.fenced = false ∧ s.journal.active ≠ none ∧ s.journal.pointer < s.settings.bankSectors * 256
      ∧ (s.bridge.state = .service ∨ s.bridge.state = .quiesce) := by
  cases hactive : s.journal.active with
  | none => simp [State.canAppend, hactive]
  | some bank =>
    simp [State.canAppend, State.journalFull, State.freeSlots, Config.slotsPerSector, hactive, hrun, and_assoc]
    omega

theorem State.appendClaim_of_idle (h : ¬ s.canAppend = true) : s.appendClaim = none := if_neg h

theorem State.appendClaim_of_head {q : QueueItem} {rest : List QueueItem} (h : s.canAppend = true)
    (hqueue : s.journal.queue = q :: rest) : s.appendClaim = if q.inProgress = true then none else some q := by
  refine (if_pos h).trans ?_
  rw [hqueue]

theorem State.appendClaim_of_empty (hqueue : s.journal.queue = []) : s.appendClaim = none := by
  unfold State.appendClaim
  rw [hqueue]
  exact ite_self _

/-! ## Class COMMIT (R105, R122) -/

theorem State.commitClaim_of_none (h : s.commit = none) : s.commitClaim = none := by
  simp only [State.commitClaim, h]

section commit
variable {c : CommitRecord} (hcommit : s.commit = some c)
include hcommit

theorem State.commitClaim_of_idle (h : c.claim = none) : s.commitClaim = none := by
  simp only [State.commitClaim, hcommit, h]

/-- A read of the engine, or in QUIESCE the SUSPEND that it waits for. -/
theorem State.commitClaim_of_read {ps : Nat} (h : c.claim = some (ps, false)) :
    (s.canRead (deviceOf s.settings ps) → s.commitClaim = some (.commit c))
    ∧ (¬ s.canRead (deviceOf s.settings ps) → s.bridge.state = .quiesce →
        (∃ d, s.bus.dev (deviceOf s.settings ps) = some d ∧ s.maySuspend d) →
        s.commitClaim = some (.commitSuspend (deviceOf s.settings ps)))
    ∧ (¬ s.canRead (deviceOf s.settings ps) →
        ¬ (s.bridge.state = .quiesce ∧ ∃ d, s.bus.dev (deviceOf s.settings ps) = some d ∧ s.maySuspend d) →
        s.commitClaim = none) := by
  have hclaim : s.commitClaim = if s.devIs (deviceOf s.settings ps) Device.takesRead = true then some (.commit c)
      else if s.bridge.state = .quiesce ∧ s.devIs (deviceOf s.settings ps) (fun d => s.suspendable d) = true then
        some (.commitSuspend (deviceOf s.settings ps))
      else none := by
    simp [State.commitClaim, hcommit, h]
  have hsuspend : s.devIs (deviceOf s.settings ps) (fun d => s.suspendable d) = true
      ↔ ∃ d, s.bus.dev (deviceOf s.settings ps) = some d ∧ s.maySuspend d := by
    simp only [s.devIs_iff, s.maySuspend_iff]
  have hread := s.canRead_iff (deviceOf s.settings ps)
  rw [hclaim]
  exact ⟨fun hr => if_pos (hread.mpr hr),
    fun hr hquiesce hdev => (if_neg (mt hread.mp hr)).trans (if_pos ⟨hquiesce, hsuspend.mpr hdev⟩),
    fun hr hnone => (if_neg (mt hread.mp hr)).trans (if_neg (mt (And.imp_right hsuspend.mp) hnone))⟩

theorem State.commitClaim_of_program {ps : Nat} (h : c.claim = some (ps, true)) :
    (s.canProgram (deviceOf s.settings ps) → s.commitClaim = some (.commit c))
    ∧ (¬ s.canProgram (deviceOf s.settings ps) → s.commitClaim = none) := by
  have hclaim : s.commitClaim = if s.devIs (deviceOf s.settings ps) Device.takesProgram = true then some (.commit c)
      else none := by
    simp [State.commitClaim, hcommit, h]
  have hready := s.canProgram_iff (deviceOf s.settings ps)
  rw [hclaim]
  exact ⟨fun hr => if_pos (hready.mpr hr), fun hr => if_neg (mt hready.mp hr)⟩

end commit

/-! ## Class ERASE (R31, R118, R123) -/

/-- The RESUME of LOAD waits for a chip select (R31). -/
def State.loadResumeWaits (s : State) (cs : ChipSelect) : Prop :=
  s.bridge.state = .load ∧ ∃ d, s.bus.dev cs = some d ∧ d.resumeStep = .resumeDue ∧ d.state = .ready

theorem State.loadResumeClaim_cases (s : State) :
    (s.loadResumeWaits .cs0 → s.loadResumeClaim = some (.loadResume .cs0))
    ∧ (¬ s.loadResumeWaits .cs0 → s.loadResumeWaits .cs1 → s.loadResumeClaim = some (.loadResume .cs1))
    ∧ (¬ s.loadResumeWaits .cs0 → ¬ s.loadResumeWaits .cs1 → s.loadResumeClaim = none) := by
  have hdev : ∀ cs, s.devIs cs (fun d => d.resumeStep == .resumeDue && d.state == .ready) = true
      ↔ ∃ d, s.bus.dev cs = some d ∧ d.resumeStep = .resumeDue ∧ d.state = .ready := by
    simp [s.devIs_iff]
  by_cases hload : s.bridge.state = .load
  · have hclaim : s.loadResumeClaim =
        if s.devIs .cs0 (fun d => d.resumeStep == .resumeDue && d.state == .ready) = true then some (.loadResume .cs0)
        else if s.devIs .cs1 (fun d => d.resumeStep == .resumeDue && d.state == .ready) = true then some (.loadResume .cs1)
        else none := if_neg (by simp [hload])
    simp only [hclaim, hdev, State.loadResumeWaits, hload, true_and]
    exact ⟨fun h => if_pos h, fun h k => (if_neg h).trans (if_pos k), fun h k => (if_neg h).trans (if_neg k)⟩
  · have hclaim : s.loadResumeClaim = none := if_pos (by simpa using hload)
    exact ⟨fun h => absurd h.1 hload, fun _ h => absurd h.1 hload, fun _ _ => hclaim⟩

theorem State.eraseClass_of_load {g : Grant} (h : s.loadResumeClaim = some g) : s.eraseClass = some g := by
  simp only [State.eraseClass, h]

/-- Without a RESUME of LOAD the earliest RESUME due goes before an erase. -/
theorem State.eraseClass_of_noted (h : s.loadResumeClaim = none) : s.noteResumes.eraseClass =
    match s.noteResumes.bus.resumesDue with
    | cs :: _ => some (.resume cs)
    | [] => s.eraseClaim := by
  have hload : s.noteResumes.loadResumeClaim = none := h
  simp only [State.eraseClass, hload, s.filter_resumesDue_noteResumes]
  rfl

theorem State.eraseClaim_of_waiting {r : EraseRecord} (hrecord : s.erase.record = some r) (herasing : r.erasing = false)
    (hready : s.canProgram (deviceOf s.settings r.ps)) : s.eraseClaim = some (.erase r) := by
  simp [State.eraseClaim, hrecord, herasing, (s.canProgram_iff _).mpr hready]

theorem State.eraseClaim_of_none
    (h : ∀ r, s.erase.record = some r → r.erasing = true ∨ ¬ s.canProgram (deviceOf s.settings r.ps)) :
    s.eraseClaim = none := by
  unfold State.eraseClaim
  split
  next => rfl
  next r hrecord =>
    refine if_neg ?_
    rw [Bool.and_eq_true, s.canProgram_iff, Bool.not_eq_true']
    rintro ⟨herasing, hready⟩
    exact (h r hrecord).elim (by simp [herasing]) (· hready)

/-- Settles O32: the choice, then the claim of each class by what it waits for. -/
theorem arbiterOrderAndBurstLimit : Obligations.ArbiterOrderAndBurstLimit := by
  refine ⟨fun s tie => ⟨fun hburst g hjournal => ?limitJournal, fun hburst hjournal g hcommit => ?limitCommit,
      fun h => ?order⟩,
    fun s takes suspends htakes hsuspends => ?fill, fun s tie polls hpolls => ?poll, fun s => ?journal,
    fun s => ⟨State.commitClaim_of_none, fun c hcommit => ?commit⟩, fun s waits hwaits => ?erase⟩
  case limitJournal =>
    rw [State.chosen_at_limit hburst (by simp [State.othersWait, hjournal]), hjournal]
  case limitCommit =>
    rw [State.chosen_at_limit hburst (by simp [State.othersWait, hcommit]), hjournal, hcommit]
    rfl
  case order =>
    rw [← s.othersWait_eq_false_iff] at h
    rw [State.chosen_in_order h, State.inOrder]
    refine ⟨fun g hfill => ?_, fun hfill g hpoll => ?_, fun hfill hpoll g hjournal => ?_,
      fun hfill hpoll hjournal g hcommit => ?_, fun hfill hpoll hjournal hcommit => ?_⟩
    · rw [hfill]
      simp only [← s.othersWait_eq_false_iff]
      cases s.othersWait <;> rfl
    · simp only [hfill, hpoll]
    · simp only [hfill, hpoll, hjournal]
    · simp only [hfill, hpoll, hjournal, hcommit]
    · simp only [hfill, hpoll, hjournal, hcommit]
  case fill =>
    have htaken : ∀ f, s.queuedOn (fun d => d.takesFill s.fillsUnlimited) f = true ↔ takes f := by
      intro f
      rw [htakes, s.queuedOn_iff]
      simp only [Device.takesFill_iff]
    have hsuspended : ∀ f, s.queuedOn s.fillSuspendable f = true ↔ suspends f := by
      intro f
      rw [hsuspends, s.queuedOn_iff]
      simp only [s.fillSuspendable_iff]
    obtain ⟨hfill, hrest⟩ := s.fillClaim_cases htaken hsuspended
    refine ⟨hfill, fun hnone => ?_⟩
    obtain ⟨hsuspend, hidle⟩ := hrest hnone
    refine ⟨fun older f younger hfills hf holder => ?_, hidle⟩
    have hqueued : f.phase = .queued := ((s.queuedOn_iff _ f).mp ((hsuspended f).mpr hf)).1
    rw [hsuspend older f younger hfills hf holder, s.fillDevice_of_queued hqueued]
  case poll =>
    have htest : ∀ cs, s.devIs cs Device.takesPoll = true ↔ polls cs := by
      intro cs
      rw [hpolls, s.devIs_iff]
      simp only [Device.takesPoll_iff]
    have hfalse : ∀ {cs}, ¬ polls cs → s.devIs cs Device.takesPoll = false :=
      fun hno => Bool.eq_false_iff.mpr fun h => hno ((htest _).mp h)
    refine ⟨fun older cs younger hdue hcs holder => ?_, fun hnone => ?_⟩
    · have hfilter := filter_split (younger := younger) ((htest cs).mpr hcs) fun x hx => hfalse (holder x hx)
      refine ⟨fun hsingle => ?_, fun between other rest hyounger hother hbetween htied htie => ?_⟩
      · rw [s.pollClaim_eq, hdue, hfilter]
        cases hrest : younger.filter fun cs => s.devIs cs Device.takesPoll with
        | nil => rfl
        | cons other rest =>
          have hmem : other ∈ younger.filter fun cs => s.devIs cs Device.takesPoll := by simp [hrest]
          obtain ⟨hin, htakes⟩ := List.mem_filter.mp hmem
          have huntied : ¬ (s.bus.pollsTied = true ∧ tie = true) := by
            rintro ⟨htied, htie⟩
            rcases hsingle with h | h | h
            · simp [htied] at h
            · simp [htie] at h
            · exact h other hin ((htest other).mp htakes)
          simp only [if_neg huntied]
      · have hsecond := filter_split (younger := rest) ((htest other).mpr hother) fun x hx => hfalse (hbetween x hx)
        rw [s.pollClaim_eq, hdue, hfilter, hyounger, hsecond]
        simp only [htied, htie, and_self, if_true]
    · have hfilter : s.bus.pollsDue.filter (fun cs => s.devIs cs Device.takesPoll) = [] :=
        List.filter_eq_nil_iff.mpr fun x hx => by simp [hfalse (hnone x hx)]
      rw [s.pollClaim_eq, hfilter]
  case journal =>
    refine ⟨fun hload => ⟨fun hread hline => ?_, fun hread line hline => ?_, fun hnone => ?_⟩,
      fun hstate hscan => ⟨fun hread hstep => ?_, fun hread w hstep => ?_, fun hread c windows rest spoiled hstep => ?_,
        fun hnone => ?_⟩,
      fun hload hwrites => ⟨State.journalClaim_of_program_busy hload hwrites, fun hready =>
        ⟨fun r hrun hidle hkept => ?_, fun r hrun hbusy => ?_, fun hrun appends happends => ?_⟩⟩⟩
    · rw [State.journalClaim_of_load hload hread, hline]
    · rw [State.journalClaim_of_load hload hread, hline]
    · by_cases hread : s.canRead .cs0
      · obtain ⟨hline0, hline1⟩ := hnone.resolve_left (not_not_intro hread)
        rw [State.journalClaim_of_load hload hread]
        cases hline : s.bridge.load <;> simp_all
      · exact State.journalClaim_of_load_busy hload hread
    · rw [State.journalClaim_of_rebuild hstate hscan hread, hstep]
    · rw [State.journalClaim_of_rebuild hstate hscan hread, hstep]
    · rw [State.journalClaim_of_rebuild hstate hscan hread, hstep]
    · by_cases hread : s.canRead .cs0
      · rw [State.journalClaim_of_rebuild hstate hscan hread]
        rcases hnone.resolve_left (not_not_intro hread) with h | h <;> rw [h]
      · exact State.journalClaim_of_rebuild_busy hstate hscan hread
    · rw [State.journalClaim_of_program hload hwrites hready, hrun]
      simp [hidle, hkept]
    · rw [State.journalClaim_of_program hload hwrites hready, hrun]
      exact if_pos hbusy
    · rw [State.journalClaim_of_program hload hwrites hready, hrun]
      rw [← State.canAppend_iff hrun] at happends
      subst happends
      refine ⟨fun happend q rest hqueue hwaits => ?_, fun hnone => ?_⟩
      · simp [State.appendClaim_of_head happend hqueue, hwaits]
      · by_cases happend : s.canAppend = true
        · rcases hnone with h | h | ⟨q, rest, hqueue, hbusy⟩
          · exact absurd happend h
          · simp [State.appendClaim_of_empty h]
          · simp [State.appendClaim_of_head happend hqueue, hbusy]
        · simp [State.appendClaim_of_idle happend]
  case commit =>
    refine ⟨fun hidle => State.commitClaim_of_idle hcommit ?_, fun cs hcs hgranted => ⟨fun hread => ?_,
      fun w rest hwork => ?_, fun w bytes ps hwork htarget => ?_⟩⟩
    · rcases hidle with h | h | h | h | h | h <;> simp [CommitRecord.claim, h]
    · have hclaim : c.claim = some (c.oldPs, false) := by
        rcases hread with ⟨l, rest, found, h⟩ | ⟨w, h⟩ | ⟨w, l, rest, got, h⟩ <;> simp [CommitRecord.claim, h, hgranted]
      rw [hcs]
      exact State.commitClaim_of_read hcommit hclaim
    · rw [hcs]
      exact State.commitClaim_of_program hcommit (by simp [CommitRecord.claim, hwork, hgranted])
    · exact State.commitClaim_of_program hcommit (by simp [CommitRecord.claim, hwork, hgranted, htarget])
  case erase =>
    obtain rfl : waits = s.loadResumeWaits := hwaits
    obtain ⟨hload0, hload1, hnone⟩ := s.loadResumeClaim_cases
    refine ⟨fun h => State.eraseClass_of_load (hload0 h), fun h k => State.eraseClass_of_load (hload1 h k),
      fun h k => ⟨fun cs rest hdue => ?_, fun hdue => ⟨fun r hrecord herasing hready => ?_, fun hidle => ?_⟩⟩⟩
    · rw [State.eraseClass_of_noted (hnone h k), hdue]
    · rw [State.eraseClass_of_noted (hnone h k), hdue]
      exact State.eraseClaim_of_waiting hrecord herasing hready
    · rw [State.eraseClass_of_noted (hnone h k), hdue]
      exact State.eraseClaim_of_none hidle

end Sys2Proof.Machine
end

section
/-! The transactions that the grants begin (R81, R94 to R98, R112, R114, R120 to R123, R132, R138) and the levels of the
flash bus lines through them (R171). -/

namespace Sys2Proof.Machine

variable {s : State}

/-! ## Device records and transactions (R111, R112) -/

theorem State.mapDev_eq {cs : ChipSelect} {d : Device} (h : s.bus.dev cs = some d) (f : Device → Device) :
    s.mapDev cs f = s.setBus (s.bus.setDev cs (some (f d))) := by
  rw [State.mapDev, h]
  rfl

theorem State.beginRead_eq (s : State) (use : BusUse) (cs : ChipSelect) (a : Nat) :
    s.beginRead use cs a = s.withRead use cs a := rfl

theorem State.beginProgram_eq {cs : ChipSelect} {d : Device} (h : s.bus.dev cs = some d) (a : Nat) (bytes : List Byte)
    (o : Owner) : s.beginProgram cs a bytes o = s.withProgram cs d a bytes o :=
  State.mapDev_eq (s := s.begin .program cs (some a) _) h _

/-- The order in which a grant sets the device record and the transaction does not matter. -/
theorem FlashBus.setDev_withTx (x : FlashBus) (cs : ChipSelect) (d : Option Device) (tx : Option BusTx) :
    { x.setDev cs d with tx := tx } = ({ x with tx := tx } : FlashBus).setDev cs d := by
  cases cs <;> rfl

theorem State.begin_of_opcode {cs : ChipSelect} {d : Device} (h : s.bus.dev cs = some d) (f : Device → Device)
    (use : BusUse) (op : Byte) : (s.mapDev cs f).begin use cs none [[op]] = s.withOpcode use cs op (f d) := by
  rw [State.mapDev_eq h]
  exact congrArg s.setBus (FlashBus.setDev_withTx s.bus cs _ _)

/-! ## The span of a window (R95) -/

theorem headD_filter_range {p : Nat → Bool} {n i : Nat} (hi : i < n) (hp : p i = true) (hmin : ∀ j < n, p j = true → i ≤ j)
    (d : Nat) : ((List.range n).filter p).headD d = i := by
  have hfind : (List.range n).find? p = some i := by
    rw [List.find?_range_eq_some]
    refine ⟨hp, List.mem_range.mpr hi, fun j hj => ?_⟩
    rw [Bool.not_eq_true', Bool.eq_false_iff]
    intro hpj
    exact absurd (hmin j (hj.trans hi) hpj) (Nat.not_le.mpr hj)
  rw [List.headD_eq_head?_getD, List.head?_filter, hfind, Option.getD_some]

theorem getLastD_filter_range {p : Nat → Bool} {n i : Nat} (hi : i < n) (hp : p i = true)
    (hmax : ∀ j < n, p j = true → j ≤ i) (d : Nat) : ((List.range n).filter p).getLastD d = i := by
  obtain ⟨k, rfl⟩ : ∃ k, n = i + 1 + k := ⟨n - (i + 1), by omega⟩
  have habove : ((List.range k).map fun j => i + 1 + j).filter p = [] := by
    rw [List.filter_eq_nil_iff]
    intro j hj hpj
    obtain ⟨m, hm, rfl⟩ := List.mem_map.mp hj
    have := hmax (i + 1 + m) (by have := List.mem_range.mp hm; omega) hpj
    omega
  rw [List.range_add, List.filter_append, habove, List.append_nil, List.range_succ, List.filter_append,
    List.filter_cons_of_pos hp, List.filter_nil, List.getLastD_eq_getLast?, List.getLast?_append]
  rfl

theorem State.marked_iff (s : State) (c : CommitRecord) (w pos : Nat) : s.marked c w pos = true ↔ s.imaged c w pos := by
  simp [State.marked, Mask.has]

/-- A window's span goes from its lowest to its highest byte under an image mask. -/
theorem State.span_eq {c : CommitRecord} {w i j : Nat} (hij : i ≤ j) (hj : j < 256) (hi : s.imaged c w i)
    (hjmark : s.imaged c w j) (hbetween : ∀ pos, pos < 256 → s.imaged c w pos → i ≤ pos ∧ pos ≤ j) :
    s.span c w = (i, j) := by
  have hmark := s.marked_iff c w
  refine Prod.ext ?_ ?_
  · exact headD_filter_range (hij.trans_lt hj) ((hmark i).mpr hi)
      (fun pos hpos h => (hbetween pos hpos ((hmark pos).mp h)).1) 0
  · exact getLastD_filter_range hj ((hmark j).mpr hjmark) (fun pos hpos h => (hbetween pos hpos ((hmark pos).mp h)).2) 0

theorem State.spanBytes_eq {c : CommitRecord} {w i j : Nat} (h : s.span c w = (i, j)) :
    s.spanBytes c w = (List.range (j + 1 - i)).map fun k => s.newByte c w (i + k) 0xFF := by
  simp only [State.spanBytes, h]
  refine List.map_congr_left fun k _ => ?_
  simp only [s.marked_iff]
  rfl

/-! ## The grants -/

/-- A fill's sector is fixed; one on a suspended device counts, up to 4 (R81, R120). -/
theorem State.grant_fill {f : Fill} {d : Device} {ps : Nat} {cs : ChipSelect} (hps : s.resolve f.key.sector = ps)
    (hcs : cs = deviceOf s.settings ps) (hdev : s.bus.dev cs = some d) : s.grant (.fill f) = State.withRead
      { s with
        reads := { s.reads with fills := s.reads.fills.map fun x => if x = f then { x with phase := .issued ps } else x }
        bus := s.bus.setDev cs (some
          { d with fillsTaken := if d.state = .eraseSuspended then min 4 (d.fillsTaken + 1) else d.fillsTaken }) }
      .fillRead cs (sectorInDevice s.settings ps * 4096 + 64 * f.key.line) := by
  have hcount : (if d.state == .eraseSuspended then
        { d with fillsTaken := min Config.fillsPerSuspension (d.fillsTaken + 1) } else d)
      = { d with fillsTaken := if d.state = .eraseSuspended then min 4 (d.fillsTaken + 1) else d.fillsTaken } := by
    by_cases h : d.state = .eraseSuspended
    · simp [h, Config.fillsPerSuspension]
    · simp [h]
  have hissued : ∀ x : Fill, (if x == f then { x with phase := .issued ps } else x)
      = if x = f then { x with phase := .issued ps } else x := fun x => by simp
  subst hps hcs
  simp only [State.grant, State.grantFill, hissued]
  rw [State.mapDev_eq (d := d), hcount]
  exacts [rfl, hdev]

theorem ChipSelect.filter_bne (l : List ChipSelect) (cs : ChipSelect) :
    (l.filter fun x => x != cs) = l.filter fun x => decide (x ≠ cs) := by
  simp [bne, Bool.beq_eq_decide_eq]

theorem State.grant_poll (s : State) (cs : ChipSelect) : s.grant (.poll cs) = { s with bus := { s.bus with
    pollsDue := s.bus.pollsDue.filter fun x => decide (x ≠ cs)
    pollsTied := false
    tx := some ⟨.poll, cs, none, [[s.settings.profile.readStatusOp]]⟩ } } := by
  simp only [State.grant, State.grantPoll, ChipSelect.filter_bne]
  rfl

/-- The head record takes its sequence number and is marked begun (R132, R133). -/
theorem State.grant_append {d : Device} (hdev : s.bus.dev0 = some d) {q : QueueItem} {rest : List QueueItem} {bank : Bank}
    (hqueue : s.journal.queue = q :: rest) (hactive : s.journal.active = some bank)
    (hseq : s.journal.nextSeq ≤ 0xFFFFFFFF) : s.grant (.append q) = State.withProgram
      { s with journal := { s.journal with
        nextSeq := s.journal.nextSeq + 1
        queue := { q with begun := true, inProgress := true } :: rest } }
      .cs0 d (4096 * bankBase s.settings bank + 16 * s.journal.pointer) (q.record.bytes s.journal.nextSeq) .journal := by
  have hmarked : (q :: rest).mapIdx (fun i x => if i = 0 then { x with begun := true, inProgress := true } else x)
      = { q with begun := true, inProgress := true } :: rest := by
    rw [List.mapIdx_cons]
    exact congrArg _ (List.ext_getElem (by simp) (by simp))
  have hroom : ¬ Config.sequenceMax < s.journal.nextSeq := Nat.not_lt.mpr hseq
  simp only [State.grant, State.grantAppend, if_neg hroom, hactive, hqueue, hmarked]
  exact State.beginProgram_eq (cs := .cs0) (by exact hdev) _ _ _

theorem State.grant_append_of_exhausted (q : QueueItem) (h : 0xFFFFFFFF < s.journal.nextSeq) :
    s.grant (.append q) = s.setFenced .sequence := if_pos h

/-- A bank's window takes the numbers of its records (R132, R138). -/
theorem State.grant_bankProgram {d : Device} (hdev : s.bus.dev0 = some d) (r : BankRun)
    (hseq : s.journal.nextSeq + windowNumbers s.settings r.copy r.window - 1 ≤ 0xFFFFFFFF) :
    s.grant (.bankProgram r) = State.withProgram
      { s with journal := { s.journal with
        nextSeq := s.journal.nextSeq + windowNumbers s.settings r.copy r.window
        run := some { r with inProgress := true } } }
      .cs0 d (4096 * bankBase s.settings r.bank + 256 * r.window)
      (windowBytes s.settings r.copy r.generation r.window s.journal.nextSeq) .journal :=
  (if_neg (Nat.not_lt.mpr hseq)).trans (State.beginProgram_eq (cs := .cs0) (by exact hdev) _ _ _)

theorem State.grant_bankProgram_of_exhausted (r : BankRun)
    (h : 0xFFFFFFFF < s.journal.nextSeq + windowNumbers s.settings r.copy r.window - 1) :
    s.grant (.bankProgram r) = s.setFenced .sequence := if_pos h

/-- The erase record is marked, the device busy, and a RAW erase invalidates the lines of its sector (R123, R124, R127). -/
theorem State.grant_erase (r : EraseRecord) {d : Device} (hdev : s.bus.dev (deviceOf s.settings r.ps) = some d) {a : Nat}
    (ha : deviceAddr s.settings r.ps 0 = a) : s.grant (.erase r) = { s with
      erase := { s.erase with record := some { r with erasing := true } }
      reads := if r.kind = .raw then s.reads.withoutLines r.ps (List.range 64) else s.reads
      bus := FlashBus.setDev { s.bus with tx := some ⟨.erase, deviceOf s.settings r.ps, some (BitVec.ofNat 24 a),
          eraseFrames s.settings.profile a⟩ } (deviceOf s.settings r.ps) (some (d.startErase a .erase)) } := by
  obtain ⟨kind, ps, erasing⟩ := r
  have hbegin := State.mapDev_eq (s := (s.setErase { s.erase with record := some ⟨kind, ps, true⟩ }).begin .erase
    (deviceOf s.settings ps) (some a) (eraseFrames s.settings.profile a)) hdev fun d => d.startErase a .erase
  show s.grantErase _ = _
  simp only [State.grantErase, State.beginErase, ha]
  cases kind <;> simp only [reduceCtorEq, if_false, if_true]
  case raw =>
    rw [ReadUnit.invalidateLines_eq]
    exact congrArg (fun t : State => t.setReads (s.reads.withoutLines ps (List.range 64))) hbegin
  all_goals exact hbegin

/-! ## The lines (R171) -/

/-- Which bytes a transaction takes after those it sends. -/
theorem State.bytesTaken_of_window {tx : BusTx} {c : CommitRecord} {w : Nat} (huse : tx.use = .commitRead)
    (hcommit : s.commit = some c) (hwork : c.work = .copyWindow w) : s.bytesTaken tx = 256 := by
  simp only [State.bytesTaken, huse, hcommit, hwork]

theorem State.bytesTaken_of_line {tx : BusTx} {c : CommitRecord} (huse : tx.use = .commitRead)
    (hcommit : s.commit = some c) (hwork : ∀ w, c.work ≠ .copyWindow w) : s.bytesTaken tx = 64 := by
  simp only [State.bytesTaken, huse, hcommit]

/-- A frame on the lines, byte by byte and bit by bit, then the bytes taken, then the deassertion. -/
theorem frameLevels_eq (cs : ChipSelect) (sent : List Byte) (taken : Nat) : frameLevels cs sent taken =
    (sent.flatMap fun b => ([7, 6, 5, 4, 3, 2, 1, 0] : List Nat).flatMap fun i => clockLevels cs (some (b.getLsbD i)))
      ++ (List.replicate (8 * taken) none).flatMap (clockLevels cs) ++ [FlashLines.idle] := by
  have hbits : ((sent.flatMap msbFirst).map some).flatMap (clockLevels cs)
      = sent.flatMap fun b =>
        ([7, 6, 5, 4, 3, 2, 1, 0] : List Nat).flatMap fun i => clockLevels cs (some (b.getLsbD i)) := by
    rw [List.map_flatMap, List.flatMap_assoc]
    rfl
  rw [frameLevels, List.flatMap_append, hbits]

theorem clockLevels_eq (cs : ChipSelect) (bit : Option Bool) : clockLevels cs bit =
    [⟨decide (cs ≠ .cs0), decide (cs ≠ .cs1), false, bit⟩, ⟨decide (cs ≠ .cs0), decide (cs ≠ .cs1), true, bit⟩] := by
  cases cs <;> rfl

theorem State.deviceAddr_zero (s : State) (ps : Nat) : deviceAddr s.settings ps 0 = sectorInDevice s.settings ps * 4096 :=
  Nat.add_zero _

/-- Settles O33: the transaction of each grant, then the lines through it and the command that ends it. -/
theorem grantsBeginTheirTransactions : Obligations.GrantsBeginTheirTransactions := by
  refine ⟨fun s f ps cs d => State.grant_fill, State.grant_poll,
    fun s d hdev => ⟨fun q rest bank => State.grant_append hdev, State.grant_append_of_exhausted, fun r n hn => ?bank⟩,
    fun s c t ht => ⟨fun l rest found hwork => ?probe, fun w l rest got hwork => ?line, fun w hwork => ?window,
      fun w rest i j d hwork hdev hij hj hi hjmark hbetween => ?span, fun w bytes target d hwork htarget hdev => ?copy⟩,
    fun s cs d hdev => ⟨?fillSuspend, ?commitSuspend, ?resume, ?loadResume⟩, fun s line w bank => ⟨rfl, rfl⟩,
    fun s r cs d a hcs hdev ha => ?erase, fun s idle hidle => ⟨fun htx => ?quiet, fun tx clock htx hclock => ?lines⟩⟩
  case bank =>
    subst hn
    exact ⟨State.grant_bankProgram hdev r, State.grant_bankProgram_of_exhausted r⟩
  case probe | line | window =>
    subst ht
    simp only [State.grant, State.grantCommit, hwork]
    rfl
  case span =>
    obtain rfl : t = s.setCommit (some { c with granted := true }) := ht
    have hspan := State.span_eq hij hj hi hjmark hbetween
    simp only [State.grant, State.grantCommit, hwork, State.spanBytes_eq hspan, hspan]
    rw [State.beginProgram_eq (d := d), deviceAddr, Nat.add_assoc]
    exact hdev
  case copy =>
    obtain rfl : t = s.setCommit (some { c with granted := true }) := ht
    simp only [State.grant, State.grantCommit, hwork, htarget, Option.getD_some]
    rw [State.beginProgram_eq (d := d)]
    exacts [rfl, hdev]
  case fillSuspend | commitSuspend | loadResume => exact State.begin_of_opcode hdev _ _ _
  case resume =>
    simp only [State.grant, State.grantResume, State.mapDev_eq hdev, ChipSelect.filter_bne]
    cases cs <;> rfl
  case erase =>
    subst hcs
    rw [State.grant_erase r hdev ((s.deviceAddr_zero r.ps).trans ha.symm)]
    rfl
  case quiet =>
    rw [hidle]
    refine ⟨?_, fun levels => ?_⟩
    · simp only [State.flashLevels, htx]
      rfl
    · simp only [State.flashEnd, htx]
  case lines =>
    have hclockLevels : clock = clockLevels tx.cs := by
      funext bit
      rw [hclock, clockLevels_eq]
    subst hclockLevels hidle
    refine ⟨?_, ?_, ?_, ?_, ?_, fun c huse hcommit => ⟨?_, ?_⟩, fun levels f hspelled => ?_⟩
    · simp only [State.flashLevels, htx, frameLevels_eq]
      rfl
    · rintro (h | h) <;> simp only [State.bytesTaken, h]
    · intro h
      simp only [State.bytesTaken, h]
    · intro h
      simp only [State.bytesTaken, h]
    · rintro (h | h | h | h) <;> simp only [State.bytesTaken, h]
    · rintro ⟨w, hwork⟩
      exact State.bytesTaken_of_window huse hcommit hwork
    · exact State.bytesTaken_of_line huse hcommit
    · have hf := byteOfLevels_unique levels f hspelled
      subst hf
      refine ⟨fun h => ?_, fun h => ?_, fun h => ?_, fun h => ?_, fun h => ?_, fun h => ?command⟩
      case command => rcases h with h | h | h | h <;> simp only [State.flashEnd, htx, h]
      all_goals simp only [State.flashEnd, htx, h]

end Sys2Proof.Machine
end

section
/-! The ends of command frames, polls and the poll timer (R114, R121), status bytes (R28, R31, R115) and timeouts (R28,
R116). -/

namespace Sys2Proof.Machine

variable {s : State}

/-! ## Command frames (R114, R121) -/

theorem State.dev_busIdle (s : State) (cs : ChipSelect) : s.busIdle.bus.dev cs = s.bus.dev cs := by cases cs <;> rfl

/-- The last frame of a command leaves the bus idle and its device as its use says. -/
theorem State.frameEnd_of_command {tx : BusTx} {d : Device} (hdev : s.bus.dev tx.cs = some d)
    {f : Device → Device} (hend : s.frameEnd = s.busIdle.mapDev tx.cs f) : exec .commandFrameEnd s = .next
      { s with bus := { s.bus with tx := none }.setDev tx.cs (some (f d)) }.noteResumes := by
  show State.noted s.frameEnd = _
  rw [hend, State.mapDev_eq ((s.dev_busIdle tx.cs).trans hdev)]
  rfl

theorem exec_commandFrameEnd_of_still (h : s.frameEnd = s) : exec .commandFrameEnd s = .next s.noteResumes :=
  congrArg State.noted h

/-! ## The poll interval timer (R114) -/

theorem FlashBus.addPoll_eq (x : FlashBus) (cs : ChipSelect) :
    x.addPoll cs = { x with pollsDue := if cs ∈ x.pollsDue then x.pollsDue else x.pollsDue ++ [cs] } := by
  unfold FlashBus.addPoll
  by_cases h : cs ∈ x.pollsDue <;> simp [h]

theorem exec_pollDue_of_running {cs : ChipSelect} {d : Device} (hdev : s.bus.dev cs = some d) (hruns : d.pollTimer = true) :
    exec (.pollDue cs) s = .next { s with
      bus := FlashBus.setDev
        { s.bus with pollsDue := if cs ∈ s.bus.pollsDue then s.bus.pollsDue else s.bus.pollsDue ++ [cs] } cs
        (some { d with pollTimer := false }) } := by
  have hexpires : s.devIs cs Device.pollTimer = true := (s.devIs_iff cs _).mpr ⟨d, hdev, hruns⟩
  refine congrArg Host.Outcome.next ((if_pos hexpires).trans ?_)
  rw [State.mapDev_eq hdev, FlashBus.addPoll_eq]
  cases cs <;> rfl

theorem exec_pollDue_of_stopped {cs : ChipSelect} (h : ∀ d, s.bus.dev cs = some d → d.pollTimer = false) :
    exec (.pollDue cs) s = .next s := by
  refine congrArg Host.Outcome.next (if_neg fun hexpires => ?_)
  obtain ⟨d, hdev, hruns⟩ := (s.devIs_iff cs _).mp hexpires
  simp [h d hdev] at hruns

/-- Settles O34: the frame's end by its use, and the timer's expiry. -/
theorem commandFrameEndStartsTheTimers : Obligations.CommandFrameEndStartsTheTimers := by
  refine ⟨fun s => ⟨fun tx d htx hdev => ⟨fun huse => ?start, fun huse => ?poll, fun huse hstep => ?resume⟩,
    fun htx => exec_commandFrameEnd_of_still ?idle, fun tx htx huse => exec_commandFrameEnd_of_still ?read⟩,
    fun s cs => ⟨fun d => exec_pollDue_of_running, exec_pollDue_of_stopped⟩⟩
  case start =>
    refine State.frameEnd_of_command hdev (f := Device.commandEnd) ?_
    rcases huse with h | h <;> simp only [State.frameEnd, htx, h]
  case poll =>
    rcases huse with h | ⟨h, hstep⟩
    · refine State.frameEnd_of_command hdev (f := Device.suspendEnd) ?_
      simp only [State.frameEnd, htx, h]
    · have hresume : d.resumeEnd = { d with pollTimer := true } := if_pos (by simp [hstep])
      rw [← hresume]
      refine State.frameEnd_of_command hdev ?_
      simp only [State.frameEnd, htx, h]
  case resume =>
    have hresume : d.resumeEnd =
        { d with state := .busyErase, pollTimer := true, opTimer := .running, polledBusy := false } :=
      if_neg (by simpa using hstep)
    rw [← hresume]
    refine State.frameEnd_of_command hdev ?_
    simp only [State.frameEnd, htx, huse]
  case idle => simp only [State.frameEnd, htx]
  case read => rcases huse with h | h | h | h | h <;> simp only [State.frameEnd, htx, h]

/-! ## LOAD goes on (R28, R30, R31) -/

theorem State.stopWaits_iff (s : State) :
    s.stopWaits = true ↔ s.bridge.stopPower = true ∨ s.bridge.stopOrderly = true := by
  simp [State.stopWaits]

theorem State.stopWaits_eq_false (hpower : s.bridge.stopPower = false) (horderly : s.bridge.stopOrderly = false) :
    s.stopWaits = false := by
  simp [State.stopWaits, hpower, horderly]

/-- A device that is READY or STUCK. -/
def Device.settled (d : Device) : Prop := d.state = .ready ∨ d.state = .stuck

theorem State.settled_iff {cs : ChipSelect} {d : Device} (hdev : s.bus.dev cs = some d) :
    s.settled cs = true ↔ d.settled := by
  simp [State.settled, s.devIs_iff, hdev, Device.settled]

section advance
variable {d0 d1 : Device} (hdev0 : s.bus.dev .cs0 = some d0) (hdev1 : s.bus.dev .cs1 = some d1)
include hdev0 hdev1

/-- While a stop waits, or a chip select is not settled, LOAD goes no further. -/
theorem State.loadAdvance_of_waiting (h : s.stopWaits = true ∨ ¬ d0.settled ∨ ¬ d1.settled) : s.loadAdvance = s := by
  refine if_neg fun hall => ?_
  simp only [Bool.and_eq_true, Bool.not_eq_true', State.settled_iff hdev0, State.settled_iff hdev1] at hall
  obtain ⟨⟨⟨-, hstop⟩, h0⟩, h1⟩ := hall
  rcases h with h | h | h
  · simp [h] at hstop
  · exact h h0
  · exact h h1

variable (hload : s.bridge.state = .load) (hpolling : s.bridge.load = .polling) (hstop : s.stopWaits = false)
  (h1 : d1.settled)
include hload hpolling hstop h1

theorem State.loadAdvance_of_ready (h0 : d0.state = .ready) :
    s.loadAdvance = { s with bridge := { s.bridge with load := .readLine0 } } := by
  have hsettled0 : s.settled .cs0 = true := (State.settled_iff hdev0).mpr (.inl h0)
  have hsettled1 : s.settled .cs1 = true := (State.settled_iff hdev1).mpr h1
  have hstuck : ¬ s.devIs .cs0 (fun d => d.state == .stuck) = true := by
    simp [s.devIs_iff, hdev0, h0]
  exact (if_pos (by simp [hload, hpolling, hstop, hsettled0, hsettled1])).trans (if_neg hstuck)

theorem State.loadAdvance_of_stuck (h0 : d0.state = .stuck) :
    s.loadAdvance = (s.withEvent { kind := .descriptorInvalid, value := some 0 }).enterRaw := by
  have hsettled0 : s.settled .cs0 = true := (State.settled_iff hdev0).mpr (.inr h0)
  have hsettled1 : s.settled .cs1 = true := (State.settled_iff hdev1).mpr h1
  have hstuck : s.devIs .cs0 (fun d => d.state == .stuck) = true := by
    simp [s.devIs_iff, hdev0, h0]
  exact (if_pos (by simp [hload, hpolling, hstop, hsettled0, hsettled1])).trans (if_pos hstuck)

end advance

/-- The other chip select. -/
def otherChip (cs : ChipSelect) : ChipSelect := if cs = .cs0 then .cs1 else .cs0

theorem otherChip_ne (cs : ChipSelect) : otherChip cs ≠ cs := by cases cs <;> simp [otherChip]

/-- LOAD by the device just settled and the other one. -/
theorem State.loadAdvance_cases {cs : ChipSelect} {d e : Device} (hload : s.bridge.state = .load)
    (hpolling : s.bridge.load = .polling) (hself : s.bus.dev cs = some d) (hother : s.bus.dev (otherChip cs) = some e)
    (hd : d.settled) :
    (s.bridge.stopPower = true ∨ s.bridge.stopOrderly = true ∨ e.state = .unknown → s.loadAdvance = s)
    ∧ (s.bridge.stopPower = false → s.bridge.stopOrderly = false → e.settled →
      ((if cs = .cs0 then d else e).state = .ready →
        s.loadAdvance = { s with bridge := { s.bridge with load := .readLine0 } })
      ∧ ((if cs = .cs0 then d else e).state = .stuck →
        s.loadAdvance = (s.withEvent { kind := .descriptorInvalid, value := some 0 }).enterRaw)) := by
  have hunknown : e.state = .unknown → ¬ e.settled := fun h => by simp [Device.settled, h]
  rw [← or_assoc, ← s.stopWaits_iff]
  cases cs
  case cs0 =>
    exact ⟨fun h => State.loadAdvance_of_waiting hself hother (h.imp_right fun h => .inr (hunknown h)),
      fun hpower horderly he =>
        ⟨State.loadAdvance_of_ready hself hother hload hpolling (State.stopWaits_eq_false hpower horderly) he,
          State.loadAdvance_of_stuck hself hother hload hpolling (State.stopWaits_eq_false hpower horderly) he⟩⟩
  case cs1 =>
    exact ⟨fun h => State.loadAdvance_of_waiting hother hself (h.imp_right fun h => .inl (hunknown h)),
      fun hpower horderly _ =>
        ⟨State.loadAdvance_of_ready hother hself hload hpolling (State.stopWaits_eq_false hpower horderly) hd,
          State.loadAdvance_of_stuck hother hself hload hpolling (State.stopWaits_eq_false hpower horderly) hd⟩⟩

/-- A RESUME of R31, or its poll, is left. -/
theorem State.loadEnd_of_waiting
    (h : s.stopWaits = true ∨ ∃ cs e, s.bus.dev cs = some e ∧ e.resumeStep ≠ .none) : s.loadEnd = s := by
  refine if_neg fun hall => ?_
  simp only [Bool.and_eq_true, Bool.not_eq_true'] at hall
  obtain ⟨⟨⟨-, hstop⟩, h0⟩, h1⟩ := hall
  rcases h with h | ⟨cs, e, hdev, hstep⟩
  · simp [h] at hstop
  · have hleft : s.devIs cs (fun d => d.resumeStep != .none) = true := (s.devIs_iff cs _).mpr ⟨e, hdev, by simpa using hstep⟩
    cases cs
    · simp [hleft] at h0
    · simp [hleft] at h1

/-- With none left the bridge enters REBUILD. -/
theorem State.loadEnd_of_done (hload : s.bridge.state = .load) (hresuming : s.bridge.load = .resuming)
    (hstop : s.stopWaits = false) (h : ∀ cs e, s.bus.dev cs = some e → e.resumeStep = .none) : s.loadEnd = { s with
      bridge := { s.bridge with state := .rebuild, load := .idle }
      journal := { s.journal with rebuild := .readA } } := by
  have hnone : ∀ cs, s.devIs cs (fun d => d.resumeStep != .none) = false := by
    intro cs
    rw [Bool.eq_false_iff, ne_eq, s.devIs_iff]
    rintro ⟨e, hdev, hstep⟩
    simp [h cs e hdev] at hstep
  exact if_pos (by simp [hload, hresuming, hstop, hnone])

/-! ## Status bytes (R115) -/

theorem exec_statusPoll_of_poll {tx : BusTx} {d : Device} (htx : s.bus.tx = some tx) (huse : tx.use = .poll)
    (hdev : s.bus.dev tx.cs = some d) (byte : Byte) :
    exec (.statusPoll byte) s = .next (s.busIdle.polled tx.cs d byte).noteResumes := by
  show State.noted (s.takePoll byte) = _
  have hpoll : (tx.use == .poll) = true := by simp [huse]
  simp only [State.takePoll, htx, hpoll, hdev, if_true]
  rfl

theorem exec_statusPoll_of_other (h : s.busHolds .poll = false) (byte : Byte) :
    exec (.statusPoll byte) s = .next s.noteResumes := by
  show State.noted (s.takePoll byte) = _
  unfold State.takePoll
  cases htx : s.bus.tx with
  | none => rfl
  | some tx =>
    have hpoll : (tx.use == .poll) = false := by simpa only [State.busHolds, htx] using h
    simp only [hpoll, Bool.false_eq_true, if_false]
    rfl

/-- A device settled by its poll: the bus idle, its polls no longer due. -/
theorem State.settle_busIdle (s : State) (cs : ChipSelect) (d : Device) : s.busIdle.settle cs d = { s with
    bus := FlashBus.setDev
      { s.bus with tx := none, pollsDue := s.bus.pollsDue.filter fun x => decide (x ≠ cs) } cs (some d) } := by
  simp only [State.settle, ChipSelect.filter_bne]
  cases cs <;> rfl

section polled
variable {cs : ChipSelect} {d : Device} {byte : Byte}

theorem State.polled_of_busy (hstep : d.resumeStep ≠ .pollWaits) (hbusy : byte.getLsbD s.settings.profile.busyBit = true) :
    s.polled cs d byte = s.setDev cs (some { d with pollTimer := true, polledBusy := true }) :=
  (if_pos hbusy).trans (if_neg (by simpa using hstep))

/-- The one poll after R31's RESUME. -/
theorem State.polled_of_resume (hstep : d.resumeStep = .pollWaits) : s.polled cs d byte =
    (s.settle cs (if byte.getLsbD s.settings.profile.busyBit = true then d.resumedErase else d.nowReady)).loadEnd := by
  have hwaits : (d.resumeStep == .pollWaits) = true := by simp [hstep]
  unfold State.polled Profile.busy
  cases byte.getLsbD s.settings.profile.busyBit <;> simp [hwaits]

/-- A clear busy bit acts by the device's state. -/
theorem State.polled_of_clear (hstep : d.resumeStep ≠ .pollWaits)
    (hbusy : byte.getLsbD s.settings.profile.busyBit = false) : s.polled cs d byte =
      match d.state with
      | .unknown => (s.settle cs d.nowReady).loadAdvance
      | .ready => s
      | .busyProgram => (s.settle cs d.nowReady).endOperation d.op (!s.settings.profile.error byte)
      | .busyErase =>
        if d.suspendRequested then s.settle cs d.suspended
        else (s.settle cs d.nowReady).endOperation d.op (!s.settings.profile.error byte)
      | .eraseSuspended => s
      | .stuck => s.settle cs d.nowReady :=
  (if_neg (by simp [Profile.busy, hbusy])).trans (if_neg (by simpa using hstep))

end polled

theorem Profile.not_error_eq (p : Profile) (byte : Byte) : (!p.error byte) =
    match p.errorBit with
    | none => true
    | some i => !byte.getLsbD i := by
  unfold Profile.error
  cases p.errorBit <;> rfl

/-- Settles O35: the byte by its busy bit, the device's state and LOAD. -/
theorem statusPollActsOnTheByte : Obligations.StatusPollActsOnTheByte := by
  refine ⟨fun s tx d byte htx huse hdev idle hidle ready hready => ?_, fun s byte h => exec_statusPoll_of_other h byte⟩
  have hsettle : ∀ d', s.busIdle.settle tx.cs d' = idle d' := fun d' => by rw [hidle, s.settle_busIdle]
  have hnowReady : d.nowReady = ready := by rw [hready]; rfl
  rw [exec_statusPoll_of_poll htx huse hdev]
  refine ⟨fun hstep hbusy => ?busy, fun hstep hclear => ?clear, fun hstep after hafter => ?resume⟩
  case busy =>
    rw [State.polled_of_busy (s := s.busIdle) hstep hbusy]
    rfl
  case clear =>
    rw [State.polled_of_clear (s := s.busIdle) hstep hclear, hnowReady, hsettle]
    refine ⟨fun hstate => ?_, fun hstate hsuspend => ?_, fun o hop hstate => ?_, fun e hstate hload hpolling he => ?_⟩
    · simp only [hstate]
    · simp only [hstate, hsuspend, if_true, hsettle]
      rfl
    · rw [hop, Profile.not_error_eq]
      rcases hstate with hstate | ⟨hstate, hsuspend⟩
      · simp only [hstate]
        rfl
      · simp only [hstate, hsuspend, Bool.false_eq_true, if_false]
        rfl
    · have hself : (idle ready).bus.dev tx.cs = some ready := by
        rw [hidle, FlashBus.setDev_dev, if_pos rfl]
      have hother : (idle ready).bus.dev (otherChip tx.cs) = some e := by
        rw [hidle, FlashBus.setDev_dev, if_neg (otherChip_ne tx.cs)]
        exact he
      have hbridge : (idle ready).bridge = s.bridge := by rw [hidle]
      obtain ⟨hwaits, hgoes⟩ := State.loadAdvance_cases (by rw [hbridge, hload]) (by rw [hbridge, hpolling]) hself hother
        (by rw [hready]; exact .inl rfl)
      rw [hbridge] at hwaits hgoes
      have hreadyState : ready.state = .ready := by rw [hready]
      simp only [hstate]
      refine ⟨fun h => by rw [hwaits h], fun hpower horderly => ⟨fun h => ?_, fun hcs h => ?_⟩⟩
      · obtain ⟨hnext, -⟩ := hgoes hpower horderly (h.imp_right And.right)
        rw [hnext]
        split
        · exact hreadyState
        · next hcs => exact h.resolve_right fun hstuck => hcs hstuck.1
      · obtain ⟨-, hraw⟩ := hgoes hpower horderly (.inr h)
        rw [hraw]
        rw [hcs]
        exact h
  case resume =>
    have hpolled : s.busIdle.polled tx.cs d byte = after.loadEnd := by
      rw [State.polled_of_resume hstep, hnowReady, hsettle, hafter, hready]
      rfl
    have hbridge : after.bridge = s.bridge := by rw [hafter, hidle]
    have hjournal : after.journal = s.journal := by rw [hafter, hidle]
    rw [hpolled]
    refine ⟨fun hwaits => ?_, fun hload hresuming hpower horderly hdone => ?_⟩
    · rw [State.loadEnd_of_waiting]
      rwa [State.stopWaits_iff, hbridge, or_assoc]
    · rw [State.loadEnd_of_done (by rw [hbridge, hload]) (by rw [hbridge, hresuming])
        (State.stopWaits_eq_false (by rw [hbridge, hpower]) (by rw [hbridge, horderly])) hdone, hbridge, hjournal]

/-! ## Timeouts (R28, R116) -/

/-- An event received among those of another block stands in some place of theirs. -/
theorem State.raiseAmong_eq (s : State) (e : EventBody) (f : State → State) {told : State}
    (htold : told = f (s.setEvents ⟨[], 0, .armed⟩)) :
    ∃ before after : List EventBody, told.events.queue.map EventRecord.body = before ++ after
      ∧ s.raiseAmong e f = { told with
          free := told.free + 1, events := (before ++ e :: after).foldl EventBlock.receive s.events } := by
  subst htold
  exact ⟨_, _, (List.take_append_drop _ _).symm, rfl⟩

/-- Among no events it stands alone. -/
theorem State.raiseAmong_of_silent (s : State) (e : EventBody) (f : State → State) {told : State}
    (htold : told = f (s.setEvents ⟨[], 0, .armed⟩)) (hsilent : told.events.queue = []) :
    s.raiseAmong e f = { told with free := told.free + 1, events := s.events.receive e } := by
  obtain ⟨before, after, hbodies, heq⟩ := s.raiseAmong_eq e f htold
  rw [hsilent, List.map_nil, eq_comm, List.append_eq_nil_iff] at hbodies
  obtain ⟨rfl, rfl⟩ := hbodies
  exact heq

theorem State.timeoutEvent_eq (s : State) (cs : ChipSelect) (o : Operation) : s.timeoutEvent cs (some o) =
    { kind := .deviceTimeout
      value := some (if cs = .cs0 then 0 else 1)
      location := o.addr.map fun a => .ps (if cs = .cs0 then a / 4096 else a / 4096 + s.settings.deviceSectors) } := by
  cases cs <;> rfl

theorem exec_operationTimeout_of_running {cs : ChipSelect} {d : Device} (hdev : s.bus.dev cs = some d)
    (hruns : d.opTimer = .running) : exec (.operationTimeout cs) s = .next (s.timedOut cs d).noteResumes := by
  show State.noted (s.operationTimeout cs) = _
  simp only [State.operationTimeout, hdev]
  exact congrArg State.noted (if_pos (by simp [hruns]))

theorem exec_operationTimeout_of_stopped {cs : ChipSelect} (h : ∀ d, s.bus.dev cs = some d → d.opTimer ≠ .running) :
    exec (.operationTimeout cs) s = .next s.noteResumes := by
  show State.noted (s.operationTimeout cs) = _
  unfold State.operationTimeout
  cases hdev : s.bus.dev cs with
  | none => rfl
  | some d => exact congrArg State.noted (if_neg (by simpa using h d hdev))

/-- A failed DATA erase of a sector without its mark goes to the queue's tail with it (R12). -/
theorem State.eraseEnd_of_first_failure {ps : Nat} {q : QueuedSector} {rest : List QueuedSector}
    (hrecord : s.erase.record = some ⟨.data, ps, true⟩) (hqueue : s.map.queue = q :: rest) (hmark : q.failedOnce = false) :
    s.eraseEnd false = { s with
      erase := { s.erase with record := none }
      map := { s.map with queue := rest ++ [(⟨q.ps, true⟩ : QueuedSector)] } } := by
  have hunmarked : s.map.headMarked = false := by simp only [SectorMap.headMarked, hqueue, hmark]
  have hrequeue : s.map.requeueHead = { s.map with queue := rest ++ [(⟨q.ps, true⟩ : QueuedSector)] } := by
    simp only [SectorMap.requeueHead, hqueue]
  simp only [State.eraseEnd, hrecord]
  refine (if_pos (show _ = true from ?_)).trans ?_
  · show (!false && !s.map.headMarked) = true
    rw [hunmarked]
    rfl
  · show (s.setErase _).setMap s.map.requeueHead = _
    rw [hrequeue]
    rfl

/-- Settles O36: the timer stopped, and the device STUCK with its owner told. -/
theorem operationTimeoutMakesTheDeviceStuck : Obligations.OperationTimeoutMakesTheDeviceStuck := by
  refine fun s cs => ⟨exec_operationTimeout_of_stopped, fun d o hdev hruns hop timeout htimeout stuck hstuck => ?_⟩
  have hexec : exec (.operationTimeout cs) s
      = .next (stuck.raiseAmong timeout fun t => t.tellOwner o.owner false).noteResumes := by
    rw [exec_operationTimeout_of_running hdev hruns, State.timedOut, hop, State.timeoutEvent_eq, htimeout, hstuck]
    rfl
  have hevents : stuck.events = s.events := by rw [hstuck]
  have hfree : stuck.free = s.free := by rw [hstuck]
  refine ⟨fun told htold => ?_, fun howner => ?_, fun howner ps q rest hrecord hqueue hmark => ?_⟩
  · obtain ⟨before, after, hbodies, heq⟩ :=
      stuck.raiseAmong_eq timeout (fun t => t.tellOwner o.owner false) htold
    exact ⟨before, after, hbodies, by rw [hexec, heq, hevents]⟩
  · rw [hexec, State.raiseAmong_of_silent (told := stuck.setEvents ⟨[], 0, .armed⟩), ← hevents, ← hfree]
    · rfl
    · rw [howner]
      rfl
    · rfl
  · have hend := State.eraseEnd_of_first_failure (s := stuck.setEvents ⟨[], 0, .armed⟩) (ps := ps) (q := q) (rest := rest)
      (by rw [hstuck]; exact hrecord) (by rw [hstuck]; exact hqueue) hmark
    have hexec' : exec (.operationTimeout cs) s
        = .next (stuck.raiseAmong timeout fun t => t.eraseEnd false).noteResumes := by
      rw [hexec, howner]
      rfl
    rw [hexec', State.raiseAmong_of_silent stuck timeout (fun t => t.eraseEnd false) hend.symm rfl, ← hevents, ← hfree,
      hstuck]
    rfl

/-- Settles O37: the timeout by the state, the chip select and the other device. -/
theorem loadPollTimeoutSettlesTheChipSelect : Obligations.LoadPollTimeoutSettlesTheChipSelect := by
  refine ⟨fun s cs hout => ?_, fun s cs d e hload hpolling hdev hunknown he u hu => ?_⟩
  · show State.noted (s.loadPollTimeout cs) = _
    unfold State.loadPollTimeout
    cases hdev : s.bus.dev cs with
    | none => rfl
    | some d =>
      refine congrArg State.noted (if_neg ?_)
      rcases hout with h | h
      · simp [h]
      · simp [h d hdev]
  · have hexec : exec (.loadPollTimeout cs) s = .next u.loadAdvance.noteResumes := by
      show State.noted (s.loadPollTimeout cs) = _
      simp only [State.loadPollTimeout, hdev]
      refine congrArg State.noted ((if_pos (by simp [hload, hunknown])).trans (congrArg State.loadAdvance ?_))
      rw [hu]
      cases cs <;> rfl
    have hbridge : u.bridge = s.bridge := by rw [hu]; rfl
    have hself : u.bus.dev cs = some { d with state := .stuck } := by
      rw [hu]
      exact (FlashBus.setDev_dev s.bus cs cs _).trans (if_pos rfl)
    have hother : u.bus.dev (otherChip cs) = some e := by
      rw [hu]
      exact ((FlashBus.setDev_dev s.bus cs _ _).trans (if_neg (otherChip_ne cs))).trans he
    obtain ⟨hwaits, hgoes⟩ := State.loadAdvance_cases (by rw [hbridge, hload]) (by rw [hbridge, hpolling]) hself hother
      (.inr rfl)
    rw [hbridge] at hwaits hgoes
    rw [hexec]
    refine ⟨fun h => by rw [hwaits h], fun hpower horderly => ⟨fun hcs h => ?_, fun h => ?_⟩⟩
    · obtain ⟨hnext, -⟩ := hgoes hpower horderly (.inl h)
      rw [hnext]
      rw [hcs]
      exact h
    · obtain ⟨-, hraw⟩ := hgoes hpower horderly (h.imp_left And.right)
      rw [hraw]
      split
      · rfl
      · next hcs => exact h.resolve_left fun hready => hcs hready.1

end Sys2Proof.Machine
end

section
/-! The Erase Engine: its choice of work (R123, R126, R127), the end of an erase (R12, R124 to R127, R148), and the
start of a compaction (R137, R138). -/

namespace Sys2Proof.Machine

variable {s : State}

/-! ## The choice (R123) -/

theorem exec_eraseClaim_of_busy (h : s.erase.record ≠ none ∨ s.bridge.stopPower = true ∨ s.bridge.stopOrderly = true) :
    exec .eraseClaim s = .next s := by
  refine congrArg Host.Outcome.next (if_neg fun hfree => ?_)
  rw [Bool.and_eq_true, Option.isNone_iff_eq_none, Bool.not_eq_true'] at hfree
  obtain ⟨hrecord, hstop⟩ := hfree
  rcases h with h | h
  · exact h hrecord
  · exact absurd (s.stopWaits_iff.mpr h) (by simp [hstop])

theorem exec_eraseClaim_of_free (hrecord : s.erase.record = none) (hpower : s.bridge.stopPower = false)
    (horderly : s.bridge.stopOrderly = false) : exec .eraseClaim s = .next s.eraseChoice :=
  congrArg Host.Outcome.next (if_pos (by simp [hrecord, State.stopWaits_eq_false hpower horderly]))

/-- In RAW the RAW erase without an outcome is claimed, and nothing else. -/
theorem State.eraseChoice_of_raw (hstate : s.bridge.state = .raw) {ps : Nat} (hraw : s.erase.raw = some ⟨ps, none⟩) :
    s.eraseChoice = { s with erase := { s.erase with record := some ⟨.raw, ps, false⟩ } } := by
  simp [State.eraseChoice, hstate, State.rawChoice, hraw, State.setErase]

theorem State.eraseChoice_of_raw_idle (hstate : s.bridge.state = .raw) (hraw : ∀ ps, s.erase.raw ≠ some ⟨ps, none⟩) :
    s.eraseChoice = s := by
  have hnone : s.rawChoice = none := by
    unfold State.rawChoice
    cases hr : s.erase.raw with
    | none => rfl
    | some r =>
      obtain ⟨ps, outcome⟩ := r
      cases outcome with
      | none => exact absurd hr (hraw ps)
      | some _ => rfl
  simp [State.eraseChoice, hstate, hnone]

section choice
variable (hstate : s.bridge.state ≠ .raw)
include hstate

/-- Outside RAW a bank's sector goes before the queue's head. -/
theorem State.eraseChoice_of_bank {w : BankWork} (hbank : s.bankChoice = some w) : s.eraseChoice = { s with
    erase := { s.erase with
      record := some ⟨.bank w, bankBase s.settings w.bank + w.place, false⟩, bankWork := some w } } := by
  simp [State.eraseChoice, hstate, hbank, State.setErase]

theorem State.eraseChoice_of_data (hbank : s.bankChoice = none) {ps : Nat} (hdata : s.dataChoice = some ps) :
    s.eraseChoice = { s with erase := { s.erase with record := some ⟨.data, ps, false⟩ } } := by
  simp [State.eraseChoice, hstate, hbank, hdata, State.setErase]

theorem State.eraseChoice_of_none (hbank : s.bankChoice = none) (hdata : s.dataChoice = none) : s.eraseChoice = s := by
  simp [State.eraseChoice, hstate, hbank, hdata]

end choice

theorem State.dataEraseHeld_iff (s : State) : s.dataEraseHeld = true ↔ s.bridge.state ≠ .service
    ∨ s.journal.compaction ≠ .idle ∨ s.journalFull = true ∨ s.journal.fenced = true := by
  simp [State.dataEraseHeld, or_assoc]

theorem State.bankEraseHeld_iff (s : State) : s.bankEraseHeld = true ↔ s.journal.fenced = true
    ∨ ¬ (s.bridge.state = .service ∨ (s.bridge.state = .rebuild ∧ s.journal.rebuild = .firstErase)) := by
  simp only [State.bankEraseHeld, Bool.or_eq_true, Bool.not_eq_true', Bool.or_eq_false_iff, Bool.and_eq_false_iff,
    beq_eq_false_iff_ne, not_or, not_and_or]

theorem State.bankChoice_of_held (h : s.bankEraseHeld = true) : s.bankChoice = none := if_pos h

theorem State.bankChoice_of_free (h : ¬ s.bankEraseHeld = true) : s.bankChoice = s.staleBank := if_neg h

/-- The work begun goes on while its bank is STALE. -/
theorem State.staleBank_of_begun {w : BankWork} (hwork : s.erase.bankWork = some w)
    (hstale : s.journal.isIn w.bank .stale = true) : s.staleBank = some w := by
  simp [State.staleBank, hwork, hstale]

/-- Else a STALE bank is begun, bank A before bank B. -/
theorem State.staleBank_of_fresh (hnone : ∀ w, s.erase.bankWork = some w → s.journal.isIn w.bank .stale = false) :
    s.staleBank = if s.journal.isIn .a .stale then some ⟨.a, 0, 1⟩
      else if s.journal.isIn .b .stale then some ⟨.b, 0, 1⟩ else none := by
  cases hwork : s.erase.bankWork with
  | none => simp only [State.staleBank, hwork]
  | some w => simp only [State.staleBank, hwork, hnone w hwork, Bool.false_eq_true, if_false]

theorem State.staleBank_of_none (ha : s.journal.isIn .a .stale = false) (hb : s.journal.isIn .b .stale = false) :
    s.staleBank = none := by
  have hany : ∀ bank, s.journal.isIn bank .stale = false := fun bank => by cases bank <;> assumption
  simp [State.staleBank_of_fresh fun w _ => hany w.bank, ha, hb]

theorem State.bankChoice_of_none_stale (ha : s.journal.isIn .a .stale = false) (hb : s.journal.isIn .b .stale = false) :
    s.bankChoice = none := by
  rw [State.bankChoice, State.staleBank_of_none ha hb, ite_self]

theorem State.dataChoice_of_held (h : s.dataEraseHeld = true ∨ s.erase.wait ≠ none) : s.dataChoice = none := by
  refine if_pos ?_
  rcases h with h | h
  · simp [h]
  · simp [Option.isSome_iff_ne_none.mpr h]

theorem State.dataChoice_of_free (hheld : ¬ s.dataEraseHeld = true) (hwait : s.erase.wait = none) :
    s.dataChoice = s.map.queued.head? := if_neg (by simp [hheld, hwait])

/-- Held in both kinds, the engine outside RAW chooses nothing. -/
theorem State.eraseChoice_of_held (hstate : s.bridge.state ≠ .raw) (hbank : s.bankEraseHeld = true)
    (hdata : s.dataEraseHeld = true) : s.eraseChoice = s :=
  State.eraseChoice_of_none hstate (State.bankChoice_of_held hbank) (State.dataChoice_of_held (.inl hdata))

theorem bankBase_eq (c : Settings) (bank : Bank) : bankBase c bank = if bank = .a then 1 else c.bankSectors + 1 := by
  cases bank <;> rfl

/-! ## The end of an erase (R12, R124 to R127, R148) -/

/-- The engine's record empty at the end of an erase. -/
def State.erased (s : State) : State := s.setErase { s.erase with record := none }

section ends
variable {r : EraseRecord} (hrecord : s.erase.record = some r)
include hrecord

theorem State.eraseEnd_of_data (hkind : r.kind = .data) (ok : Bool) : s.eraseEnd ok = s.erased.dataEraseEnd r.ps ok := by
  simp only [State.eraseEnd, hrecord, hkind]
  rfl

/-- A bank's sector: while a stop waits the engine goes no further. -/
theorem State.eraseEnd_of_bank {w : BankWork} (hkind : r.kind = .bank w) (ok : Bool) : s.eraseEnd ok =
    if s.stopWaits = true then s.erased
    else if ok = true then s.erased.bankSectorErased w else s.erased.bankSectorFailed w := by
  simp only [State.eraseEnd, hrecord, hkind]
  rfl

theorem State.eraseEnd_of_raw (hkind : r.kind = .raw) (ok : Bool) : s.eraseEnd ok = s.setErase { s.erase with
    record := none, raw := some ⟨r.ps, some (if ok = true then .erased else .timedOut)⟩ } := by
  simp only [State.eraseEnd, hrecord, hkind]
  rfl

end ends

section queue
variable {q : QueuedSector} {rest : List QueuedSector} (hqueue : s.map.queue = q :: rest)
include hqueue

/-- A first failure puts the sector at the queue's tail with its mark. -/
theorem State.dataEraseEnd_of_first_failure (hmark : q.failedOnce = false) (ps : Nat) : s.dataEraseEnd ps false =
    s.setMap { s.map with queue := rest ++ [(⟨q.ps, true⟩ : QueuedSector)] } := by
  simp [State.dataEraseEnd, SectorMap.headMarked, SectorMap.requeueHead, hqueue, hmark]

/-- Otherwise a record is asked for, except in HALTED. -/
theorem State.dataEraseEnd_of_final {ok : Bool} (h : ok = true ∨ q.failedOnce = true) (ps : Nat) : s.dataEraseEnd ps ok =
    if s.bridge.state = .halted then s else s.eraseAsk ps !ok := by
  have hfinal : ¬ (!ok && !s.map.headMarked) = true := by
    rcases h with h | h <;> simp [SectorMap.headMarked, hqueue, h]
  refine (if_neg hfinal).trans ?_
  simp

end queue

/-- A record asked for waits in the record wait, and in the append queue unless FENCED refuses it (R125, R140). -/
theorem State.eraseAsk_eq (s : State) (ps : Nat) (ok : Bool) : s.eraseAsk ps (!ok) = { s with
    erase := { s.erase with wait := some ⟨ps, !ok⟩ }
    journal := { s.journal with queue := s.journal.queue ++ (if s.journal.fenced = true then [] else
      [⟨.erase, if ok = true then .erased ps else .retire ps .erase, false, false⟩]) } } := by
  cases hfenced : s.journal.fenced with
  | true =>
    rw [if_pos rfl, List.append_nil]
    exact if_pos hfenced
  | false =>
    refine (if_neg (show ¬ s.journal.fenced = true by simp [hfenced])).trans ?_
    cases ok <;> rfl

/-- The sector after the last: the bank is ERASED, at first boot written. -/
theorem State.bankSectorErased_of_next (w : BankWork) (h : w.place + 1 < s.settings.bankSectors) :
    s.bankSectorErased w = s.setErase { s.erase with bankWork := some ⟨w.bank, w.place + 1, 1⟩ } := if_pos h

theorem State.bankSectorErased_of_last (w : BankWork) (h : s.settings.bankSectors ≤ w.place + 1) : s.bankSectorErased w =
    if s.firstBootAt .firstErase = true then (s.setErase { s.erase with bankWork := none }).firstBootWrite
    else (s.setErase { s.erase with bankWork := none }).setJournal (s.journal.setRow w.bank (some ⟨.erased, none⟩)) :=
  if_neg (Nat.not_lt.mpr h)

theorem State.bankSectorFailed_of_first (w : BankWork) (h : w.attempt = 1) :
    s.bankSectorFailed w = s.setErase { s.erase with bankWork := some ⟨w.bank, w.place, 2⟩ } := if_pos (by simp [h])

theorem State.bankSectorFailed_of_second (w : BankWork) (h : w.attempt ≠ 1) : s.bankSectorFailed w =
    if s.firstBootAt .firstErase = true then (s.setErase { s.erase with bankWork := none }).rebuildFailed .erase
    else (s.setErase { s.erase with bankWork := none }).setFenced .bankErase := if_neg (by simpa using h)

theorem State.firstBootAt_of (hstate : s.bridge.state = .rebuild) {step : Rebuild} (hstep : s.journal.rebuild = step) :
    s.firstBootAt step = true := by
  simp [State.firstBootAt, hstate, hstep]

theorem State.not_firstBootAt_of (hstate : s.bridge.state ≠ .rebuild) (step : Rebuild) : ¬ s.firstBootAt step = true := by
  simp [State.firstBootAt, hstate]

/-- Settles O38: the choice by the bridge's state and what is held, and the end by the kind of the erase. -/
theorem eraseClaimChoosesTheNextWork : Obligations.EraseClaimChoosesTheNextWork := by
  refine ⟨fun s hrecord hpower horderly => ?claim, fun s => exec_eraseClaim_of_busy, fun s r ok hrecord t ht => ?ends⟩
  case claim =>
    rw [exec_eraseClaim_of_free hrecord hpower horderly]
    refine ⟨fun ps hstate hraw => by rw [State.eraseChoice_of_raw hstate hraw],
      fun hstate hraw => by rw [State.eraseChoice_of_raw_idle hstate hraw],
      fun hallowed => ?banks, fun ha hb => ⟨fun hstate => ?rebuild,
        fun hstate => ⟨fun q rest hqueue hwait hfenced hidle hroom =>
        ?data, fun hheld => ?dataHeld⟩⟩, fun hstate hstep => ?otherRebuild, fun hstate => ?otherStates⟩
    case banks =>
      have hstate : s.bridge.state ≠ .raw := by rcases hallowed with h | ⟨h, -⟩ <;> simp [h]
      have hfree : s.journal.fenced = false → ¬ s.bankEraseHeld = true := by
        intro hfenced
        rw [s.bankEraseHeld_iff, hfenced]
        simp only [Bool.false_eq_true, false_or, not_not]
        exact hallowed
      refine ⟨fun hfenced => ?_, fun bank hfenced hnone hstale hfirst => ?_, fun w hfenced hwork hstale => ?_⟩
      · rw [State.eraseChoice_of_held hstate (s.bankEraseHeld_iff.mpr (.inl hfenced))
          (s.dataEraseHeld_iff.mpr (.inr (.inr (.inr hfenced))))]
      · have hchoice : s.bankChoice = some ⟨bank, 0, 1⟩ := by
          rw [State.bankChoice_of_free (hfree hfenced), State.staleBank_of_fresh hnone]
          cases bank <;> simp_all
        rw [State.eraseChoice_of_bank hstate hchoice, bankBase_eq, Nat.add_zero]
      · have hchoice : s.bankChoice = some w := by
          rw [State.bankChoice_of_free (hfree hfenced), State.staleBank_of_begun hwork hstale]
        rw [State.eraseChoice_of_bank hstate hchoice, bankBase_eq, ← hwork]
    case rebuild =>
      rw [State.eraseChoice_of_none (by simp [hstate]) (State.bankChoice_of_none_stale ha hb)
        (State.dataChoice_of_held (.inl (s.dataEraseHeld_iff.mpr (.inl (by simp [hstate])))))]
    case data =>
      have hfree : ¬ s.dataEraseHeld = true := by
        rw [s.dataEraseHeld_iff]
        simp [hstate, hidle, hroom, hfenced]
      have hchoice : s.dataChoice = some q.ps := by
        rw [State.dataChoice_of_free hfree hwait]
        simp [SectorMap.queued, hqueue]
      rw [State.eraseChoice_of_data (by simp [hstate]) (State.bankChoice_of_none_stale ha hb) hchoice]
    case dataHeld =>
      have hchoice : s.dataChoice = none := by
        rcases hheld with hempty | hwait | hcompaction | hfull
        · by_cases hheld : s.dataEraseHeld = true ∨ s.erase.wait ≠ none
          · exact State.dataChoice_of_held hheld
          · obtain ⟨hfree, hwait⟩ := not_or.mp hheld
            rw [State.dataChoice_of_free hfree (not_not.mp hwait)]
            simp [SectorMap.queued, hempty]
        · exact State.dataChoice_of_held (.inr hwait)
        · exact State.dataChoice_of_held (.inl (s.dataEraseHeld_iff.mpr (.inr (.inl hcompaction))))
        · exact State.dataChoice_of_held (.inl (s.dataEraseHeld_iff.mpr (.inr (.inr (.inl hfull)))))
      rw [State.eraseChoice_of_none (by simp [hstate]) (State.bankChoice_of_none_stale ha hb) hchoice]
    case otherRebuild =>
      rw [State.eraseChoice_of_held (by simp [hstate]) (s.bankEraseHeld_iff.mpr (.inr (by simp [hstate, hstep])))
        (s.dataEraseHeld_iff.mpr (.inl (by simp [hstate])))]
    case otherStates =>
      have hnot : s.bridge.state ≠ .raw ∧ s.bridge.state ≠ .service ∧ s.bridge.state ≠ .rebuild := by
        rcases hstate with h | h | h | h <;> simp [h]
      obtain ⟨hraw, hservice, hrebuild⟩ := hnot
      rw [State.eraseChoice_of_held hraw (s.bankEraseHeld_iff.mpr (.inr (by simp [hservice, hrebuild])))
        (s.dataEraseHeld_iff.mpr (.inl hservice))]
  case ends =>
    obtain rfl : t = s.erased := ht
    refine ⟨fun hkind q rest hqueue => ?data, fun w hkind => ?bankEnd, State.eraseEnd_of_raw hrecord (ok := ok)⟩
    case data =>
      have hend := State.eraseEnd_of_data hrecord hkind ok
      refine ⟨fun hfail hmark => ?_, fun hfinal => ⟨fun hhalted => ?_, fun hhalted => ?_⟩⟩
      · refine hend.trans ?_
        rw [hfail, State.dataEraseEnd_of_first_failure (s := s.erased) hqueue hmark]
        rfl
      · exact (hend.trans (State.dataEraseEnd_of_final (s := s.erased) hqueue hfinal r.ps)).trans (if_pos hhalted)
      · refine (hend.trans (State.dataEraseEnd_of_final (s := s.erased) hqueue hfinal r.ps)).trans
            ((if_neg hhalted).trans ?_)
        rw [State.eraseAsk_eq]
        rfl
    case bankEnd =>
      have hend := State.eraseEnd_of_bank hrecord hkind ok
      refine ⟨fun hstop => hend.trans (if_pos (s.stopWaits_iff.mpr hstop)), fun hpower horderly => ?_⟩
      rw [if_neg (by simp [State.stopWaits_eq_false hpower horderly])] at hend
      refine ⟨fun hok hnext => ?_, fun hfail hfirst => ?_, fun u hu => ⟨fun hstate hok hlast => ?_,
          fun hstate hfail hsecond => ?_,
        fun hstate hstep => ⟨fun hok hlast => ?_, fun hfail hsecond => ?_⟩⟩⟩
      · exact hend.trans ((if_pos hok).trans (State.bankSectorErased_of_next (s := s.erased) w hnext))
      · exact hend.trans ((if_neg (by simp [hfail])).trans (State.bankSectorFailed_of_first (s := s.erased) w hfirst))
      · refine hend.trans ((if_pos hok).trans ((State.bankSectorErased_of_last (s := s.erased) w hlast).trans ?_))
        rw [if_neg (State.not_firstBootAt_of (s := s.erased) hstate _), hu]
        rfl
      · refine hend.trans ((if_neg (by simp [hfail])).trans
            ((State.bankSectorFailed_of_second (s := s.erased) w hsecond).trans ?_))
        rw [if_neg (State.not_firstBootAt_of (s := s.erased) hstate _), hu]
        rfl
      · refine hend.trans ((if_pos hok).trans ((State.bankSectorErased_of_last (s := s.erased) w hlast).trans ?_))
        rw [if_pos (State.firstBootAt_of (s := s.erased) hstate hstep), hu]
        rfl
      · refine hend.trans ((if_neg (by simp [hfail])).trans
            ((State.bankSectorFailed_of_second (s := s.erased) w hsecond).trans ?_))
        rw [if_pos (State.firstBootAt_of (s := s.erased) hstate hstep), hu]
        rfl

/-! ## The start of a compaction (R137, R138) -/

/-- The bank to be written, where every condition of the start holds. -/
theorem State.compactionBank_eq {bank : Bank} (hactive : s.journal.active = some bank) {other : BankRow}
    (hother : s.journal.row bank.other = some other) : s.compactionBank =
      if s.bridge.state = .service ∧ s.journal.compaction = .pending ∧ s.journal.fenced = false ∧ other.state = .erased
          ∧ s.map.target = none ∧ s.dataEraseInProgress = false then some bank.other else none := by
  simp [State.compactionBank, hactive, MapJournal.isIn, hother, and_assoc]

theorem exec_compactionStart_of_none (h : s.compactionBank = none) : exec .compactionStart s = .next s := by
  show Host.Outcome.next s.compactionStart = _
  simp only [State.compactionStart, h]

/-- Settles O39: the start where every condition holds, and nothing elsewhere. -/
theorem compactionStartsWhenAllHolds : Obligations.CompactionStartsWhenAllHolds := by
  refine ⟨fun s bank row g other hactive hrow hgeneration hother =>
    ⟨fun hstate hpending hfenced herased htarget herase => ?start, fun hmissing => exec_compactionStart_of_none ?wait⟩,
    fun s hactive => exec_compactionStart_of_none ?inactive⟩
  case start =>
    have hgen : s.journal.generation = g := by simp [MapJournal.generation, hactive, hrow, hgeneration]
    have hbank : s.compactionBank = some bank.other :=
      (State.compactionBank_eq hactive hother).trans (if_pos ⟨hstate, hpending, hfenced, herased, htarget, herase⟩)
    refine ⟨s.nextGeneration, fun hlast => ?_, ?_⟩
    · rw [State.nextGeneration, hgen, if_neg hlast]
    · show Host.Outcome.next s.compactionStart = _
      simp only [State.compactionStart, hbank]
      rfl
  case wait =>
    refine (State.compactionBank_eq hactive hother).trans (if_neg ?_)
    rintro ⟨hstate, hpending, hfenced, herased, htarget, herase⟩
    simp_all
  case inactive => simp only [State.compactionBank, hactive]

end Sys2Proof.Machine
end

section
/-! The end of an append (R133, R134) with the trigger (R136), the full journal (R101, R135) and what each claimant does
(R9 to R13, R99, R100). -/

namespace Sys2Proof.Machine

variable {s : State}

/-! ## The trigger and the full journal (R101, R135, R136) -/

theorem State.journalFull_iff (s : State) : s.journalFull = true ↔
    s.journal.active ≠ none ∧ s.settings.bankSectors * 256 ≤ s.journal.pointer := by
  simp only [State.journalFull, State.freeSlots, Bool.and_eq_true, Option.isSome_iff_ne_none, beq_iff_eq]
  exact and_congr_right fun _ => Nat.sub_eq_zero_iff_le

theorem State.keepsClaim_of_pending (hstate : s.bridge.state = .service) (hpending : s.journal.compaction = .pending)
    (hfenced : s.journal.fenced = false) (r : EraseRecord) :
    s.keepsClaim r = decide (r.erasing = true ∨ r.kind ≠ .data) := by
  obtain ⟨kind, ps, erasing⟩ := r
  rw [Bool.eq_iff_iff]
  cases kind <;> simp [State.keepsClaim, State.dataEraseHeld, State.bankEraseHeld, hstate, hpending, hfenced]

/-- Below 256 free slots an IDLE compaction becomes PENDING and a data erase not granted is withdrawn. -/
theorem State.judgeTrigger_of_low (hstate : s.bridge.state = .service) (hidle : s.journal.compaction = .idle)
    (hfenced : s.journal.fenced = false) (hactive : s.journal.active ≠ none)
    (hlow : s.settings.bankSectors * 256 - s.journal.pointer < 256) : s.judgeTrigger = { s with
      journal := { s.journal with compaction := .pending }
      erase := { s.erase with record := s.erase.record.filter fun r => decide (r.erasing = true ∨ r.kind ≠ .data) } } := by
  have hslots : s.freeSlots < Config.compactionTrigger := hlow
  refine (if_pos ?_).trans ?_
  · simp [hstate, hidle, hfenced, Option.isSome_iff_ne_none.mpr hactive, hslots]
  · have hkeeps : (s.setJournal { s.journal with compaction := .pending }).keepsClaim
        = fun r => decide (r.erasing = true ∨ r.kind ≠ .data) :=
      funext fun r => State.keepsClaim_of_pending (s := s.setJournal { s.journal with compaction := .pending }) hstate rfl
        hfenced r
    rw [State.withdrawHeldClaims_eq, hkeeps]
    rfl

theorem State.judgeTrigger_of_other (h : s.bridge.state ≠ .service ∨ s.journal.compaction ≠ .idle
    ∨ s.journal.fenced = true ∨ s.journal.active = none
    ∨ 256 ≤ s.settings.bankSectors * 256 - s.journal.pointer) : s.judgeTrigger = s := by
  refine if_neg fun hlow => ?_
  simp only [Bool.and_eq_true, beq_iff_eq, Bool.not_eq_true', decide_eq_true_eq, Option.isSome_iff_ne_none] at hlow
  obtain ⟨⟨⟨⟨hstate, hidle⟩, hfenced⟩, hactive⟩, hslots⟩ := hlow
  have hlow : s.settings.bankSectors * 256 - s.journal.pointer < 256 := hslots
  rcases h with h | h | h | h | h
  · exact h hstate
  · exact h hidle
  · simp [hfenced] at h
  · exact hactive h
  · exact absurd hlow (Nat.not_lt.mpr h)

/-- A move of the pointer changes at most the compaction state and the erase record. -/
theorem State.judgeTrigger_frame (s : State) : ∃ k r, s.judgeTrigger = { s with
    journal := { s.journal with compaction := k }, erase := { s.erase with record := r } } := by
  by_cases h : s.bridge.state = .service ∧ s.journal.compaction = .idle ∧ s.journal.fenced = false
      ∧ s.journal.active ≠ none ∧ s.settings.bankSectors * 256 - s.journal.pointer < 256
  · obtain ⟨hstate, hidle, hfenced, hactive, hlow⟩ := h
    exact ⟨_, _, State.judgeTrigger_of_low hstate hidle hfenced hactive hlow⟩
  · refine ⟨s.journal.compaction, s.erase.record, State.judgeTrigger_of_other ?_⟩
    simp only [not_and_or, Nat.not_lt, not_not, Bool.not_eq_false] at h
    exact h

theorem State.reportFull_of_waiting (hfull : s.journalFull = true)
    (h : ∃ q ∈ s.journal.queue, q.claimant = .commit ∧ q.inProgress = false) : s.reportFull = s.commitFull := by
  refine if_pos ?_
  simpa [hfull, MapJournal.waiting] using h

theorem State.reportFull_of_other
    (h : s.journalFull = false ∨ ∀ q ∈ s.journal.queue, q.claimant = .commit → q.inProgress = true) : s.reportFull = s := by
  refine if_neg ?_
  rcases h with h | h
  · simp [h]
  · simpa [MapJournal.waiting] using fun _ => h

theorem State.dropRecords_commit (s : State) : s.dropRecords .commit = s.withoutCommitRecords := by
  have htest : ∀ q : QueueItem, (q.inProgress || q.claimant != .commit)
      = decide (q.inProgress = true ∨ q.claimant ≠ .commit) := by
    intro q
    rw [Bool.eq_iff_iff]
    simp
  simp only [State.dropRecords, htest]
  rfl

theorem State.commitFull_appendRetireOld {c : CommitRecord} (hcommit : s.commit = some c)
    (hwork : c.work = .appendRetireOld) :
    s.commitFull = (s.dropRecords .commit).commitSwitch c false := by
  simp only [State.commitFull, hcommit, hwork]

/-- A switch leaves the same state whatever the record of the state holds. -/
theorem State.commitSwitch_commit (s : State) (c : CommitRecord) (x : Option CommitRecord) (retire : Bool) :
    ({ s with commit := x } : State).commitSwitch c retire = s.commitSwitch c retire := by
  have hdone : ∀ t : State, State.commitDone { t with commit := x } = t.commitDone := by
    intro t
    rw [State.commitDone, t.completeCommit_commit x .ok]
    rfl
  cases retire
  · exact hdone (State.setReads (s.switchSector c.sector (c.target.getD 0) c.oldPs false)
      (s.reads.invalidateLines c.sector c.lines))
  · exact hdone (State.setReads (s.switchSector c.sector (c.target.getD 0) c.oldPs true)
      (s.reads.invalidateLines c.sector c.lines))

/-- The next work of a switch does not matter to it. -/
theorem State.commitSwitch_at (s : State) (c : CommitRecord) (w : Work) (retire : Bool) :
    s.commitSwitch (c.at w) retire = s.commitSwitch c retire := rfl

/-! ## What an appended record does (R9 to R13, R99, R100) -/

/-- The erase queue without a sector. -/
def SectorMap.dequeued (m : SectorMap) (ps : Nat) : SectorMap :=
  { m with queue := m.queue.filter fun x => decide (x.ps ≠ ps) }

theorem SectorMap.dequeued_eq (m : SectorMap) (ps : Nat) :
    { m with queue := m.queue.filter fun q => q.ps != ps } = m.dequeued ps := by
  simp [SectorMap.dequeued, bne, Bool.beq_eq_decide_eq]

/-- ERASED takes its sector to the pool's tail, or to the take that waits. -/
theorem State.eraseRecorded_of_pool (htaking : s.map.taking = false) (ps : Nat) : s.eraseRecorded ps = { s with
    erase := { s.erase with wait := none }
    map := { s.map.dequeued ps with
      pool := s.map.pool ++ [ps]
      lowArmed := s.map.lowArmed || decide (s.settings.lowMark + 4 ≤ s.map.pool.length + 1)
      emptyRaised := false } } := by
  simp only [State.eraseRecorded, s.map.dequeued_eq, (s.map.dequeued ps).join_of_not_taking _ ps htaking]
  rfl

theorem State.eraseRecorded_of_take {c : CommitRecord} (htaking : s.map.taking = true)
    (hcommit : s.commit = some c) (ps : Nat) :
    s.eraseRecorded ps = State.commitGranted { s with
      erase := { s.erase with wait := none }
      map := { s.map.dequeued ps with target := some ps, taking := false, emptyRaised := false } } c ps := by
  simp only [State.eraseRecorded, s.map.dequeued_eq, (s.map.dequeued ps).join_of_taking _ ps htaking, if_true]
  split
  next hnone => cases hcommit.symm.trans hnone
  next d hd =>
    obtain rfl : c = d := Option.some.inj (hcommit.symm.trans hd)
    rfl

/-- The state once RETIRE(ERASE) has taken its sector to the retired set. -/
def State.eraseRetired (s : State) (ps : Nat) (cause : RetireCause) : State :=
  State.retire { s with erase := { s.erase with wait := none }, map := s.map.dequeued ps } ps cause

theorem State.retireRecorded_eq (s : State) (ps : Nat) (cause : RetireCause) : s.retireRecorded ps cause =
    if (s.eraseRetired ps cause).map.taking = true ∧ (s.eraseRetired ps cause).map.pool = []
        ∧ (s.eraseRetired ps cause).map.queue = [] then
      match s.commit with
      | none => (s.eraseRetired ps cause).setWorn
      | some c => (s.eraseRetired ps cause).setWorn.commitFailed c
    else s.eraseRetired ps cause := by
  have ht : ((s.setErase { s.erase with wait := none }).setMap
      { s.map with queue := s.map.queue.filter fun q => q.ps != ps }).retire ps cause = s.eraseRetired ps cause := by
    rw [s.map.dequeued_eq]
    rfl
  unfold State.retireRecorded
  simp only [ht, Bool.and_eq_true, List.isEmpty_iff, and_assoc]
  rfl

section commit
variable {c : CommitRecord} (hcommit : s.commit = some c)
include hcommit

/-- MAP is followed by the switch, or where the commit converts by RETIRE(old PS). -/
theorem State.commitAppended_of_map (hwork : c.work = .appendMap) : s.commitAppended =
    if c.convert = true ∧ s.bridge.expired = false then
      s.commitAsk c .appendRetireOld (.retire c.oldPs .program) (s.commitSwitch c false)
    else s.commitSwitch c false := by
  simp only [State.commitAppended, hcommit, hwork, Bool.and_eq_true, Bool.not_eq_true']

theorem State.commitAppended_of_retireOld (hwork : c.work = .appendRetireOld) :
    s.commitAppended = s.commitSwitch c true := by
  simp only [State.commitAppended, hcommit, hwork]

theorem State.commitAppended_of_retireTarget (hwork : c.work = .appendRetireTarget) : s.commitAppended =
    if s.bridge.expired = true ∨ 3 ≤ c.attempts then s.retireTarget.commitFailed c
    else s.retireTarget.commitAllocate { c with target := none } := by
  simp only [State.commitAppended, hcommit, hwork, Bool.or_eq_true, decide_eq_true_eq]

end commit

/-- RETIRE(old PS) asked for under a full journal lets the switch go with QUEUE. -/
theorem State.commitAsk_retireOld_of_full (c : CommitRecord) (r : Delta) (refused : State)
    (hfenced : s.journal.fenced = false) (hfull : s.journalFull = true) :
    s.commitAsk c .appendRetireOld r refused = s.withoutCommitRecords.commitSwitch c false := by
  rw [State.commitAsk_eq c _ r refused hfenced, if_pos hfull, State.commitFull_appendRetireOld rfl rfl,
    State.dropRecords_asked]
  exact s.withoutCommitRecords.commitSwitch_commit c (some (c.at .appendRetireOld)) false

theorem State.retireTarget_of_some {ps : Nat} (h : s.map.target = some ps) :
    s.retireTarget = State.retire { s with map := { s.map with target := none } } ps .program := by
  simp only [State.retireTarget, h]
  rfl

/-! ## The end of the append (R133, R134) -/

section append
variable {q : QueueItem} {rest : List QueueItem} (hqueue : s.journal.queue = q :: rest)
include hqueue

theorem State.tellOwner_journal_of_append (hrun : s.journal.run = none) (hflight : q.inProgress = true) (ok : Bool) :
    s.tellOwner .journal ok = if ok = true then s.appended q else s.appendFailed := by
  show s.journalProgramEnd ok = _
  have hfind : s.journal.queue.find? (fun q => q.inProgress) = some q := by
    rw [hqueue]
    exact List.find?_cons_of_pos hflight
  simp only [State.journalProgramEnd, hrun, State.appendEnd, hfind]

/-- The pointer past the slot, the record out of the queue, and the move judged. -/
theorem State.appended_eq (hflight : q.inProgress = true) (hrest : ∀ x ∈ rest, x.inProgress = false) : s.appended q =
    ((State.judgeTrigger { s with
    journal := { s.journal with pointer := s.journal.pointer + 1, queue := rest } }).tellAppended q).reportFull := by
  have hfilter : (s.journal.queue.filter fun x => !x.inProgress) = rest := by
    rw [hqueue, List.filter_cons_of_neg (by simp [hflight]), List.filter_eq_self]
    intro x hx
    simp [hrest x hx]
  simp only [State.appended, hfilter]
  rfl

/-- The slot is abandoned and the record waits to be written again; under FENCED it is refused. -/
theorem State.appendFailed_eq (hrest : ∀ x ∈ rest, x.inProgress = false) : s.appendFailed =
    if s.journal.fenced = true then State.commitFenced { s with journal := { s.journal with
      pointer := (s.journal.pointer / 256 + 1) * 256, queue := [] } }
    else (State.judgeTrigger { s with journal := { s.journal with
      pointer := (s.journal.pointer / 256 + 1) * 256
      queue := { q with inProgress := false } :: rest } }).reportFull := by
  have hmap : (s.journal.queue.map fun x => { x with inProgress := false }) = { q with inProgress := false } :: rest := by
    rw [hqueue, List.map_cons]
    refine congrArg _ ((List.map_congr_left fun x hx => ?_).trans (List.map_id rest))
    rw [← hrest x hx]
    rfl
  simp only [State.appendFailed, hmap]
  rfl

end append

/-- Settles O40: the pointer's move and the claimant told, the trigger, the full journal, the switch. -/
theorem appendEndsMoveThePointer : Obligations.AppendEndsMoveThePointer := by
  refine ⟨fun s q rest hrun hqueue hflight hrest => ⟨fun moved hmoved => ?told, fun hfenced => ?failed,
      fun hfenced => ?refused⟩,
    fun s => ⟨State.judgeTrigger_of_low, State.judgeTrigger_of_other, s.journalFull_iff, State.reportFull_of_waiting,
      State.reportFull_of_other⟩,
    fun s c hcommit u hu => ?full, fun s c target retire => State.commitSwitch_eq retire⟩
  case told =>
    have hend : s.tellOwner .journal true = (moved.tellAppended q).reportFull := by
      rw [State.tellOwner_journal_of_append hqueue hrun hflight, if_pos rfl, State.appended_eq hqueue hflight hrest, hmoved]
    obtain ⟨k, r, hframe⟩ := State.judgeTrigger_frame
      { s with journal := { s.journal with pointer := s.journal.pointer + 1, queue := rest } }
    rw [← hmoved] at hframe
    have hmap : moved.map = s.map := by rw [hframe]
    have hcommit : moved.commit = s.commit := by rw [hframe]
    have hsettings : moved.settings = s.settings := by rw [hframe]
    have hexpired : moved.bridge.expired = s.bridge.expired := by rw [hframe]
    have hfenced : moved.journal.fenced = s.journal.fenced := by rw [hframe]
    have hrecords : moved.journal.queue = rest := by rw [hframe]
    rw [hend]
    refine ⟨fun ps hclaimant hrecord => ?erased, fun ps cause hclaimant hrecord u hu => ?retired,
        fun c hclaimant hc => ?commit⟩
    case erased =>
      have htold : moved.tellAppended q = moved.eraseRecorded ps := by
        simp only [State.tellAppended, hclaimant, hrecord]
      rw [htold]
      refine ⟨fun htaking => ?_, fun c htaking hc => ?_⟩
      · rw [State.eraseRecorded_of_pool (by rw [hmap, htaking]), hmap, hsettings]
        rfl
      · rw [State.eraseRecorded_of_take (by rw [hmap, htaking]) (hcommit.trans hc), hmap]
        rfl
    case retired =>
      have htold : moved.tellAppended q = moved.retireRecorded ps cause := by
        simp only [State.tellAppended, hclaimant, hrecord]
      have hretired : moved.eraseRetired ps cause = u := by
        rw [hu, State.eraseRetired, hmap]
        rfl
      rw [htold, moved.retireRecorded_eq, hretired, hcommit]
      refine ⟨fun hrest => ?_, fun c htaking hpool hempty hc => ?_⟩
      · rw [if_neg]
        rintro ⟨htaking, hpool, hempty⟩
        simp_all
      · rw [if_pos ⟨htaking, hpool, hempty⟩, hc]
        rfl
    case commit =>
      have htold : moved.tellAppended q = moved.commitAppended := by
        simp only [State.tellAppended, hclaimant]
      have hc' := hcommit.trans hc
      rw [htold]
      refine ⟨fun hwork hplain => ?_, fun hwork hconvert hbefore hopen => ?_, fun hwork => ?_,
          fun ps hwork htarget u hu => ?_⟩
      · rw [State.commitAppended_of_map hc' hwork, hexpired]
        split
        next hconverts =>
          obtain ⟨hconvert, hbefore⟩ := hconverts
          rw [State.commitAsk_fenced]
          rw [hfenced]
          simpa [hconvert, hbefore] using hplain
        next => rfl
      · rw [State.commitAppended_of_map hc' hwork, hexpired, if_pos ⟨hconvert, hbefore⟩]
        cases hfull : moved.journalFull with
        | true =>
          have hfilter : moved.withoutCommitRecords = { moved with journal := { moved.journal with queue :=
              (rest.filter fun x => decide (x.claimant ≠ .commit)) } } := by
            have hkept : (rest.filter fun x => decide (x.inProgress = true ∨ x.claimant ≠ .commit))
                = rest.filter fun x => decide (x.claimant ≠ .commit) :=
              List.filter_congr fun x hx => by simp [hrest x hx]
            rw [State.withoutCommitRecords, hrecords, hkept]
          rw [State.commitAsk_retireOld_of_full c _ _ (hfenced.trans hopen) hfull, hfilter, if_pos rfl]
          rfl
        | false =>
          rw [State.commitAsk_of_room c _ _ (hfenced.trans hopen) _ hfull, hrecords, if_neg (by simp)]
      · rw [State.commitAppended_of_retireOld hc' hwork]
      · have hretire : moved.retireTarget = u := by
          rw [State.retireTarget_of_some (by rw [hmap, htarget]), hu, hmap]
        rw [State.commitAppended_of_retireTarget hc' hwork, hretire, hexpired]
        exact ⟨fun hlast => by rw [if_pos hlast], fun hbefore hfew => by rw [if_neg (by simp [hbefore, hfew])]⟩
  case failed =>
    rw [State.tellOwner_journal_of_append hqueue hrun hflight, if_neg (by simp), State.appendFailed_eq hqueue hrest,
      if_neg (by simp [hfenced])]
  case refused =>
    rw [State.tellOwner_journal_of_append hqueue hrun hflight, if_neg (by simp), State.appendFailed_eq hqueue hrest,
      if_pos hfenced]
  case full =>
    obtain rfl : u = s.withoutCommitRecords := hu
    have hmap := fun hwork => State.commitFull_appendMap hcommit (s := s) (c := c) hwork
    have htarget := fun hwork => State.commitFull_appendRetireTarget hcommit (s := s) (c := c) hwork
    simp only [s.dropRecords_commit, State.releaseTarget_eq] at hmap htarget
    refine ⟨fun hwork hbefore => ?_, fun hwork hbefore hfew => ?_, fun hwork hlast => ?_, fun hwork hpast => ?_,
        fun hwork => ?_⟩
    · exact (hmap hwork).trans (if_neg (by simp [hbefore]))
    · exact (htarget hwork).trans (if_neg (by simp [hbefore, hfew]))
    · exact (htarget hwork).trans (if_pos hlast)
    · exact (hmap hwork).trans (if_pos hpast)
    · rw [State.commitFull_appendRetireOld hcommit hwork, s.dropRecords_commit]

end Sys2Proof.Machine
end

section
/-! The end of a bank's window (R138, R139, R141, R148), the layout of a bank (R131, R138) and its records as bytes (R130,
R169). -/

namespace Sys2Proof.Machine

variable {s : State}

/-! ## The end of a window (R138, R139, R141, R148) -/

/-- A compaction given up: no bank is being written, its bank STALE. -/
def State.compactionDropped (s : State) (r : BankRun) : State :=
  { s with journal := ({ s.journal with run := none } : MapJournal).setRow r.bank (some ⟨.stale, none⟩) }

section window
variable {r : BankRun} (hrun : s.journal.run = some r) (hflight : r.inProgress = true)
include hrun hflight

theorem State.tellOwner_journal_of_window (ok : Bool) : s.tellOwner .journal ok = s.bankProgramEnd r ok := by
  show s.journalProgramEnd ok = _
  simp only [State.journalProgramEnd, hrun, hflight, if_true]

/-- A compaction's window: by its result, its place and whether the compaction is abandoned. -/
theorem State.tellOwner_journal_of_compaction (hstate : s.bridge.state ≠ .rebuild) (ok : Bool) : s.tellOwner .journal ok =
    if (!ok) = true then s.compactionFailed r
    else if (r.window == lastWindow s.settings r.copy) = true then s.compacted r
    else if r.abandoned = true then s.compactionDropped r
    else s.setJournal { s.journal with run := some { r with window := r.window + 1, inProgress := false } } :=
  (State.tellOwner_journal_of_window hrun hflight ok).trans (if_neg (State.not_firstBootAt_of hstate _))

/-- A first boot's window: while a stop waits nothing follows. -/
theorem State.tellOwner_journal_of_firstBoot (hstate : s.bridge.state = .rebuild) (hstep : s.journal.rebuild = .firstWrite)
    (ok : Bool) : s.tellOwner .journal ok =
      if s.stopWaits = true then s
      else if (!ok) = true then s.rebuildFailed .program
      else if (r.window == lastWindow s.settings r.copy) = true then s.firstBootDone r
      else s.setJournal { s.journal with run := some { r with window := r.window + 1, inProgress := false } } :=
  (State.tellOwner_journal_of_window hrun hflight ok).trans (if_pos (State.firstBootAt_of hstate hstep))

end window

/-- A failed compaction: abandoned, or tried a second time, or FENCED. -/
theorem State.compactionFailed_eq (s : State) (r : BankRun) : s.compactionFailed r =
    if r.abandoned = true then s.compactionDropped r
    else if s.journal.attempt = 1 then { s.compactionDropped r with
      journal := { (s.compactionDropped r).journal with compaction := .pending, attempt := 2 } }
    else (s.compactionDropped r).setFenced .compaction := by
  unfold State.compactionFailed
  simp only [beq_iff_eq]
  rfl

/-! ## The layout of a bank (R131) -/

theorem Collections.length_list (x : Collections) : x.list.length = x.pool.length + x.retired.length := by
  simp [Collections.list]

section layout
variable (c : Settings) (x : Collections)

theorem bankPart_of_image {k : Nat} (hk : k < imageCount c) : bankPart c x (4 + 4 * k) = .image k := by
  have hslot : 4 + 4 * k < 4 + 4 * imageCount c := by omega
  have hquarter : (4 + 4 * k) % 4 = 0 := by omega
  have hnumber : (4 + 4 * k) / 4 - 1 = k := by omega
  simp only [bankPart, if_neg (show ¬ 4 + 4 * k = 0 by omega), if_neg (show ¬ 4 + 4 * k < 4 by omega), if_pos hslot,
    if_pos hquarter, hnumber]

theorem bankPart_of_continued {k j : Nat} (hk : k < imageCount c) (hlow : 1 ≤ j) (hhigh : j ≤ 3) :
    bankPart c x (4 + 4 * k + j) = .continued := by
  have hslot : 4 + 4 * k + j < 4 + 4 * imageCount c := by omega
  have hquarter : ¬ (4 + 4 * k + j) % 4 = 0 := by omega
  simp only [bankPart, if_neg (show ¬ 4 + 4 * k + j = 0 by omega), if_neg (show ¬ 4 + 4 * k + j < 4 by omega), if_pos hslot,
    if_neg hquarter]

/-- From the list section on a slot holds its record of the list, the IMAGE_END after the last, or nothing. -/
theorem bankPart_of_listed (i : Nat) : bankPart c x (4 + 4 * imageCount c + i) =
    match x.list[i]? with
    | some d => .listed d
    | none => if i = x.list.length then .closing else .beyond := by
  have hplace : 4 + 4 * imageCount c + i - (4 + 4 * imageCount c) = i := by omega
  have hclosing : 4 + 4 * imageCount c + i = closingSlot c x ↔ i = x.list.length := by
    rw [closingSlot]
    omega
  simp only [bankPart, if_neg (show ¬ 4 + 4 * imageCount c + i = 0 by omega),
    if_neg (show ¬ 4 + 4 * imageCount c + i < 4 by omega),
    if_neg (show ¬ 4 + 4 * imageCount c + i < 4 + 4 * imageCount c by omega), hplace, hclosing] <;>
    cases x.list[i]? <;> rfl

theorem bankPart_closing : bankPart c x (closingSlot c x) = .closing := by
  rw [closingSlot, bankPart_of_listed, List.getElem?_eq_none (Nat.le_refl _)]
  exact if_pos rfl

theorem bankPart_beyond {slot : Nat} (h : closingSlot c x < slot) : bankPart c x slot = .beyond := by
  rw [closingSlot] at h
  obtain ⟨i, rfl⟩ : ∃ i, slot = 4 + 4 * imageCount c + i := ⟨slot - (4 + 4 * imageCount c), by omega⟩
  rw [bankPart_of_listed, List.getElem?_eq_none (by omega)]
  exact if_neg (by omega)

theorem bankPart_of_pool {i ps : Nat} (h : x.pool[i]? = some ps) :
    bankPart c x (4 + 4 * imageCount c + i) = .listed (.erased ps) := by
  have hlt : i < x.pool.length := (List.getElem?_eq_some_iff.mp h).1
  have hlist : x.list[i]? = some (.erased ps) := by
    rw [Collections.list, List.getElem?_append_left (by simpa using hlt), List.getElem?_map, h]
    rfl
  rw [bankPart_of_listed, hlist]

theorem bankPart_of_retired {i : Nat} {r : RetiredSector} (h : x.retired[i]? = some r) :
    bankPart c x (4 + 4 * imageCount c + x.pool.length + i) = .listed (.retire r.ps r.cause) := by
  have hlist : x.list[x.pool.length + i]? = some (.retire r.ps r.cause) := by
    rw [Collections.list, List.getElem?_append_right (by simp), List.getElem?_map, List.length_map,
      Nat.add_sub_cancel_left, h]
    rfl
  rw [Nat.add_assoc, bankPart_of_listed, hlist]

end layout

/-! ## Numbers and bytes (R132, R138) -/

/-- Parts in slot order give their bytes, each record numbered after those before it. -/
theorem partsBytes_map_range (c : Settings) (x : Collections) (generation : BitVec 32) (f : Nat → BankPart) (n seq : Nat) :
    partsBytes c x generation ((List.range n).map f) seq = (List.range n).flatMap fun i =>
      (f i).bytes c x generation (seq + ((List.range i).filter fun j => (f j).takesNumber).length) := by
  induction n generalizing f seq with
  | zero => rfl
  | succ n ih =>
    have hcount : ∀ i, seq + ((List.range (i + 1)).filter fun j => (f j).takesNumber).length
        = (if (f 0).takesNumber then seq + 1 else seq)
          + ((List.range i).filter fun j => (f (j + 1)).takesNumber).length := by
      intro i
      rw [List.range_succ_eq_map, List.filter_cons, List.filter_map]
      split <;> simp [Function.comp_def, Nat.add_assoc, Nat.add_comm]
    rw [List.range_succ_eq_map, List.map_cons, List.map_map, List.flatMap_cons, List.flatMap_map]
    show _ ++ partsBytes c x generation ((List.range n).map (f ∘ Nat.succ)) _ = _
    rw [ih]
    refine congrArg₂ _ rfl (List.flatMap_congr fun i _ => ?_)
    rw [hcount]
    rfl

theorem windowNumbers_eq (c : Settings) (x : Collections) (w : Nat) : windowNumbers c x w =
    ((List.range 16).filter fun i => (bankPart c x (16 * w + i)).takesNumber).length := by
  rw [windowNumbers, windowParts, List.filter_map, List.length_map]
  rfl

/-- Settles O41: a window's end by the bridge's state and the compaction, the layout, the numbers and the bytes. -/
theorem compactionWindowsEnd : Obligations.CompactionWindowsEnd := by
  refine ⟨fun s r hrun hflight hstate dropped hdropped => ?compaction, fun s r ok hrun hflight hstate hstep => ?firstBoot,
    fun c x n hn => ?layout, fun c x generation seq checked hchecked => ?bytes⟩
  case compaction =>
    obtain rfl : dropped = s.compactionDropped r := hdropped
    have hend := State.tellOwner_journal_of_compaction hrun hflight hstate
    have hfailed := (hend false).trans ((if_pos rfl).trans (s.compactionFailed_eq r))
    have hdone := (hend true).trans (if_neg (by simp))
    simp only [beq_iff_eq] at hdone
    exact ⟨fun hlast => hdone.trans (if_pos hlast),
      fun hmore hkept => hdone.trans ((if_neg hmore).trans (if_neg (by simp [hkept]))),
      fun hmore habandoned => hdone.trans ((if_neg hmore).trans (if_pos habandoned)),
      fun habandoned => hfailed.trans (if_pos habandoned),
      fun hkept hfirst => hfailed.trans ((if_neg (by simp [hkept])).trans (if_pos hfirst)),
      fun hkept hsecond => hfailed.trans ((if_neg (by simp [hkept])).trans (if_neg hsecond))⟩
  case firstBoot =>
    have hend := State.tellOwner_journal_of_firstBoot hrun hflight hstate hstep ok
    refine ⟨fun hstop => hend.trans (if_pos (s.stopWaits_iff.mpr hstop)), fun hpower horderly => ?_⟩
    rw [if_neg (by simp [State.stopWaits_eq_false hpower horderly])] at hend
    refine ⟨fun hfail => hend.trans (if_pos (by simp [hfail])), fun hok hlast => ?_, fun hok hmore => ?_⟩
    · exact hend.trans ((if_neg (by simp [hok])).trans (if_pos (by simp [hlast])))
    · exact hend.trans ((if_neg (by simp [hok])).trans (if_neg (by simpa using hmore)))
  case layout =>
    obtain rfl : n = imageCount c := hn
    refine ⟨by rw [closingSlot, x.length_list], rfl, rfl, fun i hlow hhigh => ?_, fun k hk => ⟨bankPart_of_image c x hk,
      fun j => bankPart_of_continued c x hk⟩, fun i ps => bankPart_of_pool c x, fun i r => bankPart_of_retired c x,
      bankPart_closing c x, fun slot => bankPart_beyond c x,
      fun generation w seq => ⟨windowNumbers_eq c x w, partsBytes_map_range c x generation _ 16 seq⟩⟩
    exact (if_neg (by omega)).trans (if_pos (by omega))
  case bytes =>
    subst hchecked
    refine ⟨rfl, rfl, fun _ => rfl, rfl, rfl, rfl, fun _ => rfl, fun _ => rfl, rfl, rfl, rfl, rfl, fun _ => rfl, ?_,
      fun _ _ _ => rfl, fun _ => rfl, fun ps cause => ?_⟩
    · rw [← x.length_list]
      rfl
    · cases cause <;> rfl

end Sys2Proof.Machine
end

section
/-! The descriptor in LOAD: the end of a line read (R27, R29, R30), the eleven checks (R20 to R27) and adoption (R30,
R31). -/

namespace Sys2Proof.Machine

variable {s : State}

/-! ## The end of a line read (R29) -/

theorem exec_descriptorReadEnd_of_load (h : s.busHolds .descriptorRead = true) (hload : s.bridge.state = .load)
    (hstop : s.stopWaits = false) (bytes : Line) :
    exec (.descriptorReadEnd bytes) s = .next (s.busIdle.descriptorRead bytes).noteResumes :=
  congrArg State.noted ((if_pos h).trans (if_neg (by simp [hload, hstop])))

theorem exec_descriptorReadEnd_of_waiting (h : s.busHolds .descriptorRead = true)
    (hwait : s.stopWaits = true ∨ s.bridge.state ≠ .load) (bytes : Line) :
    exec (.descriptorReadEnd bytes) s = .next s.busIdle.noteResumes :=
  congrArg State.noted ((if_pos h).trans (if_pos (by simpa using hwait)))

theorem exec_descriptorReadEnd_of_not_holds (h : s.busHolds .descriptorRead = false) (bytes : Line) :
    exec (.descriptorReadEnd bytes) s = .next s.noteResumes := congrArg State.noted (if_neg (by simp [h]))

theorem State.descriptorRead_line0 (h : s.bridge.load = .readLine0) (bytes : Line) :
    s.descriptorRead bytes = s.setBridge { s.bridge with load := .readLine1 bytes } := by
  simp only [State.descriptorRead, h]

theorem State.descriptorRead_line1 {line0 : Line} (h : s.bridge.load = .readLine1 line0) (bytes : Line) :
    s.descriptorRead bytes = s.validate (line0.bytes ++ bytes.bytes) := by
  simp only [State.descriptorRead, h]

/-- Settles O47: what the taken line does is told by the step of LOAD, and on line 1 by the check index. -/
theorem descriptorReadEnd : Obligations.DescriptorReadEnd := by
  refine ⟨fun s bytes hholds hload hpower horderly => ⟨fun hline0 => ?line0, fun line0 hline1 => ⟨fun hpass => ?pass,
      fun hfail => ?fail⟩⟩,
    fun s bytes hholds hwait => ?waiting, fun s bytes h => exec_descriptorReadEnd_of_not_holds h bytes⟩
  case line0 =>
    rw [exec_descriptorReadEnd_of_load hholds hload (State.stopWaits_eq_false hpower horderly),
      State.descriptorRead_line0 (s := s.busIdle) hline0]
    rfl
  case pass =>
    rw [exec_descriptorReadEnd_of_load hholds hload (State.stopWaits_eq_false hpower horderly),
      State.descriptorRead_line1 (s := s.busIdle) hline1, State.validate, if_pos hpass]
    rfl
  case fail =>
    rw [exec_descriptorReadEnd_of_load hholds hload (State.stopWaits_eq_false hpower horderly),
      State.descriptorRead_line1 (s := s.busIdle) hline1, State.validate, if_neg hfail]
    rfl
  case waiting => exact exec_descriptorReadEnd_of_waiting hholds (by simpa [State.stopWaits_iff, or_assoc] using hwait) bytes

/-! ## The check index (R27) -/

theorem descriptorIndex_eq_zero_iff (d : List Byte) :
    descriptorIndex d = 0 ↔ ∀ i, 1 ≤ i → i ≤ 11 → checkPasses d i = true := by
  have hchecks : ∀ i, i ∈ ([1, 2, 3, 4, 5, 6, 7, 8, 9, 10, 11] : List Nat) ↔ 1 ≤ i ∧ i ≤ 11 := fun i => by
    simp only [List.mem_cons, List.not_mem_nil, or_false]; omega
  constructor
  · intro hzero
    unfold descriptorIndex at hzero
    cases hfound : ([1, 2, 3, 4, 5, 6, 7, 8, 9, 10, 11] : List Nat).find? fun i => !checkPasses d i with
    | none =>
      intro i hlo hhi
      simpa using List.find?_eq_none.1 hfound i ((hchecks i).2 ⟨hlo, hhi⟩)
    | some k =>
      have hmem := (hchecks k).1 (List.mem_of_find?_eq_some hfound)
      rw [hfound, Option.getD_some] at hzero
      omega
  · intro hpass
    rcases descriptorIndex_of_passed (k := 11) hpass with hzero | hlate
    · exact hzero
    · rw [descriptorIndex, List.find?_eq_none.2 fun i hi => by simp [hpass i ((hchecks i).1 hi).1 ((hchecks i).1 hi).2]]
      rfl

/-- An index other than 0 is the number of the check that fails before any other. -/
theorem descriptorIndex_eq_iff {d : List Byte} {k : Nat} (hk : 1 ≤ k) : descriptorIndex d = k ↔
    k ≤ 11 ∧ checkPasses d k = false ∧ ∀ i, 1 ≤ i → i < k → checkPasses d i = true := by
  constructor
  · rintro rfl
    have hfirst : ∃ j, 1 ≤ j ∧ j ≤ 11 ∧ ¬ checkPasses d j = true := by
      by_contra hcon
      push Not at hcon
      have := (descriptorIndex_eq_zero_iff d).2 hcon
      omega
    obtain ⟨hlo, hhi, hfail⟩ := Nat.find_spec hfirst
    have hpass : ∀ i, 1 ≤ i → i < Nat.find hfirst → checkPasses d i = true := fun i hi hlt => by
      have hmin := Nat.find_min hfirst hlt
      push Not at hmin
      exact hmin hi (by omega)
    rw [descriptorIndex_of_first_failure hlo hhi hpass hfail]
    exact ⟨hhi, by simpa using hfail, hpass⟩
  · rintro ⟨hhi, hfail, hpass⟩
    exact descriptorIndex_of_first_failure hk hhi hpass (by simp [hfail])

end Sys2Proof.Machine
end

section
/-! What the checks 4 to 11 of the descriptor ask (R21 to R27), and what its adoption puts in force (R30, R31). -/

namespace Sys2Proof.Machine

variable {s : State}

/-! ## The checks of device fields, bank size and numbers (R21, R22, R27) -/

/-- A number of two bytes, the least significant first. -/
theorem at2_eq (d : List Byte) (i : Nat) : at2 d i = numAt d i + 256 * numAt d (i + 1) := by simp [at2, fromLE, numAt]

theorem within_iff (lo hi n : Nat) : within lo hi n = true ↔ lo ≤ n ∧ n ≤ hi := by simp [within]

theorem sectorsOfSize_isSome_iff (code : Byte) :
    (sectorsOfSize code).isSome = true ↔ code = 0x04 ∨ code = 0x08 ∨ code = 0x10 := by
  unfold sectorsOfSize
  split
  case isTrue h => simp [h]
  case isFalse h4 =>
    split
    case isTrue h => simp [h]
    case isFalse h8 =>
      split
      case isTrue h => simp [h]
      case isFalse h16 => exact iff_of_false Bool.false_ne_true (not_or.2 ⟨h4, not_or.2 ⟨h8, h16⟩⟩)

theorem descC_eq (d : List Byte) : descC d =
    if at1 d 6 = 0x04 then 1024 else if at1 d 6 = 0x08 then 2048 else if at1 d 6 = 0x10 then 4096 else 0 := by
  simp only [descC, sectorsOfSize, apply_ite (fun x : Option Nat => x.getD 0), Option.getD_some, Option.getD_none]

section checks
variable (d : List Byte)

theorem checkPasses_four_iff : checkPasses d 4 = true ↔
    (numAt d 5 = 1 ∨ numAt d 5 = 2) ∧ (at1 d 6 = 0x04 ∨ at1 d 6 = 0x08 ∨ at1 d 6 = 0x10) := by
  rw [← sectorsOfSize_isSome_iff]
  simp [checkPasses]

theorem checkPasses_five_iff : checkPasses d 5 = true ↔ 8 ≤ descJ d ∧ descJ d ≤ 32 := within_iff 8 32 (descJ d)

theorem checkPasses_six_iff : checkPasses d 6 = true ↔ 16 ≤ descS d ∧ descS d ≤ 512 ∧ 4 * descS d ≤ descD d := by
  simp [checkPasses, within_iff, and_assoc]

theorem checkPasses_seven_iff : checkPasses d 7 = true ↔ 4 ≤ numAt d 10 ∧ numAt d 10 ≤ 64 ∧ numAt d 10 < descS d := by
  simp [checkPasses, within_iff, and_assoc]

theorem checkPasses_eight_iff : checkPasses d 8 = true ↔
    8 ≤ numAt d 11 ∧ numAt d 11 ≤ 14 ∧ 1 ≤ numAt d 12 ∧ numAt d 12 ≤ numAt d 11 ∧ at2 d 14 ≤ 1000
      ∧ 1 ≤ numAt d 16 ∧ numAt d 16 ≤ 100 ∧ 10 ≤ at2 d 18 ∧ at2 d 18 ≤ 2000 := by
  simp [checkPasses, within_iff, and_assoc]

/-! ## The command profile (R23, R169) -/

/-- The error bit of a legal profile: none, or a bit other than the busy bit. -/
theorem descProfile_errorBit_legal_iff : (match (descProfile d).errorBit with
      | none => true
      | some e => decide (e ≤ 7) && e != (descProfile d).busyBit) = true ↔
    at1 d 30 = 0xFF ∨ (numAt d 30 ≤ 7 ∧ numAt d 30 ≠ numAt d 29) := by
  by_cases hnone : at1 d 30 = 0xFF
  · have herror : (descProfile d).errorBit = none := if_pos hnone
    simp [herror, hnone]
  · have herror : (descProfile d).errorBit = some (numAt d 30) := if_neg hnone
    have hbusy : (descProfile d).busyBit = numAt d 29 := rfl
    rw [or_iff_right hnone, herror, hbusy]
    simp

theorem checkPasses_nine_iff : checkPasses d 9 = true ↔
    numAt d 21 ≤ 2 ∧ numAt d 29 ≤ 7 ∧ (at1 d 30 = 0xFF ∨ (numAt d 30 ≤ 7 ∧ numAt d 30 ≠ numAt d 29)) ∧ 10 ≤ at2 d 32
      ∧ at2 d 32 ≤ 1000 ∧ 1 ≤ numAt d 31 ∧ numAt d 31 ≤ 50 ∧ 50 ≤ at2 d 34 ∧ at2 d 34 ≤ 2000 := by
  rw [← descProfile_errorBit_legal_iff]
  show profileLegal (descProfile d) = true ↔ _
  simp only [profileLegal, Bool.and_eq_true, decide_eq_true_eq, within_iff, and_assoc]
  rfl

/-! ## The regions (R25) -/

theorem Region.overlaps_eq_false_iff (x y : Region) : x.overlaps y = false ↔ y.last < x.first ∨ x.last < y.first := by
  simp only [Region.overlaps, Bool.and_eq_false_iff, decide_eq_false_iff_not, Nat.not_le]

theorem regionsApart_iff_pairwise (regions : List Region) :
    regionsApart regions = true ↔ regions.Pairwise fun x y => x.overlaps y = false := by
  induction regions with
  | nil => simp [regionsApart]
  | cons x rest ih => simp [regionsApart, ih]

/-- Entry by entry, each against those before it. -/
theorem regionsApart_map_range_iff (f : Nat → Region) (n : Nat) : regionsApart ((List.range n).map f) = true ↔
    ∀ e < n, ∀ i < e, (f i).last < (f e).first ∨ (f e).last < (f i).first := by
  rw [regionsApart_iff_pairwise, List.pairwise_map, List.pairwise_iff_getElem]
  simp only [List.length_range, List.getElem_range, Region.overlaps_eq_false_iff]
  exact ⟨fun h e he i hi => (h i e (by omega) he hi).symm, fun h i e _ he hi => (h e he i hi).symm⟩

theorem checkPasses_ten_iff : checkPasses d 10 = true ↔ numAt d 44 ≤ 8
    ∧ (∀ e < numAt d 44, at2 d (48 + 8 * e) ≤ at2 d (50 + 8 * e) ∧ at2 d (50 + 8 * e) < descL d)
    ∧ ∀ e < numAt d 44, ∀ f < e, at2 d (50 + 8 * f) < at2 d (48 + 8 * e) ∨ at2 d (50 + 8 * e) < at2 d (48 + 8 * f) := by
  show regionsLegal d = true ↔ _
  simp only [regionsLegal, descRegions, Bool.and_eq_true, decide_eq_true_eq, regionsApart_map_range_iff, List.all_eq_true,
    List.forall_mem_map, List.mem_range, and_assoc]
  rfl

theorem checkPasses_eleven_iff : checkPasses d 11 = true ↔
    ((descL d + 23) / 24 * 64 + 4095) / 4096 + (descS d * 16 + 4095) / 4096 + 2 ≤ descJ d := decide_eq_true_iff

end checks

/-! ## Adoption (R30, R31) -/

theorem State.adopt_eq (s : State) (d : List Byte) : s.adopt d = { s with
    bridge := { s.bridge with load := .resuming }
    access := { s.access with gateOpen := flagAt d 45 0 }
    bus := { s.bus with
      pollsDue := if numAt d 5 = 2 then s.bus.pollsDue else s.bus.pollsDue.filter fun c => decide (c = .cs0)
      dev0 := s.bus.dev0.map fun x => { x with resumeStep := .resumeDue }
      dev1 := if numAt d 5 = 2 then
          s.bus.dev1.map fun x => { x with resumeStep := if x.state = .ready then .resumeDue else x.resumeStep }
        else none }
    settings := adopted d } := by
  have hstep : ∀ x : Device, (if x.state = .ready then { x with resumeStep := .resumeDue } else x)
      = { x with resumeStep := if x.state = .ready then .resumeDue else x.resumeStep } := fun x => by
    by_cases hready : x.state = .ready <;> simp [hready]
  unfold State.adopt
  simp only [beq_iff_eq, hstep]
  rfl

/-- The requester table, requester by requester (R24). -/
theorem adopted_requesters (d : List Byte) : (adopted d).requesters = Vector.ofFn fun r : Fin 8 => descRights d r := by
  ext i hi : 1
  simp [adopted]

/-- Settles O48: each check by the fields it names; adoption is the model's own, its requester table read by index. -/
theorem descriptorAdoption : Obligations.DescriptorAdoption := by
  refine ⟨descriptorIndex_eq_zero_iff, fun d k hk => descriptorIndex_eq_iff hk, ?_⟩
  intro d b n w C D L hb hn hw hC hD hL
  obtain rfl : b = at1 d := hb
  obtain rfl : n = numAt d := hn
  obtain rfl : w = at2 d := hw.trans (funext fun i => (at2_eq d i).symm)
  obtain rfl : C = descC d := hC.trans (descC_eq d).symm
  obtain rfl : D = descD d := hD
  obtain rfl : L = descL d := hL
  refine ⟨checkPasses_four_iff d, checkPasses_five_iff d, checkPasses_six_iff d, checkPasses_seven_iff d,
    checkPasses_eight_iff d, checkPasses_nine_iff d, checkPasses_ten_iff d, checkPasses_eleven_iff d, fun s => ?_⟩
  rw [State.adopt_eq]
  have hrequesters := adopted_requesters d
  have hsettings : adopted d = { adopted d with requesters := Vector.ofFn fun r : Fin 8 => descRights d r } := by
    rw [← hrequesters]
  rw [hsettings]
  rfl

end Sys2Proof.Machine
end

section
/-! REBUILD reads the banks: the end of a bank's window, the contenders and their examination (R142), and the replay of a
bank with its append pointer and next number (R143 to R146). -/

namespace Sys2Proof.Machine

variable {s : State}

/-! ## The end of a bank's window (R142) -/

theorem exec_journalReadEnd_of_rebuild (h : s.busHolds .journalRead = true) (hrebuild : s.bridge.state = .rebuild)
    (hstop : s.stopWaits = false) (bytes : Window) :
    exec (.journalReadEnd bytes) s = .next (s.busIdle.rebuildRead bytes).noteResumes :=
  congrArg State.noted ((if_pos h).trans (if_neg (by simp [hrebuild, hstop])))

theorem exec_journalReadEnd_of_waiting (h : s.busHolds .journalRead = true)
    (hwait : s.stopWaits = true ∨ s.bridge.state ≠ .rebuild) (bytes : Window) :
    exec (.journalReadEnd bytes) s = .next s.busIdle.noteResumes :=
  congrArg State.noted ((if_pos h).trans (if_pos (by simpa using hwait)))

theorem exec_journalReadEnd_of_not_holds (h : s.busHolds .journalRead = false) (bytes : Window) :
    exec (.journalReadEnd bytes) s = .next s.noteResumes := congrArg State.noted (if_neg (by simp [h]))

theorem State.rebuildRead_readA (h : s.journal.rebuild = .readA) (w : Window) :
    s.rebuildRead w = s.setJournal { s.journal with rebuild := .readB w } := by
  simp only [State.rebuildRead, h]

theorem State.rebuildRead_readB {windowA : Window} (h : s.journal.rebuild = .readB windowA) (w : Window) :
    s.rebuildRead w = (s.setFree (s.contenders windowA w).2).examine (s.contenders windowA w).1 false := by
  simp only [State.rebuildRead, h]

theorem State.rebuildRead_examine {c : Contender} {windows : List Window} {rest : List Contender} {spoiled : Bool}
    (h : s.journal.rebuild = .examine c windows rest spoiled) (w : Window) :
    s.rebuildRead w = s.judge c (windows ++ [w]) rest spoiled := by
  simp only [State.rebuildRead, h]

/-- Bank A's window 0 and bank B's give the contenders in order, and the free values left. -/
theorem exec_journalReadEnd_of_contenders (h : s.busHolds .journalRead = true) (hrebuild : s.bridge.state = .rebuild)
    (hstop : s.stopWaits = false) {windowA : Window} (hstep : s.journal.rebuild = .readB windowA) {bytes : Window}
    {order : List Contender} {free : Nat} (horder : s.contenders windowA bytes = (order, free)) :
    exec (.journalReadEnd bytes) s = .next (State.examine { s.busIdle with free := free } order false).noteResumes := by
  have hcontenders : s.busIdle.contenders windowA bytes = (order, free) := horder
  rw [exec_journalReadEnd_of_rebuild h hrebuild hstop, State.rebuildRead_readB (s := s.busIdle) hstep, hcontenders]
  rfl

/-! ## The contenders (R142) -/

/-- A bank contends where its slot 0 holds a BANK_OPEN. -/
theorem contenderOf_eq_some_iff {bank : Bank} {w : Window} {c : Contender} : contenderOf bank w = some c ↔
    c.bank = bank ∧ c.window0 = w ∧ slotAt [w] 0 = .valid c.sequence (.bankOpen c.generation) := by
  unfold contenderOf
  split
  case h_1 seq generation hslot =>
    rw [hslot, Option.some.injEq, SlotContent.valid.injEq, Record.bankOpen.injEq]
    constructor
    · rintro rfl
      exact ⟨rfl, rfl, rfl, rfl⟩
    · rintro ⟨rfl, rfl, rfl, rfl⟩
      rfl
  case h_2 hnone =>
    simp only [reduceCtorEq, false_iff]
    rintro ⟨-, -, hslot⟩
    exact hnone _ _ hslot

/-- The higher generation goes first, at equal generations the higher number. -/
theorem Contender.before_iff (x y : Contender) : x.before y = true ↔
    y.generation < x.generation ∨ (x.generation = y.generation ∧ y.sequence < x.sequence) := by
  simp [Contender.before]

/-- Two members have two orders. -/
theorem freely_two {α : Type} (n : Nat) (x y : α) : freely n [x, y] = [x, y] ∨ freely n [x, y] = [y, x] := by
  have heq : freely n [x, y] = insertAt [y] (Config.freeOrder n % 2) x := rfl
  rw [heq]
  obtain h | h : Config.freeOrder n % 2 = 0 ∨ Config.freeOrder n % 2 = 1 := by omega
  · rw [h]; exact .inl rfl
  · rw [h]; exact .inr rfl

section two
variable {windowA windowB : Window}

theorem State.contenders_none (ha : contenderOf .a windowA = none) (hb : contenderOf .b windowB = none) :
    s.contenders windowA windowB = ([], s.free) := by
  simp only [State.contenders, ha, hb]

theorem State.contenders_one {c : Contender}
    (h : (contenderOf .a windowA = some c ∧ contenderOf .b windowB = none)
      ∨ (contenderOf .a windowA = none ∧ contenderOf .b windowB = some c)) :
    s.contenders windowA windowB = ([c], s.free) := by
  rcases h with ⟨ha, hb⟩ | ⟨ha, hb⟩ <;> simp only [State.contenders, ha, hb]

variable {x y : Contender} (hx : contenderOf .a windowA = some x) (hy : contenderOf .b windowB = some y)
include hx hy

theorem State.contenders_two : s.contenders windowA windowB =
    if x.before y = true then ([x, y], s.free)
    else if y.before x = true then ([y, x], s.free)
    else (freely s.free [x, y], s.free + 1) := by
  simp only [State.contenders, hx, hy]

theorem State.contenders_ordered
    (h : y.generation < x.generation ∨ (x.generation = y.generation ∧ y.sequence < x.sequence)) :
    s.contenders windowA windowB = ([x, y], s.free) := by
  rw [State.contenders_two hx hy, if_pos ((x.before_iff y).2 h)]

theorem State.contenders_swapped
    (h : x.generation < y.generation ∨ (x.generation = y.generation ∧ x.sequence < y.sequence)) :
    s.contenders windowA windowB = ([y, x], s.free) := by
  have hnot : ¬ x.before y = true := by rw [x.before_iff y]; omega
  rw [State.contenders_two hx hy, if_neg hnot, if_pos ((y.before_iff x).2 (by omega))]

theorem State.contenders_tied (hgen : x.generation = y.generation) (hseq : x.sequence = y.sequence) :
    s.contenders windowA windowB = (freely s.free [x, y], s.free + 1) := by
  have hnot : ¬ x.before y = true := by rw [x.before_iff y]; omega
  have hnot' : ¬ y.before x = true := by rw [y.before_iff x]; omega
  rw [State.contenders_two hx hy, if_neg hnot, if_neg hnot']

end two

/-! ## The examination (R142 to R146) -/

section examine
variable (c : Contender) (rest : List Contender) (spoiled : Bool)

/-- A contender whose scan went wrong is passed over; of a generation other than 1 it spoils the first boot (log 13). -/
def Contender.passedOver : Bool := spoiled || decide (c.generation ≠ 1)

theorem Contender.passedOver_eq : (spoiled || c.generation != 1) = c.passedOver spoiled := by
  rw [Contender.passedOver, bne, Bool.beq_eq_decide_eq, decide_not]

theorem State.examine_of_bad (h : scanOpening s.settings c.sequence [c.window0] = .bad) :
    s.examine (c :: rest) spoiled = s.examine rest (c.passedOver spoiled) := by
  rw [← Contender.passedOver_eq]
  simp only [State.examine, h]

theorem State.examine_of_not_bad (h : scanOpening s.settings c.sequence [c.window0] ≠ .bad) :
    s.examine (c :: rest) spoiled =
      s.setJournal { s.journal with rebuild := .examine c [c.window0] rest spoiled } := by
  cases hscan : scanOpening s.settings c.sequence [c.window0] with
  | bad => exact absurd hscan h
  | more => simp only [State.examine, hscan]
  | done a => simp only [State.examine, hscan]

variable {windows : List Window}

theorem State.judge_of_bad (h : scanOpening s.settings c.sequence windows = .bad) :
    s.judge c windows rest spoiled = s.examine rest (c.passedOver spoiled) := by
  rw [← Contender.passedOver_eq]
  simp only [State.judge, h]

/-- Windows are left to read. -/
theorem State.judge_of_unread (hread : windows.length < 16 * s.settings.bankSectors)
    (h : scanOpening s.settings c.sequence windows ≠ .bad) :
    s.judge c windows rest spoiled = s.setJournal { s.journal with rebuild := .examine c windows rest spoiled } := by
  have hunread : s.bankRead windows = false := decide_eq_false (by omega)
  cases hscan : scanOpening s.settings c.sequence windows with
  | bad => exact absurd hscan h
  | more => simp only [State.judge, hscan, hunread, Bool.false_eq_true, if_false]
  | done a => simp only [State.judge, hscan, hunread, Bool.false_eq_true, if_false]

/-- The whole bank was read and its opening part is not complete. -/
theorem State.judge_of_incomplete (hread : 16 * s.settings.bankSectors ≤ windows.length)
    (h : ∀ entries l, scanOpening s.settings c.sequence windows ≠ .done (entries, l)) :
    s.judge c windows rest spoiled = s.examine rest (c.passedOver spoiled) := by
  have hall : s.bankRead windows = true := decide_eq_true hread
  cases hscan : scanOpening s.settings c.sequence windows with
  | bad => exact State.judge_of_bad c rest spoiled hscan
  | more =>
    rw [← Contender.passedOver_eq]
    simp only [State.judge, hscan, hall, if_true]
  | done a => exact absurd hscan (h a.1 a.2)

/-- The whole bank was read and replayed: chosen or rejected by its check. -/
theorem State.judge_of_complete (hread : 16 * s.settings.bankSectors ≤ windows.length) {entries : List Nat} {l : Listing}
    (h : scanOpening s.settings c.sequence windows = .done (entries, l)) {r : Replay}
    (hr : r = replayDeltas s.settings windows l.closing (Replay.start s.settings entries l)) :
    s.judge c windows rest spoiled =
      if r.finish.passes s.settings = true then s.choose c windows l r else s.examine rest true := by
  have hall : s.bankRead windows = true := decide_eq_true hread
  subst hr
  simp only [State.judge, h, hall, if_true]

end examine

/-- An opening part found bad is complete with no windows that follow. -/
theorem scanOpening_ne_done_of_bad {c : Settings} {opened : Nat} {windows : List Window}
    (h : scanOpening c opened windows = .bad) (more : List Window) (entries : List Nat) (l : Listing) :
    scanOpening c opened (windows ++ more) ≠ .done (entries, l) := by
  rw [scanOpening_bad_append c opened windows more h]
  simp

/-! ## Replay (R143, R144) -/

theorem Replay.start_eq (c : Settings) (entries : List Nat) (l : Listing) : Replay.start c entries l =
    ⟨entries.take c.windowSectors, l.free, l.retired, decide (0xFFFF ∈ entries.take c.windowSectors), none, l.seq,
      none⟩ := by
  have hfailed : ((entries.take c.windowSectors).any fun e => e == 0xFFFF) =
      decide (0xFFFF ∈ entries.take c.windowSectors) := by
    rw [Bool.eq_iff_iff]
    simp
  rw [← hfailed]
  rfl

section apply
variable (r : Replay) {ps : Nat} {left : List Nat}
  (hleft : (ps ∉ r.free ∧ left = r.free) ∨ ∃ ahead, r.free = ahead ++ ps :: left ∧ ps ∉ ahead)

/-- What a MAP fails on: a failure carried, a table entry other than its previous sector, a retired or a mapped sector. -/
def Replay.mapFails (ls newPs oldPs : Nat) : Bool :=
  r.failed || r.table[ls]? != some oldPs || r.isRetired newPs || (r.table.zipIdx.any fun x => x.1 == newPs && x.2 != ls)

theorem Replay.mapFails_iff (ls newPs oldPs : Nat) : r.mapFails ls newPs oldPs = true ↔
    r.failed = true ∨ r.table[ls]? ≠ some oldPs ∨ (∃ x ∈ r.retired, x.ps = newPs)
      ∨ ∃ other, other ≠ ls ∧ r.table[other]? = some newPs := by
  have hmapped : (r.table.zipIdx.any fun x => x.1 == newPs && x.2 != ls) = true
      ↔ ∃ other, other ≠ ls ∧ r.table[other]? = some newPs := by
    simp only [List.any_eq_true, Prod.exists, List.mem_zipIdx_iff_getElem?, Bool.and_eq_true, beq_iff_eq, bne_iff_ne]
    exact ⟨fun ⟨_, other, hat, hps, hne⟩ => ⟨other, hne, hps ▸ hat⟩, fun ⟨other, hne, hat⟩ => ⟨_, other, hat, rfl, hne⟩⟩
  rw [Replay.mapFails, Bool.or_eq_true, Bool.or_eq_true, Bool.or_eq_true, hmapped, r.isRetired_iff, bne_iff_ne,
    or_assoc, or_assoc]

/-- A sector in the table or the retired set. -/
theorem Replay.placed_iff : (r.table.contains ps || r.isRetired ps) = true ↔ ps ∈ r.table ∨ ∃ x ∈ r.retired, x.ps = ps := by
  rw [Bool.or_eq_true, r.isRetired_iff, List.contains_iff_mem]

include hleft

theorem Replay.apply_map (ls oldPs : Nat) : r.apply (.map ls ps oldPs) =
    { r with table := r.table.set ls ps, free := left, failed := r.mapFails ls ps oldPs } := by
  rw [← takenFrom_left r.free ps left hleft]
  rfl

theorem Replay.apply_erased_of_unplaced (h : ¬ (ps ∈ r.table ∨ ∃ x ∈ r.retired, x.ps = ps)) :
    r.apply (.erased ps) = { r with free := left ++ [ps] } := by
  rw [← takenFrom_left r.free ps left hleft]
  exact if_neg (mt r.placed_iff.1 h)

theorem Replay.apply_retire_of_unplaced (h : ¬ (ps ∈ r.table ∨ ∃ x ∈ r.retired, x.ps = ps)) (cause : RetireCause) :
    r.apply (.retire ps cause) = { r with free := left, retired := r.retired ++ [⟨ps, cause⟩] } := by
  rw [← takenFrom_left r.free ps left hleft]
  exact if_neg (mt r.placed_iff.1 h)

omit hleft

theorem Replay.apply_of_placed (h : ps ∈ r.table ∨ ∃ x ∈ r.retired, x.ps = ps) :
    r.apply (.erased ps) = { r with failed := true } ∧ ∀ cause, r.apply (.retire ps cause) = { r with failed := true } :=
  ⟨if_pos (r.placed_iff.2 h), fun _ => if_pos (r.placed_iff.2 h)⟩

theorem Replay.take_of_repeat {d : Delta} (h : r.last = some d) (slot seq : Nat) :
    r.take slot seq d = { r with lastSeq := seq, lastSlot := some slot } := by
  rw [Replay.take, if_pos (by simp [h]), ← h]

theorem Replay.take_of_new {d : Delta} (h : r.last ≠ some d) (slot seq : Nat) :
    r.take slot seq d = { r.apply d with last := some d, lastSeq := seq, lastSlot := some slot } := by
  rw [Replay.take, if_neg (by simpa using h)]

end apply

/-! ## The scan of the delta area (R145) -/

section scan
variable {windows : List Window} {n slot : Nat} {r : Replay}

theorem scanSector_of_newer {seq : Nat} {d : Delta} (h : slotAt windows slot = .valid seq (.delta d))
    (hseq : r.lastSeq < seq) :
    scanSector windows (n + 1) slot r = scanSector windows n (slot + 1) (r.take slot seq d) := by
  simp only [scanSector, h, hseq, if_true]

/-- An empty or torn slot, another record or an older number ends the scan of the sector. -/
theorem scanSector_of_not_newer (h : ∀ seq d, slotAt windows slot = .valid seq (.delta d) → seq ≤ r.lastSeq) :
    scanSector windows (n + 1) slot r = r := by
  unfold scanSector
  split
  case h_1 seq d hslot => exact if_neg (Nat.not_lt.2 (h seq d hslot))
  case h_2 => rfl

end scan

theorem filter_range_from (first n : Nat) :
    ((List.range (first + n)).filter fun k => decide (first ≤ k)) = (List.range n).map fun k => first + k := by
  have hbelow : (List.range first).filter (fun k => decide (first ≤ k)) = [] := by
    simp [List.filter_eq_nil_iff]
  rw [List.range_add, List.filter_append, hbelow, List.nil_append, List.filter_eq_self]
  simp

section bank
variable (c : Settings) (windows : List Window) (closing : Nat)

theorem replayDeltas_eq {n : Nat} (h : c.bankSectors = (closing + 1) / 256 + n) (r : Replay) :
    replayDeltas c windows closing r = (List.range n).foldl (fun u k =>
      scanSector windows (256 * ((closing + 1) / 256 + k + 1) - max (closing + 1) (256 * ((closing + 1) / 256 + k)))
        (max (closing + 1) (256 * ((closing + 1) / 256 + k))) u) r := by
  rw [replayDeltas, h, filter_range_from, List.foldl_map]

theorem mem_deltaSlots (k : Nat) : k ∈ deltaSlots c closing ↔ closing < k ∧ k < c.bankSectors * 256 := by
  simp [deltaSlots, Config.slotsPerSector, and_comm]

/-! ## The append pointer (R145) -/

/-- The last slot of the delta area that is not empty. -/
def lastWritten : Option Nat := ((deltaSlots c closing).filter fun k => slotAt windows k != .empty).getLast?

theorem lastWritten_eq_none (h : ∀ k, closing < k → k < c.bankSectors * 256 → slotAt windows k = .empty) :
    lastWritten c windows closing = none := by
  rw [lastWritten, List.getLast?_eq_none_iff, List.filter_eq_nil_iff]
  intro k hk
  obtain ⟨hlo, hhi⟩ := (mem_deltaSlots c closing k).1 hk
  simp [h k hlo hhi]

theorem lastWritten_eq_some {k : Nat} (hlo : closing < k) (hhi : k < c.bankSectors * 256) (hk : slotAt windows k ≠ .empty)
    (h : ∀ j, k < j → j < c.bankSectors * 256 → slotAt windows j = .empty) : lastWritten c windows closing = some k := by
  have hfilter : ((deltaSlots c closing).filter fun k => slotAt windows k != .empty) =
      (List.range (c.bankSectors * 256)).filter fun k => slotAt windows k != .empty && decide (closing < k) :=
    List.filter_filter ..
  have hlast := getLastD_filter_range (p := fun k => slotAt windows k != .empty && decide (closing < k)) hhi
    (by simp [hk, hlo]) (fun j hj hp => by
      by_contra hcon
      simp [h j (by omega) hj] at hp) (c.bankSectors * 256)
  rw [lastWritten, hfilter]
  rw [List.getLastD_eq_getLast?] at hlast
  cases hget : ((List.range (c.bankSectors * 256)).filter
      fun k => slotAt windows k != .empty && decide (closing < k)).getLast? with
  | none =>
    rw [hget, Option.getD_none] at hlast
    omega
  | some j => rw [hget, Option.getD_some] at hlast; rw [hlast]

theorem pointerAfter_of_none (h : lastWritten c windows closing = none) (r : Replay) :
    pointerAfter c windows closing r = closing + 1 := by
  unfold lastWritten at h
  simp only [pointerAfter, h]

theorem pointerAfter_of_some {k : Nat} (h : lastWritten c windows closing = some k) (r : Replay) :
    pointerAfter c windows closing r = if r.lastSlot = some k then k + 1 else (k / 256 + 1) * 256 := by
  unfold lastWritten at h
  simp only [pointerAfter, h]

end bank

/-! ## The next sequence number (R145) -/

/-- The greatest of a start value and the values of a list's members. -/
theorem foldl_max_spec {α : Type} (f : α → Nat) (l : List α) : ∀ init : Nat,
    init ≤ l.foldl (fun m k => max m (f k)) init
    ∧ (∀ k ∈ l, f k ≤ l.foldl (fun m k => max m (f k)) init)
    ∧ (l.foldl (fun m k => max m (f k)) init = init
      ∨ ∃ k ∈ l, l.foldl (fun m k => max m (f k)) init = f k ∧ init < f k) := by
  induction l with
  | nil => simp
  | cons x l ih =>
    intro init
    obtain ⟨hinit, hmem, hreached⟩ := ih (max init (f x))
    rw [List.foldl_cons]
    refine ⟨by omega, ?_, ?_⟩
    · rintro k (_ | ⟨_, hk⟩)
      · omega
      · exact hmem k hk
    · rcases hreached with heq | ⟨k, hk, heq, hlt⟩
      · rcases Nat.lt_or_ge init (f x) with hlt | hge
        · exact .inr ⟨x, List.mem_cons_self, by omega, hlt⟩
        · exact .inl (by omega)
      · exact .inr ⟨k, List.mem_cons_of_mem _ hk, heq, by omega⟩

/-- A record of number `seq` is read at slot k: one of a slot, or an image record at its place. -/
def readsNumber (windows : List Window) (k seq : Nat) : Prop :=
  (∃ x, slotAt windows k = .valid seq x)
    ∨ ((∀ m x, slotAt windows k ≠ .valid m x) ∧ k % 4 = 0 ∧ ∃ x, imageAt windows k = .valid seq x)

theorem validSeq_of_reads {windows : List Window} {k seq : Nat} (h : readsNumber windows k seq) :
    validSeq windows k = seq := by
  rcases h with ⟨x, hslot⟩ | ⟨hnone, hplace, x, himage⟩
  · simp only [validSeq, hslot]
  · unfold validSeq
    split
    case h_1 m y hslot => exact absurd hslot (hnone m y)
    case h_2 => simp only [hplace, himage, if_true]

/-- A number other than 0 is that of a record. -/
theorem reads_of_validSeq_pos {windows : List Window} {k : Nat} (h : 0 < validSeq windows k) :
    readsNumber windows k (validSeq windows k) := by
  by_cases hreads : ∃ seq, readsNumber windows k seq
  · obtain ⟨seq, hreads⟩ := hreads
    rwa [validSeq_of_reads hreads]
  · have hslot : ∀ m x, slotAt windows k ≠ .valid m x := fun m x hm => hreads ⟨m, .inl ⟨x, hm⟩⟩
    have hzero : validSeq windows k = 0 := by
      unfold validSeq
      split
      case h_1 m x hm => exact absurd hm (hslot m x)
      case h_2 =>
        split
        case isFalse => rfl
        case isTrue hplace =>
          split
          case h_1 m x hm => exact absurd ⟨m, .inr ⟨hslot, hplace, x, hm⟩⟩ hreads
          case h_2 => rfl
    omega

theorem nextSeqAfter_spec (c : Settings) (windows : List Window) (l : Listing) : ∃ m, nextSeqAfter c windows l = m + 1
    ∧ l.seq ≤ m
    ∧ (∀ k seq, l.closing < k → k < c.bankSectors * 256 → readsNumber windows k seq → seq ≤ m)
    ∧ (m = l.seq ∨ ∃ k, l.closing < k ∧ k < c.bankSectors * 256 ∧ readsNumber windows k m) := by
  obtain ⟨hinit, hmem, hreached⟩ := foldl_max_spec (validSeq windows) (deltaSlots c l.closing) l.seq
  refine ⟨_, rfl, hinit, fun k seq hlo hhi hreads => ?_, hreached.imp_right ?_⟩
  · rw [← validSeq_of_reads hreads]
    exact hmem k ((mem_deltaSlots c l.closing k).2 ⟨hlo, hhi⟩)
  · rintro ⟨k, hk, heq, hlt⟩
    obtain ⟨hlo, hhi⟩ := (mem_deltaSlots c l.closing k).1 hk
    exact ⟨k, hlo, hhi, heq ▸ reads_of_validSeq_pos (by omega)⟩

end Sys2Proof.Machine
end

section
/-! The outcomes of REBUILD (R147, R148), the records of a bank's slots as bytes (R130, R131, R169), and the end of a bank's
window in REBUILD as a whole (R142 to R148). -/

namespace Sys2Proof.Machine

variable {s : State}

/-! ## The outcomes (R147, R148) -/

theorem MapJournal.generation_of_active {j : MapJournal} {bank : Bank} {g : BitVec 32} (hactive : j.active = some bank)
    (hrow : j.row bank = some ⟨.active, some g⟩) : j.generation = g := by
  simp only [MapJournal.generation, hactive, hrow, Option.getD_some]

theorem State.wornAtRebuild_iff (s : State) : s.wornAtRebuild = true ↔
    s.map.pool = [] ∧ s.map.queue = [] ∧ s.map.retired.length = s.settings.spares := by
  simp [State.wornAtRebuild, and_assoc]

/-- REBUILD completed, before PFAIL is heeded. -/
def State.served (s : State) (worn : Bool) (generation : BitVec 32) : State :=
  { s with
    map := { s.map with valid := true, worn := worn, lowArmed := decide (s.settings.lowMark ≤ s.map.pool.length) }
    journal := { s.journal with
      rebuild := .idle
      compaction := if s.settings.bankSectors * 256 - s.journal.pointer < 256 then .pending else .idle }
    events := EventBlock.receive (if worn = true then s.events.receive { kind := .worn, value := some s.map.retired.length }
        else s.events) { kind := .serviceReady, value := some generation.toNat }
    bridge := { s.bridge with state := .service } }

theorem State.rebuildDone_eq (s : State) :
    s.rebuildDone = (s.served s.wornAtRebuild s.journal.generation).heedPfail := by
  cases hworn : s.wornAtRebuild with
  | true =>
    have hcond : (s.map.pool.isEmpty && s.map.queue.isEmpty && s.map.retired.length == s.settings.spares) = true := hworn
    simp only [State.rebuildDone, hcond, if_true]
    rfl
  | false =>
    have hcond : (s.map.pool.isEmpty && s.map.queue.isEmpty && s.map.retired.length == s.settings.spares) = false := hworn
    simp only [State.rebuildDone, hcond, Bool.false_eq_true, if_false]
    rfl

/-- The stale sectors by the lists that leave them out. -/
theorem Replay.stale_eq (c : Settings) (r : Replay) : r.stale c =
    ((List.range c.totalSectors).filter fun ps => decide (c.dataBase ≤ ps ∧ ps ∉ r.table ∧ ps ∉ r.free
      ∧ ∀ x ∈ r.retired, x.ps ≠ ps)).map fun ps => ⟨ps, false⟩ := by
  refine congrArg (List.map _) (List.filter_congr fun ps hps => ?_)
  have hretired : r.isRetired ps = false ↔ ∀ x ∈ r.retired, x.ps ≠ ps := by
    rw [← Bool.not_eq_true, r.isRetired_iff]
    push Not
    rfl
  have hlt := List.mem_range.1 hps
  rw [Bool.eq_iff_iff]
  simp only [inDataArea, hlt, decide_true, Bool.and_true, Bool.and_eq_true, decide_eq_true_eq, Bool.not_eq_true', hretired,
    List.contains_eq_mem, decide_eq_false_iff_not, and_assoc]

theorem State.choose_eq (s : State) (c : Contender) (windows : List Window) (l : Listing) (r : Replay) :
    ∃ retired : List RetiredSector, retired.Perm r.retired ∧ retired.Pairwise (fun x y => x.ps ≤ y.ps)
    ∧ s.choose c windows l r = State.rebuildDone { s with
      map := { SectorMap.empty with
        remap := r.table, pool := r.free.drop 1, retired := retired
        queue := ((List.range s.settings.totalSectors).filter fun ps => decide (s.settings.dataBase ≤ ps ∧ ps ∉ r.table
          ∧ ps ∉ r.free.drop 1 ∧ ∀ x ∈ r.retired, x.ps ≠ ps)).map fun ps => ⟨ps, false⟩ }
      journal := MapJournal.setRow (MapJournal.setRow { s.journal with
          pointer := pointerAfter s.settings windows l.closing r, nextSeq := nextSeqAfter s.settings windows l }
        c.bank (some ⟨.active, some (BitVec.ofNat 32 c.generation)⟩)) c.bank.other (some ⟨.stale, none⟩) } := by
  obtain ⟨hperm, hsorted⟩ := insertRetired_foldl r.retired [] List.Pairwise.nil
  rw [List.append_nil] at hperm
  have hstale := Replay.stale_eq s.settings r.finish
  refine ⟨_, hperm, hsorted, ?_⟩
  unfold State.choose
  rw [hstale]
  rfl

/-! ## The numbers of a record (R169) -/

theorem fromLE_take_succ {b : List Byte} {i : Nat} (h : i < b.length) (n : Nat) :
    fromLE ((b.drop i).take (n + 1)) = (at1 b i).toNat + 256 * fromLE ((b.drop (i + 1)).take n) := by
  rw [List.drop_eq_getElem_cons h, List.take_succ_cons, at1, List.getD_eq_getElem _ _ h]
  rfl

theorem fromLE_take_one {b : List Byte} {i : Nat} (h : i < b.length) : fromLE ((b.drop i).take 1) = (at1 b i).toNat := by
  rw [fromLE_take_succ h]
  simp [fromLE]

theorem fromLE_take_two {b : List Byte} {i : Nat} (h : i + 2 ≤ b.length) : fromLE ((b.drop i).take 2) = at2 b i := by
  rw [fromLE_take_succ (by omega), fromLE_take_one (by omega)]
  simp [at2, fromLE]

theorem fromLE_take_four {b : List Byte} {i : Nat} (h : i + 4 ≤ b.length) : fromLE ((b.drop i).take 4) = at4 b i := by
  rw [fromLE_take_succ (by omega), fromLE_take_succ (by omega), fromLE_take_succ (by omega), fromLE_take_one (by omega)]
  simp [at4, fromLE]

/-! ## A slot's record (R130, R169) -/

section slot
variable {b : List Byte}

theorem blank_iff : (b.all fun x => x == 0xFF) = true ↔ ∀ x ∈ b, x = 0xFF := by simp

theorem not_blank_iff : (b.all fun x => x == 0xFF) = false ↔ ∃ x ∈ b, x ≠ 0xFF := by simp

theorem checkHolds_iff {n : Nat} (hn : 2 ≤ n) (hlen : b.length = n) :
    checkHolds b n = true ↔ fromLE ((b.drop (n - 2)).take 2) = (crc16 (b.take (n - 2))).toNat := by
  rw [fromLE_take_two (by omega)]
  exact beq_iff_eq

theorem readSlot_of_blank (h : ∀ x ∈ b, x = 0xFF) : readSlot b = .empty := if_pos (blank_iff.2 h)

variable (hwritten : ∃ x ∈ b, x ≠ 0xFF)
include hwritten

theorem readSlot_of_bad_check (h : ¬ checkHolds b 16 = true) : readSlot b = .torn :=
  (if_neg (ne_true_of_eq_false (not_blank_iff.2 hwritten))).trans (if_neg h)

theorem readSlot_of_record (h : checkHolds b 16 = true) {r : Record} (hr : recordOf b = some r) :
    readSlot b = .valid (at4 b 2) r := by
  simp only [readSlot, not_blank_iff.2 hwritten, h, hr, Bool.false_eq_true, if_true, if_false]

theorem readSlot_of_no_record (h : checkHolds b 16 = true) (hr : recordOf b = none) : readSlot b = .torn := by
  simp only [readSlot, not_blank_iff.2 hwritten, h, hr, Bool.false_eq_true, if_true, if_false]

omit hwritten

theorem recordOf_map (h : (at1 b 0).toNat = 1) : recordOf b = some (.delta (.map (at2 b 6) (at2 b 8) (at2 b 10))) := by
  simp only [recordOf, h]

theorem recordOf_erased (h : (at1 b 0).toNat = 2) : recordOf b = some (.delta (.erased (at2 b 6))) := by
  simp only [recordOf, h]

theorem recordOf_retire (h : (at1 b 0).toNat = 3) :
    recordOf b = some (.delta (.retire (at2 b 6) (causeOf (at1 b 1)))) := by
  simp only [recordOf, h]

theorem recordOf_bankOpen (h : (at1 b 0).toNat = 4) : recordOf b = some (.bankOpen (at4 b 6)) := by
  simp only [recordOf, h]

theorem recordOf_imageEnd (h : (at1 b 0).toNat = 5) : recordOf b = some (.imageEnd (at2 b 6) (at2 b 8)) := by
  simp only [recordOf, h]

theorem recordOf_other (h : (at1 b 0).toNat = 0 ∨ 5 < (at1 b 0).toNat) : recordOf b = none := by
  unfold recordOf
  split
  case h_6 => rfl
  all_goals omega

/-- The two causes listed by their bytes; another byte names a free cause (log 42). -/
theorem causeOf_listed (byte : Byte) :
    (byte.toNat = 1 → causeOf byte = .program) ∧ (byte.toNat = 2 → causeOf byte = .erase) := by
  refine ⟨fun h => ?_, fun h => ?_⟩
  · obtain rfl : byte = 1 := BitVec.eq_of_toNat_eq h
    rfl
  · obtain rfl : byte = 2 := BitVec.eq_of_toNat_eq h
    rfl

end slot

/-! ## An image place (R131, R169) -/

theorem written_of_at1 {b : List Byte} {i : Nat} (h : at1 b i ≠ 0xFF) : ∃ x ∈ b, x ≠ 0xFF := by
  rcases Nat.lt_or_ge i b.length with hlt | hge
  · rw [at1, List.getD_eq_getElem _ _ hlt] at h
    exact ⟨_, List.getElem_mem hlt, h⟩
  · exact absurd (List.getD_eq_default _ _ hge) h

theorem readImage_of_record {b : List Byte} (hkind : at1 b 0 = 0x06) (h : checkHolds b 64 = true) :
    readImage b = .valid (at4 b 2) (.image (at2 b 6) ((List.range 24).map fun i => at2 b (8 + 2 * i))) := by
  have hwritten : ∃ x ∈ b, x ≠ 0xFF := written_of_at1 (by rw [hkind]; decide)
  exact (if_neg (ne_true_of_eq_false (not_blank_iff.2 hwritten))).trans (if_pos (by simp [hkind, h]))

theorem readImage_of_bad_check {b : List Byte} (hwritten : ∃ x ∈ b, x ≠ 0xFF) (h : ¬ checkHolds b 64 = true) :
    readImage b = .torn :=
  (if_neg (ne_true_of_eq_false (not_blank_iff.2 hwritten))).trans (if_neg (by simp [h]))

theorem bytesAt_eq {windows : List Window} {k : Nat} {w : Window} (h : windows[k / 16]? = some w) (n : Nat) :
    bytesAt windows k n = (w.bytes.drop (16 * (k % 16))).take n := by
  simp only [bytesAt, h]

theorem Window.length_bytes (w : Window) : w.bytes.length = 256 := by simp [Window.bytes]

end Sys2Proof.Machine
end

section
/-! The end of a bank's window in REBUILD (R130, R131, R142 to R148): what stands in a slot and at an image place by the
bytes of a window, and the statement as a whole. -/

namespace Sys2Proof.Machine

variable {s : State}

/-! ## The bytes of a slot and of an image place (R130, R131, R169) -/

section bytes
variable {windows : List Window} {k : Nat} {w : Window} {b : List Byte} (hw : windows[k / 16]? = some w)

section slot
variable (hb : b = (w.bytes.drop (16 * (k % 16))).take 16)
include hb

theorem length_slotBytes : b.length = 16 := by
  rw [hb, List.length_take, List.length_drop, Window.length_bytes w]
  omega

include hw

theorem slotAt_eq_readSlot : slotAt windows k = readSlot b := by rw [slotAt, bytesAt_eq hw, ← hb]

theorem slotAt_of_blank (h : ∀ x ∈ b, x = 0xFF) : slotAt windows k = .empty :=
  (slotAt_eq_readSlot hw hb).trans (readSlot_of_blank h)

variable (hwritten : ∃ x ∈ b, x ≠ 0xFF)
include hwritten

theorem slotAt_of_bad_check (h : fromLE ((b.drop 14).take 2) ≠ (crc16 (b.take 14)).toNat) : slotAt windows k = .torn :=
  (slotAt_eq_readSlot hw hb).trans
    (readSlot_of_bad_check hwritten (mt (checkHolds_iff (by omega) (length_slotBytes hb)).1 h))

variable (hcheck : fromLE ((b.drop 14).take 2) = (crc16 (b.take 14)).toNat)
include hcheck

theorem slotAt_of_record {r : Record} (h : recordOf b = some r) :
    slotAt windows k = .valid (fromLE ((b.drop 2).take 4)) r := by
  have hlen := length_slotBytes hb
  rw [slotAt_eq_readSlot hw hb, fromLE_take_four (by omega)]
  exact readSlot_of_record hwritten ((checkHolds_iff (by omega) hlen).2 hcheck) h

theorem slotAt_of_no_record (h : recordOf b = none) : slotAt windows k = .torn :=
  (slotAt_eq_readSlot hw hb).trans
    (readSlot_of_no_record hwritten ((checkHolds_iff (by omega) (length_slotBytes hb)).2 hcheck) h)

end slot

section image
variable (hplace : k % 4 = 0) (hb : b = (w.bytes.drop (16 * (k % 16))).take 64)
include hplace hb

theorem length_imageBytes : b.length = 64 := by
  rw [hb, List.length_take, List.length_drop, Window.length_bytes w]
  omega

include hw

theorem imageAt_of_record (hkind : fromLE ((b.drop 0).take 1) = 6)
    (hcheck : fromLE ((b.drop 62).take 2) = (crc16 (b.take 62)).toNat) :
    imageAt windows k = .valid (fromLE ((b.drop 2).take 4)) (.image (fromLE ((b.drop 6).take 2))
      ((List.range 24).map fun i => fromLE ((b.drop (8 + 2 * i)).take 2))) := by
  have hlen := length_imageBytes hplace hb
  have hentries : ((List.range 24).map fun i => fromLE ((b.drop (8 + 2 * i)).take 2))
      = (List.range 24).map fun i => at2 b (8 + 2 * i) :=
    List.map_congr_left fun i hi => fromLE_take_two (by have := List.mem_range.1 hi; omega)
  rw [fromLE_take_one (by omega)] at hkind
  rw [hentries, fromLE_take_two (by omega), fromLE_take_four (by omega), imageAt, bytesAt_eq hw, ← hb]
  exact readImage_of_record (BitVec.eq_of_toNat_eq hkind) ((checkHolds_iff (by omega) hlen).2 hcheck)

theorem imageAt_of_bad_check (hkind : fromLE ((b.drop 0).take 1) = 6)
    (hcheck : fromLE ((b.drop 62).take 2) ≠ (crc16 (b.take 62)).toNat) : imageAt windows k = .torn := by
  have hlen := length_imageBytes hplace hb
  rw [fromLE_take_one (by omega)] at hkind
  have hkind : at1 b 0 = 0x06 := BitVec.eq_of_toNat_eq hkind
  rw [imageAt, bytesAt_eq hw, ← hb]
  exact readImage_of_bad_check (written_of_at1 (i := 0) (by rw [hkind]; decide))
      (mt (checkHolds_iff (by omega) hlen).1 hcheck)

end image

end bytes

/-! ## The statement -/

/-- Settles O50: REBUILD's reads by its step, then the scan, replay, check and outcomes as the lemmas of this part give
them. -/
theorem journalReadEnd : Obligations.JournalReadEnd := by
  refine ⟨fun s bytes hholds hrebuild hpower horderly t ht => ⟨fun hstep => ?readA, fun windowA hstep => ⟨fun ha hb => ?none,
        fun c hone => ?one, fun x y hx hy => ⟨fun hbefore => ?ordered, fun hbefore => ?swapped, fun hgen hseq => ?tied⟩⟩,
      fun c windows rest spoiled hstep => ?examined⟩,
    fun s bytes hholds hwait => ?waiting, fun s bytes h => exec_journalReadEnd_of_not_holds h bytes,
    fun bank w c => contenderOf_eq_some_iff, fun s => ⟨rfl, rfl, fun c rest spoiled passed hpassed => ⟨?opening,
      fun windows => ⟨fun hunread => ?unread, fun hread => ⟨fun h => ?incomplete,
        fun entries l r hdone hr => ⟨fun hpasses => ?passes,
        fun hfails => ?fails⟩⟩⟩⟩⟩,
    fun c opened windows entries l n hn => ⟨?scan, Replay.start_eq c entries l⟩,
    fun r ps left hleft => ⟨fun ls old => ⟨r.mapFails ls ps old, r.mapFails_iff ls ps old, r.apply_map hleft ls old⟩,
      fun htable hretired => ?unplaced, fun h => r.apply_of_placed h⟩,
    fun r slot seq d => ⟨fun h => r.take_of_repeat h slot seq, fun h => r.take_of_new h slot seq⟩,
    fun windows n slot r => ⟨rfl, fun seq d => scanSector_of_newer, scanSector_of_not_newer⟩,
    fun c windows l r first last hfirst hlast => ⟨?deltas, ?blank, ?written, ?next, rfl, ?check⟩,
    State.choose_eq, fun s bank g hactive hrow worn t hworn ht => ?done, fun s r => rfl,
    fun windows k w b hw number hnumber => ⟨fun hb => ?slot, fun hplace hb hkind => ?image⟩, ?crc⟩
  case readA =>
    obtain rfl : t = s.busIdle := ht
    rw [exec_journalReadEnd_of_rebuild hholds hrebuild (State.stopWaits_eq_false hpower horderly),
      State.rebuildRead_readA (s := s.busIdle) hstep]
    rfl
  case none =>
    obtain rfl : t = s.busIdle := ht
    exact exec_journalReadEnd_of_contenders hholds hrebuild (State.stopWaits_eq_false hpower horderly) hstep
      (State.contenders_none ha hb)
  case one =>
    obtain rfl : t = s.busIdle := ht
    exact exec_journalReadEnd_of_contenders hholds hrebuild (State.stopWaits_eq_false hpower horderly) hstep
      (State.contenders_one hone)
  case ordered =>
    obtain rfl : t = s.busIdle := ht
    exact exec_journalReadEnd_of_contenders hholds hrebuild (State.stopWaits_eq_false hpower horderly) hstep
      (State.contenders_ordered hx hy hbefore)
  case swapped =>
    obtain rfl : t = s.busIdle := ht
    exact exec_journalReadEnd_of_contenders hholds hrebuild (State.stopWaits_eq_false hpower horderly) hstep
      (State.contenders_swapped hx hy hbefore)
  case tied =>
    obtain rfl : t = s.busIdle := ht
    exact ⟨freely s.free [x, y], freely_two s.free x y,
      exec_journalReadEnd_of_contenders hholds hrebuild (State.stopWaits_eq_false hpower horderly) hstep
        (State.contenders_tied hx hy hgen hseq)⟩
  case examined =>
    obtain rfl : t = s.busIdle := ht
    rw [exec_journalReadEnd_of_rebuild hholds hrebuild (State.stopWaits_eq_false hpower horderly),
      State.rebuildRead_examine (s := s.busIdle) hstep]
  case waiting => exact exec_journalReadEnd_of_waiting hholds (by simpa [State.stopWaits_iff, or_assoc] using hwait) bytes
  case opening =>
    obtain rfl : passed = c.passedOver spoiled := hpassed
    by_cases hbad : scanOpening s.settings c.sequence [c.window0] = .bad
    · exact .inr ⟨State.examine_of_bad c rest spoiled hbad, scanOpening_ne_done_of_bad hbad⟩
    · exact .inl (State.examine_of_not_bad c rest spoiled hbad)
  case unread =>
    obtain rfl : passed = c.passedOver spoiled := hpassed
    by_cases hbad : scanOpening s.settings c.sequence windows = .bad
    · exact .inr ⟨State.judge_of_bad c rest spoiled hbad, scanOpening_ne_done_of_bad hbad⟩
    · exact .inl (State.judge_of_unread c rest spoiled hunread hbad)
  case incomplete =>
    obtain rfl : passed = c.passedOver spoiled := hpassed
    exact State.judge_of_incomplete c rest spoiled hread h
  case passes => rw [State.judge_of_complete c rest spoiled hread hdone hr, if_pos hpasses]
  case fails => rw [State.judge_of_complete c rest spoiled hread hdone hr, if_neg (by simp [hfails])]
  case scan =>
    obtain rfl : n = imageCount c := hn
    exact scanOpening_done_iff c opened windows entries l
  case unplaced =>
    have hout : ¬ (ps ∈ r.table ∨ ∃ x ∈ r.retired, x.ps = ps) :=
      not_or.2 ⟨htable, fun ⟨x, hx, hps⟩ => hretired x hx hps⟩
    exact ⟨r.apply_erased_of_unplaced hleft hout, r.apply_retire_of_unplaced hleft hout⟩
  case deltas =>
    subst hfirst
    exact fun n t h => replayDeltas_eq c windows l.closing h t
  case blank =>
    subst hlast
    exact fun h => pointerAfter_of_none c windows l.closing (lastWritten_eq_none c windows l.closing h) r
  case written =>
    subst hlast
    intro k hlo hhi hk hafter
    rw [pointerAfter_of_some c windows l.closing (lastWritten_eq_some c windows l.closing hlo hhi hk hafter) r]
    exact ⟨fun h => if_pos h, fun h => if_neg h⟩
  case next =>
    subst hlast
    intro reads hreads
    obtain rfl : reads = readsNumber windows := funext fun k => funext fun seq => propext (hreads k seq)
    exact nextSeqAfter_spec c windows l
  case check =>
    rw [Replay.passes_iff]
    simp only [inDataArea, Bool.and_eq_true, decide_eq_true_eq]
  case done =>
    obtain rfl : worn = s.wornAtRebuild := Bool.eq_iff_iff.2 (hworn.trans s.wornAtRebuild_iff.symm)
    obtain rfl : t = s.served s.wornAtRebuild g := ht
    rw [s.rebuildDone_eq, MapJournal.generation_of_active hactive hrow]
    exact ⟨fun h => if_neg (ne_true_of_eq_false h), fun h => if_pos h⟩
  case slot =>
    have hlen := length_slotBytes hb
    simp only [hnumber]
    rw [fromLE_take_one (i := 0) (by omega), fromLE_take_one (i := 1) (by omega), fromLE_take_two (i := 6) (by omega),
      fromLE_take_two (i := 8) (by omega), fromLE_take_two (i := 10) (by omega), fromLE_take_four (i := 6) (by omega)]
    refine ⟨slotAt_of_blank hw hb, slotAt_of_bad_check hw hb, fun hwritten hcheck => ⟨fun h => ?_, fun h => ?_, fun h => ?_,
      fun h => ?_, fun h => ?_, fun h => ?_⟩⟩
    · exact slotAt_of_record hw hb hwritten hcheck (recordOf_map h)
    · exact slotAt_of_record hw hb hwritten hcheck (recordOf_erased h)
    · obtain ⟨hprogram, herase⟩ := causeOf_listed (at1 b 1)
      exact ⟨_, hprogram, herase, slotAt_of_record hw hb hwritten hcheck (recordOf_retire h)⟩
    · exact slotAt_of_record hw hb hwritten hcheck (recordOf_bankOpen h)
    · exact slotAt_of_record hw hb hwritten hcheck (recordOf_imageEnd h)
    · exact slotAt_of_no_record hw hb hwritten hcheck (recordOf_other h)
  case image =>
    simp only [hnumber] at hkind ⊢
    exact ⟨imageAt_of_record hw hplace hb hkind, imageAt_of_bad_check hw hplace hb hkind⟩
  case crc => exact fun bytes => rfl

end Sys2Proof.Machine
end

section
/-! The maintenance link's status and event commands (R162, R166 to R168, R170), and the receipt of an event. -/

namespace Sys2Proof.Machine

variable {s t : State}

/-! ## Commands on the link (R160, R161) -/

/-- With PORST deasserted a command on the link is carried out. -/
theorem State.onLink_of_listening (hporst : s.pins.porst = false) : s.onLink t = .next t :=
  congrArg Host.Outcome.next (if_pos (State.linkListens_of hporst))

/-- Under PORST nothing on the link is taken. -/
theorem State.onLink_of_deaf (hporst : s.pins.porst = true) : s.onLink t = .next s :=
  congrArg Host.Outcome.next (if_neg (by simp [State.linkListens, hporst]))

/-- Outside SERVICE and RAW a guard or gate command is refused. -/
theorem State.onLink_inService_of_refused (hporst : s.pins.porst = false) (hserves : ¬ s.serves) :
    s.onLink (s.inService t) = .next (s.withResult .refusedState []) :=
  (State.onLink_of_listening hporst).trans
    (congrArg Host.Outcome.next (if_neg (ne_true_of_eq_false (State.serving_not hserves))))

/-! ## STATUS (R162) -/

theorem State.slotsReported_eq (s : State) : s.slotsReported =
    if s.journal.active = none then 0 else s.settings.bankSectors * 256 - s.journal.pointer := by
  cases hactive : s.journal.active <;> simp only [State.slotsReported, hactive] <;> rfl

theorem exec_status_of_listening (hporst : s.pins.porst = false) :
    exec .status s = .next (s.withResult .done s.statusBlock) := State.onLink_of_listening hporst

/-! ## EVENT_READ (R167) -/

theorem exec_eventRead_of_none (hporst : s.pins.porst = false) (hqueue : s.events.queue = []) :
    exec .eventRead s = .next (s.withResult .done [0]) := by
  have hread : s.readEvent = s.reply .done [0x00] := by simp only [State.readEvent, hqueue]
  exact (State.onLink_of_listening hporst).trans (congrArg Host.Outcome.next hread)

theorem exec_eventRead_of_some (hporst : s.pins.porst = false) {r : EventRecord} {rest : List EventRecord}
    (hqueue : s.events.queue = r :: rest) :
    exec .eventRead s = .next (State.withResult { s with events := { s.events with queue := rest } } .done
      (BitVec.ofNat 8 rest.length :: r.bytes)) := by
  have hread : s.readEvent = (s.setEvents { s.events with queue := rest }).reply .done
      (BitVec.ofNat 8 rest.length :: r.bytes) := by simp only [State.readEvent, hqueue]
  exact (State.onLink_of_listening hporst).trans (congrArg Host.Outcome.next hread)

/-- A location's kind and number; where there is none, zeros (log 59). -/
theorem locationBytes_of {l : Option Location} {place : List Byte}
    (hnone : l = none → place = [0x00, 0x00, 0x00, 0x00, 0x00])
    (haddress : ∀ a, l = some (.address a) → place = 0x01 :: le4 a) (hls : ∀ n, l = some (.ls n) → place = 0x02 :: le4 n)
    (hps : ∀ n, l = some (.ps n) → place = 0x03 :: le4 n) : locationBytes l = place := by
  match l with
  | none => exact (hnone rfl).symm
  | some (.address a) => exact (haddress a rfl).symm
  | some (.ls n) => exact (hls n rfl).symm
  | some (.ps n) => exact (hps n rfl).symm

/-- The 15 bytes of a record, requester and detail by their codes (R170). -/
theorem EventRecord.bytes_eq {r : EventRecord} {requester code : Byte} (hanon : r.body.requester = none → requester = 0xFF)
    (hrequester : ∀ q, r.body.requester = some q → requester = BitVec.ofNat 8 q.val)
    (hplain : r.body.code = none → code = 0x00) (hcode : ∀ c, r.body.code = some c → code = c.byte) :
    r.bytes = [r.body.kind.byte] ++ le2 r.number.toNat ++ [requester] ++ locationBytes r.body.location ++ [code]
      ++ le4 (r.body.value.getD 0) ++ [BitVec.ofNat 8 r.dropped] := by
  obtain ⟨⟨kind, asked, location, detail, value⟩, number, dropped⟩ := r
  cases asked with
  | none =>
    obtain rfl := hanon rfl
    cases detail with
    | none => obtain rfl := hplain rfl; rfl
    | some c => obtain rfl := hcode c rfl; rfl
  | some q =>
    obtain rfl := hrequester q rfl
    cases detail with
    | none => obtain rfl := hplain rfl; rfl
    | some c => obtain rfl := hcode c rfl; rfl

/-! ## NOTICE_ACK (R168) -/

theorem exec_noticeAck_of_listening (hporst : s.pins.porst = false) : exec .noticeAck s = .next s.ackNotice :=
  State.onLink_of_listening hporst

/-- The notice as it stands after, and the records still held, are answered. -/
theorem State.ackNotice_of_events {e : EventBlock}
    (he : (if s.events.notice == .notified then s.events.rearm else s.events) = e) :
    s.ackNotice = State.withResult { s with events := e } .done
      [if e.notice == .notified then 0x01 else 0x00, BitVec.ofNat 8 e.queue.length] := by
  subst he
  rfl

theorem State.ackNotice_of_armed (harmed : s.events.notice = .armed) :
    s.ackNotice = s.withResult .done [0, BitVec.ofNat 8 s.events.queue.length] := by
  rw [State.ackNotice_of_events (if_neg (by simp [harmed])), harmed]
  rfl

theorem State.ackNotice_of_none (hnotified : s.events.notice = .notified) (hqueue : s.events.queue = []) :
    s.ackNotice = State.withResult { s with events := { s.events with notice := .armed } } .done [0, 0] := by
  have hrearm : s.events.rearm = { s.events with notice := .armed } := by rw [EventBlock.rearm_eq, if_pos hqueue]
  rw [State.ackNotice_of_events ((if_pos (by simp [hnotified])).trans hrearm), hqueue]
  rfl

/-- Records are held: the notice is given again. -/
theorem State.ackNotice_of_some (hnotified : s.events.notice = .notified) (hqueue : s.events.queue ≠ []) :
    s.ackNotice = s.withResult .done [1, BitVec.ofNat 8 s.events.queue.length] := by
  have hrearm : s.events.rearm = s.events := by
    rw [EventBlock.rearm_eq, if_neg hqueue, ← hnotified]
  rw [State.ackNotice_of_events ((if_pos (by simp [hnotified])).trans hrearm), hnotified]
  rfl

/-! ## The statements -/

/-- Settles O51: each command by what it answers; the codes by evaluation. -/
theorem statusEventReadAndNotice : Obligations.StatusEventReadAndNotice := by
  refine ⟨fun s hporst => ⟨?status, exec_eventRead_of_none hporst, ?event,
      fun harmed => ?armed, fun hnotified hqueue => ?none, fun hnotified hqueue => ?again⟩,
    fun n => ⟨rfl, rfl⟩, rfl, rfl, rfl⟩
  case status =>
    rw [exec_status_of_listening hporst, ← s.slotsReported_eq]
    refine congrArg (fun block => Host.Outcome.next (s.withResult .done block)) ?_
    cases hactive : s.journal.active with
    | none =>
      simp only [State.statusBlock, hactive]
      rfl
    | some bank =>
      simp only [State.statusBlock, hactive]
      cases bank <;> rfl
  case event =>
    intro r rest hqueue kind dropped requester code place hkind hdropped hanon hrequester hplain hcode hnone haddress hls hps
    rw [exec_eventRead_of_some hporst hqueue, EventRecord.bytes_eq hanon hrequester hplain hcode,
      locationBytes_of hnone haddress hls hps, hkind, hdropped]
    simp
  case armed => rw [exec_noticeAck_of_listening hporst, State.ackNotice_of_armed harmed]
  case none => rw [exec_noticeAck_of_listening hporst, State.ackNotice_of_none hnotified hqueue]
  case again => rw [exec_noticeAck_of_listening hporst, State.ackNotice_of_some hnotified hqueue]

/-- One more event lost is counted on the youngest record. -/
theorem bumpYoungest_concat (older : List EventRecord) (r : EventRecord) :
    bumpYoungest (older ++ [r]) = older ++ [{ r with dropped := min 255 (r.dropped + 1) }] := by
  induction older with
  | nil => rfl
  | cons x older ih =>
    have htail : bumpYoungest (x :: (older ++ [r])) = x :: bumpYoungest (older ++ [r]) := by
      cases older <;> rfl
    rw [List.cons_append, htail, ih, List.cons_append]

/-- Settles O52: the receipt by the place left in the queue. -/
theorem eventsAreKeptOrCounted : Obligations.EventsAreKeptOrCounted := by
  refine ⟨fun e b hroom => ?kept, fun e b older r hqueue hfull => ?counted, fun s => beq_iff_eq⟩
  case kept =>
    have hkept : (e.receive b).queue = e.queue ++ [⟨b, e.counter + 1, 0⟩] := if_pos hroom
    rw [← hkept]
    rfl
  case counted =>
    have hcounted : (e.receive b).queue = bumpYoungest e.queue := if_neg (Nat.not_lt.2 hfull)
    rw [← bumpYoungest_concat, ← hqueue, ← hcounted]
    rfl

end Sys2Proof.Machine
end

section
/-! The guard and gate commands, the resets over the link, the RAW erase and the result store (R55, R160, R161, R163 to R165,
R170), each with the state check before it. -/

namespace Sys2Proof.Machine

variable {s : State}

/-! ## GUARD_SET and GUARD_READ (R163) -/

section guard
variable {slot : Byte} {first last : BitVec 16} {mode lock : Byte} {i : Fin 4}

/-- A byte above 2 names no mode, and names one below. -/
theorem guardModeOf_cases (mode : Byte) :
    (guardModeOf mode = none ∧ 2 < mode.toNat) ∨ ∃ m : GuardMode, m.byte = mode ∧ mode.toNat ≤ 2 := by
  unfold guardModeOf
  split
  case isTrue h => exact .inr ⟨.none, h.symm, by rw [h]; decide⟩
  case isFalse h0 =>
    split
    case isTrue h => exact .inr ⟨.writeDeny, h.symm, by rw [h]; decide⟩
    case isFalse h1 =>
      split
      case isTrue h => exact .inr ⟨.allDeny, h.symm, by rw [h]; decide⟩
      case isFalse h2 => exact .inl ⟨rfl, by bv_omega⟩

theorem State.setGuard_of_bad_param (h : 3 < slot.toNat ∨ 2 < mode.toNat) :
    s.setGuard slot first last mode lock = s.reply .badParam [] := by
  rcases guardModeOf_cases mode with ⟨hnone, -⟩ | ⟨m, rfl, hle⟩
  · simp only [State.setGuard, hnone]
  · have hslot : 3 < slot.toNat := h.resolve_right (Nat.not_lt.2 hle)
    simp only [State.setGuard, guardModeOf_byte, hslot, if_true]

theorem State.guardRange_iff (s : State) (first last : BitVec 16) : s.guardRange first last = true ↔
    first.toNat ≤ last.toNat ∧ last.toNat < if s.bridge.state = .raw then 4096 else s.settings.windowSectors := by
  simp [State.guardRange, Config.rawSectors]

variable (hslot : slot.toNat = i.val) (hfree : (s.access.guards[i]).lock = false) (m : GuardMode)
include hslot hfree

theorem State.setGuard_of_bad_range (hrange : ¬ s.guardRange first last = true) :
    s.setGuard slot first last m.byte lock = s.reply .badParam [] := by
  have hnot : ¬ 3 < i.val := by omega
  simp only [State.setGuard, guardModeOf_byte, hslot, hnot, Access.guard_val, hfree, hrange, Bool.not_false,
    Bool.false_eq_true, if_true, if_false]

/-- A slot written whole is answered. -/
theorem State.setGuard_written (hrange : s.guardRange first last = true) :
    s.setGuard slot first last m.byte lock = State.withResult
      { s with access := { s.access with guards := s.access.guards.set i.val ⟨first.toNat, last.toNat, m, lock.getLsbD 0⟩ } }
      .done (GuardSlot.bytes ⟨first.toNat, last.toNat, m, lock.getLsbD 0⟩ slot) := by
  have hnot : ¬ 3 < i.val := by omega
  have hset : s.access.setGuard i.val ⟨first.toNat, last.toNat, m, lock.getLsbD 0⟩
      = { s.access with guards := s.access.guards.set i.val ⟨first.toNat, last.toNat, m, lock.getLsbD 0⟩ } := by
    refine congrArg (fun guards => { s.access with guards := guards }) (Vector.ext fun j hj => ?_)
    rw [Vector.getElem_setIfInBounds, Vector.getElem_set]
  simp only [State.setGuard, guardModeOf_byte, hslot, hnot, Access.guard_val, hfree, hrange, Bool.not_true,
    Bool.false_eq_true, if_false, hset]
  rfl

end guard

section listening
variable (hporst : s.pins.porst = false) (hserves : s.serves)
include hporst hserves

theorem exec_guardSet_of_serving {t : State} {slot : Byte} {first last : BitVec 16} {mode lock : Byte}
    (h : s.setGuard slot first last mode lock = t) : exec (.guardSet slot first last mode lock) s = .next t :=
  (State.onLink_inService hporst hserves).trans (congrArg Host.Outcome.next h)

theorem exec_guardRead_of_bad_param {slot : Byte} (hslot : 3 < slot.toNat) :
    exec (.guardRead slot) s = .next (s.withResult .badParam []) :=
  (State.onLink_inService hporst hserves).trans (congrArg Host.Outcome.next (if_pos hslot))

theorem exec_guardRead_of_slot {slot : Byte} {i : Fin 4} (hslot : slot.toNat = i.val) :
    exec (.guardRead slot) s = .next (s.withResult .done ((s.access.guards[i]).bytes slot)) := by
  rw [← Access.guard_val, ← hslot]
  exact (State.onLink_inService hporst hserves).trans (congrArg Host.Outcome.next (if_neg (by omega)))

end listening

/-- Settles O53: GUARD_SET by the first of its checks that fails, GUARD_READ by its slot. -/
theorem guardSetAndRead : Obligations.GuardSetAndRead := by
  intro s slot first last mode lock hporst hserves limit hlimit
  subst hlimit
  refine ⟨fun h => exec_guardSet_of_serving hporst hserves (State.setGuard_of_bad_param h), fun i m hslot hmode =>
      ⟨fun hlocked => ?locked, fun hfree hbad => ?range, fun hfree hle hlt => ?written⟩,
    exec_guardRead_of_bad_param hporst hserves, fun i => exec_guardRead_of_slot hporst hserves⟩
  case locked =>
    rw [← hmode]
    exact exec_guardSet_of_serving hporst hserves (State.setGuard_of_locked hslot hlocked first last m lock)
  case range =>
    rw [← hmode]
    refine exec_guardSet_of_serving hporst hserves (State.setGuard_of_bad_range hslot hfree m fun hrange => ?_)
    obtain ⟨hle, hlt⟩ := (s.guardRange_iff first last).1 hrange
    omega
  case written =>
    rw [← hmode]
    exact exec_guardSet_of_serving hporst hserves
      (State.setGuard_written hslot hfree m ((s.guardRange_iff first last).2 ⟨hle, hlt⟩))

/-! ## The gate and the resets (R55, R152, R164) -/

/-- The gate byte: bit 0 the gate, bit 1 the lock. -/
theorem Access.gateByte_eq (a : Access) : a.gateByte =
    if a.gateLock = true then (if a.gateOpen = true then 3 else 2) else (if a.gateOpen = true then 1 else 0) := by
  obtain ⟨guards, gateOpen, gateLock⟩ := a
  cases gateLock <;> cases gateOpen <;> rfl

theorem State.openGate_of_taken {auth : Bool} (h : s.access.gateLock = false ∨ auth = true) :
    s.openGate auth = s.gateTo { s.access with gateOpen := true } := by
  refine if_neg ?_
  rcases h with h | h <;> simp [h]

theorem State.openGate_of_refused (h : s.access.gateLock = true) :
    s.openGate false = (s.withResult .refusedLocked [s.access.gateByte]).withEvent { kind := .gateOpenRefused } :=
  if_pos (by simp [h])

/-- A result placed before a warm reset stands after it. -/
theorem State.warmReset_store {code : ResultCode} {data : List Byte} (h : s.link.store = .stored code data) :
    s.warmReset.link.store = .stored code data := by
  have hlink : s.warmReset.link = s.link.enterReset .warm := by
    unfold State.warmReset State.leaveReset State.enterLoad
    split <;> rfl
  rw [hlink, Link.enterReset_warm, h]
  rfl

theorem exec_warmReset_store (hporst : s.pins.porst = false) :
    ∃ t, exec .warmReset s = .next t ∧ t.link.store = .stored .done [] := by
  refine ⟨_, State.onLink_of_listening hporst, ?_⟩
  split
  case isTrue => rfl
  case isFalse => exact State.warmReset_store rfl

/-- Settles O54: the gate commands by what they write and the gate byte; the resets by the result placed before them. -/
theorem gateCommandsAndResetAnswers : Obligations.GateCommandsAndResetAnswers := by
  refine ⟨fun s auth hporst hserves => ⟨fun htaken => ?opened, fun hlocked => ?refused, ?closed, ?locked⟩,
    fun s hporst => ⟨exec_orderlyReset_of_listening hporst, exec_warmReset_store hporst⟩⟩
  case opened =>
    have hexec : exec (.gateOpen auth) s = .next (s.openGate auth) := State.onLink_inService hporst hserves
    rw [hexec, State.openGate_of_taken htaken, State.gateTo, Access.gateByte_eq]
    rfl
  case refused =>
    have hexec : exec (.gateOpen false) s = .next (s.openGate false) := State.onLink_inService hporst hserves
    rw [hexec, State.openGate_of_refused hlocked, Access.gateByte_eq, if_pos hlocked]
  case closed =>
    have hexec : exec .gateClose s = .next (s.gateTo { s.access with gateOpen := false }) :=
      State.onLink_inService hporst hserves
    rw [hexec, State.gateTo, Access.gateByte_eq]
    rfl
  case locked =>
    have hexec : exec .gateLock s = .next (s.gateTo { s.access with gateLock := true }) :=
      State.onLink_inService hporst hserves
    rw [hexec, State.gateTo, Access.gateByte_eq]
    rfl

/-! ## The RAW erase and the result store (R160, R165) -/

section rawErase
variable {ps : BitVec 16}

theorem State.takeRawErase_of_held (h : s.erase.raw ≠ none) (ps : BitVec 16) :
    s.takeRawErase ps = { s with link := { s.link with store := .followsRaw } } := by
  obtain ⟨r, hr⟩ := Option.ne_none_iff_exists'.1 h
  simp only [State.takeRawErase, hr]
  rfl

theorem State.takeRawErase_of_outside (h : s.erase.raw = none) (hps : 4095 < ps.toNat) :
    s.takeRawErase ps = s.withResult .badParam [] := by
  have houtside : Config.rawSectors ≤ ps.toNat := hps
  simp only [State.takeRawErase, h, houtside, if_true]
  rfl

theorem State.takeRawErase_of_free (h : s.erase.raw = none) (hps : ps.toNat ≤ 4095) :
    s.takeRawErase ps = { s with
      erase := { s.erase with raw := some ⟨ps.toNat, none⟩ }, link := { s.link with store := .followsRaw } } := by
  have hinside : ¬ Config.rawSectors ≤ ps.toNat := by
    have hraw : Config.rawSectors = 4096 := rfl
    omega
  simp only [State.takeRawErase, h, hinside, if_false]
  rfl

theorem exec_rawErase_of_raw (hporst : s.pins.porst = false) (hraw : s.bridge.state = .raw) :
    exec (.rawErase ps) s = .next (s.takeRawErase ps) :=
  (State.onLink_of_listening hporst).trans (congrArg Host.Outcome.next (if_pos (by simp [hraw])))

theorem exec_rawErase_of_not_raw (hporst : s.pins.porst = false) (hraw : s.bridge.state ≠ .raw) :
    exec (.rawErase ps) s = .next (s.withResult .refusedState []) :=
  (State.onLink_of_listening hporst).trans (congrArg Host.Outcome.next (if_neg (by simpa using hraw)))

end rawErase

theorem exec_resultRead_of_listening (hporst : s.pins.porst = false) (count : Nat) :
    exec (.resultRead count) s = .next (s.readResult count) := State.onLink_of_listening hporst

/-- A read that delivers nothing. -/
theorem State.readResult_of_kept {code : ResultCode} {data : List Byte} (hstored : s.stored = (code, data))
    (hkept : s.deliver = s) (count : Nat) : s.readResult count =
      { s with link := { s.link with sent := (List.range count).map fun i => (code.byte :: data).getD i 0xFF } } := by
  rw [State.readResult, hkept, State.storeBytes, hstored]
  rfl

theorem State.deliver_of_not_following (h : s.link.store ≠ .followsRaw) : s.deliver = s := by
  unfold State.deliver
  split
  case h_1 hfollows => exact absurd hfollows h
  case h_2 => rfl

/-- Settles O55: a RAW erase by its place and sector, a read by the store, and a malformed write. -/
theorem rawEraseAndTheResultStore : Obligations.RawEraseAndTheResultStore := by
  refine ⟨fun s ps hporst hraw => ⟨fun hnone hps => ?free, fun hnone hps => ?outside, fun hheld => ?held⟩,
    fun s count hporst read hread => ⟨fun hempty => ?empty, fun code data hstored => ?stored, fun ps hfollows hruns => ?busy,
      fun ps o hfollows hended => ?delivered⟩, fun s bytes hporst => State.onLink_of_listening hporst⟩
  case free => rw [exec_rawErase_of_raw hporst hraw, State.takeRawErase_of_free hnone hps]
  case outside => rw [exec_rawErase_of_raw hporst hraw, State.takeRawErase_of_outside hnone hps]
  case held => rw [exec_rawErase_of_raw hporst hraw, State.takeRawErase_of_held hheld]
  case empty =>
    have hshown : s.stored = (.badParam, []) := by simp only [State.stored, hempty]
    rw [exec_resultRead_of_listening hporst, State.readResult_of_kept hshown
      (State.deliver_of_not_following (by rw [hempty]; simp)), hread]
    rfl
  case stored =>
    have hshown : s.stored = (code, data) := by simp only [State.stored, hstored]
    rw [exec_resultRead_of_listening hporst, State.readResult_of_kept hshown
      (State.deliver_of_not_following (by rw [hstored]; simp)), hread]
  case busy =>
    have hshown : s.stored = (.busy, le2 ps) := by simp only [State.stored, hfollows, hruns]
    have hkept : s.deliver = s := by simp [State.deliver, hfollows, hshown]
    rw [exec_resultRead_of_listening hporst, State.readResult_of_kept hshown hkept, hread]
    rfl
  case delivered =>
    have hshown : s.stored = (.done, le2 ps ++ [o.byte]) := by simp only [State.stored, hfollows, hended]
    have hdeliver : s.deliver = (s.setErase { s.erase with raw := none }).setLink
        { s.link with store := .stored .done (le2 ps ++ [o.byte]) } := by
      simp only [State.deliver, hfollows, hshown, beq_self_eq_true, if_true]
    rw [exec_resultRead_of_listening hporst, State.readResult, hdeliver, State.storeBytes, hshown, hread]
    rfl

/-! ## The state check (R160, R161) -/

/-- Under PORST a command of the link is not taken. -/
theorem exec_link_of_deaf (hporst : s.pins.porst = true) {c : Instr}
    (hlink : (∃ b, encodeLinkWrite c = some b) ∨ ∃ n, c = .resultRead n) : exec c s = .next s := by
  have hdeaf {t : State} : s.onLink t = .next s := State.onLink_of_deaf hporst
  rcases hlink with ⟨b, hb⟩ | ⟨n, rfl⟩
  · cases c with
    | orderlyReset => exact if_neg (by simp [State.linkListens, hporst])
    | status => exact hdeaf
    | eventRead => exact hdeaf
    | noticeAck => exact hdeaf
    | guardSet slot first last mode lock => exact hdeaf
    | guardRead slot => exact hdeaf
    | gateOpen auth => exact hdeaf
    | gateClose => exact hdeaf
    | gateLock => exact hdeaf
    | warmReset => exact hdeaf
    | rawErase ps => exact hdeaf
    | malformedWrite bytes => exact hdeaf
    | _ => cases (show none = some b from hb)
  · exact hdeaf

/-- Settles O56: each command by the state check, and the link under PORST. -/
theorem linkCommandsAreRefusedByState : Obligations.LinkCommandsAreRefusedByState := by
  refine fun s c => ⟨fun hporst hserves hcommand => ?refused, fun hporst hraw ps hc => ?rawErase,
    fun hporst hlink => exec_link_of_deaf hporst hlink⟩
  case refused =>
    have hrefused {t : State} : s.onLink (s.inService t) = .next (s.withResult .refusedState []) :=
      State.onLink_inService_of_refused hporst hserves
    rcases hcommand with ⟨slot, first, last, mode, lock, rfl⟩ | ⟨slot, rfl⟩ | ⟨auth, rfl⟩ | rfl | rfl <;> exact hrefused
  case rawErase =>
    rw [hc]
    exact exec_rawErase_of_not_raw hporst hraw

end Sys2Proof.Machine
end

section
/-! The maintenance link's frames (R170) and their travel on the two wires (R160): what a write's bytes decode to, and
the runs of a write, of a read and of a transfer that is not the link's. -/

namespace Sys2Proof.Machine

variable {s : State} {auth : Bool}

/-! ## The frames (R170) -/

theorem fromLE_le2 {n : Nat} (hn : n < 65536) : fromLE (le2 n) = n := by
  simp only [fromLE, le2, List.foldr_cons, List.foldr_nil, BitVec.toNat_ofNat]
  omega

theorem ofNat_fromLE_le2 (x : BitVec 16) : BitVec.ofNat 16 (fromLE (le2 x.toNat)) = x := by
  rw [fromLE_le2 x.isLt]
  exact BitVec.ofNat_toNat 16 x |>.trans (BitVec.setWidth_eq x)

theorem decodeLinkWrite_of_malformed {bytes : List Byte} (h : linkMalformed bytes = true) :
    decodeLinkWrite auth bytes = .malformedWrite bytes := by
  cases bytes with
  | nil => rfl
  | cons code params => exact if_pos h

/-- The bytes of a well-formed command's write decode to it. -/
theorem decodeLinkWrite_encodeLinkWrite {i : Instr} {bytes : List Byte} (hwf : i.wellFormed = true)
    (hbytes : encodeLinkWrite i = some bytes) (hauth : ∀ a, i = .gateOpen a → a = auth) :
    decodeLinkWrite auth bytes = i := by
  cases i with
  | malformedWrite written =>
    obtain rfl : written = bytes := Option.some.inj hbytes
    exact decodeLinkWrite_of_malformed hwf
  | guardSet slot first last mode lock =>
    obtain rfl : [0x20, slot] ++ le2 first.toNat ++ le2 last.toNat ++ [mode, lock] = bytes := Option.some.inj hbytes
    have hdecoded : decodeLinkWrite auth ([0x20, slot] ++ le2 first.toNat ++ le2 last.toNat ++ [mode, lock])
        = .guardSet slot (BitVec.ofNat 16 (fromLE (le2 first.toNat))) (BitVec.ofNat 16 (fromLE (le2 last.toNat)))
          mode lock := rfl
    rw [hdecoded, ofNat_fromLE_le2, ofNat_fromLE_le2]
  | rawErase ps =>
    obtain rfl : 0x50 :: le2 ps.toNat = bytes := Option.some.inj hbytes
    have hdecoded : decodeLinkWrite auth (0x50 :: le2 ps.toNat) = .rawErase (BitVec.ofNat 16 (fromLE (le2 ps.toNat))) := rfl
    rw [hdecoded, ofNat_fromLE_le2]
  | gateOpen a =>
    obtain rfl : a = auth := hauth a rfl
    obtain rfl : [0x30] = bytes := Option.some.inj hbytes
    rfl
  | guardRead slot => obtain rfl : [0x21, slot] = bytes := Option.some.inj hbytes; rfl
  | status => obtain rfl : [0x10] = bytes := Option.some.inj hbytes; rfl
  | eventRead => obtain rfl : [0x11] = bytes := Option.some.inj hbytes; rfl
  | noticeAck => obtain rfl : [0x12] = bytes := Option.some.inj hbytes; rfl
  | gateClose => obtain rfl : [0x31] = bytes := Option.some.inj hbytes; rfl
  | gateLock => obtain rfl : [0x32] = bytes := Option.some.inj hbytes; rfl
  | orderlyReset => obtain rfl : [0x40] = bytes := Option.some.inj hbytes; rfl
  | warmReset => obtain rfl : [0x41] = bytes := Option.some.inj hbytes; rfl
  | _ => cases (show none = some bytes from hbytes)

/-! ## The address byte (R160) -/

theorem State.linkRun_start_cons (s : State) (ws : List LinkWire) :
    s.linkRun auth (.start :: ws) = (s.linkWire auth .start).linkRun auth ws := rfl

/-- The clock of the address's acknowledge: the link pulls SDA low. -/
theorem State.linkRun_addressAck {read : Bool} (h : s.link.frame = .addressAck read) (x : Bool) :
    s.linkRun auth [.clock x] = (s.setFrame (if read then .reading s.storeBytes 0 0 else .writing [] []), [false]) := by
  simp only [State.linkRun, State.linkWire, State.linkClock, State.linkSda, h]

theorem getLsbD_zero_eq (b : Byte) : b.getLsbD 0 = decide (b.toNat % 2 = 1) := by
  rw [← BitVec.testBit_toNat, Nat.testBit_zero]

section own
variable (hwriting : ∀ bytes bits, s.link.frame ≠ .writing bytes bits) (hacking : ∀ bytes, s.link.frame ≠ .writeAck bytes)
include hwriting hacking

/-- A START and the link's own address with its acknowledge. -/
theorem State.linkRun_own {own : Byte} (hown : s.linkAnswers own = true) {f : LinkFrame}
    (hf : (if own.getLsbD 0 then .reading s.storeBytes 0 0 else .writing [] []) = f) :
    s.linkRun auth (.start :: (sendClocks own ++ [.clock true])) = (s.setFrame f, List.replicate 8 true ++ [false]) := by
  have hafter : (s.setFrame (.address [])).frameAfterAddress own = .addressAck (own.getLsbD 0) := if_pos hown
  rw [State.linkRun_start_cons, State.linkWire_start hwriting hacking, State.linkRun_append,
    State.linkRun_address (State.setFrame_frame _ _), hafter, State.linkRun_addressAck (State.setFrame_frame _ _), ← hf]
  rfl

end own

/-! ## The end of a write (R160) -/

theorem State.carryOut_eq {t : State} {c : Instr} (h : exec c s = .next t) : s.carryOut c = t := by
  have hstep : step (s.withCommand c) = .next t := h
  simp only [State.carryOut, hstep]

/-- A STOP or a repeated START carries out the command that the bytes spell. -/
theorem State.linkRun_end {bytes : List Byte} {last : LinkWire} {f : LinkFrame}
    (hlast : (last = .stop ∧ f = .idle) ∨ (last = .start ∧ f = .address [])) (hframe : s.link.frame = .writing bytes [])
    {t : State} (ht : exec (decodeLinkWrite auth bytes) (s.setFrame f) = .next t) : s.linkRun auth [last] = (t, []) := by
  have hend : s.endTransfer auth f = t := by
    simp only [State.endTransfer, hframe]
    exact State.carryOut_eq ht
  rw [← hend]
  rcases hlast with ⟨rfl, rfl⟩ | ⟨rfl, rfl⟩ <;> rfl

section run
variable (hwriting : ∀ bytes bits, s.link.frame ≠ .writing bytes bits) (hacking : ∀ bytes, s.link.frame ≠ .writeAck bytes)
include hwriting hacking

/-- A write to the link's own address carries out its command. -/
theorem State.linkRun_write {own : Byte} (hown : s.linkAnswers own = true) (hbit : own.getLsbD 0 = false) (bytes : List Byte)
    {last : LinkWire} {f : LinkFrame} (hlast : (last = .stop ∧ f = .idle) ∨ (last = .start ∧ f = .address [])) :
    ∃ t, exec (decodeLinkWrite auth bytes) (s.setFrame f) = .next t
      ∧ s.linkRun auth (.start :: (sendClocks own ++ [.clock true]
          ++ (bytes.flatMap fun b => sendClocks b ++ [.clock true]) ++ [last]))
        = (t, List.replicate 8 true ++ [false] ++ bytes.flatMap fun _ => List.replicate 8 true ++ [false]) := by
  obtain ⟨t, ht, -⟩ := exec_goesOn (decodeLinkWrite auth bytes) (s.setFrame f)
  refine ⟨t, ht, ?_⟩
  have haddress := State.linkRun_own (auth := auth) hwriting hacking hown (f := .writing [] []) (by rw [hbit]; rfl)
  have hbytes := State.linkRun_bytes (s := s.setFrame (.writing [] [])) (auth := auth) rfl bytes
  have hend := State.linkRun_end (s := s.setFrame (.writing bytes [])) hlast rfl ht
  rw [← List.cons_append, ← List.cons_append, State.linkRun_append, State.linkRun_append, haddress, hbytes]
  simp only [State.setFrame_setFrame, List.nil_append, hend, List.append_nil]

/-- A transfer to another address, or under PORST, is not acknowledged and changes nothing. -/
theorem State.linkRun_other {byte : Byte} (hother : s.linkAnswers byte = false) (levels : List Bool) :
    s.linkRun auth (.start :: (sendClocks byte ++ levels.map .clock ++ [.stop])) =
      (s.setFrame .idle, List.replicate (8 + levels.length) true) := by
  have hidle : (s.setFrame (.address [])).frameAfterAddress byte = .idle := if_neg (ne_true_of_eq_false hother)
  have hstop : (s.setFrame .idle).linkRun auth [.stop] = (s.setFrame .idle, []) := rfl
  rw [State.linkRun_start_cons, State.linkWire_start hwriting hacking, State.linkRun_append, State.linkRun_append,
    State.linkRun_address (State.setFrame_frame _ _), hidle, State.setFrame_setFrame,
    State.linkRun_idle (State.setFrame_frame _ _), hstop]
  simp [List.replicate_add, List.map_const']

end run

/-! ## A read (R160, R165) -/

theorem State.readResult_setFrame (s : State) (f : LinkFrame) (count : Nat) :
    (s.setFrame f).readResult count = (s.readResult count).setFrame f := by
  unfold State.readResult
  rw [State.deliver_setFrame]
  rfl

/-- Only a store whose first byte is DONE delivers. -/
theorem State.deliver_of_not_done (h : s.stored.1 ≠ .done) : s.deliver = s := by
  unfold State.deliver
  split
  case h_1 => exact if_neg (by simpa using h)
  case h_2 => rfl

theorem ResultCode.byte_eq_done {code : ResultCode} (h : code.byte = ResultCode.done.byte) : code = .done := by
  cases code with
  | done => rfl
  | _ => exact absurd h (by decide)

/-- The first byte sent is a read of one byte. -/
theorem State.byteSent_zero (s : State) : s.byteSent s.storeBytes 0 = s.readResult 1 := by
  have hdelivered : (if 0 = 0 ∧ s.storeBytes.getD 0 0xFF = ResultCode.done.byte then s.deliver else s) = s.deliver := by
    by_cases hdone : s.stored.1 = .done
    · exact if_pos ⟨rfl, congrArg ResultCode.byte hdone⟩
    · rw [State.deliver_of_not_done hdone, ite_self]
  rw [State.byteSent, hdelivered]
  rfl

/-- A later byte lengthens the read by one. -/
theorem State.byteSent_succ (s : State) {k : Nat} (hk : 1 ≤ k) :
    (s.readResult k).byteSent s.storeBytes k = s.readResult (k + 1) := by
  have hzero : k ≠ 0 := by omega
  simp only [State.byteSent, hzero, false_and, if_false]
  unfold State.readResult
  rw [readOut, readOut, List.range_succ, List.map_append]
  rfl

/-- The clocks of a read of `count` bytes, of the first `k` of them: the controller acknowledges each but the last. -/
def readClocks (count k : Nat) : List LinkWire :=
  (List.range k).flatMap fun i => List.replicate 8 (.clock true) ++ [.clock (decide (i + 1 = count))]

theorem readClocks_succ (count k : Nat) : readClocks count (k + 1) =
    readClocks count k ++ (List.replicate 8 (.clock true) ++ [.clock (decide (k + 1 = count))]) := by
  simp [readClocks, List.range_succ]

/-- The bytes of a read: sent in order, the store past its end FFh, and the transfer over after the last. -/
theorem State.linkRun_reads (s : State) {count k : Nat} (hk : 1 ≤ k) (hcount : k ≤ count) :
    (s.setFrame (.reading s.storeBytes 0 0)).linkRun auth (readClocks count k) =
      ((s.readResult k).setFrame (if decide (k = count) = true then .idle else .reading s.storeBytes k 0),
        (List.range k).flatMap fun i => msbFirst (s.storeBytes.getD i 0xFF) ++ [true]) := by
  induction k, hk using Nat.le_induction with
  | base =>
    have hclocks : readClocks count 1 = List.replicate 8 (.clock true) ++ [.clock (decide (1 = count))] := rfl
    rw [hclocks, State.linkRun_sent (State.setFrame_frame _ _), State.byteSent_setFrame, State.byteSent_zero]
    rfl
  | succ k hk ih =>
    have hmore : (if decide (k = count) = true then .idle else .reading s.storeBytes k 0 : LinkFrame)
        = .reading s.storeBytes k 0 := if_neg (by simp; omega)
    rw [readClocks_succ, State.linkRun_append, ih (by omega), hmore, State.linkRun_sent (State.setFrame_frame _ _),
      State.byteSent_setFrame, s.byteSent_succ hk, List.range_succ, List.flatMap_append]
    simp

/-- A read from the link's own address sends what RESULT_READ sends. -/
theorem State.linkRun_read (hporst : s.pins.porst = false) (hwriting : ∀ bytes bits, s.link.frame ≠ .writing bytes bits)
    (hacking : ∀ bytes, s.link.frame ≠ .writeAck bytes) {own : Byte} (hown : s.linkAnswers own = true)
    (hbit : own.getLsbD 0 = true) {count : Nat} (hcount : 1 ≤ count) :
    exec (.resultRead count) (s.setFrame .idle) = .next ((s.readResult count).setFrame .idle)
      ∧ s.linkRun auth (.start :: (sendClocks own ++ [.clock true] ++ readClocks count count)) =
        ((s.readResult count).setFrame .idle, List.replicate 8 true ++ [false] ++ (List.range count).flatMap fun i =>
          msbFirst (((s.readResult count).setFrame .idle).link.sent.getD i 0) ++ [true]) := by
  have hsent : ∀ i ∈ List.range count, msbFirst (s.storeBytes.getD i 0xFF) ++ [true]
      = msbFirst (((s.readResult count).setFrame .idle).link.sent.getD i 0) ++ [true] := by
    intro i hi
    have hread : ((s.readResult count).setFrame .idle).link.sent = readOut s.storeBytes count := rfl
    have hlen : i < (readOut s.storeBytes count).length := by simpa [readOut] using hi
    rw [hread, List.getD_eq_getElem (readOut s.storeBytes count) 0 hlen]
    simp [readOut]
  refine ⟨?_, ?_⟩
  · rw [exec_resultRead_of_listening (s := s.setFrame .idle) hporst, State.readResult_setFrame]
  · have haddress := State.linkRun_own (auth := auth) hwriting hacking hown (f := .reading s.storeBytes 0 0)
      (by rw [hbit]; rfl)
    rw [← List.cons_append, State.linkRun_append, haddress, s.linkRun_reads hcount le_rfl, List.flatMap_congr hsent]
    simp only [decide_true, if_true]

/-! ## The statement -/

theorem State.linkMayHoldScl_iff (s : State) :
    s.linkMayHoldScl = true ↔ (∃ read, s.link.frame = .addressAck read) ∨ ∃ bytes, s.link.frame = .writeAck bytes := by
  cases hframe : s.link.frame <;> simp [State.linkMayHoldScl, hframe]

/-- Settles O57: the frames by their commands; on the wires the runs of a write, of a read and of another's transfer. -/
theorem linkWritesDecodeToTheirCommand : Obligations.LinkWritesDecodeToTheirCommand := by
  refine ⟨fun i bytes auth => decodeLinkWrite_encodeLinkWrite, ?_, State.linkMayHoldScl_iff⟩
  intro s auth at_ send taken hwriting hacking hat hsend htaken
  obtain rfl : at_ = s.setFrame := hat
  obtain rfl : send = sendClocks := hsend
  subst htaken
  refine ⟨fun own hporst hown => ⟨fun bytes last f hlast => ?write, fun count hcount => ?read⟩,
      fun byte levels hother => ?other⟩
  case write =>
    have hbit : own.getLsbD 0 = false := by
      rw [getLsbD_zero_eq]
      exact decide_eq_false (by omega)
    exact State.linkRun_write hwriting hacking ((s.linkAnswers_iff own).2 ⟨hporst, by omega⟩) hbit bytes hlast
  case read =>
    have hnext : (own + 1).toNat = own.toNat + 1 := by
      have hstraps := s.link.straps.isLt
      rw [BitVec.toNat_add]
      exact Nat.mod_eq_of_lt (by simp; omega)
    have hbit : (own + 1).getLsbD 0 = true := by
      rw [getLsbD_zero_eq]
      exact decide_eq_true (by omega)
    exact ⟨_, State.linkRun_read hporst hwriting hacking ((s.linkAnswers_iff (own + 1)).2 ⟨hporst, by omega⟩) hbit hcount⟩
  case other =>
    refine State.linkRun_other hwriting hacking (Bool.eq_false_iff.2 fun hown => ?_) levels
    obtain ⟨hporst, hnumber⟩ := (s.linkAnswers_iff byte).1 hown
    rcases hother with h | h
    · rw [h] at hporst
      cases hporst
    · exact h hnumber

end Sys2Proof.Machine
end
